-- ==== Sys2Proof/Word.lean ====
section
/-!
DEFINITION. The plain words of MKBUS-FC (spec/00_scope.md R15, R16; spec/10_state.md R20): every quantity is
unsigned, a byte has eight bits, the timer has 32.
-/

namespace Sys2Proof

/-- A byte (R15): bit 7 is the most significant. -/
abbrev Byte := BitVec 8

/-- A checksum value. The spec gives it `8*CK_W` bits with CK_W 1 or 2; the model holds it in 16 and keeps the
upper eight at zero when CK_W is 1 (log 6). -/
abbrev Ck := BitVec 16

/-- A value of the millisecond timer or a timeout, 32 bits (R10, R261). -/
abbrev Time := BitVec 32

end Sys2Proof
end

