-- ==== Sys2Proof/Config.lean ====
section
/-!
DEFINITION. What a deployment fixes (spec/00_scope.md R8 to R11) and the free values of the model. The configuration is
plain data; the two named profiles and the default configuration are in Machine/Params.lean.
-/

namespace Sys2Proof

/-- The node's role (R3, `ROLE`). -/
inductive Role where
  | master
  | endpoint
deriving DecidableEq, Repr, Inhabited

/-- One item of a header (R9 `HDR_LAYOUT`, R86). The three addresses take ADDR_W bytes each, the others one.
The body-length byte is no item: where LEN_W is 1 it is the last header byte (R165, log 9). -/
inductive HdrItem where
  | code
  | fromAddr
  | toAddr
  | addr
  | opcode
deriving DecidableEq, Repr, Inhabited

/-- What the checksum covers (R9 `CK_COVER`, R126). -/
inductive Cover where
  | headerBody
  | bodyOnly
deriving DecidableEq, Repr, Inhabited

/-- The checksum algorithm (R120 `CK_ALGO`): CRC8 (R122), CRC16 (R123), SUM8 (R135), or any other of width 1 or 2,
of which nothing is known (D10, U7, log 7). -/
inductive CkAlgo where
  | crc8
  | crc16
  | sum8
  | other8 (id : Nat)
  | other16 (id : Nat)
deriving DecidableEq, Repr, Inhabited

/-- A profile (R9). HDR_LEN follows from the items, ADDR_W and LEN_W; CK_W is the algorithm's (log 8, 9). -/
structure Profile where
  /-- HDR_LAYOUT: the header's items in wire order, the body-length byte left out. -/
  layout : List HdrItem
  /-- ADDR_W: bytes in one BusAddress. -/
  addrW : Nat
  /-- LEN_W: is there a (one-byte) body-length field. -/
  lenW : Bool
  /-- CK_ALGO. -/
  algo : CkAlgo
  /-- CK_COVER. -/
  cover : Cover
deriving DecidableEq, Repr, Inhabited

/-- The profile and the parameters of R10. -/
structure Config where
  profile : Profile
  /-- START_DELIM. -/
  startDelim : Byte
  /-- END_DELIM. -/
  endDelim : Byte
  /-- GUARD_BYTE. -/
  guardByte : Byte
  /-- GUARD_LEN. -/
  guardLen : Nat
  /-- MAX_BODY. -/
  maxBody : Nat
  /-- RX_TIMEOUT, milliseconds. -/
  rxTimeout : Time
  /-- QUERY_TIMEOUT, milliseconds. -/
  queryTimeout : Time
  /-- CK_SEED. -/
  ckSeed : Ck
  /-- NODE_ADDR (R11): no rule of the block reads it. -/
  nodeAddr : List Byte
  /-- ROLE. -/
  role : Role
  /-- BAUD: passed to LineBegin, no rule reads it. -/
  baud : BitVec 32
deriving DecidableEq, Repr, Inhabited

/-- FREE VALUE (log 16): a byte of `hdr` after EP.RESET, which R179 calls unspecified. -/
opaque Config.freeByte : Nat → Byte

/-- FREE VALUE (log 17): `t0` after a step that waited, which R42 calls unspecified. -/
opaque Config.freeTime : Nat → Time

/-- UNINTERPRETED (log 7): the update of a checksum algorithm the spec does not name (U7). -/
opaque Config.otherUpd : Nat → Ck → Byte → Ck

/-- UNINTERPRETED (log 7): the value whose bytes such an algorithm emits. -/
opaque Config.otherEmit : Nat → Ck → Ck

end Sys2Proof
end

