-- ==== Sys2Proof/Machine/Params.lean ====
section
/-!
DEFINITION. Sizes that follow from the configuration, the named profiles, the default configuration and the
constraints of spec/00_scope.md R9 and R10.
-/

namespace Sys2Proof

/-- Bytes of one header item: ADDR_W for an address, else 1 (R9). -/
def HdrItem.width (addrW : Nat) : HdrItem → Nat
  | .code => 1
  | .fromAddr => addrW
  | .toAddr => addrW
  | .addr => addrW
  | .opcode => 1

/-- CK_W of an algorithm (R120). -/
def CkAlgo.width : CkAlgo → Nat
  | .crc8 => 1
  | .crc16 => 2
  | .sum8 => 1
  | .other8 _ => 1
  | .other16 _ => 2

/-- LEN_W as a number (R9). -/
def Config.lenBytes (cfg : Config) : Nat := if cfg.profile.lenW then 1 else 0

/-- Header bytes without the body-length byte: what the `fields` operand of a command carries (R141). -/
def Config.fieldLen (cfg : Config) : Nat :=
  (cfg.profile.layout.map (HdrItem.width cfg.profile.addrW)).sum

/-- HDR_LEN (R9). -/
def Config.hdrLen (cfg : Config) : Nat := cfg.fieldLen + cfg.lenBytes

/-- CK_W (R9, R120). -/
def Config.ckW (cfg : Config) : Nat := cfg.profile.algo.width

/-- BUF_CAP = HDR_LEN + MAX_BODY + CK_W (R10, R37). -/
def Config.bufCap (cfg : Config) : Nat := cfg.hdrLen + cfg.maxBody + cfg.ckW

/-- A checksum value fits the `8*CK_W` bits of the configured width (R133). -/
def Config.ckFits (cfg : Config) (c : Ck) : Bool := decide (c.toNat < 2 ^ (8 * cfg.ckW))

/-- Profile A (R9): code, from, to; one-byte addresses, no length field, CRC8 over header and body. -/
def Profile.a : Profile :=
  { layout := [.code, .fromAddr, .toAddr], addrW := 1, lenW := false, algo := .crc8, cover := .headerBody }

/-- Profile B (R9): a two-byte address, opcode, body length; CRC16 over the body. -/
def Profile.b : Profile :=
  { layout := [.addr, .opcode], addrW := 2, lenW := true, algo := .crc16, cover := .bodyOnly }

/-- Profile B/HB (R9): B with the header covered too. -/
def Profile.bhb : Profile := { Profile.b with cover := .headerBody }

/-- The constraints of R9 and R10 (and no header item twice, log 9). -/
def Config.ok (cfg : Config) : Bool :=
  decide (cfg.startDelim ≠ cfg.endDelim) && decide (cfg.startDelim ≠ cfg.guardByte) &&
  (!cfg.profile.lenW || decide (cfg.maxBody ≤ 255)) && decide (1 ≤ cfg.hdrLen) &&
  decide (0 < cfg.rxTimeout.toNat) && decide (0 < cfg.queryTimeout.toNat) &&
  cfg.ckFits cfg.ckSeed && decide (cfg.nodeAddr.length = cfg.profile.addrW) &&
  decide cfg.profile.layout.Nodup

/-- A profile with the defaults of R10; ROLE, NODE_ADDR and BAUD are OPEN there (log 5). -/
def Config.of (role : Role) (p : Profile) (nodeAddr : List Byte) : Config :=
  { profile := p, startDelim := 0x02, endDelim := 0x03, guardByte := 0x00, guardLen := 4, maxBody := 32,
    rxTimeout := 1000, queryTimeout := 1000, ckSeed := 0, nodeAddr := nodeAddr, role := role, baud := 9600 }

/-- The configuration State.reset takes: an endpoint of profile A (log 5). -/
def Config.standard : Config := Config.of .endpoint Profile.a [0x20]

end Sys2Proof
end

