-- ==== Sys2Proof/Machine/Crc.lean ====
section
/-!
DEFINITION. The checksum algorithms of spec/40_checksum.md: update and emit of CRC8 (R122), CRC16 (R123), SUM8 (R135)
and of an algorithm the spec does not name (U7, log 7); fold (R120, R121) and the checksum of a frame (R126).
-/

namespace Sys2Proof

/-- One of CRC8's eight shifts (R122). -/
def crc8Shift (c : BitVec 8) : BitVec 8 := if c.msb then (c <<< 1) ^^^ 0x07 else c <<< 1

/-- `upd8` (R122). -/
def upd8 (c : BitVec 8) (b : Byte) : BitVec 8 := Nat.repeat crc8Shift 8 (c ^^^ b)

/-- One of CRC16's eight shifts (R123). -/
def crc16Shift (c : BitVec 16) : BitVec 16 := if c.msb then (c <<< 1) ^^^ 0x1021 else c <<< 1

/-- `upd16` (R123). -/
def upd16 (c : BitVec 16) (b : Byte) : BitVec 16 := Nat.repeat crc16Shift 8 (c ^^^ (b.setWidth 16 <<< 8))

/-- The low byte of a checksum value, the rest cleared: a value of width 1 (R133). -/
def lowByte (c : Ck) : Ck := (c.setWidth 8).setWidth 16

/-- `upd(c, b)` of an algorithm (R120). -/
def CkAlgo.upd (a : CkAlgo) (c : Ck) (b : Byte) : Ck :=
  match a with
  | .crc8 => (upd8 (c.setWidth 8) b).setWidth 16
  | .crc16 => upd16 c b
  | .sum8 => ((c.setWidth 8) + b).setWidth 16
  | .other8 id => lowByte (Config.otherUpd id c b)
  | .other16 id => Config.otherUpd id c b

/-- The value whose bytes `emit(c)` sends: c itself for the CRCs (R124), its negative for SUM8 (R135). -/
def CkAlgo.emitValue (a : CkAlgo) (c : Ck) : Ck :=
  match a with
  | .crc8 => c
  | .crc16 => c
  | .sum8 => (-(c.setWidth 8)).setWidth 16
  | .other8 id => lowByte (Config.otherEmit id c)
  | .other16 id => Config.otherEmit id c

/-- `emit(c)` in wire order: one byte, or the high byte then the low byte (R67, R88, R124). -/
def CkAlgo.emit (a : CkAlgo) (c : Ck) : List Byte :=
  match a.width with
  | 1 => [(a.emitValue c).setWidth 8]
  | _ => [((a.emitValue c) >>> 8).setWidth 8, (a.emitValue c).setWidth 8]

/-- `fold(c, s)` (R120). -/
def CkAlgo.fold (a : CkAlgo) (c : Ck) (s : List Byte) : Ck := s.foldl a.upd c

/-- The configured `upd`. -/
def Config.upd (cfg : Config) (c : Ck) (b : Byte) : Ck := cfg.profile.algo.upd c b

/-- The configured `fold`. -/
def Config.fold (cfg : Config) (c : Ck) (s : List Byte) : Ck := cfg.profile.algo.fold c s

/-- The configured `emit`. -/
def Config.emit (cfg : Config) (c : Ck) : List Byte := cfg.profile.algo.emit c

/-- `cover(H, body)` (R126). -/
def Config.coverOf (cfg : Config) (h body : List Byte) : List Byte :=
  match cfg.profile.cover with
  | .headerBody => h ++ body
  | .bodyOnly => body

/-- The checksum of a frame (R126). -/
def Config.frameCk (cfg : Config) (h body : List Byte) : Ck := cfg.fold cfg.ckSeed (cfg.coverOf h body)

/-- A header byte updates the receiver's checksum only under HeaderBody (R164, R165). -/
def Config.headerUpd (cfg : Config) (c : Ck) (b : Byte) : Ck :=
  match cfg.profile.cover with
  | .headerBody => cfg.upd c b
  | .bodyOnly => c

/-- The neutrality law (R120) for every running value of the algorithm's width: the contract an algorithm must meet. -/
def CkAlgo.Neutral (a : CkAlgo) : Prop :=
  ∀ c : Ck, c.toNat < 2 ^ (8 * a.width) → a.fold c (a.emit c) = 0

end Sys2Proof
end

