-- ==== Sys2Proof/Syntax.lean ====
section
/-!
DEFINITION. The instructions: one constructor per row of spec/opcode_table.json (49 rows). Operands are as the rules
name them. A `fields` operand is the header's field bytes in wire order, the body length left out (R141: code, from, to
in profile A; addr[0], addr[1], opcode in profile B).
-/

namespace Sys2Proof

/-- The commands of the host (spec/30_encoding.md R100), the eleven cases of EP.POLL, the reserved codes (R105), and
what arrives on the line: byte classes (R101), frames (R81, R82), the INFO opcode byte (R103). -/
inductive Instr where
  /-- NOP, 0x00, R104. -/
  | nop
  /-- CK.INIT, 0x01, R127. -/
  | ckInit
  /-- CK.UPDATE b, 0x02, R128. -/
  | ckUpdate (b : Byte)
  /-- CK.BLOCK bytes, length, seed, 0x03, R129. -/
  | ckBlock (bytes : List Byte) (length : BitVec 32) (seed : Ck)
  /-- CK.EMIT, 0x04, R130. -/
  | ckEmit
  /-- CK.CHECK, 0x05, R131. -/
  | ckCheck
  /-- HDR.PACK fields, n, 0x06, R141. -/
  | hdrPack (fields : List Byte) (n : Byte)
  /-- HDR.UNPACK H, 0x07, R142. -/
  | hdrUnpack (h : List Byte)
  /-- ENCODE fields, body, 0x08, R143. -/
  | encode (fields : List Byte) (body : List Byte)
  /-- VALIDATE s, 0x09, R147. -/
  | validate (bytes : List Byte)
  /-- EP.LISTEN, 0x0B, R175. -/
  | epListen
  /-- EP.DONE, 0x0C, R176. -/
  | epDone
  /-- EP.REPLY fields, body, pause, 0x0D, R177. -/
  | epReply (fields : List Byte) (body : List Byte) (pause : Bool)
  /-- EP.FAULT, 0x0E, R178. -/
  | epFault
  /-- EP.RESET, 0x0F, R179. -/
  | epReset
  /-- DIR.TX, 0x10, R200. -/
  | dirTx
  /-- DIR.RX, 0x11, R201. -/
  | dirRx
  /-- SEND bytes, pause, 0x12, R202. -/
  | send (bytes : List Byte) (pause : Bool)
  /-- M.BEGIN rate, 0x13, R220. -/
  | mBegin (rate : BitVec 32)
  /-- M.RAWSEND bytes, pause, 0x14, R221. -/
  | mRawSend (bytes : List Byte) (pause : Bool)
  /-- M.RAWQUERY bytes, pause, 0x15, R222. -/
  | mRawQuery (bytes : List Byte) (pause : Bool)
  /-- M.QUERY ready, fields, body, pause, 0x16, R232. -/
  | mQuery (ready : Bool) (fields : List Byte) (body : List Byte) (pause : Bool)
  /-- EP.POLL, 0x0A, in Idle with no byte or a byte of class OTHER, R162. -/
  | epPollIdleOther
  /-- EP.POLL, 0x0A, in Idle with a byte of class START, R163. -/
  | epPollIdleStart
  /-- EP.POLL, 0x0A, in ReceivingHeader, not the last header byte, R164. -/
  | epPollHeaderNotLast
  /-- EP.POLL, 0x0A, in ReceivingHeader, last header byte, length acceptable, R165. -/
  | epPollHeaderLastOk
  /-- EP.POLL, 0x0A, in ReceivingHeader, last header byte, length too large, R166. -/
  | epPollHeaderLastOversize
  /-- EP.POLL, 0x0A, in ReceivingHeader or ReceivingBody with no byte, R167. -/
  | epPollReceivingNone
  /-- EP.POLL, 0x0A, in ReceivingBody, DATA with the buffer full, R169. -/
  | epPollBodyFull
  /-- EP.POLL, 0x0A, in ReceivingBody, DATA with room left, R170. -/
  | epPollBodyRoom
  /-- EP.POLL, 0x0A, in ReceivingBody, END of a valid frame, R171. -/
  | epPollBodyEndValid
  /-- EP.POLL, 0x0A, in ReceivingBody, END of a frame that is not valid, R172. -/
  | epPollBodyEndInvalid
  /-- EP.POLL, 0x0A, in Busy, Transmitting or Error, R174. -/
  | epPollIgnored
  /-- Reserved code 0x17, R105. -/
  | reserved17
  /-- Reserved code 0x18, R105. -/
  | reserved18
  /-- Reserved code 0x19, R105. -/
  | reserved19
  /-- Reserved code 0x1A, R105. -/
  | reserved1A
  /-- Reserved code 0x1B, R105. -/
  | reserved1B
  /-- Reserved code 0x1C, R105. -/
  | reserved1C
  /-- Reserved code 0x1D, R105. -/
  | reserved1D
  /-- Reserved code 0x1E, R105. -/
  | reserved1E
  /-- Reserved code 0x1F, R105. -/
  | reserved1F
  /-- The byte START_DELIM arrives on the line, R101. -/
  | byteStart
  /-- The byte END_DELIM arrives on the line, R101. -/
  | byteEnd
  /-- A data byte arrives on the line, R101. -/
  | byteData (d : Byte)
  /-- A byte of class OTHER arrives on the line, R101. -/
  | byteOther (d : Byte)
  /-- A frame of profile A arrives on the line, R81. -/
  | frameA (code fromAddr toAddr : Byte) (body : List Byte)
  /-- A frame of profile B arrives on the line, R82. -/
  | frameB (addr0 addr1 opcode : Byte) (body : List Byte)
  /-- The opcode byte 0x01 (INFO) arrives on the line, R103. -/
  | opcodeInfo
deriving DecidableEq, Repr

end Sys2Proof
end

