-- ==== Sys2Proof/WellFormed.lean ====
section
/-!
DEFINITION. Which operands a rule gives a meaning, in a configuration: the operand domains of spec/40_checksum.md R129,
spec/41_encoder.md R141, R142 and R143, spec/42_receiver.md R177, spec/44_master_query.md R232 and
spec/30_encoding.md R82.
-/

namespace Sys2Proof

/-- The `fields` operand has the header's field bytes (R141). -/
def Config.fieldsFit (cfg : Config) (fields : List Byte) : Bool := decide (fields.length = cfg.fieldLen)

/-- CK.BLOCK's operands (R129): 0 <= length <= len(bytes), a seed of `8*CK_W` bits. -/
def Config.blockFits (cfg : Config) (bytes : List Byte) (length : BitVec 32) (seed : Ck) : Bool :=
  decide (length.toNat ≤ bytes.length) && cfg.ckFits seed

/-- The operand domain of every instruction. -/
def WellFormed (cfg : Config) : Instr → Bool
  | .nop => true
  | .ckInit => true
  | .ckUpdate _ => true
  | .ckBlock bytes length seed => cfg.blockFits bytes length seed
  | .ckEmit => true
  | .ckCheck => true
  | .hdrPack fields _ => cfg.fieldsFit fields
  | .hdrUnpack h => decide (h.length = cfg.hdrLen)
  | .encode fields _ => cfg.fieldsFit fields
  | .validate _ => true
  | .epListen => true
  | .epDone => true
  | .epReply fields _ _ => cfg.fieldsFit fields
  | .epFault => true
  | .epReset => true
  | .dirTx => true
  | .dirRx => true
  | .send _ _ => true
  | .mBegin _ => true
  | .mRawSend _ _ => true
  | .mRawQuery _ _ => true
  | .mQuery _ fields _ _ => cfg.fieldsFit fields
  | .epPollIdleOther => true
  | .epPollIdleStart => true
  | .epPollHeaderNotLast => true
  | .epPollHeaderLastOk => true
  | .epPollHeaderLastOversize => true
  | .epPollReceivingNone => true
  | .epPollBodyFull => true
  | .epPollBodyRoom => true
  | .epPollBodyEndValid => true
  | .epPollBodyEndInvalid => true
  | .epPollIgnored => true
  | .reserved17 => true
  | .reserved18 => true
  | .reserved19 => true
  | .reserved1A => true
  | .reserved1B => true
  | .reserved1C => true
  | .reserved1D => true
  | .reserved1E => true
  | .reserved1F => true
  | .byteStart => true
  | .byteEnd => true
  | .byteData _ => true
  | .byteOther _ => true
  | .frameA _ _ _ _ => true
  | .frameB _ _ _ body => decide (body.length ≤ 255)
  | .opcodeInfo => true

end Sys2Proof
end

