-- ==== Sys2Proof/Decode.lean ====
section
/-!
DEFINITION. The decoder and the encoder of the command port. The 5-bit command codes are those of spec/30_encoding.md
R100 and spec/opcode_table.json; how operands follow the code byte, and how what arrives on the line is written on the
same port (bits 7:5 of the first byte = 001), is the model's (log 11, 12, 30).
-/

namespace Sys2Proof

/-- Why bytes on the port are no command. -/
inductive DecodeError where
  /-- The port holds no byte. -/
  | noBytes
  /-- The port ends inside an operand. -/
  | truncated
  /-- The first byte is neither a 5-bit command code nor a line arrival. -/
  | unknownFirstByte
  /-- A 1-bit operand's byte is neither 0 nor 1. -/
  | badBit
  /-- A byte sequence is continued by neither 0 nor 1. -/
  | badSequence
  /-- The operands lie outside the rule's domain. -/
  | illFormed
deriving DecidableEq, Repr

/-- What a field decoder answers: the value and the bytes after it. -/
abbrev Parsed (α : Type) := Except DecodeError (α × List Byte)

/-- One operand byte. -/
def takeByteOperand : List Byte → Parsed Byte
  | [] => .error .truncated
  | b :: rest => .ok (b, rest)

/-- A 1-bit operand. -/
def takeBit : List Byte → Parsed Bool
  | [] => .error .truncated
  | b :: rest => if b = 0 then .ok (false, rest) else if b = 1 then .ok (true, rest) else .error .badBit

/-- Exactly n operand bytes. -/
def takeExact : Nat → List Byte → Parsed (List Byte)
  | 0, bs => .ok ([], bs)
  | _ + 1, [] => .error .truncated
  | n + 1, b :: bs =>
    match takeExact n bs with
    | .ok (xs, rest) => .ok (b :: xs, rest)
    | .error e => .error e

/-- A byte sequence: 1 and a byte for each element, then 0. -/
def takeSeq : List Byte → Parsed (List Byte)
  | [] => .error .truncated
  | [m] => if m = 0 then .ok ([], []) else .error .truncated
  | m :: b :: rest =>
    if m = 0 then .ok ([], b :: rest)
    else if m = 1 then
      match takeSeq rest with
      | .ok (xs, r) => .ok (b :: xs, r)
      | .error e => .error e
    else .error .badSequence

/-- The bytes as one number, the first byte highest. -/
def bigEndian : List Byte → Nat
  | [] => 0
  | b :: bs => b.toNat * 256 ^ bs.length + bigEndian bs

/-- A 32-bit operand, high byte first. -/
def take32 (bs : List Byte) : Parsed (BitVec 32) :=
  match takeExact 4 bs with
  | .ok (xs, rest) => .ok (BitVec.ofNat 32 (bigEndian xs), rest)
  | .error e => .error e

/-- A checksum operand: CK_W bytes, high byte first. -/
def takeCk (cfg : Config) (bs : List Byte) : Parsed Ck :=
  match takeExact cfg.ckW bs with
  | .ok (xs, rest) => .ok (BitVec.ofNat 16 (bigEndian xs), rest)
  | .error e => .error e

/-- One operand after another. -/
def andThen {α β : Type} (p : Parsed α) (k : α → List Byte → Parsed β) : Parsed β :=
  match p with
  | .ok (a, rest) => k a rest
  | .error e => .error e

/-- Nothing but the code byte. -/
def plain (i : Instr) (bs : List Byte) : Parsed Instr := .ok (i, bs)

/-- Code 0x03, CK.BLOCK. -/
def decodeBlock (cfg : Config) (bs : List Byte) : Parsed Instr :=
  andThen (takeSeq bs) fun bytes r1 =>
  andThen (take32 r1) fun length r2 =>
  andThen (takeCk cfg r2) fun seed r3 =>
  .ok (.ckBlock bytes length seed, r3)

/-- Operands: header fields and a byte. -/
def decodePack (cfg : Config) (bs : List Byte) : Parsed Instr :=
  andThen (takeExact cfg.fieldLen bs) fun fields r1 =>
  andThen (takeByteOperand r1) fun n r2 =>
  .ok (.hdrPack fields n, r2)

/-- Operands: HDR_LEN bytes. -/
def decodeUnpack (cfg : Config) (bs : List Byte) : Parsed Instr :=
  andThen (takeExact cfg.hdrLen bs) fun h r =>
  .ok (.hdrUnpack h, r)

/-- Operands: header fields and a body. -/
def decodeEncode (cfg : Config) (bs : List Byte) : Parsed Instr :=
  andThen (takeExact cfg.fieldLen bs) fun fields r1 =>
  andThen (takeSeq r1) fun body r2 =>
  .ok (.encode fields body, r2)

/-- Operands: header fields, a body, pause. -/
def decodeReply (cfg : Config) (bs : List Byte) : Parsed Instr :=
  andThen (takeExact cfg.fieldLen bs) fun fields r1 =>
  andThen (takeSeq r1) fun body r2 =>
  andThen (takeBit r2) fun pause r3 =>
  .ok (.epReply fields body pause, r3)

/-- Operands: bytes and pause, for SEND, M.RAWSEND and M.RAWQUERY. -/
def decodeSend (make : List Byte → Bool → Instr) (bs : List Byte) : Parsed Instr :=
  andThen (takeSeq bs) fun bytes r1 =>
  andThen (takeBit r1) fun pause r2 =>
  .ok (make bytes pause, r2)

/-- Operands: ready, header fields, a body, pause. -/
def decodeQuery (cfg : Config) (bs : List Byte) : Parsed Instr :=
  andThen (takeBit bs) fun ready r1 =>
  andThen (takeExact cfg.fieldLen r1) fun fields r2 =>
  andThen (takeSeq r2) fun body r3 =>
  andThen (takeBit r3) fun pause r4 =>
  .ok (.mQuery ready fields body pause, r4)

/-- Operands: one byte. -/
def decodeOneByte (make : Byte → Instr) (bs : List Byte) : Parsed Instr :=
  andThen (takeByteOperand bs) fun b r =>
  .ok (make b, r)

/-- Operands: a byte sequence. -/
def decodeValidate (bs : List Byte) : Parsed Instr :=
  andThen (takeSeq bs) fun s r =>
  .ok (.validate s, r)

/-- Operands: the line rate. -/
def decodeBegin (bs : List Byte) : Parsed Instr :=
  andThen (take32 bs) fun rate r =>
  .ok (.mBegin rate, r)

/-- Operands: three header bytes and a body, for the frames of both profiles. -/
def decodeFrame (make : Byte → Byte → Byte → List Byte → Instr) (bs : List Byte) : Parsed Instr :=
  andThen (takeByteOperand bs) fun x r1 =>
  andThen (takeByteOperand r1) fun y r2 =>
  andThen (takeByteOperand r2) fun z r3 =>
  andThen (takeSeq r3) fun body r4 =>
  .ok (make x y z body, r4)

/-- The operands after first byte `c` (R100). EP.POLL's eleven rows share 0x0A: the decoder names the first of them
and the step picks the one R160 selects (log 13). -/
def decodeAfter (cfg : Config) (c : Nat) (bs : List Byte) : Parsed Instr :=
  match c with
  | 0x00 => plain .nop bs
  | 0x01 => plain .ckInit bs
  | 0x02 => decodeOneByte .ckUpdate bs
  | 0x03 => decodeBlock cfg bs
  | 0x04 => plain .ckEmit bs
  | 0x05 => plain .ckCheck bs
  | 0x06 => decodePack cfg bs
  | 0x07 => decodeUnpack cfg bs
  | 0x08 => decodeEncode cfg bs
  | 0x09 => decodeValidate bs
  | 0x0A => plain .epPollIdleOther bs
  | 0x0B => plain .epListen bs
  | 0x0C => plain .epDone bs
  | 0x0D => decodeReply cfg bs
  | 0x0E => plain .epFault bs
  | 0x0F => plain .epReset bs
  | 0x10 => plain .dirTx bs
  | 0x11 => plain .dirRx bs
  | 0x12 => decodeSend .send bs
  | 0x13 => decodeBegin bs
  | 0x14 => decodeSend .mRawSend bs
  | 0x15 => decodeSend .mRawQuery bs
  | 0x16 => decodeQuery cfg bs
  | 0x17 => plain .reserved17 bs
  | 0x18 => plain .reserved18 bs
  | 0x19 => plain .reserved19 bs
  | 0x1A => plain .reserved1A bs
  | 0x1B => plain .reserved1B bs
  | 0x1C => plain .reserved1C bs
  | 0x1D => plain .reserved1D bs
  | 0x1E => plain .reserved1E bs
  | 0x1F => plain .reserved1F bs
  | 0x20 => plain .byteStart bs
  | 0x21 => plain .byteEnd bs
  | 0x22 => decodeOneByte .byteData bs
  | 0x23 => decodeOneByte .byteOther bs
  | 0x24 => decodeFrame .frameA bs
  | 0x25 => decodeFrame .frameB bs
  | 0x26 => plain .opcodeInfo bs
  | _ => .error .unknownFirstByte

/-- The instruction at the head of the port and the bytes after it. Operands outside the rule's domain are refused. -/
def decode (cfg : Config) : List Byte → Parsed Instr
  | [] => .error .noBytes
  | b :: bs =>
    match decodeAfter cfg b.toNat bs with
    | .ok (i, rest) => if WellFormed cfg i then .ok (i, rest) else .error .illFormed
    | .error e => .error e

/-- A byte sequence on the port. -/
def putSeq : List Byte → List Byte
  | [] => [0]
  | b :: bs => 1 :: b :: putSeq bs

/-- A 1-bit operand on the port. -/
def putBit (b : Bool) : Byte := if b then 1 else 0

/-- The low n bytes of a number, the highest first. -/
def putBig : Nat → Nat → List Byte
  | 0, _ => []
  | n + 1, v => BitVec.ofNat 8 (v / 256 ^ n) :: putBig n v

/-- The command code of R100, or the first byte of a line arrival. -/
def opcodeByte : Instr → Byte
  | .nop => 0x00
  | .ckInit => 0x01
  | .ckUpdate _ => 0x02
  | .ckBlock _ _ _ => 0x03
  | .ckEmit => 0x04
  | .ckCheck => 0x05
  | .hdrPack _ _ => 0x06
  | .hdrUnpack _ => 0x07
  | .encode _ _ => 0x08
  | .validate _ => 0x09
  | .epPollIdleOther => 0x0A
  | .epPollIdleStart => 0x0A
  | .epPollHeaderNotLast => 0x0A
  | .epPollHeaderLastOk => 0x0A
  | .epPollHeaderLastOversize => 0x0A
  | .epPollReceivingNone => 0x0A
  | .epPollBodyFull => 0x0A
  | .epPollBodyRoom => 0x0A
  | .epPollBodyEndValid => 0x0A
  | .epPollBodyEndInvalid => 0x0A
  | .epPollIgnored => 0x0A
  | .epListen => 0x0B
  | .epDone => 0x0C
  | .epReply _ _ _ => 0x0D
  | .epFault => 0x0E
  | .epReset => 0x0F
  | .dirTx => 0x10
  | .dirRx => 0x11
  | .send _ _ => 0x12
  | .mBegin _ => 0x13
  | .mRawSend _ _ => 0x14
  | .mRawQuery _ _ => 0x15
  | .mQuery _ _ _ _ => 0x16
  | .reserved17 => 0x17
  | .reserved18 => 0x18
  | .reserved19 => 0x19
  | .reserved1A => 0x1A
  | .reserved1B => 0x1B
  | .reserved1C => 0x1C
  | .reserved1D => 0x1D
  | .reserved1E => 0x1E
  | .reserved1F => 0x1F
  | .byteStart => 0x20
  | .byteEnd => 0x21
  | .byteData _ => 0x22
  | .byteOther _ => 0x23
  | .frameA _ _ _ _ => 0x24
  | .frameB _ _ _ _ => 0x25
  | .opcodeInfo => 0x26

/-- The operand bytes of an instruction. -/
def putOperands (cfg : Config) : Instr → List Byte
  | .nop => []
  | .ckInit => []
  | .ckUpdate b => [b]
  | .ckBlock bytes length seed => putSeq bytes ++ putBig 4 length.toNat ++ putBig cfg.ckW seed.toNat
  | .ckEmit => []
  | .ckCheck => []
  | .hdrPack fields n => fields ++ [n]
  | .hdrUnpack h => h
  | .encode fields body => fields ++ putSeq body
  | .validate bytes => putSeq bytes
  | .epPollIdleOther => []
  | .epPollIdleStart => []
  | .epPollHeaderNotLast => []
  | .epPollHeaderLastOk => []
  | .epPollHeaderLastOversize => []
  | .epPollReceivingNone => []
  | .epPollBodyFull => []
  | .epPollBodyRoom => []
  | .epPollBodyEndValid => []
  | .epPollBodyEndInvalid => []
  | .epPollIgnored => []
  | .epListen => []
  | .epDone => []
  | .epReply fields body pause => fields ++ putSeq body ++ [putBit pause]
  | .epFault => []
  | .epReset => []
  | .dirTx => []
  | .dirRx => []
  | .send bytes pause => putSeq bytes ++ [putBit pause]
  | .mBegin rate => putBig 4 rate.toNat
  | .mRawSend bytes pause => putSeq bytes ++ [putBit pause]
  | .mRawQuery bytes pause => putSeq bytes ++ [putBit pause]
  | .mQuery ready fields body pause => putBit ready :: (fields ++ putSeq body ++ [putBit pause])
  | .reserved17 => []
  | .reserved18 => []
  | .reserved19 => []
  | .reserved1A => []
  | .reserved1B => []
  | .reserved1C => []
  | .reserved1D => []
  | .reserved1E => []
  | .reserved1F => []
  | .byteStart => []
  | .byteEnd => []
  | .byteData d => [d]
  | .byteOther d => [d]
  | .frameA code fromAddr toAddr body => [code, fromAddr, toAddr] ++ putSeq body
  | .frameB addr0 addr1 opcode body => [addr0, addr1, opcode] ++ putSeq body
  | .opcodeInfo => []

/-- The bytes of an instruction on the port. -/
def encode (cfg : Config) (i : Instr) : List Byte := opcodeByte i :: putOperands cfg i

/-- The constructor the decoder answers for the words of `i`: EP.POLL's eleven rows have one word (log 13). -/
def canonical (i : Instr) : Instr := if opcodeByte i = 0x0A then .epPollIdleOther else i

/-- The bytes of an opcode-table word of `nbits` bits, bit 0 the least significant bit of the first byte. -/
def tableBytes (nbits w : Nat) : List Byte :=
  (List.range ((nbits + 7) / 8)).map fun k => BitVec.ofNat 8 (w / 256 ^ k)

/-- A table word followed by operand bytes of zeros, as many as any command without sequences takes. -/
def tableWordBytes (cfg : Config) (nbits w : Nat) : List Byte :=
  tableBytes nbits w ++ List.replicate (cfg.hdrLen + 16) 0

/-- The bytes of a table word's instruction, without the zeros it does not take. -/
def fetchBytes (cfg : Config) (nbits w : Nat) : List Byte :=
  let bytes := tableWordBytes cfg nbits w
  match decode cfg bytes with
  | .ok (_, rest) => bytes.take (bytes.length - rest.length)
  | .error _ => bytes

/-- The instruction the decoder reads from a table word, in the standard configuration. -/
def decodeTableWord (nbits w : Nat) : Option Instr :=
  match decode Config.standard (tableWordBytes Config.standard nbits w) with
  | .ok (i, _) => some i
  | .error _ => none

end Sys2Proof
end

