-- ==== Sys2Proof/Machine/State.lean ====
section
/-!
DEFINITION. The state of one instance (spec/10_state.md R20), the environment's answers as plain data
(spec/00_scope.md R14, R17), the results a step returns (R43), the reasons a step can stop, and reset
(spec/70_reset_and_hazards.md R280, R281).
-/

namespace Sys2Proof.Machine

/-- The line direction (R30). -/
inductive Dir where
  | rx
  | tx
deriving DecidableEq, Repr, Inhabited

/-- EndpointState (R22). -/
inductive EpState where
  | idle
  | receivingHeader
  | receivingBody
  | busy
  | transmitting
  | error
deriving DecidableEq, Repr, Inhabited

/-- MasterState (R24). -/
inductive MState where
  | setup
  | idle
  | transmitting
  | awaitingResponse
  | receiving
  | processing
deriving DecidableEq, Repr, Inhabited

/-- A buffer: the bytes written so far by index, indices strictly rising; an index not listed has no value (R38, R44,
log 18). -/
abbrev Mem := List Host.Cell

/-- A decoded header (R29): the fields of whichever items the profile's layout has; a field the layout lacks stays
empty or zero. -/
structure Header where
  code : Byte
  fromAddr : List Byte
  toAddr : List Byte
  addr : List Byte
  opcode : Byte
  bodyLen : Byte
deriving DecidableEq, Repr, Inhabited

/-- The header with every field empty or zero: what HDR.UNPACK fills in (R142). -/
def Header.zero : Header := { code := 0, fromAddr := [], toAddr := [], addr := [], opcode := 0, bodyLen := 0 }

/-- The receiver's registers (R20): `ep_state`, `rx_ck`, `rx_cnt`, `RXBUF`, `hdr`, `ep_status`. -/
structure Receiver where
  /-- `ep_state`. -/
  epState : EpState
  /-- `rx_ck`. -/
  rxCk : Ck
  /-- `rx_cnt`. -/
  rxCnt : Nat
  /-- `RXBUF`. -/
  rxbuf : Mem
  /-- `hdr`. -/
  hdr : Header
  /-- The model's own: `hdr` holds a decoded header (R44: until then reading it faults, log 15). -/
  hdrSet : Bool
  /-- `ep_status`. -/
  epStatus : Byte
deriving DecidableEq, Repr, Inhabited

/-- The master's registers (R20): `m_state`, `q_status`, `q_valid`, `q_hdr`, `QBUF`, `q_cnt`. -/
structure Master where
  /-- `m_state`. -/
  mState : MState
  /-- `q_status`. -/
  qStatus : Byte
  /-- `q_valid`. -/
  qValid : Bool
  /-- `q_hdr`. -/
  qHdr : Header
  /-- `QBUF`. -/
  qbuf : Mem
  /-- `q_cnt`. -/
  qCnt : Nat
deriving DecidableEq, Repr, Inhabited

/-- The events of the receiver step (R43, R161). -/
inductive Event where
  | noByte
  | notDetected
  | frameStart
  | stored
  | headerDone
  | msgReady
  | corrupted
  | overflow
  | ignored
deriving DecidableEq, Repr, Inhabited

/-- What a step returns (R43, log 22). -/
inductive Result where
  /-- The rule returns nothing. -/
  | nothing
  /-- `Refused` (R105). -/
  | refused
  /-- `Refused(flag)` (R144). -/
  | refusedFor (flag : Byte)
  /-- The event of a receiver step (R161). -/
  | event (e : Event)
  /-- `Timeout` of EP.LISTEN (R175). -/
  | listenTimeout
  /-- The checksum CK.BLOCK returns (R129). -/
  | checksum (c : Ck)
  /-- The bytes of CK.EMIT, HDR.PACK, ENCODE (R130, R141, R143). -/
  | bytes (bs : List Byte)
  /-- The verdict of CK.CHECK (R131). -/
  | verdict (b : Bool)
  /-- The header of HDR.UNPACK (R142). -/
  | header (h : Header)
  /-- VALIDATE: the last event, the scratch status, on MsgReady the header and the body (R147). -/
  | validated (e : Event) (status : Byte) (content : Option (Header × List Byte))
  /-- VALIDATE ran out of bytes: `Incomplete` and the scratch status (R147). -/
  | incomplete (status : Byte)
  /-- SEND: payload bytes written and the flags raised (R202). -/
  | sent (n : Nat) (flags : Byte)
  /-- EP.REPLY, M.RAWSEND: bytes written (R177, R221). -/
  | count (n : Nat)
  /-- The QueryResult (R222, R232, R233): `q_status`, and `q_hdr` with `QBUF[0..q_cnt]` when `q_valid` is 1. -/
  | query (status : Byte) (content : Option (Header × List Byte))
deriving DecidableEq, Repr, Inhabited

/-- What the environment does before one LineAvail call (R14, R40, R107, log 1): milliseconds pass, the oldest waiting
bytes are lost, bytes arrive. A patient look waits for a LineAvail call that finds no byte (a barred line of R107); any
other is taken by the next LineAvail call. -/
structure Look where
  patient : Bool
  dt : Time
  lost : Nat
  arrived : List Byte
deriving DecidableEq, Repr, Inhabited

/-- One entry of the trace (log 23): a call on the line, a write of `dir`, or a write of `m_state` or `ep_state` inside
a composite step. -/
inductive LineOp where
  /-- LineBegin(rate). -/
  | opened (rate : BitVec 32)
  /-- `dir <- d`. -/
  | direction (d : Dir)
  /-- LineWrite, with the bytes accepted. -/
  | wrote (accepted : List Byte)
  /-- LineFlush(). -/
  | flushed
  /-- `m_state <- m`. -/
  | masterState (m : MState)
  /-- `ep_state <- e` inside EP.REPLY. -/
  | endpointState (e : EpState)
deriving DecidableEq, Repr, Inhabited

/-- The Transport Line and the timer (R14): environment, not registers of the block (R17, log 1). -/
structure Line where
  /-- Received bytes waiting, oldest first (R40, R70). -/
  waiting : List Byte
  /-- `Now()` (R261). -/
  now : Time
  /-- What happens before the coming LineAvail calls. -/
  looks : List Look
  /-- How many bytes the coming LineWrite calls accept at most; none listed: all (R71, R107, log 3). -/
  accepts : List Nat
  /-- What the block has done to the line, oldest first (R305, log 23). -/
  trace : List LineOp
deriving DecidableEq, Repr, Inhabited

/-- The whole state. -/
structure State where
  /-- The profile and the parameters (R9, R10): no operation writes them (R35, log 4). -/
  cfg : Config
  /-- `dir`. -/
  dir : Dir
  /-- `ck`. -/
  ck : Ck
  /-- `t0`. -/
  t0 : Time
  /-- The endpoint's registers. -/
  rx : Receiver
  /-- The master's registers. -/
  mq : Master
  /-- What the last step returned (R43, log 22). -/
  result : Result
  /-- The host's commands not yet taken (log 11). -/
  port : List Byte
  /-- The environment. -/
  line : Line
  /-- Numbers the free values (log 16, 17). -/
  freeCount : Nat
deriving DecidableEq, Repr, Inhabited

/-- Why a step stops with a fault. -/
inductive Fault where
  /-- A buffer index nothing has been written to, or one at or above the fill count, is read (R38, R44, U11). Raised by
  the buffer reads of the receiver rules, of the master's checksum test and of the host's reads. Safe: the spec gives
  no value; a step from a state that meets the invariants never raises it. -/
  | noValue (index : Nat)
  /-- A buffer index at or above BUF_CAP is accessed (R60, R72). Raised by the buffer accesses. Safe: there is no such
  index; a step from a state that meets the invariants never raises it. -/
  | noSuchIndex (index : Nat)
  /-- The host reads `hdr` where it is unspecified: after reset and after EP.RESET, until a header was decoded (R44: reading
  it faults; U11; R179). Raised by the host's read only, never by an instruction or a step. Safe. -/
  | headerUnspecified
  /-- The host reads the content of a QueryResult that has none (R34, R233). Raised by the host's read only, never by a
  step. Safe. -/
  | noContent
deriving DecidableEq, Repr, Inhabited

/-- Why a step is refused. -/
inductive Refusal where
  /-- An instruction without a meaning; no arm of `exec` answers it in this model. Safe. -/
  | notModelled (mnemonic : String)
  /-- The bytes on the port are no command of spec/30_encoding.md R100 with operands in their domain. Raised by `step`.
  Safe: the spec gives such bytes no meaning (log 20). -/
  | undecodable (e : DecodeError)
  /-- An operand outside the domain the rule states for it (R129, R141, R142). Raised by the meanings of CK.BLOCK,
  HDR.PACK, HDR.UNPACK, ENCODE, EP.REPLY, M.QUERY and of the frame rows; `step` never raises it, since the decoder
  refuses such operands first. Safe (log 20). -/
  | operandShape (mnemonic : String)
deriving DecidableEq, Repr, Inhabited

/-- What a meaning answers. -/
abbrev Out := Host.Outcome State Fault Refusal

/-- `hdr` and `q_hdr` after reset: zeros, HDR_LEN of them as the fields of the profile's layout (R20; the values are the
model's choice, log 15). -/
def Header.reset (cfg : Config) : Header :=
  let zeros (x : HdrItem) : List Byte :=
    if x ∈ cfg.profile.layout then List.replicate (x.width cfg.profile.addrW) 0 else []
  { code := 0, fromAddr := zeros .fromAddr, toAddr := zeros .toAddr, addr := zeros .addr, opcode := 0, bodyLen := 0 }

/-- The receiver's registers after reset (R280). -/
def Receiver.reset (cfg : Config) : Receiver :=
  { epState := .idle, rxCk := cfg.ckSeed, rxCnt := 0, rxbuf := [], hdr := Header.reset cfg, hdrSet := false,
    epStatus := 0x00 }

/-- The master's registers after reset (R280). -/
def Master.reset (cfg : Config) : Master :=
  { mState := .setup, qStatus := 0x00, qValid := false, qHdr := Header.reset cfg, qbuf := [], qCnt := 0 }

/-- A line on which nothing waits and nothing is known of the future (log 1); an endpoint's reset opens it (R281). -/
def Line.reset (cfg : Config) : Line :=
  { waiting := [], now := 0, looks := [], accepts := [],
    trace := if cfg.role = .endpoint then [.opened cfg.baud] else [] }

/-- Reset with a configuration (R280, R281): every register at its reset value, waiting for commands. -/
def State.resetWith (cfg : Config) : State :=
  { cfg := cfg, dir := .rx, ck := cfg.ckSeed, t0 := 0, rx := Receiver.reset cfg, mq := Master.reset cfg,
    result := .nothing, port := [], line := Line.reset cfg, freeCount := 0 }

/-- The machine right after reset, in the standard configuration (log 5). -/
def State.reset : State := State.resetWith Config.standard

end Sys2Proof.Machine
end

