-- ==== Sys2Proof/Machine/Flags.lean ====
section
/-!
DEFINITION. The status flags (spec/60_exceptions.md R250) and the numeric encodings of `dir`, `ep_state` and `m_state`
(spec/10_state.md R22, R24, R30).
-/

namespace Sys2Proof.Machine

/-- TIMEOUT (R250). -/
def flagTimeout : Byte := 0x03

/-- CRC_FAILED (R250). -/
def flagCrcFailed : Byte := 0x05

/-- BUFFER_EXHAUSTED (R250). -/
def flagBufferExhausted : Byte := 0x09

/-- TX_ERROR (R250). -/
def flagTxError : Byte := 0x11

/-- RX_ERROR (R250). -/
def flagRxError : Byte := 0x21

/-- `raise F into s` (R15, R250). -/
def raiseFlag (status flag : Byte) : Byte := status ||| flag

/-- TX_ERROR when a write accepted fewer bytes than offered (R202, R250). -/
def shortWriteFlag (accepted offered : Nat) : Byte := if accepted < offered then flagTxError else 0x00

/-- What R250 and R191(7), R236(2) say of every status byte: bits 7:6 are 0, and bit 0 is 1 iff one of bits 5:1 is. -/
def statusLegal (s : Byte) : Bool :=
  !s.getLsbD 7 && !s.getLsbD 6 &&
  (s.getLsbD 0 == (s.getLsbD 1 || s.getLsbD 2 || s.getLsbD 3 || s.getLsbD 4 || s.getLsbD 5))

/-- The bit of `dir` (R30). -/
def Dir.bit : Dir → BitVec 1
  | .rx => 0
  | .tx => 1

/-- The 3-bit encoding of `ep_state` (R22). -/
def EpState.bits : EpState → BitVec 3
  | .idle => 0
  | .receivingHeader => 1
  | .receivingBody => 2
  | .busy => 3
  | .transmitting => 4
  | .error => 5

/-- The 3-bit encoding of `m_state` (R24). -/
def MState.bits : MState → BitVec 3
  | .setup => 0
  | .idle => 1
  | .transmitting => 2
  | .awaitingResponse => 3
  | .receiving => 4
  | .processing => 5

end Sys2Proof.Machine
end

