-- ==== Sys2Proof/Machine/Ops.lean ====
section
/-!
DEFINITION. The shared operations: answering, the buffer space (spec/20_memory.md R60, R72), the line and timer
primitives (spec/00_scope.md R14), the bounded single-byte read (spec/44_master_query.md R224), free values, and the
refused command (spec/30_encoding.md R105), which is this block's only exception that is not a status flag.
-/

namespace Sys2Proof.Machine

/-- Set what the step returns (R43). -/
def setResult (r : Result) (s : State) : State := { s with result := r }

/-- Answer a next state, or the fault that stopped the rule. -/
def finish (x : Except Fault State) : Out :=
  match x with
  | .ok s => .next s
  | .error f => .fault f

/-- A refused command (R105): no state changes, no primitive is called, the step returns `Refused` (log 10). -/
def refuseCommand (s : State) : Out := .next (setResult .refused s)

/-- A command of one role: refused on an instance of the other (R105). -/
def forRole (r : Role) (s : State) (answer : Out) : Out := if s.cfg.role = r then answer else refuseCommand s

/-- A command whose operands have a domain: outside it the spec gives no meaning (log 20). -/
def withOperands (fits : Bool) (mnemonic : String) (answer : Out) : Out :=
  if fits then answer else .refused (.operandShape mnemonic)

/-! The buffer space. -/

/-- The byte at an index, if one was written. -/
def memGet (m : Mem) (a : Nat) : Option Byte :=
  match m with
  | [] => none
  | (k, b) :: rest => if a = k then some b else memGet rest a

/-- Store one byte, keeping the indices strictly rising. -/
def memSet (m : Mem) (a : Nat) (b : Byte) : Mem :=
  match m with
  | [] => [(a, b)]
  | (k, c) :: rest => if a < k then (a, b) :: (k, c) :: rest else if a = k then (a, b) :: rest else (k, c) :: memSet rest a b

/-- Every index of the buffer lies above `lo`, strictly rising. -/
def memRisesFrom (lo : Nat) : Mem → Bool
  | [] => true
  | (k, _) :: rest => decide (lo ≤ k) && memRisesFrom (k + 1) rest

/-- The canonical form: indices strictly rising and below the capacity. -/
def Memory.wf (cap : Nat) (m : Mem) : Bool := memRisesFrom 0 m && m.all (fun c => decide (c.1 < cap))

/-- Read one byte of a buffer (R15 MemRead, R38): an index outside the buffer does not exist, one nothing was written
to has no value. -/
def memReadByte (cap : Nat) (m : Mem) (a : Nat) : Except Fault Byte :=
  if a < cap then
    match memGet m a with
    | some b => .ok b
    | none => .error (.noValue a)
  else .error (.noSuchIndex a)

/-- MemRead(a, n) (R15). -/
def memRead (cap : Nat) (m : Mem) (a : Nat) : Nat → Except Fault (List Byte)
  | 0 => .ok []
  | n + 1 =>
    match memReadByte cap m a with
    | .error f => .error f
    | .ok b =>
      match memRead cap m (a + 1) n with
      | .error f => .error f
      | .ok bs => .ok (b :: bs)

/-- MemWrite(a, 1, b) (R15, R72). -/
def memWrite (cap : Nat) (m : Mem) (a : Nat) (b : Byte) : Except Fault Mem :=
  if a < cap then .ok (memSet m a b) else .error (.noSuchIndex a)

/-! The line and the timer. -/

/-- Record what the block does (log 23). -/
def record (op : LineOp) (s : State) : State := { s with line := { s.line with trace := s.line.trace ++ [op] } }

/-- LineBegin(rate) (R14). -/
def lineBegin (rate : BitVec 32) (s : State) : State := record (.opened rate) s

/-- `dir <- d` (R14, R30). -/
def setDir (d : Dir) (s : State) : State := record (.direction d) { s with dir := d }

/-- How many bytes LineWrite accepts of `offered` (R71): what the environment says, never more than offered. -/
def acceptedCount (accepts : List Nat) (offered : Nat) : Nat :=
  match accepts with
  | [] => offered
  | k :: _ => min k offered

/-- LineWrite(seq) (R14, R71): a prefix is accepted; returns its length. -/
def lineWrite (bytes : List Byte) (s : State) : Nat × State :=
  let n := acceptedCount s.line.accepts bytes.length
  (n, record (.wrote (bytes.take n)) { s with line := { s.line with accepts := s.line.accepts.tail } })

/-- LineFlush() (R14, R76). -/
def lineFlush (s : State) : State := record .flushed s

/-- LineAvail() (R14, R205): a byte waits and the receive path is connected. -/
def lineAvail (s : State) : Bool := decide (s.dir = .rx) && !s.line.waiting.isEmpty

/-- What one look does: time passes, waiting bytes may be lost, bytes arrive unless the mux has the receive path cut
off (R14, R40, R41, log 1). -/
def takeLook (l : Look) (rest : List Look) (s : State) : State :=
  { s with line := { s.line with
      looks := rest
      now := s.line.now + l.dt
      waiting := s.line.waiting.drop l.lost ++ (if s.dir = .rx then l.arrived else []) } }

/-- The environment acts before a LineAvail call (R14, R107, log 1): a patient look only where no byte waits. -/
def look (s : State) : State :=
  match s.line.looks with
  | [] => s
  | l :: rest => if l.patient && lineAvail s then s else takeLook l rest s

/-- Bytes arrive between two steps (R107 `line<`): at the end of the queue (R70), or nowhere while `dir` is TX (R41). -/
def arrive (bytes : List Byte) (s : State) : State :=
  if s.dir = .rx then { s with line := { s.line with waiting := s.line.waiting ++ bytes } } else s

/-- LineRead() where LineAvail() is true (R14, R70): the oldest byte, removed. -/
def lineRead (s : State) : Option (Byte × State) :=
  if s.dir = .rx then
    match s.line.waiting with
    | [] => none
    | b :: rest => some (b, { s with line := { s.line with waiting := rest } })
  else none

/-- A wait from `t0` has expired (R262). -/
def expired (timeout : Time) (s : State) : Bool := decide (timeout.toNat ≤ (s.line.now - s.t0).toNat)

/-- The environment has nothing more to do and the step still waits: the clock advances until the timeout expires
(R107, log 2). -/
def expire (timeout : Time) (s : State) : State :=
  if expired timeout s then s else { s with line := { s.line with now := s.t0 + timeout } }

/-- `t0 <- Now()`. -/
def startWait (s : State) : State := { s with t0 := s.line.now }

/-- After the step that waited `t0` is unspecified (R42): a free value (log 17). -/
def endWait (s : State) : State := { s with t0 := Config.freeTime s.freeCount, freeCount := s.freeCount + 1 }

/-- GetByte()'s loop (R224); `n` is the number of looks left. -/
def getByteLoop (timeout : Time) : Nat → State → Option Byte × State
  | 0, s =>
    match lineRead (look s) with
    | some (b, s2) => (some b, s2)
    | none => (none, expire timeout (look s))
  | n + 1, s =>
    match lineRead (look s) with
    | some (b, s2) => (some b, s2)
    | none => if expired timeout (look s) then (none, look s) else getByteLoop timeout n (look s)

/-- GetByte() (R224), bounded by QUERY_TIMEOUT from `t0`. -/
def getByte (s : State) : Option Byte × State := getByteLoop s.cfg.queryTimeout s.line.looks.length s

/-- The wait for the first byte (R223): does one become available before the deadline. -/
def awaitLoop (timeout : Time) : Nat → State → Bool × State
  | 0, s => if lineAvail (look s) then (true, look s) else (false, expire timeout (look s))
  | n + 1, s =>
    if lineAvail (look s) then (true, look s)
    else if expired timeout (look s) then (false, look s)
    else awaitLoop timeout n (look s)

/-- A bound on the bytes and looks the environment still has: every poll step that finds one uses it up. -/
def supply (s : State) : Nat := s.line.waiting.length + (s.line.looks.map (fun l => l.arrived.length + 1)).sum

/-! Reset from outside. -/

/-- A hardware reset at any time, under the configuration then fixed (R36, R257, R280, R281): every register takes its
reset value, and the Transport Line keeps its bytes and its future (R282, log 35). -/
def hardwareReset (cfg : Config) (s : State) : State :=
  { State.resetWith cfg with
    line := { s.line with trace := s.line.trace ++ (Line.reset cfg).trace }
    freeCount := s.freeCount }

/-! The registers of the master. -/

/-- `m_state <- m`, recorded (R25, log 23). -/
def setMState (m : MState) (s : State) : State := record (.masterState m) { s with mq := { s.mq with mState := m } }

/-- `raise F into q_status` (R250). -/
def raiseQ (flag : Byte) (s : State) : State := { s with mq := { s.mq with qStatus := raiseFlag s.mq.qStatus flag } }

/-- `q_status <- 0; q_valid <- 0; q_cnt <- 0` (R33, R220, R221, R222, R232). -/
def clearQ (s : State) : State := { s with mq := { s.mq with qStatus := 0x00, qValid := false, qCnt := 0 } }

/-- `ep_state <- e` inside EP.REPLY, recorded (R177, log 23). -/
def setEpState (e : EpState) (s : State) : State := record (.endpointState e) { s with rx := { s.rx with epState := e } }

end Sys2Proof.Machine
end

