-- ==== Sys2Proof/Machine/Operands.lean ====
section
/-!
DEFINITION. The operand forms: header pack and unpack (spec/41_encoder.md R141, R142, spec/30_encoding.md R86, R87),
frames (R80 to R82), byte classes (R101), and the side conditions of spec/41_encoder.md R146.
-/

namespace Sys2Proof.Machine

/-- HDR.PACK (R141): the field bytes, then the body length where the profile has the field. -/
def packHeader (cfg : Config) (fields : List Byte) (n : Byte) : List Byte :=
  fields ++ (if cfg.profile.lenW then [n] else [])

/-- The explicit decode of the field bytes (R29, R86), item by item. -/
def unpackItems (addrW : Nat) : List HdrItem → List Byte → Header → Header
  | [], _, h => h
  | .code :: is, bs, h => unpackItems addrW is (bs.drop 1) { h with code := bs.headD 0 }
  | .fromAddr :: is, bs, h => unpackItems addrW is (bs.drop addrW) { h with fromAddr := bs.take addrW }
  | .toAddr :: is, bs, h => unpackItems addrW is (bs.drop addrW) { h with toAddr := bs.take addrW }
  | .addr :: is, bs, h => unpackItems addrW is (bs.drop addrW) { h with addr := bs.take addrW }
  | .opcode :: is, bs, h => unpackItems addrW is (bs.drop 1) { h with opcode := bs.headD 0 }

/-- HDR.UNPACK (R142) of HDR_LEN bytes: the fields, and the body length from the last byte where there is one. -/
def unpackHeader (cfg : Config) (bs : List Byte) : Header :=
  let h := unpackItems cfg.profile.addrW cfg.profile.layout bs Header.zero
  if cfg.profile.lenW then { h with bodyLen := (bs.drop cfg.fieldLen).headD 0 } else h

/-- The bytes of one header item. -/
def itemBytes (h : Header) : HdrItem → List Byte
  | .code => [h.code]
  | .fromAddr => h.fromAddr
  | .toAddr => h.toAddr
  | .addr => h.addr
  | .opcode => [h.opcode]

/-- The field bytes of a header, in wire order: the inverse of the decode (R87). -/
def fieldBytes (cfg : Config) (h : Header) : List Byte := cfg.profile.layout.flatMap (itemBytes h)

/-- A header register holds HDR_LEN bytes as fields (R20): each item of the layout has its width. -/
def Header.fits (cfg : Config) (h : Header) : Bool :=
  cfg.profile.layout.all fun x => decide ((itemBytes h x).length = x.width cfg.profile.addrW)

/-- A frame (R80): start delimiter, header, body, checksum bytes, end delimiter. -/
def frameBytes (cfg : Config) (h body : List Byte) : List Byte :=
  [cfg.startDelim] ++ h ++ body ++ cfg.emit (cfg.frameCk h body) ++ [cfg.endDelim]

/-- The header of a command's fields and body: its length byte is the body's length (R87, R143). -/
def headerFor (cfg : Config) (fields body : List Byte) : List Byte :=
  packHeader cfg fields (BitVec.ofNat 8 body.length)

/-- A frame of profile A on the line (R81), with this node's delimiters, whatever its own profile is (log 12). The
layout is the same for a body longer than MAX_BODY, for which the spec gives none (log 36). -/
def profileAFrame (cfg : Config) (code fromAddr toAddr : Byte) (body : List Byte) : List Byte :=
  frameBytes { cfg with profile := Profile.a } [code, fromAddr, toAddr] body

/-- A frame of profile B on the line (R82), with the configured coverage (R108, log 12); a body longer than MAX_BODY:
log 36. -/
def profileBFrame (cfg : Config) (addr0 addr1 opcode : Byte) (body : List Byte) : List Byte :=
  frameBytes { cfg with profile := { Profile.b with cover := cfg.profile.cover } }
    [addr0, addr1, opcode, BitVec.ofNat 8 body.length] body

/-- The byte classes (R101). -/
inductive ByteClass where
  | start
  | endDelim
  | data
  | other
deriving DecidableEq, Repr, Inhabited

/-- The class of a byte in a receiver state (R101, R102); none where no byte is read. -/
def classOf (cfg : Config) (st : EpState) (b : Byte) : Option ByteClass :=
  match st with
  | .idle => if b = cfg.startDelim then some .start else some .other
  | .receivingHeader => some .data
  | .receivingBody => if b = cfg.endDelim then some .endDelim else some .data
  | .busy => none
  | .transmitting => none
  | .error => none

/-- `frame_safe(H, body, c)` (R146). -/
def frameSafe (cfg : Config) (h body : List Byte) : Bool :=
  !(body ++ cfg.emit (cfg.frameCk h body)).contains cfg.endDelim

/-- `frame_clean` (R146). -/
def frameClean (cfg : Config) (h body : List Byte) : Bool :=
  frameSafe cfg h body && !(h ++ body ++ cfg.emit (cfg.frameCk h body)).contains cfg.startDelim

end Sys2Proof.Machine
end

