-- ==== Sys2Proof/Machine/Checksum.lean ====
section
/-!
DEFINITION. The meanings of NOP (spec/30_encoding.md R104) and of the checksum commands (spec/40_checksum.md R127 to
R131).
-/

namespace Sys2Proof.Machine

/-- NOP (R104): nothing changes, nothing is returned. -/
def execNop (s : State) : Out := .next (setResult .nothing s)

/-- CK.INIT (R127). -/
def execCkInit (s : State) : Out := .next (setResult .nothing { s with ck := s.cfg.ckSeed })

/-- CK.UPDATE (R128). -/
def execCkUpdate (b : Byte) (s : State) : Out := .next (setResult .nothing { s with ck := s.cfg.upd s.ck b })

/-- CK.BLOCK (R129). -/
def execCkBlock (bytes : List Byte) (length : BitVec 32) (seed : Ck) (s : State) : Out :=
  withOperands (s.cfg.blockFits bytes length seed) "CK.BLOCK"
    (.next (setResult (.checksum (s.cfg.fold seed (bytes.take length.toNat)))
      { s with ck := s.cfg.fold seed (bytes.take length.toNat) }))

/-- CK.EMIT (R130). -/
def execCkEmit (s : State) : Out := .next (setResult (.bytes (s.cfg.emit s.ck)) s)

/-- CK.CHECK (R131). -/
def execCkCheck (s : State) : Out := .next (setResult (.verdict (decide (s.ck = 0))) s)

end Sys2Proof.Machine
end

