-- ==== Sys2Proof/Machine/Receiver.lean ====
section
/-!
DEFINITION. The receiver byte-accumulator (spec/42_receiver.md): one rule per state and byte class (R162 to R174), the
selection of R160, and the meanings of EP.POLL's eleven rows, EP.LISTEN, EP.DONE, EP.REPLY, EP.FAULT and EP.RESET.
-/

namespace Sys2Proof.Machine

/-- What one rule answers: the event and the receiver's registers. -/
abbrev RxOut := Except Fault (Event × Receiver)

/-- The eleven cases of EP.POLL (R160). -/
inductive PollCase where
  | idleOther
  | idleStart
  | headerNotLast
  | headerLastOk
  | headerLastOversize
  | receivingNone
  | bodyFull
  | bodyRoom
  | bodyEndValid
  | bodyEndInvalid
  | ignored
deriving DecidableEq, Repr, Inhabited

/-- The last header byte, taken as `body_len`, is acceptable (R165), or the profile has no length. -/
def bodyLenOk (cfg : Config) (b : Byte) : Bool := !cfg.profile.lenW || decide (b.toNat ≤ cfg.maxBody)

/-- The frame held is valid (R171): `rx_cnt - HDR_LEN >= CK_W` and `rx_ck = 0`. -/
def frameValid (cfg : Config) (r : Receiver) : Bool :=
  decide (cfg.hdrLen + cfg.ckW ≤ r.rxCnt) && decide (r.rxCk = 0)

/-- The case R160 selects from the state, the fill count and the byte read, if any (R101). -/
def selectCase (cfg : Config) (r : Receiver) (byte : Option Byte) : PollCase :=
  match r.epState, byte with
  | .idle, none => .idleOther
  | .idle, some b => if classOf cfg .idle b = some .start then .idleStart else .idleOther
  | .receivingHeader, none => .receivingNone
  | .receivingHeader, some b =>
    if r.rxCnt + 1 < cfg.hdrLen then .headerNotLast
    else if bodyLenOk cfg b then .headerLastOk else .headerLastOversize
  | .receivingBody, none => .receivingNone
  | .receivingBody, some b =>
    if classOf cfg .receivingBody b = some .endDelim then
      if frameValid cfg r then .bodyEndValid else .bodyEndInvalid
    else if r.rxCnt < cfg.bufCap then .bodyRoom else .bodyFull
  | .busy, _ => .ignored
  | .transmitting, _ => .ignored
  | .error, _ => .ignored

/-- `MemWrite(rx_cnt, 1, b)` and `rx_cnt <- rx_cnt + 1` (R72). -/
def storeByte (cfg : Config) (b : Byte) (r : Receiver) : Except Fault Receiver :=
  match memWrite cfg.bufCap r.rxbuf r.rxCnt b with
  | .ok m => .ok { r with rxbuf := m, rxCnt := r.rxCnt + 1 }
  | .error f => .error f

/-- `hdr <- HDR.UNPACK(MemRead(0, HDR_LEN))` (R165, R166). -/
def decodeHdr (cfg : Config) (r : Receiver) : Except Fault Receiver :=
  match memRead cfg.bufCap r.rxbuf 0 cfg.hdrLen with
  | .ok bs => .ok { r with hdr := unpackHeader cfg bs, hdrSet := true }
  | .error f => .error f

/-- R162: Idle, a byte of class OTHER. -/
def ruleIdleOther (r : Receiver) : RxOut := .ok (.notDetected, r)

/-- R163: Idle, the start delimiter. -/
def ruleIdleStart (cfg : Config) (r : Receiver) : RxOut :=
  .ok (.frameStart, { r with rxCk := cfg.ckSeed, rxCnt := 0, epStatus := 0x00, epState := .receivingHeader })

/-- R164: ReceivingHeader, not the last header byte. -/
def ruleHeaderNotLast (cfg : Config) (b : Byte) (r : Receiver) : RxOut :=
  match storeByte cfg b r with
  | .ok r1 => .ok (.stored, { r1 with rxCk := cfg.headerUpd r1.rxCk b })
  | .error f => .error f

/-- R165: ReceivingHeader, the last header byte, body length acceptable. -/
def ruleHeaderLastOk (cfg : Config) (b : Byte) (r : Receiver) : RxOut :=
  match storeByte cfg b r with
  | .error f => .error f
  | .ok r1 =>
    match decodeHdr cfg { r1 with rxCk := cfg.headerUpd r1.rxCk b } with
    | .error f => .error f
    | .ok r2 => .ok (.headerDone, { r2 with epState := .receivingBody })

/-- R166: ReceivingHeader, the last header byte, body length too large. -/
def ruleHeaderLastOversize (cfg : Config) (b : Byte) (r : Receiver) : RxOut :=
  match storeByte cfg b r with
  | .error f => .error f
  | .ok r1 =>
    match decodeHdr cfg r1 with
    | .error f => .error f
    | .ok r2 => .ok (.overflow, { r2 with epStatus := raiseFlag r2.epStatus flagBufferExhausted, epState := .idle })

/-- R167 and the first half of R162: no byte waits. -/
def ruleNoByte (r : Receiver) : RxOut := .ok (.noByte, r)

/-- R169: ReceivingBody, DATA with the buffer full. -/
def ruleBodyFull (r : Receiver) : RxOut :=
  .ok (.overflow, { r with epStatus := raiseFlag r.epStatus flagBufferExhausted, epState := .idle })

/-- R170: ReceivingBody, DATA with room left. -/
def ruleBodyRoom (cfg : Config) (b : Byte) (r : Receiver) : RxOut :=
  match storeByte cfg b r with
  | .ok r1 => .ok (.stored, { r1 with rxCk := cfg.upd r1.rxCk b })
  | .error f => .error f

/-- R171: ReceivingBody, END of a valid frame. -/
def ruleBodyEndValid (r : Receiver) : RxOut := .ok (.msgReady, { r with epState := .busy })

/-- R172: ReceivingBody, END of a frame that is not valid. -/
def ruleBodyEndInvalid (r : Receiver) : RxOut :=
  .ok (.corrupted, { r with epStatus := raiseFlag r.epStatus flagCrcFailed, epState := .idle })

/-- R174: Busy, Transmitting or Error. -/
def ruleIgnored (r : Receiver) : RxOut := .ok (.ignored, r)

/-- The rule of the selected case on a byte (R160). -/
def receiveByte (cfg : Config) (b : Byte) (r : Receiver) : RxOut :=
  match selectCase cfg r (some b) with
  | .idleOther => ruleIdleOther r
  | .idleStart => ruleIdleStart cfg r
  | .headerNotLast => ruleHeaderNotLast cfg b r
  | .headerLastOk => ruleHeaderLastOk cfg b r
  | .headerLastOversize => ruleHeaderLastOversize cfg b r
  | .receivingNone => ruleNoByte r
  | .bodyFull => ruleBodyFull r
  | .bodyRoom => ruleBodyRoom cfg b r
  | .bodyEndValid => ruleBodyEndValid r
  | .bodyEndInvalid => ruleBodyEndInvalid r
  | .ignored => ruleIgnored r

/-- The receiver reads the line in this state (R160, R174). -/
def pollsLine (st : EpState) : Bool :=
  match st with
  | .idle => true
  | .receivingHeader => true
  | .receivingBody => true
  | .busy => false
  | .transmitting => false
  | .error => false

/-- Put the rule's answer into the state. -/
def applyRx (x : RxOut) (s : State) : Except Fault State :=
  match x with
  | .ok (e, r) => .ok (setResult (.event e) { s with rx := r })
  | .error f => .error f

/-- One poll with given rules for a byte and for no byte: the environment acts, then LineAvail and LineRead (R160). -/
def pollWith (onByte : Byte → Receiver → RxOut) (s : State) : Except Fault State :=
  match lineRead (look s) with
  | none => applyRx (ruleNoByte (look s).rx) (look s)
  | some (b, s2) => applyRx (onByte b s2.rx) s2

/-- One EP.POLL step (R160). -/
def poll (s : State) : Except Fault State :=
  if pollsLine s.rx.epState then pollWith (receiveByte s.cfg) s else applyRx (ruleIgnored s.rx) s

/-- The byte EP.POLL would read in this state, if any. -/
def pollByte (s : State) : Option Byte :=
  if pollsLine s.rx.epState then (lineRead (look s)).map Prod.fst else none

/-- The case R160 selects in this state (log 13). -/
def pollCase (s : State) : PollCase := selectCase s.cfg s.rx (pollByte s)

/-- A row of EP.POLL: its own rule where R160 selects its case, else the rule of the case it does select, since every
row is the one command word 0x0A (log 13). -/
def pollAs (c : PollCase) (own : State → Except Fault State) (s : State) : Out :=
  forRole .endpoint s (if pollCase s = c then finish (own s) else finish (poll s))

/-- EP.POLL, Idle, no byte or OTHER (R162). -/
def execEpPollIdleOther (s : State) : Out := pollAs .idleOther (pollWith fun _ r => ruleIdleOther r) s

/-- EP.POLL, Idle, START (R163). -/
def execEpPollIdleStart (s : State) : Out := pollAs .idleStart (pollWith fun _ r => ruleIdleStart s.cfg r) s

/-- EP.POLL, ReceivingHeader, not the last byte (R164). -/
def execEpPollHeaderNotLast (s : State) : Out := pollAs .headerNotLast (pollWith (ruleHeaderNotLast s.cfg)) s

/-- EP.POLL, ReceivingHeader, last byte, length acceptable (R165). -/
def execEpPollHeaderLastOk (s : State) : Out := pollAs .headerLastOk (pollWith (ruleHeaderLastOk s.cfg)) s

/-- EP.POLL, ReceivingHeader, last byte, length too large (R166). -/
def execEpPollHeaderLastOversize (s : State) : Out :=
  pollAs .headerLastOversize (pollWith (ruleHeaderLastOversize s.cfg)) s

/-- EP.POLL, ReceivingHeader or ReceivingBody, no byte (R167). -/
def execEpPollReceivingNone (s : State) : Out := pollAs .receivingNone (pollWith fun _ r => ruleNoByte r) s

/-- EP.POLL, ReceivingBody, DATA, buffer full (R169). -/
def execEpPollBodyFull (s : State) : Out := pollAs .bodyFull (pollWith fun _ r => ruleBodyFull r) s

/-- EP.POLL, ReceivingBody, DATA, room left (R170). -/
def execEpPollBodyRoom (s : State) : Out := pollAs .bodyRoom (pollWith (ruleBodyRoom s.cfg)) s

/-- EP.POLL, ReceivingBody, END, valid (R171). -/
def execEpPollBodyEndValid (s : State) : Out := pollAs .bodyEndValid (pollWith fun _ r => ruleBodyEndValid r) s

/-- EP.POLL, ReceivingBody, END, not valid (R172). -/
def execEpPollBodyEndInvalid (s : State) : Out := pollAs .bodyEndInvalid (pollWith fun _ r => ruleBodyEndInvalid r) s

/-- EP.POLL, Busy, Transmitting or Error (R174). -/
def execEpPollIgnored (s : State) : Out := pollAs .ignored (fun t => applyRx (ruleIgnored t.rx) t) s

/-- The events that end EP.LISTEN (R175). -/
def endsListen (e : Event) : Bool :=
  match e with
  | .msgReady => true
  | .corrupted => true
  | .overflow => true
  | .ignored => true
  | .noByte => false
  | .notDetected => false
  | .frameStart => false
  | .stored => false
  | .headerDone => false

/-- The event the last poll step returned. -/
def lastEvent (s : State) : Event :=
  match s.result with
  | .event e => e
  | _ => .noByte

/-- The environment has no look left and no byte waits for the receiver (log 2). -/
def lineQuiet (s : State) : Bool := s.line.looks.isEmpty && !lineAvail s

/-- `Timeout` (R175): no state changes but the clock that ran out. -/
def listenTimesOut (s : State) : State := setResult .listenTimeout (expire s.cfg.rxTimeout s)

/-- EP.LISTEN's loop (R175); `fuel` bounds the passes, `supply` is enough. -/
def listenLoop : Nat → State → Except Fault State
  | 0, s => .ok (listenTimesOut s)
  | n + 1, s =>
    match poll s with
    | .error f => .error f
    | .ok s1 =>
      if endsListen (lastEvent s1) then .ok s1
      else if expired s1.cfg.rxTimeout s1 then .ok (setResult .listenTimeout s1)
      else if lineQuiet s1 then .ok (listenTimesOut s1)
      else listenLoop n s1

/-- EP.LISTEN (R175). -/
def listen (s : State) : Except Fault State :=
  match listenLoop (supply s + 1) (startWait s) with
  | .ok s1 => .ok (endWait s1)
  | .error f => .error f

/-- EP.LISTEN (R175). -/
def execEpListen (s : State) : Out := forRole .endpoint s (finish (listen s))

/-- EP.DONE (R176). -/
def execEpDone (s : State) : Out :=
  forRole .endpoint s
    (if s.rx.epState = .busy then .next (setResult .nothing { s with rx := { s.rx with epState := .idle } })
     else refuseCommand s)

/-- EP.FAULT (R178). -/
def execEpFault (s : State) : Out :=
  forRole .endpoint s (.next (setResult .nothing { s with rx := { s.rx with epState := .error } }))

/-- The header EP.RESET leaves (R179: unspecified): decoded from free bytes (log 16). -/
def freeHeader (s : State) : Header :=
  unpackHeader s.cfg ((List.range s.cfg.hdrLen).map fun i => Config.freeByte (s.freeCount + i))

/-- EP.RESET (R179). -/
def execEpReset (s : State) : Out :=
  forRole .endpoint s
    (.next (setResult .nothing (setDir .rx
      { s with
        rx := { Receiver.reset s.cfg with hdr := freeHeader s }
        freeCount := s.freeCount + s.cfg.hdrLen })))

end Sys2Proof.Machine
end

