-- ==== Sys2Proof/Machine/Codec.lean ====
section
/-!
DEFINITION. The meanings of the frame encoder and decoder (spec/41_encoder.md): HDR.PACK, HDR.UNPACK, ENCODE, VALIDATE.
-/

namespace Sys2Proof.Machine

/-- HDR.PACK (R141). -/
def execHdrPack (fields : List Byte) (n : Byte) (s : State) : Out :=
  withOperands (s.cfg.fieldsFit fields) "HDR.PACK" (.next (setResult (.bytes (packHeader s.cfg fields n)) s))

/-- HDR.UNPACK (R142). -/
def execHdrUnpack (h : List Byte) (s : State) : Out :=
  withOperands (decide (h.length = s.cfg.hdrLen)) "HDR.UNPACK" (.next (setResult (.header (unpackHeader s.cfg h)) s))

/-- A body the encoder takes (R143, R144). -/
def bodyFits (cfg : Config) (body : List Byte) : Bool := decide (body.length ≤ cfg.maxBody)

/-- ENCODE's frame (R143). -/
def encodeFrame (cfg : Config) (fields body : List Byte) : List Byte := frameBytes cfg (headerFor cfg fields body) body

/-- ENCODE's checksum, left in `ck` (R143). -/
def encodeCk (cfg : Config) (fields body : List Byte) : Ck := cfg.frameCk (headerFor cfg fields body) body

/-- ENCODE (R143, R144). -/
def execEncode (fields body : List Byte) (s : State) : Out :=
  withOperands (s.cfg.fieldsFit fields) "ENCODE"
    (if bodyFits s.cfg body then
      .next (setResult (.bytes (encodeFrame s.cfg fields body)) { s with ck := encodeCk s.cfg fields body })
    else .next (setResult (.refusedFor flagBufferExhausted) s))

/-- The body of a held frame: the buffer from HDR_LEN to the fill count less CK_W (R62, R171). DESIGN CHOICE (log 32):
where fewer than HDR_LEN + CK_W bytes are held, as in a reply cut off behind its header, the body is empty. -/
def heldBody (cfg : Config) (buf : Mem) (cnt : Nat) : Except Fault (List Byte) :=
  memRead cfg.bufCap buf cfg.hdrLen (cnt - cfg.ckW - cfg.hdrLen)

/-- What VALIDATE answers on a final event (R147). -/
def validateVerdict (cfg : Config) (e : Event) (r : Receiver) : Except Fault Result :=
  match e with
  | .msgReady =>
    match heldBody cfg r.rxbuf r.rxCnt with
    | .ok body => .ok (.validated e r.epStatus (some (r.hdr, body)))
    | .error f => .error f
  | _ => .ok (.validated e r.epStatus none)

/-- The events that end VALIDATE (R147). -/
def endsValidate (e : Event) : Bool :=
  match e with
  | .msgReady => true
  | .corrupted => true
  | .overflow => true
  | .ignored => false
  | .noByte => false
  | .notDetected => false
  | .frameStart => false
  | .stored => false
  | .headerDone => false

/-- The receiver's rules applied to bytes in order, on a scratch receiver (R147). -/
def validateBytes (cfg : Config) : List Byte → Receiver → Except Fault Result
  | [], r => .ok (.incomplete r.epStatus)
  | b :: bs, r =>
    match receiveByte cfg b r with
    | .error f => .error f
    | .ok (e, r1) => if endsValidate e then validateVerdict cfg e r1 else validateBytes cfg bs r1

/-- VALIDATE (R147): no register changes. -/
def execValidate (bytes : List Byte) (s : State) : Out :=
  finish (match validateBytes s.cfg bytes (Receiver.reset s.cfg) with
    | .ok res => .ok (setResult res s)
    | .error f => .error f)

end Sys2Proof.Machine
end

