-- ==== Sys2Proof/Machine/Direction.lean ====
section
/-!
DEFINITION. The line-direction mux and the turnaround sequencer (spec/43_direction.md): DIR.TX, DIR.RX, SEND, and the
turnaround the composite steps share.
-/

namespace Sys2Proof.Machine

/-- DIR.TX (R200). -/
def execDirTx (s : State) : Out := .next (setResult .nothing (setDir .tx s))

/-- DIR.RX (R201): no flush. -/
def execDirRx (s : State) : Out := .next (setResult .nothing (setDir .rx s))

/-- The guard interval (R202): the flags its write raises. -/
def guardWrite (pause : Bool) (s : State) : Byte × State :=
  if pause then
    let w := lineWrite (List.replicate s.cfg.guardLen s.cfg.guardByte) s
    (shortWriteFlag w.1 s.cfg.guardLen, w.2)
  else (0x00, s)

/-- The turnaround's end (R76, R202, R206): flush, then receive. -/
def turnAround (s : State) : State := setDir .rx (lineFlush s)

/-- SEND's sequence (R202): payload bytes accepted, flags raised, the state after. -/
def sendBytes (bytes : List Byte) (pause : Bool) (s : State) : Nat × Byte × State :=
  let g := guardWrite pause (setDir .tx s)
  let w := lineWrite bytes g.2
  (w.1, g.1 ||| shortWriteFlag w.1 bytes.length, turnAround w.2)

/-- SEND (R202). -/
def execSend (bytes : List Byte) (pause : Bool) (s : State) : Out :=
  let r := sendBytes bytes pause s
  .next (setResult (.sent r.1 r.2.1) r.2.2)

end Sys2Proof.Machine
end

