-- ==== Sys2Proof/Machine/Query.lean ====
section
/-!
DEFINITION. The master query sequencer (spec/44_master_query.md): M.BEGIN, M.RAWSEND, M.RAWQUERY, M.QUERY, the wait for
the response (R223) and the two receive procedures (R225 to R231, R234).
-/

namespace Sys2Proof.Machine

/-- Which of its steps CountedReceive goes on to. -/
abbrev Went := Bool × State

/-- CountedReceive step 1 (R225): bytes are discarded up to and including the first START_DELIM. `fuel` bounds the
passes, `supply` is enough: with none left no byte can come. -/
def huntStart : Nat → State → Went
  | 0, s => (false, raiseQ flagRxError (getByte s).2)
  | n + 1, s =>
    match getByte s with
    | (none, s1) => (false, raiseQ flagRxError s1)
    | (some b, s1) => if b = s1.cfg.startDelim then (true, s1) else huntStart n s1

/-- `QBUF[q_cnt] <- x; q_cnt <- q_cnt + 1` (R226, R229). -/
def storeQ (b : Byte) (s : State) : Except Fault State :=
  match memWrite s.cfg.bufCap s.mq.qbuf s.mq.qCnt b with
  | .ok m => .ok { s with mq := { s.mq with qbuf := m, qCnt := s.mq.qCnt + 1 } }
  | .error f => .error f

/-- The header loop of CountedReceive step 2 (R226). -/
def headerLoop : Nat → State → Except Fault Went
  | 0, s => .ok (true, s)
  | n + 1, s =>
    match getByte s with
    | (none, s1) => .ok (false, raiseQ flagRxError s1)
    | (some b, s1) =>
      match storeQ b s1 with
      | .ok s2 => headerLoop n s2
      | .error f => .error f

/-- `q_hdr <- HDR.UNPACK(QBUF[0..HDR_LEN]); q_valid <- 1` (R226). -/
def decodeQHdr (s : State) : Except Fault State :=
  match memRead s.cfg.bufCap s.mq.qbuf 0 s.cfg.hdrLen with
  | .ok bs => .ok { s with mq := { s.mq with qHdr := unpackHeader s.cfg bs, qValid := true } }
  | .error f => .error f

/-- CountedReceive step 3 (R228): the capacity test; the read goes on. -/
def capacityTest (s : State) : State :=
  if s.cfg.maxBody < s.mq.qHdr.bodyLen.toNat then raiseQ flagBufferExhausted s else s

/-- Store what fits, drop the rest (R229). -/
def storeOrDrop (b : Byte) (s : State) : Except Fault State :=
  if s.mq.qCnt < s.cfg.bufCap then storeQ b s else .ok s

/-- The body loop of CountedReceive step 4 (R229). -/
def bodyLoop : Nat → State → Except Fault Went
  | 0, s => .ok (true, s)
  | n + 1, s =>
    match getByte s with
    | (none, s1) => .ok (false, raiseQ flagRxError s1)
    | (some b, s1) =>
      match storeOrDrop b s1 with
      | .ok s2 => bodyLoop n s2
      | .error f => .error f

/-- CountedReceive step 5 (R230): the end delimiter, consumed either way. -/
def endDelimiter (s : State) : State :=
  let x := getByte s
  if x.1 = some s.cfg.endDelim then x.2 else raiseQ flagRxError x.2

/-- CountedReceive step 6 (R231): the checksum over whatever is in QBUF. -/
def checkQ (s : State) : Except Fault State :=
  let s1 := setMState .processing s
  let cap := s.cfg.bufCap
  if s.mq.qCnt < s.cfg.hdrLen + s.cfg.ckW then .ok (raiseQ flagCrcFailed s1)
  else
    match memRead cap s.mq.qbuf (s.mq.qCnt - s.cfg.ckW) s.cfg.ckW, memRead cap s.mq.qbuf 0 s.cfg.hdrLen,
        heldBody s.cfg s.mq.qbuf s.mq.qCnt with
    | .ok k, .ok h, .ok body =>
      .ok (if s.cfg.emit (s.cfg.frameCk h body) = k then s1 else raiseQ flagCrcFailed s1)
    | .error f, _, _ => .error f
    | _, .error f, _ => .error f
    | _, _, .error f => .error f

/-- CountedReceive steps 3 to 6, once the header is complete (R228 to R231). -/
def countedBody (s : State) : Except Fault State :=
  let s1 := capacityTest s
  match bodyLoop (s1.mq.qHdr.bodyLen.toNat + s1.cfg.ckW) s1 with
  | .error f => .error f
  | .ok (true, s2) => checkQ (endDelimiter s2)
  | .ok (false, s2) => checkQ s2

/-- CountedReceive (R225 to R231). -/
def countedReceive (s : State) : Except Fault State :=
  match huntStart (supply s) s with
  | (false, s1) => .ok s1
  | (true, s1) =>
    match headerLoop s1.cfg.hdrLen s1 with
    | .error f => .error f
    | .ok (false, s2) => .ok s2
    | .ok (true, s2) =>
      match decodeQHdr s2 with
      | .error f => .error f
      | .ok s3 => countedBody s3

/-- The local receiver of DelimitedReceive (R234): QBUF, `q_cnt`, `q_hdr` and a local checksum, from Idle. Its status
starts at zero and is ORed into `q_status` at the end, so that no flag already raised is lost (R33, R255, log 19). -/
def localReceiver (s : State) : Receiver :=
  { epState := .idle, rxCk := s.cfg.ckSeed, rxCnt := s.mq.qCnt, rxbuf := s.mq.qbuf, hdr := s.mq.qHdr, hdrSet := false,
    epStatus := 0x00 }

/-- Put the local receiver's registers back (R234); `q_valid` is 1 once the header is complete. -/
def putLocal (r : Receiver) (s : State) : State :=
  { s with mq := { s.mq with
      qbuf := r.rxbuf, qCnt := r.rxCnt, qHdr := r.hdr, qValid := r.hdrSet,
      qStatus := raiseFlag s.mq.qStatus r.epStatus } }

/-- `m_state <- Processing` when the end delimiter was read (R234), and only then: a reply cut short behind its header
goes from Receiving to Idle (log 33). -/
def afterEvent (e : Event) (s : State) : State :=
  match e with
  | .msgReady => setMState .processing s
  | .corrupted => setMState .processing s
  | _ => s

/-- DelimitedReceive's loop (R234); `fuel` as in huntStart. A deadline inside the reply raises RX_ERROR and stops, with no
test of the checksum (R234, vector M20, log 33). -/
def delimitedLoop : Nat → Receiver → State → Except Fault State
  | 0, r, s => .ok (raiseQ flagRxError (putLocal r (getByte s).2))
  | n + 1, r, s =>
    match getByte s with
    | (none, s1) => .ok (raiseQ flagRxError (putLocal r s1))
    | (some b, s1) =>
      match receiveByte s1.cfg b r with
      | .error f => .error f
      | .ok (e, r1) => if endsValidate e then .ok (afterEvent e (putLocal r1 s1)) else delimitedLoop n r1 s1

/-- DelimitedReceive (R234). -/
def delimitedReceive (s : State) : Except Fault State := delimitedLoop (supply s) (localReceiver s) s

/-- The receive procedure of the profile (R223). -/
def receiveResponse (s : State) : Except Fault State :=
  if s.cfg.profile.lenW then countedReceive s else delimitedReceive s

/-- AwaitResponse() (R223). -/
def awaitResponse (s : State) : Except Fault State :=
  let s1 := startWait (setMState .awaitingResponse s)
  match awaitLoop s1.cfg.queryTimeout s1.line.looks.length s1 with
  | (false, s2) => .ok (endWait (setMState .idle (raiseQ flagTimeout s2)))
  | (true, s2) =>
    match receiveResponse (setMState .receiving s2) with
    | .ok s3 => .ok (endWait (setMState .idle s3))
    | .error f => .error f

/-- The QueryResult (R222, R232, R233): the content when `q_valid` is 1. -/
def returnQuery (s : State) : Except Fault State :=
  if s.mq.qValid then
    match memRead s.cfg.bufCap s.mq.qbuf 0 s.mq.qCnt with
    | .ok bs => .ok (setResult (.query s.mq.qStatus (some (s.mq.qHdr, bs))) s)
    | .error f => .error f
  else .ok (setResult (.query s.mq.qStatus none) s)

/-- Await the response and return the result. -/
def awaitAndReturn (s : State) : Except Fault State :=
  match awaitResponse s with
  | .ok s1 => returnQuery s1
  | .error f => .error f

/-- M.BEGIN (R220). -/
def execMBegin (rate : BitVec 32) (s : State) : Out :=
  forRole .master s
    (if s.mq.mState = .setup ∨ s.mq.mState = .idle then
      .next (setResult .nothing (setMState .idle (clearQ (setDir .rx (lineBegin rate s)))))
    else refuseCommand s)

/-- The sending half of M.RAWSEND and M.RAWQUERY (R221, R222). -/
def rawSend (bytes : List Byte) (pause : Bool) (s : State) : Nat × State :=
  let r := sendBytes bytes pause (setMState .transmitting (clearQ s))
  (r.1, raiseQ r.2.1 r.2.2)

/-- M.RAWSEND (R221). -/
def execMRawSend (bytes : List Byte) (pause : Bool) (s : State) : Out :=
  forRole .master s
    (if s.mq.mState = .idle then
      .next (setResult (.count (rawSend bytes pause s).1) (setMState .idle (rawSend bytes pause s).2))
    else refuseCommand s)

/-- M.RAWQUERY (R222). -/
def execMRawQuery (bytes : List Byte) (pause : Bool) (s : State) : Out :=
  forRole .master s
    (if s.mq.mState = .idle then finish (awaitAndReturn (rawSend bytes pause s).2) else refuseCommand s)

/-- A write of M.QUERY (R232), raising TX_ERROR when it is short. -/
def queryWrite (bytes : List Byte) (s : State) : State :=
  let w := lineWrite bytes s
  raiseQ (shortWriteFlag w.1 bytes.length) w.2

/-- The guard and the three writes of M.QUERY, and the turnaround (R232). -/
def querySend (fields body : List Byte) (pause : Bool) (s : State) : State :=
  let h := headerFor s.cfg fields body
  let c := s.cfg.frameCk h body
  let g := guardWrite pause (setDir .tx (setMState .transmitting { s with ck := c }))
  turnAround
    (queryWrite (s.cfg.emit c ++ [s.cfg.endDelim])
      (queryWrite body
        (queryWrite ([s.cfg.startDelim] ++ h) (raiseQ g.1 g.2))))

/-- M.QUERY that sends nothing (R232's first two tests): the flag is raised, and like every M step it ends with `dir` = RX
(R236(1), R258, R292, log 31). -/
def turnedAway (flag : Byte) (s : State) : Except Fault State := returnQuery (raiseQ flag (setDir .rx (clearQ s)))

/-- M.QUERY once the master is Idle (R232). -/
def queryRound (ready : Bool) (fields body : List Byte) (pause : Bool) (s : State) : Except Fault State :=
  if !ready then turnedAway flagTxError s
  else if !bodyFits s.cfg body then turnedAway flagBufferExhausted s
  else awaitAndReturn (querySend fields body pause (clearQ s))

/-- M.QUERY (R232). -/
def execMQuery (ready : Bool) (fields body : List Byte) (pause : Bool) (s : State) : Out :=
  withOperands (s.cfg.fieldsFit fields) "M.QUERY"
    (forRole .master s
      (if s.mq.mState = .idle then finish (queryRound ready fields body pause s) else refuseCommand s))

end Sys2Proof.Machine
end

