-- ==== Sys2Proof/Machine/Reply.lean ====
section
/-!
DEFINITION. EP.REPLY (spec/42_receiver.md R177): the endpoint's answer from its handler.
-/

namespace Sys2Proof.Machine

/-- `ep_status <- ep_status | flags` (R177). -/
def raiseEp (flags : Byte) (s : State) : State :=
  { s with rx := { s.rx with epStatus := raiseFlag s.rx.epStatus flags } }

/-- EP.REPLY's body where the frame can be encoded (R177). -/
def replyFrame (fields body : List Byte) (pause : Bool) (s : State) : State :=
  let s1 := setEpState .transmitting { s with ck := encodeCk s.cfg fields body }
  let r := sendBytes (encodeFrame s.cfg fields body) pause s1
  setResult (.count r.1) (setEpState .busy (raiseEp r.2.1 r.2.2))

/-- EP.REPLY (R177). -/
def execEpReply (fields body : List Byte) (pause : Bool) (s : State) : Out :=
  withOperands (s.cfg.fieldsFit fields) "EP.REPLY"
    (forRole .endpoint s
      (if s.rx.epState = .busy then
        if bodyFits s.cfg body then .next (replyFrame fields body pause s)
        else .next (setResult (.refusedFor flagBufferExhausted) s)
      else refuseCommand s))

end Sys2Proof.Machine
end

