-- ==== Sys2Proof/Machine/Reserved.lean ====
section
/-!
DEFINITION. The reserved command codes 0x17 to 0x1F (spec/30_encoding.md R105): refused, no state change, the step
returns `Refused` (log 10).
-/

namespace Sys2Proof.Machine

/-- Code 0x17 (R105). -/
def execReserved17 (s : State) : Out := refuseCommand s

/-- Code 0x18 (R105). -/
def execReserved18 (s : State) : Out := refuseCommand s

/-- Code 0x19 (R105). -/
def execReserved19 (s : State) : Out := refuseCommand s

/-- Code 0x1A (R105). -/
def execReserved1A (s : State) : Out := refuseCommand s

/-- Code 0x1B (R105). -/
def execReserved1B (s : State) : Out := refuseCommand s

/-- Code 0x1C (R105). -/
def execReserved1C (s : State) : Out := refuseCommand s

/-- Code 0x1D (R105). -/
def execReserved1D (s : State) : Out := refuseCommand s

/-- Code 0x1E (R105). -/
def execReserved1E (s : State) : Out := refuseCommand s

/-- Code 0x1F (R105). -/
def execReserved1F (s : State) : Out := refuseCommand s

end Sys2Proof.Machine
end

