-- ==== Sys2Proof/Machine/Wire.lean ====
section
/-!
DEFINITION. The rows of the opcode table that arrive on the line: byte classes (spec/30_encoding.md R101), frames (R81,
R82) and the INFO opcode byte (R103). The bytes arrive in order at the node (R70, R107 `line<`); an endpoint takes a
byte with one poll step (R160) and a frame with the steps of `ep.poll*` (R108, R301); at a master the bytes wait for
the next query (R300) (log 12).
-/

namespace Sys2Proof.Machine

/-- The events that end `ep.poll*` (R108). -/
def endsPolling (e : Event) : Bool :=
  match e with
  | .noByte => true
  | .msgReady => true
  | .corrupted => true
  | .overflow => true
  | .ignored => true
  | .notDetected => false
  | .frameStart => false
  | .stored => false
  | .headerDone => false

/-- `ep.poll*` (R108): poll until a frame outcome, no byte, or Ignored; `fuel` bounds the steps, `supply` is enough. -/
def pollStar : Nat → State → Except Fault State
  | 0, s => poll s
  | n + 1, s =>
    match poll s with
    | .error f => .error f
    | .ok s1 => if endsPolling (lastEvent s1) then .ok s1 else pollStar n s1

/-- One byte arrives and an endpoint polls once. -/
def arriveByte (b : Byte) (s : State) : Out :=
  match s.cfg.role with
  | .endpoint => finish (poll (arrive [b] s))
  | .master => .next (setResult .nothing (arrive [b] s))

/-- A frame arrives and an endpoint polls through it. -/
def arriveFrame (bytes : List Byte) (s : State) : Out :=
  match s.cfg.role with
  | .endpoint => finish (pollStar (supply (arrive bytes s)) (arrive bytes s))
  | .master => .next (setResult .nothing (arrive bytes s))

/-- BYTE.START (R101, R163). -/
def execByteStart (s : State) : Out := arriveByte s.cfg.startDelim s

/-- BYTE.END (R101, R171, R172). -/
def execByteEnd (s : State) : Out := arriveByte s.cfg.endDelim s

/-- BYTE.DATA (R101, R164, R165, R166, R169, R170). -/
def execByteData (d : Byte) (s : State) : Out := arriveByte d s

/-- BYTE.OTHER (R101, R162). -/
def execByteOther (d : Byte) (s : State) : Out := arriveByte d s

/-- FRAME.A (R81). With a body longer than MAX_BODY, for which R80 and R144 give no frame, the bytes are laid out and arrive
all the same: the model's choice, log 36. -/
def execFrameA (code fromAddr toAddr : Byte) (body : List Byte) (s : State) : Out :=
  arriveFrame (profileAFrame s.cfg code fromAddr toAddr body) s

/-- FRAME.B (R82). A body longer than MAX_BODY is laid out and arrives as in FRAME.A (the model's choice, log 36), up to the
255 bytes the length byte can say (log 20). -/
def execFrameB (addr0 addr1 opcode : Byte) (body : List Byte) (s : State) : Out :=
  withOperands (decide (body.length ≤ 255)) "FRAME.B"
    (arriveFrame (profileBFrame s.cfg addr0 addr1 opcode body) s)

/-- OPCODE.INFO (R103): the opcode byte 0x01 is a byte like any other; the block never looks at its meaning. -/
def execOpcodeInfo (s : State) : Out := arriveByte 0x01 s

end Sys2Proof.Machine
end

