-- ==== Sys2Proof/Machine/Dispatch.lean ====
section
/-!
DEFINITION. One arm per constructor of Instr, each one direct call of its meaning.
-/

namespace Sys2Proof.Machine

def exec (i : Instr) (s : State) : Host.Outcome State Fault Refusal :=
  match i with
  | .nop => Sys2Proof.Machine.execNop s
  | .ckInit => Sys2Proof.Machine.execCkInit s
  | .ckUpdate b => Sys2Proof.Machine.execCkUpdate b s
  | .ckBlock bytes length seed => Sys2Proof.Machine.execCkBlock bytes length seed s
  | .ckEmit => Sys2Proof.Machine.execCkEmit s
  | .ckCheck => Sys2Proof.Machine.execCkCheck s
  | .hdrPack fields n => Sys2Proof.Machine.execHdrPack fields n s
  | .hdrUnpack h => Sys2Proof.Machine.execHdrUnpack h s
  | .encode fields body => Sys2Proof.Machine.execEncode fields body s
  | .validate bytes => Sys2Proof.Machine.execValidate bytes s
  | .epListen => Sys2Proof.Machine.execEpListen s
  | .epDone => Sys2Proof.Machine.execEpDone s
  | .epReply fields body pause => Sys2Proof.Machine.execEpReply fields body pause s
  | .epFault => Sys2Proof.Machine.execEpFault s
  | .epReset => Sys2Proof.Machine.execEpReset s
  | .dirTx => Sys2Proof.Machine.execDirTx s
  | .dirRx => Sys2Proof.Machine.execDirRx s
  | .send bytes pause => Sys2Proof.Machine.execSend bytes pause s
  | .mBegin rate => Sys2Proof.Machine.execMBegin rate s
  | .mRawSend bytes pause => Sys2Proof.Machine.execMRawSend bytes pause s
  | .mRawQuery bytes pause => Sys2Proof.Machine.execMRawQuery bytes pause s
  | .mQuery ready fields body pause => Sys2Proof.Machine.execMQuery ready fields body pause s
  | .epPollIdleOther => Sys2Proof.Machine.execEpPollIdleOther s
  | .epPollIdleStart => Sys2Proof.Machine.execEpPollIdleStart s
  | .epPollHeaderNotLast => Sys2Proof.Machine.execEpPollHeaderNotLast s
  | .epPollHeaderLastOk => Sys2Proof.Machine.execEpPollHeaderLastOk s
  | .epPollHeaderLastOversize => Sys2Proof.Machine.execEpPollHeaderLastOversize s
  | .epPollReceivingNone => Sys2Proof.Machine.execEpPollReceivingNone s
  | .epPollBodyFull => Sys2Proof.Machine.execEpPollBodyFull s
  | .epPollBodyRoom => Sys2Proof.Machine.execEpPollBodyRoom s
  | .epPollBodyEndValid => Sys2Proof.Machine.execEpPollBodyEndValid s
  | .epPollBodyEndInvalid => Sys2Proof.Machine.execEpPollBodyEndInvalid s
  | .epPollIgnored => Sys2Proof.Machine.execEpPollIgnored s
  | .reserved17 => Sys2Proof.Machine.execReserved17 s
  | .reserved18 => Sys2Proof.Machine.execReserved18 s
  | .reserved19 => Sys2Proof.Machine.execReserved19 s
  | .reserved1A => Sys2Proof.Machine.execReserved1A s
  | .reserved1B => Sys2Proof.Machine.execReserved1B s
  | .reserved1C => Sys2Proof.Machine.execReserved1C s
  | .reserved1D => Sys2Proof.Machine.execReserved1D s
  | .reserved1E => Sys2Proof.Machine.execReserved1E s
  | .reserved1F => Sys2Proof.Machine.execReserved1F s
  | .byteStart => Sys2Proof.Machine.execByteStart s
  | .byteEnd => Sys2Proof.Machine.execByteEnd s
  | .byteData d => Sys2Proof.Machine.execByteData d s
  | .byteOther d => Sys2Proof.Machine.execByteOther d s
  | .frameA code fromAddr toAddr body => Sys2Proof.Machine.execFrameA code fromAddr toAddr body s
  | .frameB addr0 addr1 opcode body => Sys2Proof.Machine.execFrameB addr0 addr1 opcode body s
  | .opcodeInfo => Sys2Proof.Machine.execOpcodeInfo s

end Sys2Proof.Machine
end

