-- ==== Sys2Proof/Machine/Select.lean ====
section
/-!
DEFINITION. Which row of EP.POLL the command word 0x0A is, in a state (spec/42_receiver.md R160, log 13).
-/

namespace Sys2Proof.Machine

/-- The row of a case. -/
def pollInstr : PollCase → Instr
  | .idleOther => .epPollIdleOther
  | .idleStart => .epPollIdleStart
  | .headerNotLast => .epPollHeaderNotLast
  | .headerLastOk => .epPollHeaderLastOk
  | .headerLastOversize => .epPollHeaderLastOversize
  | .receivingNone => .epPollReceivingNone
  | .bodyFull => .epPollBodyFull
  | .bodyRoom => .epPollBodyRoom
  | .bodyEndValid => .epPollBodyEndValid
  | .bodyEndInvalid => .epPollBodyEndInvalid
  | .ignored => .epPollIgnored

/-- The decoded instruction, with EP.POLL refined to the row R160 selects. -/
def refineInstr (s : State) (i : Instr) : Instr :=
  if opcodeByte i = 0x0A then pollInstr (pollCase s) else i

end Sys2Proof.Machine
end

