-- ==== Sys2Proof/Machine/Step.lean ====
section
/-!
DEFINITION. One step: the next command on the port (spec/00_scope.md R12, spec/30_encoding.md R100). With no command
the block waits (spec/70_reset_and_hazards.md R280).
-/

namespace Sys2Proof.Machine

/-- One step. -/
def step (s : State) : Host.Outcome State Fault Refusal :=
  match s.port with
  | [] => .next s
  | b :: bs =>
    match decode s.cfg (b :: bs) with
    | .error e => .refused (.undecodable e)
    | .ok (i, rest) => exec (refineInstr s i) { s with port := rest }

/-- `s` with the instruction of an opcode-table word on the port, operands of zeros (log 14). -/
def State.withFetchWord (s : State) (nbits w : Nat) : State := { s with port := fetchBytes s.cfg nbits w }

end Sys2Proof.Machine
end

