-- ==== Sys2Proof/Machine/HostPort.lean ====
section
/-!
DEFINITION. What the host reads between steps (spec/10_state.md R34, R35, R38, R44, spec/42_receiver.md R171,
spec/44_master_query.md R233, spec/70_reset_and_hazards.md R290, R305). A read the spec gives no value faults (log 15,
18).
-/

namespace Sys2Proof.Machine

/-- The host reads `RXBUF[i]`: only below `rx_cnt` is there a value (R38). -/
def hostRxByte (s : State) (i : Nat) : Except Fault Byte :=
  if i < s.rx.rxCnt then memReadByte s.cfg.bufCap s.rx.rxbuf i else .error (.noValue i)

/-- The host reads `hdr`: unspecified until a header was decoded (R29), and then reading it faults (R44, U11). -/
def hostHdr (s : State) : Except Fault Header := if s.rx.hdrSet then .ok s.rx.hdr else .error .headerUnspecified

/-- The handler's body: `RXBUF[HDR_LEN .. rx_cnt - CK_W]` (R171). -/
def hostBody (s : State) : Except Fault (List Byte) := heldBody s.cfg s.rx.rxbuf s.rx.rxCnt

/-- The host reads `QBUF[i]`: only below `q_cnt` is there a value (R38, R39). -/
def hostQByte (s : State) (i : Nat) : Except Fault Byte :=
  if i < s.mq.qCnt then memReadByte s.cfg.bufCap s.mq.qbuf i else .error (.noValue i)

/-- The content of the QueryResult (R233): header and body when `q_valid` is 1. -/
def hostQueryContent (s : State) : Except Fault (Header × List Byte) :=
  if s.mq.qValid then
    match heldBody s.cfg s.mq.qbuf s.mq.qCnt with
    | .ok body => .ok (s.mq.qHdr, body)
    | .error f => .error f
  else .error .noContent

/-- The bytes LineWrite has accepted, in order (R305). -/
def acceptedBytes (s : State) : List Byte :=
  s.line.trace.flatMap fun op =>
    match op with
    | .wrote bs => bs
    | .opened _ => []
    | .direction _ => []
    | .flushed => []
    | .masterState _ => []
    | .endpointState _ => []

end Sys2Proof.Machine
end

