-- ==== Sys2Proof/Safety.lean ====
section
/-!
DEFINITION. What the statements speak of: the invariants of spec/42_receiver.md R191 and spec/44_master_query.md R236,
lawful configurations (spec/40_checksum.md R120), and the discipline of the direction (spec/43_direction.md R204).
-/

namespace Sys2Proof.Machine

/-- The n bytes of a buffer from index a, where all are written. -/
def memBytes (m : Mem) (a n : Nat) : List Byte := (List.range n).map fun i => (memGet m (a + i)).getD 0

/-- The first n indices of a buffer are written. -/
def Written (m : Mem) (n : Nat) : Prop := ∀ i < n, (memGet m i).isSome

/-- The stored bytes the checksum covers (R191(5)): all of them under HeaderBody, those from HDR_LEN under BodyOnly. -/
def coveredBytes (cfg : Config) (r : Receiver) : List Byte :=
  match cfg.profile.cover with
  | .headerBody => memBytes r.rxbuf 0 r.rxCnt
  | .bodyOnly => memBytes r.rxbuf cfg.hdrLen (r.rxCnt - cfg.hdrLen)

/-- The receiver is inside a frame. -/
def inFrame (st : EpState) : Prop := st = .receivingHeader ∨ st = .receivingBody

/-- The receiver's registers between steps (R26, R191). -/
structure ReceiverInv (cfg : Config) (r : Receiver) : Prop where
  /-- R191(1). -/
  notTransmitting : r.epState ≠ .transmitting
  /-- R191(3). -/
  cntLe : r.rxCnt ≤ cfg.bufCap
  /-- R191(4). -/
  inHeader : r.epState = .receivingHeader → r.rxCnt < cfg.hdrLen
  /-- R191(4). -/
  inBody : r.epState = .receivingBody → cfg.hdrLen ≤ r.rxCnt
  /-- R191(5). -/
  checksum : inFrame r.epState → r.rxCk = cfg.fold cfg.ckSeed (coveredBytes cfg r)
  /-- R191(6). -/
  busyChecksum : r.epState = .busy → r.rxCk = 0
  /-- R191(6). -/
  busyStatus : r.epState = .busy → r.epStatus &&& 0x0E = 0
  /-- R191(6). -/
  busyCount : r.epState = .busy → cfg.hdrLen + cfg.ckW ≤ r.rxCnt
  /-- No flag is up while a frame comes in (R163). -/
  frameStatus : inFrame r.epState → r.epStatus = 0x00
  /-- R191(7), R250. -/
  status : statusLegal r.epStatus = true
  /-- The buffer is in canonical form, below BUF_CAP (R72). -/
  bufferWf : Memory.wf cfg.bufCap r.rxbuf = true
  /-- Every index below the fill count is written (R26, R38). -/
  written : Written r.rxbuf r.rxCnt
  /-- `hdr` is the decode of the stored header (R29). -/
  header : r.epState = .receivingBody ∨ r.epState = .busy → r.hdr = unpackHeader cfg (memBytes r.rxbuf 0 cfg.hdrLen)
  /-- The host may read `hdr` then (R29, R44). -/
  headerSet : r.epState = .receivingBody ∨ r.epState = .busy → r.hdrSet = true
  /-- `rx_ck` has `8*CK_W` bits (R28). -/
  fits : cfg.ckFits r.rxCk = true

/-- The master's result registers (R34, R39, R236(2)). -/
structure ResultInv (cfg : Config) (q : Master) : Prop where
  cntLe : q.qCnt ≤ cfg.bufCap
  /-- R236(2), R250. -/
  status : statusLegal q.qStatus = true
  bufferWf : Memory.wf cfg.bufCap q.qbuf = true
  written : Written q.qbuf q.qCnt
  /-- R34: content holds at least the full header. -/
  validCount : q.qValid = true → cfg.hdrLen ≤ q.qCnt
  /-- R29, R34. -/
  header : q.qValid = true → q.qHdr = unpackHeader cfg (memBytes q.qbuf 0 cfg.hdrLen)

/-- Between steps `m_state` is Setup or Idle (R25). -/
def MasterRests (q : Master) : Prop := q.mState = .setup ∨ q.mState = .idle

/-- The invariant of the whole machine. -/
structure Inv (s : State) : Prop where
  cfgOk : s.cfg.ok = true
  rx : ReceiverInv s.cfg s.rx
  mq : ResultInv s.cfg s.mq
  rests : MasterRests s.mq
  ckFits : s.cfg.ckFits s.ck = true
  /-- `hdr` and `q_hdr` hold HDR_LEN bytes as fields, decoded or not (R20). -/
  hdrFits : Header.fits s.cfg s.rx.hdr = true
  qHdrFits : Header.fits s.cfg s.mq.qHdr = true

/-- Only the environment's waiting bytes, looks and clock differ: what LineAvail, LineRead and a wait can do. -/
def OnlyLine (s t : State) : Prop :=
  t = { s with line := { s.line with waiting := t.line.waiting, now := t.line.now, looks := t.line.looks } }

/-- Only the receiver, the result and the environment's waiting bytes, looks and clock differ: what a poll can do. -/
def OnlyPoll (s t : State) : Prop :=
  t = { s with rx := t.rx, result := t.result, line := { s.line with waiting := t.line.waiting, now := t.line.now, looks := t.line.looks } }

/-- The role of a command that only one role has (R100): the `EP.*` and the `M.*` commands. -/
def commandRole : Instr → Option Role
  | .nop => none
  | .ckInit => none
  | .ckUpdate _ => none
  | .ckBlock _ _ _ => none
  | .ckEmit => none
  | .ckCheck => none
  | .hdrPack _ _ => none
  | .hdrUnpack _ => none
  | .encode _ _ => none
  | .validate _ => none
  | .epListen => some .endpoint
  | .epDone => some .endpoint
  | .epReply _ _ _ => some .endpoint
  | .epFault => some .endpoint
  | .epReset => some .endpoint
  | .dirTx => none
  | .dirRx => none
  | .send _ _ => none
  | .mBegin _ => some .master
  | .mRawSend _ _ => some .master
  | .mRawQuery _ _ => some .master
  | .mQuery _ _ _ _ => some .master
  | .epPollIdleOther => some .endpoint
  | .epPollIdleStart => some .endpoint
  | .epPollHeaderNotLast => some .endpoint
  | .epPollHeaderLastOk => some .endpoint
  | .epPollHeaderLastOversize => some .endpoint
  | .epPollReceivingNone => some .endpoint
  | .epPollBodyFull => some .endpoint
  | .epPollBodyRoom => some .endpoint
  | .epPollBodyEndValid => some .endpoint
  | .epPollBodyEndInvalid => some .endpoint
  | .epPollIgnored => some .endpoint
  | .reserved17 => none
  | .reserved18 => none
  | .reserved19 => none
  | .reserved1A => none
  | .reserved1B => none
  | .reserved1C => none
  | .reserved1D => none
  | .reserved1E => none
  | .reserved1F => none
  | .byteStart => none
  | .byteEnd => none
  | .byteData _ => none
  | .byteOther _ => none
  | .frameA _ _ _ _ => none
  | .frameB _ _ _ _ => none
  | .opcodeInfo => none

/-- A row of what arrives on the line (R101, R81, R82, R103), no command: the first byte's bits 7:5 are 001. -/
def isArrival (i : Instr) : Bool := decide (0x20 ≤ (opcodeByte i).toNat)

/-- One entry of the trace under a direction: the direction after it, or none where a write would be made with `dir` in
receive mode (R204). -/
def directOne (d : Dir) (op : LineOp) : Option Dir :=
  match op with
  | .opened _ => some d
  | .direction d' => some d'
  | .wrote _ => if d = .tx then some .tx else none
  | .flushed => some d
  | .masterState _ => some d
  | .endpointState _ => some d

/-- A stretch of the trace from a direction on (R204). -/
def directAll (d : Dir) : List LineOp → Option Dir
  | [] => some d
  | op :: ops =>
    match directOne d op with
    | some d' => directAll d' ops
    | none => none

/-- n EP.POLL steps one after another (R301). -/
def pollTimes : Nat → State → Except Fault State
  | 0, s => .ok s
  | n + 1, s =>
    match poll s with
    | .ok t => pollTimes n t
    | .error f => .error f

/-- No byte waits and none will come. -/
def SilentLine (s : State) : Prop := s.line.waiting = [] ∧ s.line.looks = []

/-- The guard interval as a write of its own (R202, R232). -/
def guardWrites (cfg : Config) (pause : Bool) : List (List Byte) :=
  if pause then [List.replicate cfg.guardLen cfg.guardByte] else []

/-- The three writes of M.QUERY (R232): header, body, checksum, with the delimiters. -/
def frameWrites (cfg : Config) (fields body : List Byte) : List (List Byte) :=
  [[cfg.startDelim] ++ headerFor cfg fields body, body, cfg.emit (encodeCk cfg fields body) ++ [cfg.endDelim]]

/-- A query that sends, with the writes it makes in order: M.RAWQUERY of any bytes (R222), or M.QUERY of a ready Request
whose body fits (R232). -/
def QuerySends (cfg : Config) (i : Instr) (writes : List (List Byte)) : Prop :=
  (∃ bytes pause, i = .mRawQuery bytes pause ∧ writes = guardWrites cfg pause ++ [bytes]) ∨
  (∃ fields body pause, i = .mQuery true fields body pause ∧ cfg.fieldsFit fields = true ∧ body.length ≤ cfg.maxBody ∧
    writes = guardWrites cfg pause ++ frameWrites cfg fields body)

/-- The prefixes the environment accepts of writes made one after another (R71). -/
def acceptedPrefixes : List Nat → List (List Byte) → List (List Byte)
  | _, [] => []
  | accepts, w :: ws => w.take (acceptedCount accepts w.length) :: acceptedPrefixes accepts.tail ws

/-- The flags of the sending half: TX_ERROR when a write was short (R222, R232). -/
def sendStatus (accepts : List Nat) (writes : List (List Byte)) : Byte :=
  if acceptedPrefixes accepts writes = writes then 0x00 else flagTxError

/-- What the environment answers to this state and to that one is the same, and so is the clock (R236(5)). -/
def SameAnswers (s t : State) : Prop :=
  s.line.waiting = t.line.waiting ∧ s.line.looks = t.line.looks ∧ s.line.accepts = t.line.accepts ∧
  s.line.now = t.line.now

end Sys2Proof.Machine
end

