-- ==== Sys2Proof/Certificates/Slice0/Obligations.lean ====
section
/-!
DEFINITION. The statements for the provers. Each docstring names the rules of spec/ it formalises; OBLIGATIONS.json
gives ids, tiers and quotes.
-/

open Sys2Proof Sys2Proof.Machine

/-! The command port. -/

/-- Decoding the words of a well-formed instruction gives it back, with every operand at every value, and leaves the
bytes behind it; EP.POLL's eleven rows have one word (log 11, 13, 30). -/
def Obligations.DecodeEncodeAgree : Prop :=
  ∀ (cfg : Config) (i : Instr) (rest : List Byte), WellFormed cfg i = true →
    decode cfg (encode cfg i ++ rest) = .ok (canonical i, rest)

/-- Whatever the decoder reads is well formed and is read from its own words, and operands outside a rule's domain stop
the instruction under the name of its mnemonic (log 20). -/
def Obligations.OnlyWellFormedIsDecoded : Prop :=
  (∀ (cfg : Config) (bs : List Byte) (i : Instr) (rest : List Byte), decode cfg bs = .ok (i, rest) →
    WellFormed cfg i = true ∧ bs = encode cfg i ++ rest) ∧
  (∀ (s : State) (i : Instr), WellFormed s.cfg i = false → ∃ m, exec i s = .refused (.operandShape m))

/-- A few words written out: commands under the codes of R100's table, with operands as the port takes them (log 11), the
frame row under the model's own first byte 0x24 (log 12), and 0xFF, which is no first byte (log 20). -/
def Obligations.SampleWordsDecode : Prop :=
  let a := Config.of .endpoint Profile.a [0x20]
  let b := Config.of .master Profile.b [0x01, 0x00]
  decode a [0x02, 0x31] = .ok (.ckUpdate 0x31, []) ∧
  decode a [0x03, 1, 0xAA, 1, 0x55, 0, 0, 0, 0, 2, 0x77, 0x0C] = .ok (.ckBlock [0xAA, 0x55] 2 0x77, [0x0C]) ∧
  decode a [0x06, 0x05, 0x10, 0x20, 0x00] = .ok (.hdrPack [0x05, 0x10, 0x20] 0, []) ∧
  decode a [0x0D, 0x05, 0x20, 0x10, 0, 0] = .ok (.epReply [0x05, 0x20, 0x10] [] false, []) ∧
  decode a [0x12, 1, 0x02, 0, 1] = .ok (.send [0x02] true, []) ∧
  decode b [0x13, 0x00, 0x00, 0x25, 0x80] = .ok (.mBegin 9600, []) ∧
  decode b [0x16, 1, 0x01, 0x00, 0x01, 0, 0] = .ok (.mQuery true [0x01, 0x00, 0x01] [] false, []) ∧
  decode a [0x17] = .ok (.reserved17, []) ∧
  decode a [0x24, 0x01, 0x10, 0x20, 0] = .ok (.frameA 0x01 0x10 0x20 [], []) ∧
  decode a [0xFF] = .error .unknownFirstByte

/-- A step runs the command its port holds: `exec` of it in the state whose port has moved past its words; the word of
EP.POLL is the row R160 selects, and whichever of its rows runs, it applies the rule R160 selects (log 13); without a
command the block waits (R280); bytes that are no command are refused. -/
def Obligations.StepRunsDecoded : Prop :=
  (∀ (s : State) (i : Instr) (rest : List Byte), decode s.cfg s.port = .ok (i, rest) → opcodeByte i ≠ 0x0A →
    step s = exec i { s with port := rest }) ∧
  (∀ (s : State) (i : Instr) (rest : List Byte), decode s.cfg s.port = .ok (i, rest) → opcodeByte i = 0x0A →
    step s = exec (pollInstr (pollCase s)) { s with port := rest }) ∧
  (∀ (s : State) (i : Instr), opcodeByte i = 0x0A → s.cfg.role = .endpoint → exec i s = finish (poll s)) ∧
  (∀ s : State, s.port = [] → step s = .next s) ∧
  (∀ (s : State) (e : DecodeError), s.port ≠ [] → decode s.cfg s.port = .error e → step s = .refused (.undecodable e))

/-- A refused command (R105; the model's reading of it: log 10) returns `Refused` and changes nothing else: reserved
codes, commands of the other role, failed state preconditions. -/
def Obligations.RefusedCommands : Prop :=
  (∀ (s : State) (i : Instr), 0x17 ≤ (opcodeByte i).toNat → (opcodeByte i).toNat ≤ 0x1F →
    exec i s = .next { s with result := .refused }) ∧
  (∀ (s : State) (i : Instr) (r : Role), commandRole i = some r → s.cfg.role ≠ r → WellFormed s.cfg i = true →
    exec i s = .next { s with result := .refused }) ∧
  (∀ s : State, s.rx.epState ≠ .busy → exec .epDone s = .next { s with result := .refused }) ∧
  (∀ (s : State) (fields body : List Byte) (pause : Bool), s.cfg.fieldsFit fields = true → s.rx.epState ≠ .busy →
    exec (.epReply fields body pause) s = .next { s with result := .refused }) ∧
  (∀ (s : State) (rate : BitVec 32), s.mq.mState ≠ .setup → s.mq.mState ≠ .idle →
    exec (.mBegin rate) s = .next { s with result := .refused }) ∧
  (∀ (s : State) (bytes : List Byte) (pause : Bool), s.mq.mState ≠ .idle →
    exec (.mRawSend bytes pause) s = .next { s with result := .refused } ∧
    exec (.mRawQuery bytes pause) s = .next { s with result := .refused }) ∧
  (∀ (s : State) (ready : Bool) (fields body : List Byte) (pause : Bool), s.cfg.fieldsFit fields = true →
    s.mq.mState ≠ .idle → exec (.mQuery ready fields body pause) s = .next { s with result := .refused })

/-- NOP, code 0x00, changes no state and returns nothing (R104). -/
def Obligations.NopChangesNothing : Prop :=
  opcodeByte .nop = 0x00 ∧ ∀ s : State, exec .nop s = .next { s with result := .nothing }

/-! The checksum unit. -/

/-- CK.INIT loads the seed (R127); CK.UPDATE feeds one byte (R128). -/
def Obligations.CkInitAndUpdate : Prop :=
  opcodeByte .ckInit = 0x01 ∧ (∀ b, opcodeByte (.ckUpdate b) = 0x02) ∧
  (∀ s : State, exec .ckInit s = .next { s with ck := s.cfg.ckSeed, result := .nothing }) ∧
  (∀ (r : Role) (p : Profile) (a : List Byte), (Config.of r p a).ckSeed = 0) ∧
  (∀ (s : State) (b : Byte), exec (.ckUpdate b) s = .next { s with ck := s.cfg.upd s.ck b, result := .nothing }) ∧
  CkAlgo.crc8.upd 0 0x00 = 0 ∧ CkAlgo.crc16.upd 0 0x00 = 0 ∧
  CkAlgo.crc8.upd 0 0x01 = 0x07 ∧ CkAlgo.crc16.upd 0 0x01 = 0x1021

/-- CK.BLOCK folds the first `length` bytes from the seed and returns what it leaves in `ck` (R129); the checksum is
incremental (R121). -/
def Obligations.CkBlockFolds : Prop :=
  (∀ x n c, opcodeByte (.ckBlock x n c) = 0x03) ∧
  (∀ (s : State) (bytes : List Byte) (length : BitVec 32) (seed : Ck), length.toNat ≤ bytes.length →
    s.cfg.ckFits seed = true →
    exec (.ckBlock bytes length seed) s =
      .next { s with
        ck := s.cfg.fold seed (bytes.take length.toNat)
        result := .checksum (s.cfg.fold seed (bytes.take length.toNat)) }) ∧
  (∀ (a : CkAlgo) (c : Ck) (s t : List Byte),
    a.fold c (s.take 0) = c ∧ a.fold c (s ++ t) = a.fold (a.fold c s) t) ∧
  (∀ (s u v : State) (x y : List Byte) (lx ly lxy : BitVec 32) (seed c : Ck),
    lx.toNat = x.length → ly.toNat = y.length → lxy.toNat = (x ++ y).length → s.cfg.ckFits seed = true →
    exec (.ckBlock x lx seed) s = .next u → u.result = .checksum c → exec (.ckBlock y ly c) s = .next v →
    exec (.ckBlock (x ++ y) lxy seed) s = .next v) ∧
  CkAlgo.crc8.fold 0 [0x05, 0x10, 0x20, 0xAA, 0x55] = 0xFF ∧
  CkAlgo.crc16.fold 0 [0x64, 0x65, 0x76, 0x69, 0x63, 0x65, 0x2D, 0x76, 0x31] = 0xC1F1

/-- CK.CHECK returns whether `ck` is neutral (R131) and CK.EMIT the checksum's bytes (R130, the spec's own inference from
R124); neither changes `ck`. -/
def Obligations.CkEmitAndCheck : Prop :=
  opcodeByte .ckEmit = 0x04 ∧ opcodeByte .ckCheck = 0x05 ∧
  (∀ s : State, exec .ckEmit s = .next { s with result := .bytes (s.cfg.emit s.ck) }) ∧
  CkAlgo.crc16.emit 0xC1F1 = [0xC1, 0xF1] ∧
  (∀ s : State, exec .ckCheck s = .next { s with result := .verdict (decide (s.ck = 0)) }) ∧
  (∀ s t : State, s.cfg.ckSeed = 0 → exec .ckInit s = .next t → exec .ckCheck t = .next { t with result := .verdict true }) ∧
  CkAlgo.crc8.fold 0 [0x05, 0x10, 0x20, 0xAA, 0x55, 0xFF] = 0

/-- The neutrality law holds for CRC8, CRC16 and SUM8, for every seed and message, and does not hold for CRC16 with
the low byte first (the spec's own inference in spec/40_checksum.md sections 2 and 6). -/
def Obligations.NeutralityLaw : Prop :=
  CkAlgo.crc8.Neutral ∧ CkAlgo.crc16.Neutral ∧ CkAlgo.sum8.Neutral ∧
  (∀ (a : CkAlgo) (seed : Ck) (m : List Byte), a = .crc8 ∨ a = .crc16 ∨ a = .sum8 → seed.toNat < 2 ^ (8 * a.width) →
    a.fold seed (m ++ a.emit (a.fold seed m)) = 0) ∧
  ¬ ∀ c : Ck, CkAlgo.crc16.fold c [c.setWidth 8, (c >>> 8).setWidth 8] = 0

/-- The CRCs' update is linear over exclusive-or, every update has the algorithm's width, and a message of zeros keeps
a zero checksum (the spec's own inference in spec/40_checksum.md section 5). -/
def Obligations.UpdateIsLinear : Prop :=
  (∀ (a : CkAlgo) (c d : Ck) (x y : Byte), a = .crc8 ∨ a = .crc16 →
    a.upd (c ^^^ d) (x ^^^ y) = a.upd c x ^^^ a.upd d y) ∧
  (∀ (a : CkAlgo) (c : Ck) (b : Byte), (a.upd c b).toNat < 2 ^ (8 * a.width)) ∧
  (∀ (a : CkAlgo) (n : Nat), a = .crc8 ∨ a = .crc16 → a.fold 0 (List.replicate n 0x00) = 0)

/-- Continuing through the checksum bytes to zero and comparing them with the recomputed checksum give the same verdict,
for both CRCs (the spec's own inference in spec/40_checksum.md section 3). -/
def Obligations.ValidIffChecksumMatches : Prop :=
  ∀ (a : CkAlgo) (seed : Ck) (d k : List Byte), a = .crc8 ∨ a = .crc16 → seed.toNat < 2 ^ (8 * a.width) →
    k.length = a.width → (a.fold seed (d ++ k) = 0 ↔ k = a.emit (a.fold seed d))

/-- Flipping one bit of a covered or checksum byte always changes the final running value, for both CRCs (the spec's
own inference in spec/40_checksum.md section 5). -/
def Obligations.OneBitFlipIsDetected : Prop :=
  ∀ (a : CkAlgo) (seed : Ck) (x y : List Byte) (b : Byte) (i : Fin 8), a = .crc8 ∨ a = .crc16 →
    seed.toNat < 2 ^ (8 * a.width) → a.fold seed (x ++ (b ^^^ ((1 : Byte) <<< i.val)) :: y) ≠ a.fold seed (x ++ b :: y)

/-! The encoder and decoder. -/

/-- HDR.PACK and HDR.UNPACK (R141, R142), the two named layouts, and that each undoes the other in every layout. -/
def Obligations.HeaderPackUnpack : Prop :=
  (∀ f n, opcodeByte (.hdrPack f n) = 0x06) ∧ (∀ h, opcodeByte (.hdrUnpack h) = 0x07) ∧
  (∀ (s : State) (fields : List Byte) (n : Byte), s.cfg.fieldsFit fields = true →
    exec (.hdrPack fields n) s = .next { s with result := .bytes (packHeader s.cfg fields n) } ∧
    (packHeader s.cfg fields n).length = s.cfg.hdrLen) ∧
  (∀ (r : Role) (a : List Byte) (code fromAddr toAddr n : Byte),
    packHeader (Config.of r Profile.a a) [code, fromAddr, toAddr] n = [code, fromAddr, toAddr] ∧
    packHeader (Config.of r Profile.b a) [code, fromAddr, toAddr] n = [code, fromAddr, toAddr, n]) ∧
  (∀ (s : State) (h : List Byte), h.length = s.cfg.hdrLen →
    exec (.hdrUnpack h) s = .next { s with result := .header (unpackHeader s.cfg h) }) ∧
  (∀ (r : Role) (a : List Byte) (w x y z : Byte),
    unpackHeader (Config.of r Profile.a a) [w, x, y] = { Header.zero with code := w, fromAddr := [x], toAddr := [y] } ∧
    unpackHeader (Config.of r Profile.b a) [w, x, y, z] =
      { Header.zero with addr := [w, x], opcode := y, bodyLen := z }) ∧
  (∀ (cfg : Config) (fields : List Byte) (n : Byte), cfg.profile.layout.Nodup → cfg.fieldsFit fields = true →
    fieldBytes cfg (unpackHeader cfg (packHeader cfg fields n)) = fields ∧
    (cfg.profile.lenW = true → (unpackHeader cfg (packHeader cfg fields n)).bodyLen = n)) ∧
  (∀ (cfg : Config) (h : List Byte), cfg.profile.layout.Nodup → h.length = cfg.hdrLen →
    packHeader cfg (fieldBytes cfg (unpackHeader cfg h)) (unpackHeader cfg h).bodyLen = h)

/-- ENCODE returns the delimited frame and leaves its checksum in `ck` (R143); a body longer than MAX_BODY is refused
with BUFFER_EXHAUSTED and `ck` unchanged (R144); the length of a frame is R80's. -/
def Obligations.EncodeFrames : Prop :=
  (∀ f b, opcodeByte (.encode f b) = 0x08) ∧
  (∀ (s : State) (fields body : List Byte), s.cfg.fieldsFit fields = true → body.length ≤ s.cfg.maxBody →
    let h := packHeader s.cfg fields (BitVec.ofNat 8 body.length)
    let c := s.cfg.fold s.cfg.ckSeed (s.cfg.coverOf h body)
    exec (.encode fields body) s =
      .next { s with
        ck := c
        result := .bytes ([s.cfg.startDelim] ++ h ++ body ++ s.cfg.emit c ++ [s.cfg.endDelim]) } ∧
    ([s.cfg.startDelim] ++ h ++ body ++ s.cfg.emit c ++ [s.cfg.endDelim]).length =
      s.cfg.hdrLen + body.length + s.cfg.ckW + 2 ∧
    s.cfg.hdrLen + body.length + s.cfg.ckW + 2 ≤ s.cfg.bufCap + 2) ∧
  (∀ (s : State) (fields body : List Byte), s.cfg.fieldsFit fields = true → s.cfg.maxBody < body.length →
    exec (.encode fields body) s = .next { s with result := .refusedFor 0x09 }) ∧
  encodeFrame Config.standard [0x05, 0x10, 0x20] [0xAA, 0x55] = [0x02, 0x05, 0x10, 0x20, 0xAA, 0x55, 0xFF, 0x03]

/-- The frames of the two profiles byte by byte (R81, R82): what the frame rows put on the line is what ENCODE's frame function
gives in that profile. For a body longer than MAX_BODY, where ENCODE refuses, the layout is the model's choice (log 36). -/
def Obligations.ProfileFrames : Prop :=
  (∀ (cfg : Config) (code fromAddr toAddr : Byte) (body : List Byte),
    profileAFrame cfg code fromAddr toAddr body =
      [cfg.startDelim, code, fromAddr, toAddr] ++ body ++
        [(CkAlgo.crc8.fold cfg.ckSeed ([code, fromAddr, toAddr] ++ body)).setWidth 8, cfg.endDelim] ∧
    profileAFrame cfg code fromAddr toAddr body =
      encodeFrame { cfg with profile := Profile.a } [code, fromAddr, toAddr] body) ∧
  (∀ (cfg : Config) (x y opcode : Byte) (body : List Byte),
    let n := BitVec.ofNat 8 body.length
    let c := CkAlgo.crc16.fold cfg.ckSeed
      (match cfg.profile.cover with
        | .bodyOnly => body
        | .headerBody => [x, y, opcode, n] ++ body)
    profileBFrame cfg x y opcode body =
      [cfg.startDelim, x, y, opcode, n] ++ body ++ [(c >>> 8).setWidth 8, c.setWidth 8, cfg.endDelim] ∧
    profileBFrame cfg x y opcode body =
      encodeFrame { cfg with profile := { Profile.b with cover := cfg.profile.cover } } [x, y, opcode] body)

/-- Round trip: VALIDATE of an encoded frame returns MsgReady with the same header fields, the same body and no flag,
where no byte of body and checksum equals END_DELIM (the spec's own inference in spec/41_encoder.md; for every algorithm
that meets the neutrality law). -/
def Obligations.ValidateRoundTrip : Prop :=
  ∀ (s : State) (fields body : List Byte), s.cfg.ok = true → s.cfg.profile.algo.Neutral →
    s.cfg.fieldsFit fields = true → body.length ≤ s.cfg.maxBody →
    frameSafe s.cfg (headerFor s.cfg fields body) body = true →
    ∃ h, exec (.validate (encodeFrame s.cfg fields body)) s =
        .next { s with result := .validated .msgReady 0x00 (some (h, body)) } ∧
      fieldBytes s.cfg h = fields ∧ (s.cfg.profile.lenW = true → h.bodyLen = BitVec.ofNat 8 body.length)

/-- VALIDATE (R147) answers what polling a receiver fresh from reset through the bytes gives, up to the first of the three
final events, and changes no register; bytes before the first START_DELIM are skipped, bytes behind the end are not looked
at. -/
def Obligations.ValidateIsPure : Prop :=
  (∀ bytes, opcodeByte (.validate bytes) = 0x09) ∧
  (∀ (s : State) (bytes : List Byte), s.cfg.ok = true →
    let p := { State.resetWith s.cfg with line := { Line.reset s.cfg with waiting := bytes } }
    ∃ n u res, n ≤ bytes.length ∧ pollTimes n p = .ok u ∧ exec (.validate bytes) s = .next { s with result := res } ∧
      (∀ m v, m < n → pollTimes m p = .ok v → endsValidate (lastEvent v) = false) ∧
      ((endsValidate (lastEvent u) = true ∧ ∃ c, res = .validated (lastEvent u) u.rx.epStatus c ∧
          (if lastEvent u = .msgReady then ∃ b, hostBody u = .ok b ∧ c = some (u.rx.hdr, b) else c = none)) ∨
        (endsValidate (lastEvent u) = false ∧ n = bytes.length ∧ res = .incomplete u.rx.epStatus))) ∧
  (∀ (s : State) (junk bytes : List Byte), s.cfg.startDelim ∉ junk →
    exec (.validate (junk ++ bytes)) s = exec (.validate bytes) s) ∧
  (∀ (s : State) (bytes : List Byte), s.cfg.startDelim ∉ bytes →
    exec (.validate bytes) s = .next { s with result := .incomplete 0x00 }) ∧
  (∀ (s : State) (bytes more : List Byte) (e : Event) (st : Byte) (c : Option (Header × List Byte)),
    exec (.validate bytes) s = .next { s with result := .validated e st c } →
    exec (.validate (bytes ++ more)) s = .next { s with result := .validated e st c }) ∧
  exec (.validate [0x02, 0x05, 0x10, 0x20, 0xAA, 0x55, 0xFF, 0x03]) State.reset =
    .next { State.reset with
      result := .validated .msgReady 0x00
        (some ({ Header.zero with code := 0x05, fromAddr := [0x10], toAddr := [0x20] }, [0xAA, 0x55])) } ∧
  exec (.validate [0x02, 0x05, 0x10, 0x20, 0xAA, 0x54, 0xFF, 0x03]) State.reset =
    .next { State.reset with result := .validated .corrupted 0x05 none }

/-! The receiver. `look s` is `s` after the environment has acted before LineAvail; `lineRead` of it is what LineAvail
and LineRead give. -/

/-- Nothing to read inside a frame (R167), or a state in which nothing is read (R174): nothing changes but the result; and
while `dir` is TX there is nothing to read (R205). -/
def Obligations.PollWithoutByte : Prop :=
  (∀ s : State, s.cfg.role = .endpoint → inFrame s.rx.epState → lineRead (look s) = none →
    exec .epPollReceivingNone s = .next { look s with result := .event .noByte }) ∧
  (∀ s : State, s.cfg.role = .endpoint →
    s.rx.epState = .busy ∨ s.rx.epState = .transmitting ∨ s.rx.epState = .error →
    exec .epPollIgnored s = .next { s with result := .event .ignored }) ∧
  (∀ s : State, OnlyLine s (look s)) ∧
  (∀ s : State, s.dir = .tx → lineRead (look s) = none)

/-- Idle (R162): with no byte nothing changes; a byte that is not START_DELIM is taken off the line and discarded. -/
def Obligations.IdleDiscardsOther : Prop :=
  (∀ s : State, s.cfg.role = .endpoint → s.rx.epState = .idle → lineRead (look s) = none →
    exec .epPollIdleOther s = .next { look s with result := .event .noByte } ∧ OnlyLine s (look s)) ∧
  (∀ (s u : State) (b : Byte), s.cfg.role = .endpoint → s.rx.epState = .idle → lineRead (look s) = some (b, u) →
    b ≠ s.cfg.startDelim →
    exec .epPollIdleOther s = .next { u with result := .event .notDetected } ∧ OnlyLine s u ∧
    (look s).line.waiting = b :: u.line.waiting)

/-- Idle, START_DELIM (R163): checksum and counter reset, `ep_status` cleared, to ReceivingHeader; the delimiter is
neither stored nor fed to the checksum. -/
def Obligations.StartDelimiterOpensFrame : Prop :=
  ∀ s u : State, s.cfg.role = .endpoint → s.rx.epState = .idle → lineRead (look s) = some (s.cfg.startDelim, u) →
    exec .epPollIdleStart s =
      .next { u with
        rx := { s.rx with rxCk := s.cfg.ckSeed, rxCnt := 0, epStatus := 0x00, epState := .receivingHeader }
        result := .event .frameStart } ∧
    OnlyLine s u

/-- ReceivingHeader, not the last header byte (R164): any byte value is stored. -/
def Obligations.HeaderByteStored : Prop :=
  ∀ (s u : State) (b : Byte), s.cfg.role = .endpoint → s.rx.epState = .receivingHeader →
    s.rx.rxCnt + 1 < s.cfg.hdrLen → lineRead (look s) = some (b, u) →
    exec .epPollHeaderNotLast s =
      .next { u with
        rx := { s.rx with
          rxbuf := memSet s.rx.rxbuf s.rx.rxCnt b
          rxCk := if s.cfg.profile.cover = .headerBody then s.cfg.upd s.rx.rxCk b else s.rx.rxCk
          rxCnt := s.rx.rxCnt + 1 }
        result := .event .stored } ∧
    OnlyLine s u

/-- ReceivingHeader, the last header byte, body length acceptable (R165). -/
def Obligations.LastHeaderByteDecodes : Prop :=
  ∀ (s u : State) (b : Byte), s.cfg.role = .endpoint → s.rx.epState = .receivingHeader →
    s.rx.rxCnt + 1 = s.cfg.hdrLen → Written s.rx.rxbuf s.rx.rxCnt → lineRead (look s) = some (b, u) →
    s.cfg.profile.lenW = false ∨ b.toNat ≤ s.cfg.maxBody →
    exec .epPollHeaderLastOk s =
      .next { u with
        rx := { s.rx with
          rxbuf := memSet s.rx.rxbuf s.rx.rxCnt b
          rxCk := if s.cfg.profile.cover = .headerBody then s.cfg.upd s.rx.rxCk b else s.rx.rxCk
          rxCnt := s.cfg.hdrLen
          hdr := unpackHeader s.cfg (memBytes (memSet s.rx.rxbuf s.rx.rxCnt b) 0 s.cfg.hdrLen)
          hdrSet := true
          epState := .receivingBody }
        result := .event .headerDone } ∧
    OnlyLine s u

/-- ReceivingHeader, the last header byte, body length above MAX_BODY (R166): BUFFER_EXHAUSTED, back to Idle. -/
def Obligations.OversizeHeaderAborts : Prop :=
  ∀ (s u : State) (b : Byte), s.cfg.role = .endpoint → s.rx.epState = .receivingHeader →
    s.rx.rxCnt + 1 = s.cfg.hdrLen → Written s.rx.rxbuf s.rx.rxCnt → lineRead (look s) = some (b, u) →
    s.cfg.profile.lenW = true → s.cfg.maxBody < b.toNat →
    exec .epPollHeaderLastOversize s =
      .next { u with
        rx := { s.rx with
          rxbuf := memSet s.rx.rxbuf s.rx.rxCnt b
          rxCnt := s.cfg.hdrLen
          hdr := unpackHeader s.cfg (memBytes (memSet s.rx.rxbuf s.rx.rxCnt b) 0 s.cfg.hdrLen)
          hdrSet := true
          epStatus := s.rx.epStatus ||| 0x09
          epState := .idle }
        result := .event .overflow } ∧
    OnlyLine s u

/-- ReceivingBody, a byte that is not END_DELIM: with room left it is stored and fed to the checksum (R170); with the
buffer full BUFFER_EXHAUSTED is raised, back to Idle, buffer and counter kept (R169). -/
def Obligations.BodyByteStoredOrAborts : Prop :=
  ∀ (s u : State) (b : Byte), s.cfg.role = .endpoint → s.rx.epState = .receivingBody →
    lineRead (look s) = some (b, u) → b ≠ s.cfg.endDelim →
    OnlyLine s u ∧
    (s.rx.rxCnt < s.cfg.bufCap →
      exec .epPollBodyRoom s =
        .next { u with
          rx := { s.rx with
            rxbuf := memSet s.rx.rxbuf s.rx.rxCnt b
            rxCk := s.cfg.upd s.rx.rxCk b
            rxCnt := s.rx.rxCnt + 1 }
          result := .event .stored }) ∧
    (s.rx.rxCnt = s.cfg.bufCap →
      exec .epPollBodyFull s =
        .next { u with
          rx := { s.rx with epStatus := s.rx.epStatus ||| 0x09, epState := .idle }
          result := .event .overflow })

/-- ReceivingBody, END_DELIM: a valid frame is held in Busy (R171), any other is discarded with CRC_FAILED (R172); the
buffer's fill does not matter. -/
def Obligations.EndDelimiterGivesVerdict : Prop :=
  ∀ s u : State, s.cfg.role = .endpoint → s.rx.epState = .receivingBody → lineRead (look s) = some (s.cfg.endDelim, u) →
    OnlyLine s u ∧
    (s.cfg.hdrLen + s.cfg.ckW ≤ s.rx.rxCnt ∧ s.rx.rxCk = 0 →
      exec .epPollBodyEndValid s =
        .next { u with rx := { s.rx with epState := .busy }, result := .event .msgReady }) ∧
    (s.rx.rxCk ≠ 0 ∨ s.rx.rxCnt < s.cfg.hdrLen + s.cfg.ckW →
      exec .epPollBodyEndInvalid s =
        .next { u with
          rx := { s.rx with epStatus := s.rx.epStatus ||| 0x05, epState := .idle }
          result := .event .corrupted })

/-- One poll reads at most one byte, stores only at the fill count, and touches nothing but the receiver (R13, R72,
R160, R161): each event goes with its change of state. -/
def Obligations.PollOneByteOneTransition : Prop :=
  ∀ (s t : State) (i : Instr), opcodeByte i = 0x0A → s.cfg.role = .endpoint → exec i s = .next t →
    OnlyPoll s t ∧
    (t.line = s.line ∨ ∃ k ≤ 1, t.line.waiting = (look s).line.waiting.drop k) ∧
    (∀ a, a ≠ s.rx.rxCnt → memGet t.rx.rxbuf a = memGet s.rx.rxbuf a) ∧
    ∃ e, t.result = .event e ∧
      (match e with
        | .noByte => t.rx = s.rx
        | .notDetected => t.rx = s.rx ∧ s.rx.epState = .idle
        | .frameStart => s.rx.epState = .idle ∧ t.rx.epState = .receivingHeader
        | .stored => t.rx.epState = s.rx.epState ∧ inFrame s.rx.epState
        | .headerDone => s.rx.epState = .receivingHeader ∧ t.rx.epState = .receivingBody
        | .msgReady => s.rx.epState = .receivingBody ∧ t.rx.epState = .busy
        | .corrupted => s.rx.epState = .receivingBody ∧ t.rx.epState = .idle
        | .overflow => inFrame s.rx.epState ∧ t.rx.epState = .idle
        | .ignored => t.rx = s.rx ∧ ¬ inFrame s.rx.epState ∧ s.rx.epState ≠ .idle)

/-- No operation writes `ep_state` but those of the receiver (the transition table of spec/42_receiver.md section 3, the
spec's own inference): polls, EP.LISTEN and arriving bytes by their rules, EP.DONE from Busy to Idle, EP.FAULT to Error,
EP.RESET to Idle. -/
def Obligations.EpStateTransitions : Prop :=
  ∀ (s t : State) (i : Instr), exec i s = .next t → t.rx.epState ≠ s.rx.epState →
    (opcodeByte i = 0x0A ∧ (s.rx.epState, t.rx.epState) ∈
      [(EpState.idle, EpState.receivingHeader), (.receivingHeader, .receivingBody), (.receivingHeader, .idle),
        (.receivingBody, .idle), (.receivingBody, .busy)]) ∨
    i = .epListen ∨ isArrival i = true ∨
    (i = .epDone ∧ s.rx.epState = .busy ∧ t.rx.epState = .idle) ∨
    (i = .epFault ∧ t.rx.epState = .error) ∨ (i = .epReset ∧ t.rx.epState = .idle)

/-- EP.LISTEN (R175) repeats polls until a final event or until RX_TIMEOUT has passed since it began, and touches nothing
but the receiver, the line's waiting bytes and the clock. That it answers where nothing more comes rests on the clock's
jump (log 2); `t0` afterwards is a free value (log 17). -/
def Obligations.ListenRepeatsPolls : Prop :=
  opcodeByte .epListen = 0x0B ∧
  (∀ s : State, s.cfg.ok = true → s.cfg.role = .endpoint → ReceiverInv s.cfg s.rx →
    ∃ t, exec .epListen s = .next t ∧
      t = { s with
        rx := t.rx
        result := t.result
        t0 := t.t0
        freeCount := t.freeCount
        line := { s.line with waiting := t.line.waiting, now := t.line.now, looks := t.line.looks } } ∧
      ∃ n u, 1 ≤ n ∧ pollTimes n (startWait s) = .ok u ∧ t.rx = u.rx ∧ t.line.waiting = u.line.waiting ∧
        (∀ m v, 1 ≤ m → m < n → pollTimes m (startWait s) = .ok v →
          endsListen (lastEvent v) = false ∧ (v.line.now - s.line.now).toNat < s.cfg.rxTimeout.toNat) ∧
        ((endsListen (lastEvent u) = true ∧ t.result = u.result) ∨
          (endsListen (lastEvent u) = false ∧ t.result = .listenTimeout ∧
            s.cfg.rxTimeout.toNat ≤ (t.line.now - s.line.now).toNat))) ∧
  (∀ s : State, s.cfg.role = .endpoint → pollsLine s.rx.epState = false →
    ∃ t, exec .epListen s = .next t ∧ t.result = .event .ignored ∧ t.rx = s.rx ∧ t.line = s.line)

/-- A whole frame that waits on the line is received by one EP.LISTEN: MsgReady, Busy, the header decoded, header, body
and checksum in RXBUF, and only the frame's bytes taken (derived from spec/42_receiver.md and 41_encoder.md R146). -/
def Obligations.ListenReceivesFrame : Prop :=
  ∀ (s : State) (fields body rest : List Byte), s.cfg.ok = true → s.cfg.role = .endpoint →
    s.cfg.profile.algo.Neutral → s.cfg.fieldsFit fields = true → body.length ≤ s.cfg.maxBody →
    frameSafe s.cfg (headerFor s.cfg fields body) body = true → s.rx.epState = .idle → s.dir = .rx →
    s.line.looks = [] → s.line.waiting = encodeFrame s.cfg fields body ++ rest →
    ∃ t, exec .epListen s = .next t ∧ t.result = .event .msgReady ∧ t.rx.epState = .busy ∧ t.rx.epStatus = 0x00 ∧
      t.rx.rxCnt = s.cfg.hdrLen + body.length + s.cfg.ckW ∧
      memBytes t.rx.rxbuf 0 t.rx.rxCnt =
        headerFor s.cfg fields body ++ body ++ s.cfg.emit (encodeCk s.cfg fields body) ∧
      hostHdr t = .ok (unpackHeader s.cfg (headerFor s.cfg fields body)) ∧ hostBody t = .ok body ∧
      t.line.waiting = rest

/-- EP.DONE ends Busy and keeps the held frame, and elsewhere is refused (R176; that a refused command is a next state is
the model's choice, log 10); EP.FAULT latches Error from any state (R178); EP.RESET restores the receiver from any state, with `hdr` and RXBUF
unspecified: no index of RXBUF has a value (R179; `hdr` is a free value, the model's choice, log 16; the trace: log 23). -/
def Obligations.DoneFaultReset : Prop :=
  opcodeByte .epDone = 0x0C ∧ opcodeByte .epFault = 0x0E ∧ opcodeByte .epReset = 0x0F ∧
  (∀ s : State, s.rx.epState ≠ .busy → exec .epDone s = .next { s with result := .refused }) ∧
  (∀ s : State, s.cfg.role = .endpoint → s.rx.epState = .busy →
    exec .epDone s = .next { s with rx := { s.rx with epState := .idle }, result := .nothing }) ∧
  (∀ s : State, s.cfg.role = .endpoint →
    exec .epFault s = .next { s with rx := { s.rx with epState := .error }, result := .nothing }) ∧
  (∀ s : State, s.cfg.role = .endpoint → ∃ h k,
    exec .epReset s =
      .next { s with
        dir := .rx
        rx := { epState := .idle, rxCk := s.cfg.ckSeed, rxCnt := 0, rxbuf := [], hdr := h, hdrSet := false,
                epStatus := 0x00 }
        result := .nothing
        line := { s.line with trace := s.line.trace ++ [.direction .rx] }
        freeCount := k })

/-- EP.REPLY (R177): ENCODE, Transmitting, SEND, the flags into `ep_status`, back to Busy; a body that is too long is
refused with nothing changed, and so is any reply outside Busy (that a refused command is a next state is the model's choice,
log 10). The environment accepts `n` of the frame's bytes and `g` of the guard's (log 3); the trace is the model's record
(log 23). -/
def Obligations.ReplySendsFrame : Prop :=
  (∀ f b p, opcodeByte (.epReply f b p) = 0x0D) ∧
  (∀ (s : State) (fields body : List Byte) (pause : Bool), s.rx.epState ≠ .busy → s.cfg.fieldsFit fields = true →
    exec (.epReply fields body pause) s = .next { s with result := .refused }) ∧
  (∀ (s : State) (fields body : List Byte), s.cfg.role = .endpoint → s.rx.epState = .busy →
    s.cfg.fieldsFit fields = true → body.length ≤ s.cfg.maxBody →
    let f := encodeFrame s.cfg fields body
    let n := acceptedCount s.line.accepts f.length
    exec (.epReply fields body false) s =
      .next { s with
        ck := encodeCk s.cfg fields body
        dir := .rx
        rx := { s.rx with epStatus := s.rx.epStatus ||| (if n < f.length then 0x11 else 0x00) }
        result := .count n
        line := { s.line with
          accepts := s.line.accepts.tail
          trace := s.line.trace ++ [.endpointState .transmitting, .direction .tx, .wrote (f.take n), .flushed,
            .direction .rx, .endpointState .busy] } }) ∧
  (∀ (s : State) (fields body : List Byte), s.cfg.role = .endpoint → s.rx.epState = .busy →
    s.cfg.fieldsFit fields = true → body.length ≤ s.cfg.maxBody →
    let f := encodeFrame s.cfg fields body
    let guard := List.replicate s.cfg.guardLen s.cfg.guardByte
    let g := acceptedCount s.line.accepts guard.length
    let n := acceptedCount s.line.accepts.tail f.length
    exec (.epReply fields body true) s =
      .next { s with
        ck := encodeCk s.cfg fields body
        dir := .rx
        rx := { s.rx with
          epStatus := s.rx.epStatus ||| (if g < s.cfg.guardLen ∨ n < f.length then 0x11 else 0x00) }
        result := .count n
        line := { s.line with
          accepts := s.line.accepts.tail.tail
          trace := s.line.trace ++ [.endpointState .transmitting, .direction .tx, .wrote (guard.take g),
            .wrote (f.take n), .flushed, .direction .rx, .endpointState .busy] } }) ∧
  (∀ (s : State) (fields body : List Byte) (pause : Bool), s.cfg.role = .endpoint → s.rx.epState = .busy →
    s.cfg.fieldsFit fields = true → s.cfg.maxBody < body.length →
    exec (.epReply fields body pause) s = .next { s with result := .refusedFor 0x09 })

/-- `ep_status` keeps its flags (R32): it is cleared by an accepted start delimiter, with `FrameStart`, and by EP.RESET,
and no other command clears a flag of it. -/
def Obligations.EpStatusKept : Prop :=
  (∀ (s t : State) (i : Instr), opcodeByte i = 0x0A → exec i s = .next t →
    (t.result = .event .frameStart ∧ t.rx.epStatus = 0x00) ∨ t.rx.epStatus &&& s.rx.epStatus = s.rx.epStatus) ∧
  (∀ (s t : State) (i : Instr), opcodeByte i ≠ 0x0A → i ≠ .epListen → isArrival i = false → i ≠ .epReset →
    exec i s = .next t → t.rx.epStatus &&& s.rx.epStatus = s.rx.epStatus) ∧
  (∀ s t : State, s.cfg.role = .endpoint → exec .epReset s = .next t → t.rx.epStatus = 0x00)

/-- Error is left by EP.RESET or a hardware reset only (R257): every other instruction keeps it, polls and EP.LISTEN answer
`Ignored`, EP.DONE and EP.REPLY are refused (that a refused command is a next state is the model's choice, log 10), and what
ENCODE, the checksum commands, SEND and the direction commands do in any state of the receiver they do in Error too. The
hardware reset is the model's hardwareReset (log 35). -/
def Obligations.ErrorIsLatched : Prop :=
  (∀ (s t : State) (i : Instr), s.rx.epState = .error → i ≠ .epReset → exec i s = .next t → t.rx.epState = .error) ∧
  (∀ (s t : State) (i : Instr), s.rx.epState = .error → s.cfg.role = .endpoint → opcodeByte i = 0x0A ∨ i = .epListen →
    exec i s = .next t → t.result = .event .ignored ∧ t.rx = s.rx) ∧
  (∀ (s : State) (fields body : List Byte) (pause : Bool), s.rx.epState = .error → s.cfg.fieldsFit fields = true →
    exec .epDone s = .next { s with result := .refused } ∧
    exec (.epReply fields body pause) s = .next { s with result := .refused }) ∧
  (∀ (s t : State) (i : Instr), exec i s = .next t →
    i = .ckInit ∨ i = .ckEmit ∨ i = .ckCheck ∨ i = .dirTx ∨ i = .dirRx ∨ (∃ b, i = .ckUpdate b) ∨
      (∃ x y z, i = .ckBlock x y z) ∨ (∃ x y, i = .encode x y) ∨ (∃ x y, i = .send x y) →
    t.result ≠ .refused ∧
    exec i { s with rx := { s.rx with epState := .error } } = .next { t with rx := { t.rx with epState := .error } }) ∧
  (∀ s : State, s.cfg.role = .endpoint → ∃ t, exec .epReset s = .next t ∧ t.rx.epState = .idle) ∧
  (∀ (cfg : Config) (s : State), (hardwareReset cfg s).rx.epState = .idle)

/-! The direction mux. -/

/-- DIR.TX (R200) and DIR.RX (R201) write `dir` and nothing else; DIR.RX does not flush. The trace is the model's record
(log 23). -/
def Obligations.DirCommands : Prop :=
  opcodeByte .dirTx = 0x10 ∧ opcodeByte .dirRx = 0x11 ∧
  (∀ s : State, exec .dirTx s =
    .next { s with
      dir := .tx, result := .nothing, line := { s.line with trace := s.line.trace ++ [.direction .tx] } }) ∧
  (∀ s : State, exec .dirRx s =
    .next { s with
      dir := .rx, result := .nothing, line := { s.line with trace := s.line.trace ++ [.direction .rx] } }) ∧
  Dir.bit .tx = 1 ∧ Dir.bit .rx = 0

/-- SEND (R202): transmit, the guard if asked for, the payload, flush, receive; it returns the payload bytes accepted and
TX_ERROR if a write was short, and writes no status register. The environment accepts `n` of the payload and `g` of the
guard; that a write with no count listed is accepted whole (the last clause's `acceptedCount [] k = k`) is the model's choice
(log 3), and the trace is the model's record (log 23). -/
def Obligations.SendSequence : Prop :=
  (∀ x p, opcodeByte (.send x p) = 0x12) ∧
  (∀ (s : State) (bytes : List Byte),
    let n := acceptedCount s.line.accepts bytes.length
    exec (.send bytes false) s =
      .next { s with
        dir := .rx
        result := .sent n (if n < bytes.length then 0x11 else 0x00)
        line := { s.line with
          accepts := s.line.accepts.tail
          trace := s.line.trace ++ [.direction .tx, .wrote (bytes.take n), .flushed, .direction .rx] } }) ∧
  (∀ (s : State) (bytes : List Byte),
    let guard := List.replicate s.cfg.guardLen s.cfg.guardByte
    let g := acceptedCount s.line.accepts guard.length
    let n := acceptedCount s.line.accepts.tail bytes.length
    exec (.send bytes true) s =
      .next { s with
        dir := .rx
        result := .sent n (if g < s.cfg.guardLen ∨ n < bytes.length then 0x11 else 0x00)
        line := { s.line with
          accepts := s.line.accepts.tail.tail
          trace := s.line.trace ++ [.direction .tx, .wrote (guard.take g), .wrote (bytes.take n), .flushed,
            .direction .rx] } }) ∧
  (∀ (accepts : List Nat) (k : Nat), acceptedCount accepts k ≤ k ∧ acceptedCount [] k = k)

/-- No rule calls LineWrite with `dir` = RX (spec/43_direction.md section 1, the spec's own inference): in the trace any
instruction leaves, every write is made with `dir` = TX, and the trace ends in the `dir` the state then has. -/
def Obligations.WritesAreDirected : Prop :=
  ∀ (s t : State) (i : Instr), exec i s = .next t →
    ∃ ops, t.line.trace = s.line.trace ++ ops ∧ directAll s.dir ops = some t.dir

/-- No instruction but DIR.TX leaves `dir` = TX where it found RX (spec/42_receiver.md section 3 (2) and
spec/70_reset_and_hazards.md section 4, the spec's own inference), and every command that sends, and every M command of an
idle master, ends in RX whatever `dir` was (R206, R236(1); where nothing is sent: log 31). -/
def Obligations.ReceiveModeRestored : Prop :=
  (∀ (s t : State) (i : Instr), exec i s = .next t → s.dir = .rx → i ≠ .dirTx → t.dir = .rx) ∧
  (∀ (s t : State) (bytes : List Byte) (pause : Bool), exec (.send bytes pause) s = .next t → t.dir = .rx) ∧
  (∀ (s t : State) (fields body : List Byte) (pause : Bool), exec (.epReply fields body pause) s = .next t →
    s.cfg.role = .endpoint → s.rx.epState = .busy → body.length ≤ s.cfg.maxBody → t.dir = .rx) ∧
  (∀ (s t : State) (i : Instr), exec i s = .next t → s.cfg.role = .master → s.mq.mState = .idle →
    commandRole i = some .master → t.dir = .rx)

/-! The master. -/

/-- M.BEGIN (R220); the trace is the model's record (log 23). -/
def Obligations.BeginOpensLine : Prop :=
  (∀ r, opcodeByte (.mBegin r) = 0x13) ∧
  ∀ (s : State) (rate : BitVec 32), s.cfg.role = .master → s.mq.mState = .setup ∨ s.mq.mState = .idle →
    exec (.mBegin rate) s =
      .next { s with
        dir := .rx
        mq := { s.mq with mState := .idle, qStatus := 0x00, qValid := false, qCnt := 0 }
        result := .nothing
        line := { s.line with trace := s.line.trace ++ [.opened rate, .direction .rx, .masterState .idle] } }

/-- M.RAWSEND (R221): `q_status`, `q_valid` and `q_cnt` cleared, SEND, the flags into `q_status`, back to Idle;
refused where `m_state` is not Idle (that a refused command is a next state is the model's choice, log 10). The environment
accepts `n` of the payload and `g` of the guard (log 3); the trace is the model's record (log 23). -/
def Obligations.RawSendSequence : Prop :=
  (∀ x p, opcodeByte (.mRawSend x p) = 0x14) ∧
  (∀ (s : State) (bytes : List Byte) (pause : Bool), s.mq.mState ≠ .idle →
    exec (.mRawSend bytes pause) s = .next { s with result := .refused }) ∧
  (∀ (s : State) (bytes : List Byte), s.cfg.role = .master → s.mq.mState = .idle →
    let n := acceptedCount s.line.accepts bytes.length
    exec (.mRawSend bytes false) s =
      .next { s with
        dir := .rx
        mq := { s.mq with qStatus := if n < bytes.length then 0x11 else 0x00, qValid := false, qCnt := 0 }
        result := .count n
        line := { s.line with
          accepts := s.line.accepts.tail
          trace := s.line.trace ++ [.masterState .transmitting, .direction .tx, .wrote (bytes.take n), .flushed,
            .direction .rx, .masterState .idle] } }) ∧
  (∀ (s : State) (bytes : List Byte), s.cfg.role = .master → s.mq.mState = .idle →
    let guard := List.replicate s.cfg.guardLen s.cfg.guardByte
    let g := acceptedCount s.line.accepts guard.length
    let n := acceptedCount s.line.accepts.tail bytes.length
    exec (.mRawSend bytes true) s =
      .next { s with
        dir := .rx
        mq := { s.mq with
          qStatus := if g < s.cfg.guardLen ∨ n < bytes.length then 0x11 else 0x00, qValid := false, qCnt := 0 }
        result := .count n
        line := { s.line with
          accepts := s.line.accepts.tail.tail
          trace := s.line.trace ++ [.masterState .transmitting, .direction .tx, .wrote (guard.take g),
            .wrote (bytes.take n), .flushed, .direction .rx, .masterState .idle] } })

/-- Every query answers, whatever the environment does, with `m_state` = Idle and `dir` = RX (spec/44_master_query.md
section 3 (1), (2), the spec's own inference; `dir` of a query that is not sent: log 31; that a wait ends: log 2): the
result registers are consistent, and the receiver's registers, the configuration and the port are untouched. -/
def Obligations.QueriesReturnIdle : Prop :=
  (∀ (s : State) (bytes : List Byte) (pause : Bool), s.cfg.ok = true → s.cfg.role = .master → s.mq.mState = .idle →
    Memory.wf s.cfg.bufCap s.mq.qbuf = true →
    ∃ t, exec (.mRawQuery bytes pause) s = .next t ∧ t.mq.mState = .idle ∧ t.dir = .rx ∧ ResultInv t.cfg t.mq ∧
      t.cfg = s.cfg ∧ t.rx = s.rx ∧ t.port = s.port ∧ t.ck = s.ck ∧
      ∃ c, t.result = .query t.mq.qStatus c) ∧
  (∀ (s : State) (ready : Bool) (fields body : List Byte) (pause : Bool), s.cfg.ok = true → s.cfg.role = .master →
    s.mq.mState = .idle → s.cfg.fieldsFit fields = true → Memory.wf s.cfg.bufCap s.mq.qbuf = true →
    ∃ t, exec (.mQuery ready fields body pause) s = .next t ∧ t.mq.mState = .idle ∧
      t.dir = .rx ∧ ResultInv t.cfg t.mq ∧
      t.cfg = s.cfg ∧ t.rx = s.rx ∧ t.port = s.port ∧
      ∃ c, t.result = .query t.mq.qStatus c)

/-- No byte comes: EP.LISTEN returns Timeout with the receiver unchanged (R175, vector X14); M.RAWQUERY and M.QUERY return
TIMEOUT, with TX_ERROR as well where a write of guard or payload was short (conflict C6), no content, `m_state` = Idle
(R223, scenario S8). That the clock runs out because nothing more comes is the model's reading of R107 (log 2). -/
def Obligations.SilentWaitsTimeOut : Prop :=
  (∀ s : State, s.cfg.ok = true → s.cfg.role = .endpoint → pollsLine s.rx.epState = true → SilentLine s →
    ∃ t, exec .epListen s = .next t ∧ t.result = .listenTimeout ∧ t.rx = s.rx ∧ t.line.waiting = [] ∧
      t.line.now = s.line.now + s.cfg.rxTimeout) ∧
  (∀ (s : State) (i : Instr) (writes : List (List Byte)), s.cfg.ok = true → s.cfg.role = .master → s.mq.mState = .idle →
    QuerySends s.cfg i writes → SilentLine s →
    let status := sendStatus s.line.accepts writes ||| 0x03
    ∃ t, exec i s = .next t ∧ t.result = .query status none ∧ t.mq.qStatus = status ∧ t.mq.qValid = false ∧
      t.mq.qCnt = 0 ∧ t.mq.mState = .idle ∧ t.dir = .rx ∧ t.mq.qbuf = s.mq.qbuf ∧
      t.line.now = s.line.now + s.cfg.queryTimeout)

/-- M.QUERY with a Request that is not ready raises TX_ERROR, with a body that is too long BUFFER_EXHAUSTED; nothing is
sent and the step returns (R232's first two tests) with `dir` = RX (R236(1), R258, where R232's pseudocode writes no `dir`:
log 31). -/
def Obligations.QueryNotSent : Prop :=
  (∀ (s : State) (fields body : List Byte) (pause : Bool), s.cfg.role = .master → s.mq.mState = .idle →
    s.cfg.fieldsFit fields = true →
    exec (.mQuery false fields body pause) s =
      .next { s with
        dir := .rx
        mq := { s.mq with qStatus := 0x11, qValid := false, qCnt := 0 }
        result := .query 0x11 none
        line := { s.line with trace := s.line.trace ++ [.direction .rx] } }) ∧
  (∀ (s : State) (fields body : List Byte) (pause : Bool), s.cfg.role = .master → s.mq.mState = .idle →
    s.cfg.fieldsFit fields = true → s.cfg.maxBody < body.length →
    exec (.mQuery true fields body pause) s =
      .next { s with
        dir := .rx
        mq := { s.mq with qStatus := 0x09, qValid := false, qCnt := 0 }
        result := .query 0x09 none
        line := { s.line with trace := s.line.trace ++ [.direction .rx] } })

/-- What M.RAWQUERY and M.QUERY put on the line (R222, R232): their writes, each cut to what the environment accepts, between
the turnaround to TX and the flush, all of them attempted; TX_ERROR is up exactly when one was short; then only the states
of R235 follow. M.QUERY's three writes are ENCODE's frame, behind the guard where `pause` asks for it, and leave its checksum
in `ck`. The model's choices it rests on: that the query answers whatever the environment does (the clock's jump, log 2), that
TX_ERROR stays up through a delimited receive (log 19), the counts of an unlisted write (log 3), the trace (log 23). -/
def Obligations.QueryWritesFrame : Prop :=
  (∀ (s : State) (i : Instr) (writes : List (List Byte)), s.cfg.ok = true → s.cfg.role = .master → s.mq.mState = .idle →
    Memory.wf s.cfg.bufCap s.mq.qbuf = true → QuerySends s.cfg i writes →
    ∃ t ms, exec i s = .next t ∧ t.line.accepts = s.line.accepts.drop writes.length ∧
      t.line.trace = s.line.trace ++ [.masterState .transmitting, .direction .tx] ++
        (acceptedPrefixes s.line.accepts writes).map LineOp.wrote ++
        [.flushed, .direction .rx, .masterState .awaitingResponse] ++ ms.map LineOp.masterState ∧
      ms ∈ [[.idle], [.receiving, .idle], [.receiving, .processing, .idle]] ∧
      (t.mq.qStatus.getLsbD 4 = true ↔ acceptedPrefixes s.line.accepts writes ≠ writes)) ∧
  (∀ (s t : State) (fields body : List Byte) (pause : Bool), s.cfg.role = .master → s.mq.mState = .idle →
    body.length ≤ s.cfg.maxBody → exec (.mQuery true fields body pause) s = .next t → t.ck = encodeCk s.cfg fields body) ∧
  (∀ (cfg : Config) (fields body : List Byte),
    let h := headerFor cfg fields body
    let c := encodeCk cfg fields body
    frameWrites cfg fields body = [[cfg.startDelim] ++ h, body, cfg.emit c ++ [cfg.endDelim]] ∧
    (frameWrites cfg fields body).flatten = encodeFrame cfg fields body) ∧
  (∀ writes : List (List Byte), acceptedPrefixes [] writes = writes)

/-- Counted receive (R225 to R231, scenarios S7 and S9, derived), for M.RAWQUERY and M.QUERY: a reply that arrives during the
wait, behind bytes that are no START_DELIM, gives its header and contents; beside the flags of the sending half the status
is 0 when the checksum bytes are those of the contents and CRC_FAILED otherwise; nothing behind the end delimiter is
taken. That it holds with `dir` = TX before the query too is the model's reading (log 34). -/
def Obligations.CountedReplyReceived : Prop :=
  ∀ (s : State) (i : Instr) (writes : List (List Byte)) (junk fields' body' k rest : List Byte) (patient : Bool)
      (dt : Time),
    s.cfg.ok = true → s.cfg.role = .master → s.mq.mState = .idle → s.cfg.profile.lenW = true →
    QuerySends s.cfg i writes → s.cfg.fieldsFit fields' = true → body'.length ≤ s.cfg.maxBody → k.length = s.cfg.ckW →
    s.cfg.startDelim ∉ junk → s.line.waiting = [] →
    let h := headerFor s.cfg fields' body'
    s.line.looks =
      [⟨patient, dt, 0, junk ++ [s.cfg.startDelim] ++ h ++ body' ++ k ++ [s.cfg.endDelim] ++ rest⟩] →
    let status : Byte := sendStatus s.line.accepts writes |||
      (if k = s.cfg.emit (s.cfg.frameCk h body') then 0x00 else 0x05)
    ∃ t, exec i s = .next t ∧
      t.result = .query status (some (unpackHeader s.cfg h, h ++ body' ++ k)) ∧ t.mq.qStatus = status ∧
      t.mq.qValid = true ∧ t.mq.qCnt = s.cfg.hdrLen + body'.length + s.cfg.ckW ∧
      hostQueryContent t = .ok (unpackHeader s.cfg h, body') ∧ t.mq.mState = .idle ∧ t.line.waiting = rest

/-- Counted receive of whatever arrives, for M.RAWQUERY and M.QUERY (R225 to R231, R255, derived; in one burst at the wait's
first availability test, log 1, 2), beside the flags of the sending half: no start delimiter, or a header cut short, gives
RX_ERROR and no content; behind a whole header the content is what fits the buffer, and the status says whether the length
was too large, whether the end delimiter came, and whether what is held ends in its own checksum. That it holds with `dir`
= TX before the query too is the model's reading (log 34). -/
def Obligations.CountedReceiveReports : Prop :=
  ∀ (s : State) (i : Instr) (writes : List (List Byte)) (junk h d : List Byte) (patient : Bool) (dt : Time),
    s.cfg.ok = true → s.cfg.role = .master → s.mq.mState = .idle → s.cfg.profile.lenW = true →
    QuerySends s.cfg i writes → s.cfg.startDelim ∉ junk → s.line.waiting = [] →
    let sent := sendStatus s.line.accepts writes
    (junk ≠ [] → s.line.looks = [⟨patient, dt, 0, junk⟩] →
      ∃ t, exec i s = .next t ∧ t.result = .query (sent ||| 0x21) none ∧ t.mq.qCnt = 0 ∧ t.mq.mState = .idle ∧
        t.line.waiting = []) ∧
    (h.length < s.cfg.hdrLen → s.line.looks = [⟨patient, dt, 0, junk ++ [s.cfg.startDelim] ++ h⟩] →
      ∃ t, exec i s = .next t ∧ t.result = .query (sent ||| 0x21) none ∧ t.mq.qCnt = h.length ∧
        t.mq.mState = .idle ∧ t.line.waiting = []) ∧
    (h.length = s.cfg.hdrLen → s.line.looks = [⟨patient, dt, 0, junk ++ [s.cfg.startDelim] ++ h ++ d⟩] →
      let declared := (unpackHeader s.cfg h).bodyLen.toNat
      let kept := (d.take (declared + s.cfg.ckW)).take (s.cfg.maxBody + s.cfg.ckW)
      let status : Byte := sent ||| (if s.cfg.maxBody < declared then 0x09 else 0x00) |||
        (if d[declared + s.cfg.ckW]? = some s.cfg.endDelim then 0x00 else 0x21) |||
        (if s.cfg.ckW ≤ kept.length ∧ kept.drop (kept.length - s.cfg.ckW) =
            s.cfg.emit (s.cfg.frameCk h (kept.take (kept.length - s.cfg.ckW))) then 0x00 else 0x05)
      ∃ t, exec i s = .next t ∧
        t.result = .query status (some (unpackHeader s.cfg h, h ++ kept)) ∧ t.mq.qCnt = s.cfg.hdrLen + kept.length ∧
        t.mq.mState = .idle ∧ t.line.waiting = d.drop (declared + s.cfg.ckW + 1))

/-- Delimited receive (R234, derived; one burst at the wait's first availability test, log 1, 2), for M.RAWQUERY and M.QUERY
of a profile without a length field, beside the flags of the sending half (log 19): a good reply gives its header and
contents and the host its body; no start delimiter, or a header cut short, gives RX_ERROR and no content; behind a whole
header there is content, and END_DELIM gives the verdict of R171 and R172, a byte that does not fit BUFFER_EXHAUSTED, the
deadline RX_ERROR alone (log 33). That it holds with `dir` = TX before the query too is the model's reading (log 34). -/
def Obligations.DelimitedReplyReceived : Prop :=
  ∀ (s : State) (i : Instr) (writes : List (List Byte)) (junk h d rest : List Byte) (patient : Bool) (dt : Time),
    s.cfg.ok = true → s.cfg.role = .master → s.mq.mState = .idle → s.cfg.profile.lenW = false →
    QuerySends s.cfg i writes → s.cfg.startDelim ∉ junk → s.line.waiting = [] →
    let sent := sendStatus s.line.accepts writes
    let opened := junk ++ [s.cfg.startDelim] ++ h
    let gives := fun (status : Byte) (content : Option (Header × List Byte)) (left : List Byte) =>
      ∃ t, exec i s = .next t ∧ t.result = .query (sent ||| status) content ∧ t.mq.qStatus = sent ||| status ∧
        t.mq.qValid = content.isSome ∧ t.mq.mState = .idle ∧ t.line.waiting = left
    (∀ fields body : List Byte, s.cfg.profile.algo.Neutral → s.cfg.fieldsFit fields = true →
      body.length ≤ s.cfg.maxBody → h = headerFor s.cfg fields body → frameSafe s.cfg h body = true →
      s.line.looks = [⟨patient, dt, 0, junk ++ encodeFrame s.cfg fields body ++ rest⟩] →
      gives 0x00 (some (unpackHeader s.cfg h, h ++ body ++ s.cfg.emit (encodeCk s.cfg fields body))) rest ∧
      ∃ t, exec i s = .next t ∧ hostQueryContent t = .ok (unpackHeader s.cfg h, body)) ∧
    (junk ≠ [] → s.line.looks = [⟨patient, dt, 0, junk⟩] → gives 0x21 none []) ∧
    (h.length < s.cfg.hdrLen → s.line.looks = [⟨patient, dt, 0, opened⟩] → gives 0x21 none []) ∧
    (h.length = s.cfg.hdrLen → s.cfg.endDelim ∉ d → d.length ≤ s.cfg.maxBody + s.cfg.ckW →
      s.line.looks = [⟨patient, dt, 0, opened ++ d ++ [s.cfg.endDelim] ++ rest⟩] →
      gives (if s.cfg.ckW ≤ d.length ∧ s.cfg.fold (s.cfg.frameCk h []) d = 0 then 0x00 else 0x05)
        (some (unpackHeader s.cfg h, h ++ d)) rest) ∧
    (∀ b : Byte, h.length = s.cfg.hdrLen → s.cfg.endDelim ∉ d → d.length = s.cfg.maxBody + s.cfg.ckW →
      b ≠ s.cfg.endDelim → s.line.looks = [⟨patient, dt, 0, opened ++ d ++ [b] ++ rest⟩] →
      gives 0x09 (some (unpackHeader s.cfg h, h ++ d)) rest) ∧
    (h.length = s.cfg.hdrLen → s.cfg.endDelim ∉ d → d.length ≤ s.cfg.maxBody + s.cfg.ckW →
      s.line.looks = [⟨patient, dt, 0, opened ++ d⟩] → gives 0x21 (some (unpackHeader s.cfg h, h ++ d)) [])

/-- TIMEOUT comes alone or with TX_ERROR (spec/60_exceptions.md section 3, the spec's own inference), and then there is no
content. -/
def Obligations.TimeoutExcludesReceiveFlags : Prop :=
  ∀ (s t : State) (i : Instr), (∃ bytes pause, i = .mRawQuery bytes pause) ∨
    (∃ ready fields body pause, i = .mQuery ready fields body pause) →
    s.cfg.role = .master → s.mq.mState = .idle → exec i s = .next t → t.mq.qStatus.getLsbD 1 = true →
    (t.mq.qStatus = 0x03 ∨ t.mq.qStatus = 0x13) ∧ t.mq.qValid = false ∧ t.mq.qCnt = 0

/-- What a query's status says of its content (spec/44_master_query.md section 3 (3) and R233, derived): without content
some flag says why; status 0 means that a whole frame is held whose checksum bytes verify, and the host reads it. -/
def Obligations.QueryStatusExplainsContent : Prop :=
  ∀ (s t : State) (i : Instr), (∃ bytes pause, i = .mRawQuery bytes pause) ∨
    (∃ ready fields body pause, i = .mQuery ready fields body pause) →
    s.cfg.ok = true → s.cfg.role = .master → s.mq.mState = .idle → Memory.wf s.cfg.bufCap s.mq.qbuf = true →
    exec i s = .next t →
    (t.mq.qValid = false → t.result = .query t.mq.qStatus none ∧ t.mq.qStatus &&& 0x3A ≠ 0x00) ∧
    (t.mq.qValid = true →
      t.result = .query t.mq.qStatus (some (t.mq.qHdr, memBytes t.mq.qbuf 0 t.mq.qCnt))) ∧
    (t.mq.qStatus = 0x00 → t.mq.qValid = true ∧ s.cfg.hdrLen + s.cfg.ckW ≤ t.mq.qCnt ∧
      ∃ h body k, memBytes t.mq.qbuf 0 t.mq.qCnt = h ++ body ++ k ∧ h.length = s.cfg.hdrLen ∧ k.length = s.cfg.ckW ∧
        hostQueryContent t = .ok (unpackHeader s.cfg h, body) ∧
        (if s.cfg.profile.lenW then k = s.cfg.emit (s.cfg.frameCk h body)
          else s.cfg.fold (s.cfg.frameCk h body) k = 0))

/-- Two M.QUERY steps with the same operands against the same answers of line and timer give the same result, whatever
the earlier exchange left behind (spec/44_master_query.md section 3 (5), scenario S6). `dir` before the two may differ: that a
query sent after a host's DIR.TX receives all the same is the model's reading (log 34). -/
def Obligations.QueryIsIdempotent : Prop :=
  ∀ (s t u v : State) (ready : Bool) (fields body : List Byte) (pause : Bool),
    s.cfg = u.cfg → s.mq.mState = u.mq.mState → SameAnswers s u →
    exec (.mQuery ready fields body pause) s = .next t → exec (.mQuery ready fields body pause) u = .next v →
    t.result = v.result

/-! The whole machine. -/

/-- Reset (R280, R281): every register at its value, RXBUF, QBUF and `hdr` without one, an endpoint's line opened, waiting
for commands; a master refuses every M command but M.BEGIN; the configuration never changes afterwards. That a refused
command is a next state (log 10) and that a step on an empty port answers the same state (log 14) are the model's choices. -/
def Obligations.ResetLeaves : Prop :=
  (∀ cfg : Config,
    let s := State.resetWith cfg
    s.cfg = cfg ∧ s.dir = .rx ∧ s.rx.epState = .idle ∧ s.mq.mState = .setup ∧ s.ck = cfg.ckSeed ∧
    s.rx.rxCk = cfg.ckSeed ∧ s.rx.rxCnt = 0 ∧ s.mq.qCnt = 0 ∧ s.rx.epStatus = 0x00 ∧ s.mq.qStatus = 0x00 ∧
    s.mq.qValid = false ∧ (∀ i, hostRxByte s i = .error (.noValue i) ∧ hostQByte s i = .error (.noValue i)) ∧
    hostHdr s = .error .headerUnspecified ∧ hostQueryContent s = .error .noContent ∧
    s.line.trace = (if cfg.role = .endpoint then [.opened cfg.baud] else []) ∧ step s = .next s) ∧
  (∀ (cfg : Config) (i : Instr), cfg.role = .master → WellFormed cfg i = true → commandRole i = some .master →
    (∀ r, i ≠ .mBegin r) → exec i (State.resetWith cfg) = .next { State.resetWith cfg with result := .refused }) ∧
  (∀ (s t : State) (i : Instr), exec i s = .next t → t.cfg = s.cfg)

/-- The invariant holds at reset in every lawful configuration and at State.reset, which takes the standard one (the model's
choice, log 5). A reset at any later time gives every register its reset value and leaves the line's queue as it is (R282,
the environment's data apart: log 35), so the invariant holds after it too. -/
def Obligations.ResetMeetsInvariant : Prop :=
  (∀ cfg : Config, cfg.ok = true → Inv (State.resetWith cfg)) ∧ Inv State.reset ∧
  (∀ (cfg : Config) (s : State), cfg.ok = true → Inv (hardwareReset cfg s)) ∧
  (∀ (cfg : Config) (s : State),
    hardwareReset cfg s =
      { State.resetWith cfg with
        line := { s.line with trace := s.line.trace ++ (if cfg.role = .endpoint then [.opened cfg.baud] else []) }
        freeCount := s.freeCount }) ∧
  State.reset = State.resetWith Config.standard

/-- Every step keeps the invariant: the items of spec/42_receiver.md section 3 and spec/44_master_query.md section 3, the
canonical form of both buffers, the widths of checksums and header registers, and that `m_state` rests in Setup or Idle (R25). -/
def Obligations.StepKeepsInvariant : Prop := ∀ s t : State, Inv s → step s = .next t → Inv t

/-- From a state that meets the invariant a step never faults, and stops only at bytes that are no command (the model's stop,
log 20; a refused command is a next state, log 10; every wait ends, log 2; an empty port is a step that waits, log 14). -/
def Obligations.StepNeverFaults : Prop :=
  ∀ s : State, Inv s → (∃ t, step s = .next t) ∨ (∃ e, step s = .refused (.undecodable e))

/-- Who writes what (the column "written by" of R20's table, R27, R35, R36): the configuration and the port are written by
no instruction, `ck` by the checksum commands, ENCODE, EP.REPLY and M.QUERY, the receiver's registers by EP.* and what
arrives, the master's by M.*, `dir` by the commands of R20, `t0` by the steps that wait. -/
def Obligations.RegisterWriters : Prop :=
  ∀ (s t : State) (i : Instr), exec i s = .next t →
    t.cfg = s.cfg ∧ t.port = s.port ∧
    (t.ck = s.ck ∨ i = .ckInit ∨ (∃ b, i = .ckUpdate b) ∨ (∃ x y z, i = .ckBlock x y z) ∨
      (∃ x y, i = .encode x y) ∨ (∃ x y z, i = .epReply x y z) ∨ (∃ w x y z, i = .mQuery w x y z)) ∧
    (t.rx = s.rx ∨ (s.cfg.role = .endpoint ∧ (commandRole i = some .endpoint ∨ isArrival i = true))) ∧
    (t.mq = s.mq ∨ (s.cfg.role = .master ∧ commandRole i = some .master)) ∧
    (t.dir = s.dir ∨ i = .dirTx ∨ i = .dirRx ∨ i = .epReset ∨ (∃ x y, i = .send x y) ∨ (∃ x y z, i = .epReply x y z) ∨
      commandRole i = some .master) ∧
    (t.t0 = s.t0 ∨ i = .epListen ∨ (∃ x y, i = .mRawQuery x y) ∨ (∃ w x y z, i = .mQuery w x y z))

/-- Which bytes of the buffers change (R72): at or above the new fill count none (EP.RESET apart, after which RXBUF has no
value), and below the old one none where a poll goes on inside a frame; an instruction that receives nothing changes
none. -/
def Obligations.BufferBytesFramed : Prop :=
  (∀ (s t : State) (i : Instr), exec i s = .next t → i ≠ .epReset →
    (∀ a, t.rx.rxCnt ≤ a → memGet t.rx.rxbuf a = memGet s.rx.rxbuf a) ∧
    (∀ a, t.mq.qCnt ≤ a → memGet t.mq.qbuf a = memGet s.mq.qbuf a)) ∧
  (∀ (s t : State) (i : Instr), exec i s = .next t → opcodeByte i = 0x0A →
    ∀ a, a < s.rx.rxCnt → memGet t.rx.rxbuf a = memGet s.rx.rxbuf a) ∧
  (∀ (s t : State) (i : Instr), exec i s = .next t → opcodeByte i ≠ 0x0A → i ≠ .epListen → isArrival i = false →
    i ≠ .epReset → t.rx.rxbuf = s.rx.rxbuf) ∧
  (∀ (s t : State) (i : Instr), exec i s = .next t → (∀ x y, i ≠ .mRawQuery x y) → (∀ w x y z, i ≠ .mQuery w x y z) →
    t.mq.qbuf = s.mq.qbuf)

/-- Only what was received has a value (R38): the host's read at or above the fill count has none; below it every byte
can be read, and in Busy the header and the body, whose length is R62's. -/
def Obligations.OnlyReceivedBytesRead : Prop :=
  (∀ (s : State) (i : Nat), s.rx.rxCnt ≤ i → hostRxByte s i = .error (.noValue i)) ∧
  (∀ (s : State) (i : Nat), s.mq.qCnt ≤ i → hostQByte s i = .error (.noValue i)) ∧
  (∀ (s : State) (i : Nat), Inv s → i < s.rx.rxCnt → ∃ b, hostRxByte s i = .ok b) ∧
  (∀ (s : State) (i : Nat), Inv s → i < s.mq.qCnt → ∃ b, hostQByte s i = .ok b) ∧
  (∀ s : State, Inv s → s.rx.epState = .busy →
    hostHdr s = .ok s.rx.hdr ∧
    ∃ body, hostBody s = .ok body ∧ body.length = s.rx.rxCnt - s.cfg.hdrLen - s.cfg.ckW)

/-- The line and the timer: LineRead takes the oldest byte (R70); a wait has expired when the time since `t0`, modulo
2^32, reaches the timeout (R262); GetByte returns a byte that is there, and none only when the deadline has passed
(R224). -/
def Obligations.LineAndTimer : Prop :=
  (∀ (s : State) (b : Byte) (rest : List Byte), s.dir = .rx → s.line.waiting = b :: rest →
    lineAvail s = true ∧ lineRead s = some (b, { s with line := { s.line with waiting := rest } })) ∧
  (∀ s : State, s.line.waiting = [] ∨ s.dir = .tx → lineAvail s = false ∧ lineRead s = none) ∧
  (∀ (timeout : Time) (s : State), expired timeout s = true ↔
    timeout.toNat ≤ (s.line.now.toNat + 2 ^ 32 - s.t0.toNat) % 2 ^ 32) ∧
  (∀ (s : State) (b : Byte) (u : State), lineRead (look s) = some (b, u) → getByte s = (some b, u)) ∧
  (∀ s : State, (getByte s).1 = none → expired s.cfg.queryTimeout (getByte s).2 = true ∧ lineAvail (getByte s).2 = false) ∧
  (∀ s : State, OnlyLine s (getByte s).2)

/-- What arrives on the line at a node that reads it (R101 to R103, R105's roles; how a byte row runs is the model's, log
12): an endpoint applies the rule its state selects to the byte, whichever row brings it; in Busy and Error the byte
waits; at a master it waits. -/
def Obligations.ArrivingBytesPolled : Prop :=
  ∀ (s : State) (b : Byte) (i : Instr),
    (i = .byteData b ∨ i = .byteOther b ∨ (i = .byteStart ∧ b = s.cfg.startDelim) ∨
      (i = .byteEnd ∧ b = s.cfg.endDelim) ∨ (i = .opcodeInfo ∧ b = 0x01)) →
    s.dir = .rx → s.line.looks = [] → s.line.waiting = [] →
    (s.cfg.role = .endpoint → s.cfg.ok = true → ReceiverInv s.cfg s.rx → pollsLine s.rx.epState = true →
      ∃ e r, receiveByte s.cfg b s.rx = .ok (e, r) ∧ exec i s = .next { s with rx := r, result := .event e }) ∧
    (s.cfg.role = .endpoint → pollsLine s.rx.epState = false →
      exec i s = .next { s with result := .event .ignored, line := { s.line with waiting := [b] } }) ∧
    (s.cfg.role = .master →
      exec i s = .next { s with result := .nothing, line := { s.line with waiting := [b] } })

/-- The frame rows (R81, R82; run as `ep.poll*`, log 12): an idle endpoint of that profile holds the frame in Busy when no
byte of its body and checksum equals END_DELIM; every endpoint that meets the invariant answers; at a master the bytes
wait. That a row with a body longer than MAX_BODY is laid out and arrives too is the model's choice (log 36). -/
def Obligations.ArrivingFramesReceived : Prop :=
  (∀ (s : State) (code fromAddr toAddr : Byte) (body : List Byte), s.cfg.ok = true → s.cfg.role = .endpoint →
    s.cfg.profile = Profile.a → s.rx.epState = .idle → s.dir = .rx → s.line.looks = [] → s.line.waiting = [] →
    body.length ≤ s.cfg.maxBody → frameSafe s.cfg [code, fromAddr, toAddr] body = true →
    ∃ t, exec (.frameA code fromAddr toAddr body) s = .next t ∧ t.result = .event .msgReady ∧ t.rx.epState = .busy ∧
      hostHdr t = .ok { Header.zero with code := code, fromAddr := [fromAddr], toAddr := [toAddr] } ∧
      hostBody t = .ok body ∧ t.line.waiting = []) ∧
  (∀ (s : State) (x y opcode : Byte) (body : List Byte), s.cfg.ok = true → s.cfg.role = .endpoint →
    s.cfg.profile = Profile.b ∨ s.cfg.profile = Profile.bhb → s.rx.epState = .idle → s.dir = .rx →
    s.line.looks = [] → s.line.waiting = [] → body.length ≤ s.cfg.maxBody →
    frameSafe s.cfg [x, y, opcode, BitVec.ofNat 8 body.length] body = true →
    ∃ t, exec (.frameB x y opcode body) s = .next t ∧ t.result = .event .msgReady ∧ t.rx.epState = .busy ∧
      hostHdr t =
        .ok { Header.zero with addr := [x, y], opcode := opcode, bodyLen := BitVec.ofNat 8 body.length } ∧
      hostBody t = .ok body ∧ t.line.waiting = []) ∧
  (∀ (s : State) (i : Instr), (∃ x y z b, i = .frameA x y z b) ∨ (∃ x y z b, i = .frameB x y z b ∧ b.length ≤ 255) →
    s.cfg.ok = true → s.cfg.role = .endpoint → ReceiverInv s.cfg s.rx →
    ∃ t, exec i s = .next t ∧ OnlyPoll s t ∧ ReceiverInv t.cfg t.rx) ∧
  (∀ (s : State) (x y z : Byte) (body : List Byte), s.cfg.role = .master → s.dir = .rx → body.length ≤ 255 →
    exec (.frameA x y z body) s =
      .next { s with
        result := .nothing
        line := { s.line with waiting := s.line.waiting ++ profileAFrame s.cfg x y z body } } ∧
    exec (.frameB x y z body) s =
      .next { s with
        result := .nothing
        line := { s.line with waiting := s.line.waiting ++ profileBFrame s.cfg x y z body } })
end

