-- ==== Sys2Proof/Laws/Checksum.lean ====
section
/-!
SUPPORT. Small laws of the checksum unit: fold over an append, and that every running value keeps the configured width.
-/

namespace Sys2Proof

@[simp] theorem CkAlgo.fold_nil (a : CkAlgo) (c : Ck) : a.fold c [] = c := rfl

@[simp] theorem CkAlgo.fold_cons (a : CkAlgo) (c : Ck) (b : Byte) (s : List Byte) :
    a.fold c (b :: s) = a.fold (a.upd c b) s := rfl

theorem CkAlgo.fold_append (a : CkAlgo) (c : Ck) (s t : List Byte) : a.fold c (s ++ t) = a.fold (a.fold c s) t := by
  simp [CkAlgo.fold, List.foldl_append]

@[simp] theorem Config.fold_nil (cfg : Config) (c : Ck) : cfg.fold c [] = c := rfl

@[simp] theorem Config.fold_cons (cfg : Config) (c : Ck) (b : Byte) (s : List Byte) :
    cfg.fold c (b :: s) = cfg.fold (cfg.upd c b) s := rfl

theorem Config.fold_append (cfg : Config) (c : Ck) (s t : List Byte) :
    cfg.fold c (s ++ t) = cfg.fold (cfg.fold c s) t := CkAlgo.fold_append ..

/-- An update of any algorithm has the algorithm's width. -/
theorem CkAlgo.upd_lt (a : CkAlgo) (c : Ck) (b : Byte) : (a.upd c b).toNat < 2 ^ (8 * a.width) := by
  have h8 : ∀ x : BitVec 8, (x.setWidth 16).toNat < 2 ^ 8 := fun x => by
    have := x.isLt
    simp only [BitVec.toNat_setWidth]
    omega
  have h16 : ∀ x : BitVec 16, x.toNat < 2 ^ 16 := fun x => x.isLt
  cases a with
  | crc8 => exact h8 _
  | crc16 => exact h16 _
  | sum8 => exact h8 _
  | other8 id => exact h8 _
  | other16 id => exact h16 _

theorem CkAlgo.fold_lt (a : CkAlgo) {c : Ck} (s : List Byte) (h : c.toNat < 2 ^ (8 * a.width)) :
    (a.fold c s).toNat < 2 ^ (8 * a.width) := by
  induction s generalizing c with
  | nil => exact h
  | cons b s ih => exact ih (a.upd_lt c b)

theorem Config.ckFits_iff (cfg : Config) (c : Ck) :
    cfg.ckFits c = true ↔ c.toNat < 2 ^ (8 * cfg.profile.algo.width) := decide_eq_true_iff

theorem Config.upd_fits (cfg : Config) (c : Ck) (b : Byte) : cfg.ckFits (cfg.upd c b) = true :=
  (cfg.ckFits_iff _).mpr (cfg.profile.algo.upd_lt c b)

theorem Config.fold_fits (cfg : Config) {c : Ck} (s : List Byte) (h : cfg.ckFits c = true) :
    cfg.ckFits (cfg.fold c s) = true :=
  (cfg.ckFits_iff _).mpr (cfg.profile.algo.fold_lt s ((cfg.ckFits_iff _).mp h))

theorem Config.headerUpd_fits (cfg : Config) {c : Ck} (b : Byte) (h : cfg.ckFits c = true) :
    cfg.ckFits (cfg.headerUpd c b) = true := by
  unfold Config.headerUpd
  split
  · exact cfg.upd_fits c b
  · exact h

/-- CK_W is 1 or 2 (R9). -/
theorem Config.ckW_cases (cfg : Config) : cfg.ckW = 1 ∨ cfg.ckW = 2 := by
  unfold Config.ckW
  cases cfg.profile.algo <;> simp [CkAlgo.width]

/-- `emit` gives CK_W bytes (R120). -/
theorem CkAlgo.emit_length (a : CkAlgo) (c : Ck) : (a.emit c).length = a.width := by
  cases a <;> rfl

theorem Config.emit_length (cfg : Config) (c : Ck) : (cfg.emit c).length = cfg.ckW := CkAlgo.emit_length ..

end Sys2Proof
end

