-- ==== Sys2Proof/Laws/Mem.lean ====
section
/-!
SUPPORT. The buffer space: a read after a write, the canonical form every write keeps, and what MemRead answers.
-/

namespace Sys2Proof.Machine

@[simp] theorem memGet_memSet_same (m : Mem) (a : Nat) (b : Byte) : memGet (memSet m a b) a = some b := by
  induction m with
  | nil => simp [memSet, memGet]
  | cons c rest ih =>
    obtain ⟨k, d⟩ := c
    simp only [memSet]
    split
    · simp [memGet]
    · split
      · simp [memGet]
      · rename_i h1 h2
        simp [memGet, h2, ih]

theorem memGet_memSet_other (m : Mem) {a x : Nat} (b : Byte) (h : x ≠ a) : memGet (memSet m a b) x = memGet m x := by
  induction m with
  | nil => simp [memSet, memGet, h]
  | cons c rest ih =>
    obtain ⟨k, d⟩ := c
    simp only [memSet]
    split
    · simp [memGet, h]
    · split
      · rename_i h1 h2
        subst h2
        simp [memGet, h]
      · simp [memGet, ih]

theorem memGet_memSet (m : Mem) (a x : Nat) (b : Byte) :
    memGet (memSet m a b) x = if x = a then some b else memGet m x := by
  split
  · rename_i h
    rw [h, memGet_memSet_same]
  · rename_i h
    exact memGet_memSet_other m b h

theorem memRisesFrom_mono {lo lo' : Nat} {m : Mem} (h : memRisesFrom lo m) (hl : lo' ≤ lo) : memRisesFrom lo' m := by
  cases m with
  | nil => rfl
  | cons c rest =>
    obtain ⟨k, d⟩ := c
    simp only [memRisesFrom, Bool.and_eq_true, decide_eq_true_eq] at h ⊢
    exact ⟨le_trans hl h.1, h.2⟩

theorem memSet_rises {lo a : Nat} {m : Mem} (b : Byte) (h : memRisesFrom lo m) (ha : lo ≤ a) :
    memRisesFrom lo (memSet m a b) := by
  induction m generalizing lo with
  | nil => simp [memSet, memRisesFrom, ha]
  | cons c rest ih =>
    obtain ⟨k, d⟩ := c
    simp only [memRisesFrom, Bool.and_eq_true, decide_eq_true_eq] at h
    simp only [memSet]
    split
    · rename_i h1
      simp only [memRisesFrom, Bool.and_eq_true, decide_eq_true_eq]
      exact ⟨ha, by omega, h.2⟩
    · split
      · rename_i h1 h2
        subst h2
        simp only [memRisesFrom, Bool.and_eq_true, decide_eq_true_eq]
        exact ⟨ha, h.2⟩
      · rename_i h1 h2
        simp only [memRisesFrom, Bool.and_eq_true, decide_eq_true_eq]
        exact ⟨h.1, ih h.2 (by omega)⟩

theorem memSet_below {cap a : Nat} {m : Mem} (b : Byte) (h : m.all (fun c => decide (c.1 < cap)) = true) (ha : a < cap) :
    (memSet m a b).all (fun c => decide (c.1 < cap)) = true := by
  induction m with
  | nil => simp [memSet, ha]
  | cons c rest ih =>
    obtain ⟨k, d⟩ := c
    simp only [List.all_cons, Bool.and_eq_true, decide_eq_true_eq] at h
    simp only [memSet]
    split
    · simp [ha, h.1, h.2]
    · split
      · simp [ha, h.2]
      · simp [h.1, ih h.2]

/-- A write keeps the canonical form. -/
theorem memSet_wf {cap a : Nat} {m : Mem} (b : Byte) (h : Memory.wf cap m = true) (ha : a < cap) :
    Memory.wf cap (memSet m a b) = true := by
  simp only [Memory.wf, Bool.and_eq_true] at h ⊢
  exact ⟨memSet_rises b h.1 (Nat.zero_le a), memSet_below b h.2 ha⟩

@[simp] theorem memWf_nil (cap : Nat) : Memory.wf cap [] = true := rfl

/-- Everything memWrite can answer. -/
theorem memWrite_ok {cap a : Nat} {m m' : Mem} {b : Byte} (h : memWrite cap m a b = .ok m') : a < cap ∧ m' = memSet m a b := by
  unfold memWrite at h
  split at h
  · exact ⟨‹_›, (Except.ok.inj h).symm⟩
  · cases h

theorem memWrite_of_lt {cap a : Nat} (m : Mem) (b : Byte) (h : a < cap) : memWrite cap m a b = .ok (memSet m a b) := by
  simp [memWrite, h]

/-- memWrite keeps the canonical form. -/
theorem memWrite_wf {cap a : Nat} {m m' : Mem} {b : Byte} (h : memWrite cap m a b = .ok m') (hw : Memory.wf cap m = true) :
    Memory.wf cap m' = true := by
  obtain ⟨ha, rfl⟩ := memWrite_ok h
  exact memSet_wf b hw ha

/-- MemRead of indices below the capacity that have all been written answers their bytes. -/
theorem memRead_of_written {cap : Nat} {m : Mem} {a n : Nat} (hcap : a + n ≤ cap)
    (h : ∀ i < n, (memGet m (a + i)).isSome) :
    memRead cap m a n = .ok ((List.range n).map fun i => (memGet m (a + i)).getD 0) := by
  induction n generalizing a with
  | zero => rfl
  | succ n ih =>
    have h0 := h 0 (by omega)
    simp only [Nat.add_zero] at h0
    obtain ⟨b, hb⟩ := Option.isSome_iff_exists.mp h0
    have hrest := ih (a := a + 1) (by omega) (fun i hi => by
      have := h (i + 1) (by omega)
      rwa [show a + (i + 1) = a + 1 + i by omega] at this)
    simp only [memRead, memReadByte, if_pos (show a < cap by omega), hb, hrest, List.range_succ_eq_map, List.map_cons,
      List.map_map, Nat.add_zero, Option.getD_some, Except.ok.injEq, List.cons.injEq, true_and]
    refine List.map_congr_left fun i _ => ?_
    simp only [Function.comp]
    rw [show a + 1 + i = a + i.succ by omega]

/-- MemRead answers as many bytes as asked. -/
theorem memRead_length {cap : Nat} {m : Mem} {a n : Nat} {bs : List Byte} (h : memRead cap m a n = .ok bs) :
    bs.length = n := by
  induction n generalizing a bs with
  | zero => cases h; rfl
  | succ n ih =>
    simp only [memRead] at h
    split at h
    · cases h
    · split at h
      · cases h
      · rename_i hr
        cases h
        simp [ih hr]

/-- MemRead sees only the indices it reads. -/
theorem memRead_congr {cap : Nat} {m m' : Mem} {a n : Nat} (h : ∀ i < n, memGet m (a + i) = memGet m' (a + i)) :
    memRead cap m a n = memRead cap m' a n := by
  induction n generalizing a with
  | zero => rfl
  | succ n ih =>
    have h0 := h 0 (by omega)
    simp only [Nat.add_zero] at h0
    have hrest := ih (a := a + 1) (fun i hi => by
      have := h (i + 1) (by omega)
      rwa [show a + (i + 1) = a + 1 + i by omega] at this)
    simp only [memRead, memReadByte, h0, hrest]

end Sys2Proof.Machine
end

