-- ==== Sys2Proof/Laws/Buffer.lean ====
section
/-!
SUPPORT. Buffers seen as byte sequences: `memBytes` after a write, MemRead of written indices.
-/

namespace Sys2Proof.Machine

@[simp] theorem memBytes_zero (m : Mem) (a : Nat) : memBytes m a 0 = [] := rfl

@[simp] theorem memBytes_length (m : Mem) (a n : Nat) : (memBytes m a n).length = n := by simp [memBytes]

theorem memBytes_succ (m : Mem) (a n : Nat) : memBytes m a (n + 1) = memBytes m a n ++ [(memGet m (a + n)).getD 0] := by
  simp [memBytes, List.range_succ]

theorem memBytes_append (m : Mem) (a n k : Nat) : memBytes m a (n + k) = memBytes m a n ++ memBytes m (a + n) k := by
  induction k with
  | zero => simp
  | succ k ih => rw [← Nat.add_assoc, memBytes_succ, memBytes_succ, ih, List.append_assoc, Nat.add_assoc]

theorem memBytes_congr {m m' : Mem} {a n : Nat} (h : ∀ i < n, memGet m (a + i) = memGet m' (a + i)) :
    memBytes m a n = memBytes m' a n :=
  List.map_congr_left fun i hi => by rw [h i (List.mem_range.mp hi)]

/-- A write past the bytes seen leaves them. -/
theorem memBytes_memSet_past (m : Mem) {a n k : Nat} (b : Byte) (h : a + n ≤ k) :
    memBytes (memSet m k b) a n = memBytes m a n :=
  memBytes_congr fun i hi => memGet_memSet_other m b (by omega)

/-- A write just past the bytes seen appends its byte. -/
theorem memBytes_memSet_next (m : Mem) (a n : Nat) (b : Byte) :
    memBytes (memSet m (a + n) b) a (n + 1) = memBytes m a n ++ [b] := by
  rw [memBytes_succ, memBytes_memSet_past m b (le_refl _), memGet_memSet_same]
  rfl

theorem Written.mono {m : Mem} {n k : Nat} (h : Written m n) (hk : k ≤ n) : Written m k :=
  fun i hi => h i (lt_of_lt_of_le hi hk)

theorem Written.memSet {m : Mem} {n : Nat} (h : Written m n) (b : Byte) : Written (memSet m n b) (n + 1) := by
  intro i hi
  rw [memGet_memSet]
  split
  · rfl
  · exact h i (by omega)

theorem written_zero (m : Mem) : Written m 0 := fun i hi => absurd hi (Nat.not_lt_zero i)

/-- MemRead inside the written part of a buffer. -/
theorem memRead_written {cap : Nat} {m : Mem} {n a k : Nat} (h : Written m n) (hak : a + k ≤ n) (hcap : a + k ≤ cap) :
    memRead cap m a k = .ok (memBytes m a k) :=
  memRead_of_written hcap fun i hi => h (a + i) (by omega)

end Sys2Proof.Machine
end

