-- ==== Sys2Proof/Laws/Header.lean ====
section
/-!
SUPPORT. Headers: the decode of header items, its field bytes, and that a header register holds HDR_LEN bytes as fields
(spec/10_state.md R20).
-/

namespace Sys2Proof.Machine

/-- Decoding items does not touch the fields of items that are not among them. -/
theorem itemBytes_unpackItems {addrW : Nat} {is : List HdrItem} {x : HdrItem} (hx : x ∉ is) (bs : List Byte)
    (h : Header) :
    itemBytes (unpackItems addrW is bs h) x = itemBytes h x := by
  induction is generalizing bs h with
  | nil => rfl
  | cons i is ih =>
    simp only [List.mem_cons, not_or] at hx
    cases i <;> simp only [unpackItems, ih hx.2] <;> cases x <;> simp_all [itemBytes]

/-- The field bytes of the decode are the bytes decoded (R87). -/
theorem fieldBytes_unpackItems (addrW : Nat) (is : List HdrItem) (hn : is.Nodup) (bs : List Byte) (h : Header)
    (hl : (is.map (HdrItem.width addrW)).sum ≤ bs.length) :
    is.flatMap (itemBytes (unpackItems addrW is bs h)) = bs.take (is.map (HdrItem.width addrW)).sum := by
  induction is generalizing bs h with
  | nil => simp
  | cons i is ih =>
    rw [List.nodup_cons] at hn
    simp only [List.map_cons, List.sum_cons] at hl ⊢
    have key : itemBytes (unpackItems addrW (i :: is) bs h) i = bs.take (i.width addrW) := by
      cases i <;> simp only [unpackItems] <;> rw [itemBytes_unpackItems hn.1] <;>
        simp only [itemBytes, HdrItem.width] at hl ⊢ <;> (try (cases bs <;> simp at hl ⊢))
    have step : ∃ h', unpackItems addrW (i :: is) bs h = unpackItems addrW is (bs.drop (i.width addrW)) h' := by
      cases i <;> exact ⟨_, rfl⟩
    obtain ⟨h', hs⟩ := step
    rw [List.flatMap_cons, key, hs, ih hn.2 _ _ (by simp; omega), List.take_add]

/-- The decode keeps the field bytes (R87, R142). -/
theorem fieldBytes_unpackHeader (cfg : Config) (hn : cfg.profile.layout.Nodup) (bs : List Byte)
    (hl : cfg.fieldLen ≤ bs.length) : fieldBytes cfg (unpackHeader cfg bs) = bs.take cfg.fieldLen := by
  have h1 := fieldBytes_unpackItems cfg.profile.addrW cfg.profile.layout hn bs Header.zero hl
  unfold fieldBytes unpackHeader
  simp only
  split
  · have : ∀ h : Header, ∀ b, itemBytes { h with bodyLen := b } = itemBytes h := by
      intro h b; funext x; cases x <;> rfl
    rw [this]; exact h1
  · exact h1

/-- Decoding gives each item its width. -/
theorem itemBytes_unpackItems_length {addrW : Nat} {is : List HdrItem} {x : HdrItem} (hx : x ∈ is) (bs : List Byte)
    (h : Header) (hl : (is.map (HdrItem.width addrW)).sum ≤ bs.length) :
    (itemBytes (unpackItems addrW is bs h) x).length = x.width addrW := by
  induction is generalizing bs h with
  | nil => cases hx
  | cons i is ih =>
    simp only [List.map_cons, List.sum_cons] at hl
    have step : ∃ h', unpackItems addrW (i :: is) bs h = unpackItems addrW is (bs.drop (i.width addrW)) h' ∧
        (itemBytes h' i).length = i.width addrW := by
      cases i <;> refine ⟨_, rfl, ?_⟩ <;> simp only [itemBytes, HdrItem.width] at hl ⊢ <;> simp <;> omega
    obtain ⟨h', hs, hw⟩ := step
    rw [hs]
    by_cases hm : x ∈ is
    · exact ih hm _ _ (by simp; omega)
    · obtain rfl : x = i := (List.mem_cons.mp hx).resolve_right hm
      rw [itemBytes_unpackItems hm, hw]

/-- A decoded header holds HDR_LEN bytes as fields (R20, R142). -/
theorem unpackHeader_fits (cfg : Config) {bs : List Byte} (hl : cfg.fieldLen ≤ bs.length) :
    Header.fits cfg (unpackHeader cfg bs) = true := by
  simp only [Header.fits, List.all_eq_true, decide_eq_true_eq]
  intro x hx
  have h1 := itemBytes_unpackItems_length (addrW := cfg.profile.addrW) hx bs Header.zero hl
  unfold unpackHeader
  simp only
  split
  · rw [← h1]
    cases x <;> rfl
  · exact h1

/-- So does the header after reset (R20, log 15). -/
theorem resetHeader_fits (cfg : Config) : Header.fits cfg (Header.reset cfg) = true := by
  simp only [Header.fits, List.all_eq_true, decide_eq_true_eq]
  intro x hx
  cases x <;> simp [itemBytes, Header.reset, HdrItem.width, hx]

/-- The field bytes of a header register: HDR_LEN without the body length's byte (R20). -/
theorem fieldBytes_length {cfg : Config} {h : Header} (hf : Header.fits cfg h = true) :
    (fieldBytes cfg h).length = cfg.fieldLen := by
  simp only [Header.fits, List.all_eq_true, decide_eq_true_eq] at hf
  simp only [fieldBytes, Config.fieldLen, List.length_flatMap]
  exact congrArg List.sum (List.map_congr_left hf)

/-- A packed header has HDR_LEN bytes (R9, R141). -/
theorem packHeader_length (cfg : Config) (fields : List Byte) (n : Byte) (h : cfg.fieldsFit fields = true) :
    (packHeader cfg fields n).length = cfg.hdrLen := by
  simp only [Config.fieldsFit, decide_eq_true_eq] at h
  simp only [packHeader, Config.hdrLen, Config.lenBytes, List.length_append, h]
  split <;> simp

end Sys2Proof.Machine
end

