-- ==== Sys2Proof/Laws/State.lean ====
section
/-!
SUPPORT. What each named update of the state does to each field: one lemma per field per update, true by definition, so
that no later proof unfolds a record update.
-/

namespace Sys2Proof.Machine

@[simp] theorem setResult_cfg (r : Result) (s : State) : (setResult r s).cfg = s.cfg := rfl
@[simp] theorem setResult_dir (r : Result) (s : State) : (setResult r s).dir = s.dir := rfl
@[simp] theorem setResult_ck (r : Result) (s : State) : (setResult r s).ck = s.ck := rfl
@[simp] theorem setResult_t0 (r : Result) (s : State) : (setResult r s).t0 = s.t0 := rfl
@[simp] theorem setResult_rx (r : Result) (s : State) : (setResult r s).rx = s.rx := rfl
@[simp] theorem setResult_mq (r : Result) (s : State) : (setResult r s).mq = s.mq := rfl
@[simp] theorem setResult_result (r : Result) (s : State) : (setResult r s).result = r := rfl
@[simp] theorem setResult_port (r : Result) (s : State) : (setResult r s).port = s.port := rfl
@[simp] theorem setResult_freeCount (r : Result) (s : State) : (setResult r s).freeCount = s.freeCount := rfl
@[simp] theorem setResult_waiting (r : Result) (s : State) : (setResult r s).line.waiting = s.line.waiting := rfl
@[simp] theorem setResult_now (r : Result) (s : State) : (setResult r s).line.now = s.line.now := rfl
@[simp] theorem setResult_looks (r : Result) (s : State) : (setResult r s).line.looks = s.line.looks := rfl
@[simp] theorem setResult_accepts (r : Result) (s : State) : (setResult r s).line.accepts = s.line.accepts := rfl
@[simp] theorem setResult_trace (r : Result) (s : State) : (setResult r s).line.trace = s.line.trace := rfl

@[simp] theorem record_cfg (op : LineOp) (s : State) : (record op s).cfg = s.cfg := rfl
@[simp] theorem record_dir (op : LineOp) (s : State) : (record op s).dir = s.dir := rfl
@[simp] theorem record_ck (op : LineOp) (s : State) : (record op s).ck = s.ck := rfl
@[simp] theorem record_t0 (op : LineOp) (s : State) : (record op s).t0 = s.t0 := rfl
@[simp] theorem record_rx (op : LineOp) (s : State) : (record op s).rx = s.rx := rfl
@[simp] theorem record_mq (op : LineOp) (s : State) : (record op s).mq = s.mq := rfl
@[simp] theorem record_result (op : LineOp) (s : State) : (record op s).result = s.result := rfl
@[simp] theorem record_port (op : LineOp) (s : State) : (record op s).port = s.port := rfl
@[simp] theorem record_freeCount (op : LineOp) (s : State) : (record op s).freeCount = s.freeCount := rfl
@[simp] theorem record_waiting (op : LineOp) (s : State) : (record op s).line.waiting = s.line.waiting := rfl
@[simp] theorem record_now (op : LineOp) (s : State) : (record op s).line.now = s.line.now := rfl
@[simp] theorem record_looks (op : LineOp) (s : State) : (record op s).line.looks = s.line.looks := rfl
@[simp] theorem record_accepts (op : LineOp) (s : State) : (record op s).line.accepts = s.line.accepts := rfl
@[simp] theorem record_trace (op : LineOp) (s : State) : (record op s).line.trace = s.line.trace ++ [op] := rfl

@[simp] theorem lineBegin_cfg (rate : BitVec 32) (s : State) : (lineBegin rate s).cfg = s.cfg := rfl
@[simp] theorem lineBegin_dir (rate : BitVec 32) (s : State) : (lineBegin rate s).dir = s.dir := rfl
@[simp] theorem lineBegin_ck (rate : BitVec 32) (s : State) : (lineBegin rate s).ck = s.ck := rfl
@[simp] theorem lineBegin_t0 (rate : BitVec 32) (s : State) : (lineBegin rate s).t0 = s.t0 := rfl
@[simp] theorem lineBegin_rx (rate : BitVec 32) (s : State) : (lineBegin rate s).rx = s.rx := rfl
@[simp] theorem lineBegin_mq (rate : BitVec 32) (s : State) : (lineBegin rate s).mq = s.mq := rfl
@[simp] theorem lineBegin_result (rate : BitVec 32) (s : State) : (lineBegin rate s).result = s.result := rfl
@[simp] theorem lineBegin_port (rate : BitVec 32) (s : State) : (lineBegin rate s).port = s.port := rfl
@[simp] theorem lineBegin_freeCount (rate : BitVec 32) (s : State) : (lineBegin rate s).freeCount = s.freeCount := rfl
@[simp] theorem lineBegin_waiting (rate : BitVec 32) (s : State) : (lineBegin rate s).line.waiting = s.line.waiting := rfl
@[simp] theorem lineBegin_now (rate : BitVec 32) (s : State) : (lineBegin rate s).line.now = s.line.now := rfl
@[simp] theorem lineBegin_looks (rate : BitVec 32) (s : State) : (lineBegin rate s).line.looks = s.line.looks := rfl
@[simp] theorem lineBegin_accepts (rate : BitVec 32) (s : State) : (lineBegin rate s).line.accepts = s.line.accepts := rfl
@[simp] theorem lineBegin_trace (rate : BitVec 32) (s : State) : (lineBegin rate s).line.trace = s.line.trace ++ [.opened rate] := rfl

@[simp] theorem setDir_cfg (d : Dir) (s : State) : (setDir d s).cfg = s.cfg := rfl
@[simp] theorem setDir_dir (d : Dir) (s : State) : (setDir d s).dir = d := rfl
@[simp] theorem setDir_ck (d : Dir) (s : State) : (setDir d s).ck = s.ck := rfl
@[simp] theorem setDir_t0 (d : Dir) (s : State) : (setDir d s).t0 = s.t0 := rfl
@[simp] theorem setDir_rx (d : Dir) (s : State) : (setDir d s).rx = s.rx := rfl
@[simp] theorem setDir_mq (d : Dir) (s : State) : (setDir d s).mq = s.mq := rfl
@[simp] theorem setDir_result (d : Dir) (s : State) : (setDir d s).result = s.result := rfl
@[simp] theorem setDir_port (d : Dir) (s : State) : (setDir d s).port = s.port := rfl
@[simp] theorem setDir_freeCount (d : Dir) (s : State) : (setDir d s).freeCount = s.freeCount := rfl
@[simp] theorem setDir_waiting (d : Dir) (s : State) : (setDir d s).line.waiting = s.line.waiting := rfl
@[simp] theorem setDir_now (d : Dir) (s : State) : (setDir d s).line.now = s.line.now := rfl
@[simp] theorem setDir_looks (d : Dir) (s : State) : (setDir d s).line.looks = s.line.looks := rfl
@[simp] theorem setDir_accepts (d : Dir) (s : State) : (setDir d s).line.accepts = s.line.accepts := rfl
@[simp] theorem setDir_trace (d : Dir) (s : State) : (setDir d s).line.trace = s.line.trace ++ [.direction d] := rfl

@[simp] theorem lineFlush_cfg (s : State) : (lineFlush s).cfg = s.cfg := rfl
@[simp] theorem lineFlush_dir (s : State) : (lineFlush s).dir = s.dir := rfl
@[simp] theorem lineFlush_ck (s : State) : (lineFlush s).ck = s.ck := rfl
@[simp] theorem lineFlush_t0 (s : State) : (lineFlush s).t0 = s.t0 := rfl
@[simp] theorem lineFlush_rx (s : State) : (lineFlush s).rx = s.rx := rfl
@[simp] theorem lineFlush_mq (s : State) : (lineFlush s).mq = s.mq := rfl
@[simp] theorem lineFlush_result (s : State) : (lineFlush s).result = s.result := rfl
@[simp] theorem lineFlush_port (s : State) : (lineFlush s).port = s.port := rfl
@[simp] theorem lineFlush_freeCount (s : State) : (lineFlush s).freeCount = s.freeCount := rfl
@[simp] theorem lineFlush_waiting (s : State) : (lineFlush s).line.waiting = s.line.waiting := rfl
@[simp] theorem lineFlush_now (s : State) : (lineFlush s).line.now = s.line.now := rfl
@[simp] theorem lineFlush_looks (s : State) : (lineFlush s).line.looks = s.line.looks := rfl
@[simp] theorem lineFlush_accepts (s : State) : (lineFlush s).line.accepts = s.line.accepts := rfl
@[simp] theorem lineFlush_trace (s : State) : (lineFlush s).line.trace = s.line.trace ++ [.flushed] := rfl

@[simp] theorem turnAround_cfg (s : State) : (turnAround s).cfg = s.cfg := rfl
@[simp] theorem turnAround_dir (s : State) : (turnAround s).dir = .rx := rfl
@[simp] theorem turnAround_ck (s : State) : (turnAround s).ck = s.ck := rfl
@[simp] theorem turnAround_t0 (s : State) : (turnAround s).t0 = s.t0 := rfl
@[simp] theorem turnAround_rx (s : State) : (turnAround s).rx = s.rx := rfl
@[simp] theorem turnAround_mq (s : State) : (turnAround s).mq = s.mq := rfl
@[simp] theorem turnAround_result (s : State) : (turnAround s).result = s.result := rfl
@[simp] theorem turnAround_port (s : State) : (turnAround s).port = s.port := rfl
@[simp] theorem turnAround_freeCount (s : State) : (turnAround s).freeCount = s.freeCount := rfl
@[simp] theorem turnAround_waiting (s : State) : (turnAround s).line.waiting = s.line.waiting := rfl
@[simp] theorem turnAround_now (s : State) : (turnAround s).line.now = s.line.now := rfl
@[simp] theorem turnAround_looks (s : State) : (turnAround s).line.looks = s.line.looks := rfl
@[simp] theorem turnAround_accepts (s : State) : (turnAround s).line.accepts = s.line.accepts := rfl
@[simp] theorem turnAround_trace (s : State) : (turnAround s).line.trace = s.line.trace ++ [.flushed] ++ [.direction .rx] := rfl

@[simp] theorem takeLook_cfg (l : Look) (rest : List Look) (s : State) : (takeLook l rest s).cfg = s.cfg := rfl
@[simp] theorem takeLook_dir (l : Look) (rest : List Look) (s : State) : (takeLook l rest s).dir = s.dir := rfl
@[simp] theorem takeLook_ck (l : Look) (rest : List Look) (s : State) : (takeLook l rest s).ck = s.ck := rfl
@[simp] theorem takeLook_t0 (l : Look) (rest : List Look) (s : State) : (takeLook l rest s).t0 = s.t0 := rfl
@[simp] theorem takeLook_rx (l : Look) (rest : List Look) (s : State) : (takeLook l rest s).rx = s.rx := rfl
@[simp] theorem takeLook_mq (l : Look) (rest : List Look) (s : State) : (takeLook l rest s).mq = s.mq := rfl
@[simp] theorem takeLook_result (l : Look) (rest : List Look) (s : State) : (takeLook l rest s).result = s.result := rfl
@[simp] theorem takeLook_port (l : Look) (rest : List Look) (s : State) : (takeLook l rest s).port = s.port := rfl
@[simp] theorem takeLook_freeCount (l : Look) (rest : List Look) (s : State) : (takeLook l rest s).freeCount = s.freeCount := rfl
@[simp] theorem takeLook_waiting (l : Look) (rest : List Look) (s : State) : (takeLook l rest s).line.waiting = s.line.waiting.drop l.lost ++ (if s.dir = .rx then l.arrived else []) := rfl
@[simp] theorem takeLook_now (l : Look) (rest : List Look) (s : State) : (takeLook l rest s).line.now = s.line.now + l.dt := rfl
@[simp] theorem takeLook_looks (l : Look) (rest : List Look) (s : State) : (takeLook l rest s).line.looks = rest := rfl
@[simp] theorem takeLook_accepts (l : Look) (rest : List Look) (s : State) : (takeLook l rest s).line.accepts = s.line.accepts := rfl
@[simp] theorem takeLook_trace (l : Look) (rest : List Look) (s : State) : (takeLook l rest s).line.trace = s.line.trace := rfl

@[simp] theorem startWait_cfg (s : State) : (startWait s).cfg = s.cfg := rfl
@[simp] theorem startWait_dir (s : State) : (startWait s).dir = s.dir := rfl
@[simp] theorem startWait_ck (s : State) : (startWait s).ck = s.ck := rfl
@[simp] theorem startWait_t0 (s : State) : (startWait s).t0 = s.line.now := rfl
@[simp] theorem startWait_rx (s : State) : (startWait s).rx = s.rx := rfl
@[simp] theorem startWait_mq (s : State) : (startWait s).mq = s.mq := rfl
@[simp] theorem startWait_result (s : State) : (startWait s).result = s.result := rfl
@[simp] theorem startWait_port (s : State) : (startWait s).port = s.port := rfl
@[simp] theorem startWait_freeCount (s : State) : (startWait s).freeCount = s.freeCount := rfl
@[simp] theorem startWait_waiting (s : State) : (startWait s).line.waiting = s.line.waiting := rfl
@[simp] theorem startWait_now (s : State) : (startWait s).line.now = s.line.now := rfl
@[simp] theorem startWait_looks (s : State) : (startWait s).line.looks = s.line.looks := rfl
@[simp] theorem startWait_accepts (s : State) : (startWait s).line.accepts = s.line.accepts := rfl
@[simp] theorem startWait_trace (s : State) : (startWait s).line.trace = s.line.trace := rfl

@[simp] theorem endWait_cfg (s : State) : (endWait s).cfg = s.cfg := rfl
@[simp] theorem endWait_dir (s : State) : (endWait s).dir = s.dir := rfl
@[simp] theorem endWait_ck (s : State) : (endWait s).ck = s.ck := rfl
@[simp] theorem endWait_t0 (s : State) : (endWait s).t0 = Config.freeTime s.freeCount := rfl
@[simp] theorem endWait_rx (s : State) : (endWait s).rx = s.rx := rfl
@[simp] theorem endWait_mq (s : State) : (endWait s).mq = s.mq := rfl
@[simp] theorem endWait_result (s : State) : (endWait s).result = s.result := rfl
@[simp] theorem endWait_port (s : State) : (endWait s).port = s.port := rfl
@[simp] theorem endWait_freeCount (s : State) : (endWait s).freeCount = s.freeCount + 1 := rfl
@[simp] theorem endWait_waiting (s : State) : (endWait s).line.waiting = s.line.waiting := rfl
@[simp] theorem endWait_now (s : State) : (endWait s).line.now = s.line.now := rfl
@[simp] theorem endWait_looks (s : State) : (endWait s).line.looks = s.line.looks := rfl
@[simp] theorem endWait_accepts (s : State) : (endWait s).line.accepts = s.line.accepts := rfl
@[simp] theorem endWait_trace (s : State) : (endWait s).line.trace = s.line.trace := rfl

@[simp] theorem setMState_cfg (m : MState) (s : State) : (setMState m s).cfg = s.cfg := rfl
@[simp] theorem setMState_dir (m : MState) (s : State) : (setMState m s).dir = s.dir := rfl
@[simp] theorem setMState_ck (m : MState) (s : State) : (setMState m s).ck = s.ck := rfl
@[simp] theorem setMState_t0 (m : MState) (s : State) : (setMState m s).t0 = s.t0 := rfl
@[simp] theorem setMState_rx (m : MState) (s : State) : (setMState m s).rx = s.rx := rfl
@[simp] theorem setMState_result (m : MState) (s : State) : (setMState m s).result = s.result := rfl
@[simp] theorem setMState_port (m : MState) (s : State) : (setMState m s).port = s.port := rfl
@[simp] theorem setMState_freeCount (m : MState) (s : State) : (setMState m s).freeCount = s.freeCount := rfl
@[simp] theorem setMState_waiting (m : MState) (s : State) : (setMState m s).line.waiting = s.line.waiting := rfl
@[simp] theorem setMState_now (m : MState) (s : State) : (setMState m s).line.now = s.line.now := rfl
@[simp] theorem setMState_looks (m : MState) (s : State) : (setMState m s).line.looks = s.line.looks := rfl
@[simp] theorem setMState_accepts (m : MState) (s : State) : (setMState m s).line.accepts = s.line.accepts := rfl
@[simp] theorem setMState_trace (m : MState) (s : State) : (setMState m s).line.trace = s.line.trace ++ [.masterState m] := rfl
@[simp] theorem setMState_mState (m : MState) (s : State) : (setMState m s).mq.mState = m := rfl
@[simp] theorem setMState_qStatus (m : MState) (s : State) : (setMState m s).mq.qStatus = s.mq.qStatus := rfl
@[simp] theorem setMState_qValid (m : MState) (s : State) : (setMState m s).mq.qValid = s.mq.qValid := rfl
@[simp] theorem setMState_qHdr (m : MState) (s : State) : (setMState m s).mq.qHdr = s.mq.qHdr := rfl
@[simp] theorem setMState_qbuf (m : MState) (s : State) : (setMState m s).mq.qbuf = s.mq.qbuf := rfl
@[simp] theorem setMState_qCnt (m : MState) (s : State) : (setMState m s).mq.qCnt = s.mq.qCnt := rfl

@[simp] theorem raiseQ_cfg (flag : Byte) (s : State) : (raiseQ flag s).cfg = s.cfg := rfl
@[simp] theorem raiseQ_dir (flag : Byte) (s : State) : (raiseQ flag s).dir = s.dir := rfl
@[simp] theorem raiseQ_ck (flag : Byte) (s : State) : (raiseQ flag s).ck = s.ck := rfl
@[simp] theorem raiseQ_t0 (flag : Byte) (s : State) : (raiseQ flag s).t0 = s.t0 := rfl
@[simp] theorem raiseQ_rx (flag : Byte) (s : State) : (raiseQ flag s).rx = s.rx := rfl
@[simp] theorem raiseQ_result (flag : Byte) (s : State) : (raiseQ flag s).result = s.result := rfl
@[simp] theorem raiseQ_port (flag : Byte) (s : State) : (raiseQ flag s).port = s.port := rfl
@[simp] theorem raiseQ_freeCount (flag : Byte) (s : State) : (raiseQ flag s).freeCount = s.freeCount := rfl
@[simp] theorem raiseQ_waiting (flag : Byte) (s : State) : (raiseQ flag s).line.waiting = s.line.waiting := rfl
@[simp] theorem raiseQ_now (flag : Byte) (s : State) : (raiseQ flag s).line.now = s.line.now := rfl
@[simp] theorem raiseQ_looks (flag : Byte) (s : State) : (raiseQ flag s).line.looks = s.line.looks := rfl
@[simp] theorem raiseQ_accepts (flag : Byte) (s : State) : (raiseQ flag s).line.accepts = s.line.accepts := rfl
@[simp] theorem raiseQ_trace (flag : Byte) (s : State) : (raiseQ flag s).line.trace = s.line.trace := rfl
@[simp] theorem raiseQ_mState (flag : Byte) (s : State) : (raiseQ flag s).mq.mState = s.mq.mState := rfl
@[simp] theorem raiseQ_qStatus (flag : Byte) (s : State) : (raiseQ flag s).mq.qStatus = raiseFlag s.mq.qStatus flag := rfl
@[simp] theorem raiseQ_qValid (flag : Byte) (s : State) : (raiseQ flag s).mq.qValid = s.mq.qValid := rfl
@[simp] theorem raiseQ_qHdr (flag : Byte) (s : State) : (raiseQ flag s).mq.qHdr = s.mq.qHdr := rfl
@[simp] theorem raiseQ_qbuf (flag : Byte) (s : State) : (raiseQ flag s).mq.qbuf = s.mq.qbuf := rfl
@[simp] theorem raiseQ_qCnt (flag : Byte) (s : State) : (raiseQ flag s).mq.qCnt = s.mq.qCnt := rfl

@[simp] theorem clearQ_cfg (s : State) : (clearQ s).cfg = s.cfg := rfl
@[simp] theorem clearQ_dir (s : State) : (clearQ s).dir = s.dir := rfl
@[simp] theorem clearQ_ck (s : State) : (clearQ s).ck = s.ck := rfl
@[simp] theorem clearQ_t0 (s : State) : (clearQ s).t0 = s.t0 := rfl
@[simp] theorem clearQ_rx (s : State) : (clearQ s).rx = s.rx := rfl
@[simp] theorem clearQ_result (s : State) : (clearQ s).result = s.result := rfl
@[simp] theorem clearQ_port (s : State) : (clearQ s).port = s.port := rfl
@[simp] theorem clearQ_freeCount (s : State) : (clearQ s).freeCount = s.freeCount := rfl
@[simp] theorem clearQ_waiting (s : State) : (clearQ s).line.waiting = s.line.waiting := rfl
@[simp] theorem clearQ_now (s : State) : (clearQ s).line.now = s.line.now := rfl
@[simp] theorem clearQ_looks (s : State) : (clearQ s).line.looks = s.line.looks := rfl
@[simp] theorem clearQ_accepts (s : State) : (clearQ s).line.accepts = s.line.accepts := rfl
@[simp] theorem clearQ_trace (s : State) : (clearQ s).line.trace = s.line.trace := rfl
@[simp] theorem clearQ_mState (s : State) : (clearQ s).mq.mState = s.mq.mState := rfl
@[simp] theorem clearQ_qStatus (s : State) : (clearQ s).mq.qStatus = 0x00 := rfl
@[simp] theorem clearQ_qValid (s : State) : (clearQ s).mq.qValid = false := rfl
@[simp] theorem clearQ_qHdr (s : State) : (clearQ s).mq.qHdr = s.mq.qHdr := rfl
@[simp] theorem clearQ_qbuf (s : State) : (clearQ s).mq.qbuf = s.mq.qbuf := rfl
@[simp] theorem clearQ_qCnt (s : State) : (clearQ s).mq.qCnt = 0 := rfl

@[simp] theorem setEpState_cfg (e : EpState) (s : State) : (setEpState e s).cfg = s.cfg := rfl
@[simp] theorem setEpState_dir (e : EpState) (s : State) : (setEpState e s).dir = s.dir := rfl
@[simp] theorem setEpState_ck (e : EpState) (s : State) : (setEpState e s).ck = s.ck := rfl
@[simp] theorem setEpState_t0 (e : EpState) (s : State) : (setEpState e s).t0 = s.t0 := rfl
@[simp] theorem setEpState_mq (e : EpState) (s : State) : (setEpState e s).mq = s.mq := rfl
@[simp] theorem setEpState_result (e : EpState) (s : State) : (setEpState e s).result = s.result := rfl
@[simp] theorem setEpState_port (e : EpState) (s : State) : (setEpState e s).port = s.port := rfl
@[simp] theorem setEpState_freeCount (e : EpState) (s : State) : (setEpState e s).freeCount = s.freeCount := rfl
@[simp] theorem setEpState_waiting (e : EpState) (s : State) : (setEpState e s).line.waiting = s.line.waiting := rfl
@[simp] theorem setEpState_now (e : EpState) (s : State) : (setEpState e s).line.now = s.line.now := rfl
@[simp] theorem setEpState_looks (e : EpState) (s : State) : (setEpState e s).line.looks = s.line.looks := rfl
@[simp] theorem setEpState_accepts (e : EpState) (s : State) : (setEpState e s).line.accepts = s.line.accepts := rfl
@[simp] theorem setEpState_trace (e : EpState) (s : State) : (setEpState e s).line.trace = s.line.trace ++ [.endpointState e] := rfl
@[simp] theorem setEpState_epState (e : EpState) (s : State) : (setEpState e s).rx.epState = e := rfl
@[simp] theorem setEpState_rxCk (e : EpState) (s : State) : (setEpState e s).rx.rxCk = s.rx.rxCk := rfl
@[simp] theorem setEpState_rxCnt (e : EpState) (s : State) : (setEpState e s).rx.rxCnt = s.rx.rxCnt := rfl
@[simp] theorem setEpState_rxbuf (e : EpState) (s : State) : (setEpState e s).rx.rxbuf = s.rx.rxbuf := rfl
@[simp] theorem setEpState_hdr (e : EpState) (s : State) : (setEpState e s).rx.hdr = s.rx.hdr := rfl
@[simp] theorem setEpState_hdrSet (e : EpState) (s : State) : (setEpState e s).rx.hdrSet = s.rx.hdrSet := rfl
@[simp] theorem setEpState_epStatus (e : EpState) (s : State) : (setEpState e s).rx.epStatus = s.rx.epStatus := rfl

@[simp] theorem raiseEp_cfg (flags : Byte) (s : State) : (raiseEp flags s).cfg = s.cfg := rfl
@[simp] theorem raiseEp_dir (flags : Byte) (s : State) : (raiseEp flags s).dir = s.dir := rfl
@[simp] theorem raiseEp_ck (flags : Byte) (s : State) : (raiseEp flags s).ck = s.ck := rfl
@[simp] theorem raiseEp_t0 (flags : Byte) (s : State) : (raiseEp flags s).t0 = s.t0 := rfl
@[simp] theorem raiseEp_mq (flags : Byte) (s : State) : (raiseEp flags s).mq = s.mq := rfl
@[simp] theorem raiseEp_result (flags : Byte) (s : State) : (raiseEp flags s).result = s.result := rfl
@[simp] theorem raiseEp_port (flags : Byte) (s : State) : (raiseEp flags s).port = s.port := rfl
@[simp] theorem raiseEp_freeCount (flags : Byte) (s : State) : (raiseEp flags s).freeCount = s.freeCount := rfl
@[simp] theorem raiseEp_waiting (flags : Byte) (s : State) : (raiseEp flags s).line.waiting = s.line.waiting := rfl
@[simp] theorem raiseEp_now (flags : Byte) (s : State) : (raiseEp flags s).line.now = s.line.now := rfl
@[simp] theorem raiseEp_looks (flags : Byte) (s : State) : (raiseEp flags s).line.looks = s.line.looks := rfl
@[simp] theorem raiseEp_accepts (flags : Byte) (s : State) : (raiseEp flags s).line.accepts = s.line.accepts := rfl
@[simp] theorem raiseEp_trace (flags : Byte) (s : State) : (raiseEp flags s).line.trace = s.line.trace := rfl
@[simp] theorem raiseEp_epState (flags : Byte) (s : State) : (raiseEp flags s).rx.epState = s.rx.epState := rfl
@[simp] theorem raiseEp_rxCk (flags : Byte) (s : State) : (raiseEp flags s).rx.rxCk = s.rx.rxCk := rfl
@[simp] theorem raiseEp_rxCnt (flags : Byte) (s : State) : (raiseEp flags s).rx.rxCnt = s.rx.rxCnt := rfl
@[simp] theorem raiseEp_rxbuf (flags : Byte) (s : State) : (raiseEp flags s).rx.rxbuf = s.rx.rxbuf := rfl
@[simp] theorem raiseEp_hdr (flags : Byte) (s : State) : (raiseEp flags s).rx.hdr = s.rx.hdr := rfl
@[simp] theorem raiseEp_hdrSet (flags : Byte) (s : State) : (raiseEp flags s).rx.hdrSet = s.rx.hdrSet := rfl
@[simp] theorem raiseEp_epStatus (flags : Byte) (s : State) : (raiseEp flags s).rx.epStatus = raiseFlag s.rx.epStatus flags := rfl

@[simp] theorem lineWrite_cfg (bytes : List Byte) (s : State) : ((lineWrite bytes s).2).cfg = s.cfg := rfl
@[simp] theorem lineWrite_dir (bytes : List Byte) (s : State) : ((lineWrite bytes s).2).dir = s.dir := rfl
@[simp] theorem lineWrite_ck (bytes : List Byte) (s : State) : ((lineWrite bytes s).2).ck = s.ck := rfl
@[simp] theorem lineWrite_t0 (bytes : List Byte) (s : State) : ((lineWrite bytes s).2).t0 = s.t0 := rfl
@[simp] theorem lineWrite_rx (bytes : List Byte) (s : State) : ((lineWrite bytes s).2).rx = s.rx := rfl
@[simp] theorem lineWrite_mq (bytes : List Byte) (s : State) : ((lineWrite bytes s).2).mq = s.mq := rfl
@[simp] theorem lineWrite_result (bytes : List Byte) (s : State) : ((lineWrite bytes s).2).result = s.result := rfl
@[simp] theorem lineWrite_port (bytes : List Byte) (s : State) : ((lineWrite bytes s).2).port = s.port := rfl
@[simp] theorem lineWrite_freeCount (bytes : List Byte) (s : State) : ((lineWrite bytes s).2).freeCount = s.freeCount := rfl
@[simp] theorem lineWrite_waiting (bytes : List Byte) (s : State) : ((lineWrite bytes s).2).line.waiting = s.line.waiting := rfl
@[simp] theorem lineWrite_now (bytes : List Byte) (s : State) : ((lineWrite bytes s).2).line.now = s.line.now := rfl
@[simp] theorem lineWrite_looks (bytes : List Byte) (s : State) : ((lineWrite bytes s).2).line.looks = s.line.looks := rfl
@[simp] theorem lineWrite_accepts (bytes : List Byte) (s : State) : ((lineWrite bytes s).2).line.accepts = s.line.accepts.tail := rfl
@[simp] theorem lineWrite_trace (bytes : List Byte) (s : State) : ((lineWrite bytes s).2).line.trace = s.line.trace ++ [.wrote (bytes.take (acceptedCount s.line.accepts bytes.length))] := rfl

@[simp] theorem hardwareReset_cfg (cfg : Config) (s : State) : (hardwareReset cfg s).cfg = cfg := rfl
@[simp] theorem hardwareReset_dir (cfg : Config) (s : State) : (hardwareReset cfg s).dir = .rx := rfl
@[simp] theorem hardwareReset_ck (cfg : Config) (s : State) : (hardwareReset cfg s).ck = cfg.ckSeed := rfl
@[simp] theorem hardwareReset_rx (cfg : Config) (s : State) : (hardwareReset cfg s).rx = Receiver.reset cfg := rfl
@[simp] theorem hardwareReset_mq (cfg : Config) (s : State) : (hardwareReset cfg s).mq = Master.reset cfg := rfl
@[simp] theorem hardwareReset_port (cfg : Config) (s : State) : (hardwareReset cfg s).port = [] := rfl
@[simp] theorem hardwareReset_freeCount (cfg : Config) (s : State) : (hardwareReset cfg s).freeCount = s.freeCount := rfl
@[simp] theorem hardwareReset_waiting (cfg : Config) (s : State) : (hardwareReset cfg s).line.waiting = s.line.waiting := rfl
@[simp] theorem hardwareReset_now (cfg : Config) (s : State) : (hardwareReset cfg s).line.now = s.line.now := rfl
@[simp] theorem hardwareReset_looks (cfg : Config) (s : State) : (hardwareReset cfg s).line.looks = s.line.looks := rfl
@[simp] theorem hardwareReset_accepts (cfg : Config) (s : State) : (hardwareReset cfg s).line.accepts = s.line.accepts := rfl
@[simp] theorem hardwareReset_trace (cfg : Config) (s : State) :
    (hardwareReset cfg s).line.trace = s.line.trace ++ (Line.reset cfg).trace := rfl

@[simp] theorem lineWrite_count (bytes : List Byte) (s : State) :
    (lineWrite bytes s).1 = acceptedCount s.line.accepts bytes.length := rfl

end Sys2Proof.Machine
end

