-- ==== Sys2Proof/Laws/Receiver.lean ====
section
/-!
SUPPORT. The receiver: what storing and decoding answer, and that one byte never faults and keeps the receiver's
invariant (spec/42_receiver.md R191).
-/

namespace Sys2Proof.Machine

theorem hdrLen_le_bufCap (cfg : Config) : cfg.hdrLen ≤ cfg.bufCap := by unfold Config.bufCap; omega

theorem hdrLen_lt_bufCap (cfg : Config) : cfg.hdrLen < cfg.bufCap := by
  have := cfg.ckW_cases
  unfold Config.bufCap
  omega

theorem ok_hdrLen {cfg : Config} (h : cfg.ok = true) : 1 ≤ cfg.hdrLen := by
  simp only [Config.ok, Bool.and_eq_true, decide_eq_true_eq] at h
  exact h.1.1.1.1.1.2

theorem ok_seed {cfg : Config} (h : cfg.ok = true) : cfg.ckFits cfg.ckSeed = true := by
  simp only [Config.ok, Bool.and_eq_true] at h
  exact h.1.1.2

/-- Storing a byte below the capacity. -/
theorem storeByte_of_lt {cfg : Config} {r : Receiver} (b : Byte) (h : r.rxCnt < cfg.bufCap) :
    storeByte cfg b r = .ok { r with rxbuf := memSet r.rxbuf r.rxCnt b, rxCnt := r.rxCnt + 1 } := by
  simp [storeByte, memWrite_of_lt r.rxbuf b h]

/-- Everything storing a byte can answer. -/
theorem storeByte_ok {cfg : Config} {r r' : Receiver} {b : Byte} (h : storeByte cfg b r = .ok r') :
    r.rxCnt < cfg.bufCap ∧ r' = { r with rxbuf := memSet r.rxbuf r.rxCnt b, rxCnt := r.rxCnt + 1 } := by
  unfold storeByte at h
  split at h
  · rename_i m hm
    obtain ⟨hlt, rfl⟩ := memWrite_ok hm
    exact ⟨hlt, (Except.ok.inj h).symm⟩
  · cases h

/-- Decoding a header that is all written. -/
theorem decodeHdr_of_written {cfg : Config} {r : Receiver} (h : Written r.rxbuf cfg.hdrLen) :
    decodeHdr cfg r = .ok { r with hdr := unpackHeader cfg (memBytes r.rxbuf 0 cfg.hdrLen), hdrSet := true } := by
  have := hdrLen_le_bufCap cfg
  simp [decodeHdr, memRead_written (cap := cfg.bufCap) h (by omega : 0 + cfg.hdrLen ≤ cfg.hdrLen) (by omega)]

/-- Everything decoding the header can answer. -/
theorem decodeHdr_ok {cfg : Config} {r r' : Receiver} (h : decodeHdr cfg r = .ok r') :
    ∃ bs, memRead cfg.bufCap r.rxbuf 0 cfg.hdrLen = .ok bs ∧
      r' = { r with hdr := unpackHeader cfg bs, hdrSet := true } := by
  unfold decodeHdr at h
  split at h
  · rename_i bs hbs
    exact ⟨bs, hbs, (Except.ok.inj h).symm⟩
  · cases h

theorem raise_legal {s f : Byte} (hs : statusLegal s = true)
    (hf : f = 0x00 ∨ f = flagTimeout ∨ f = flagCrcFailed ∨ f = flagBufferExhausted ∨ f = flagTxError ∨ f = flagRxError) :
    statusLegal (raiseFlag s f) = true := by
  have key : ∀ s : Byte, statusLegal s = true → statusLegal (raiseFlag s 0x00) = true ∧
      statusLegal (raiseFlag s flagTimeout) = true ∧ statusLegal (raiseFlag s flagCrcFailed) = true ∧
      statusLegal (raiseFlag s flagBufferExhausted) = true ∧ statusLegal (raiseFlag s flagTxError) = true ∧
      statusLegal (raiseFlag s flagRxError) = true := by decide
  obtain ⟨h0, h1, h2, h3, h4, h5⟩ := key s hs
  rcases hf with rfl | rfl | rfl | rfl | rfl | rfl <;> assumption

/-- The bytes the checksum covers after storing a header byte. -/
theorem covered_header {cfg : Config} {r : Receiver} (b : Byte) (h : r.rxCnt < cfg.hdrLen)
    (hc : r.rxCk = cfg.fold cfg.ckSeed (coveredBytes cfg r)) (x : Receiver)
    (hx : x.rxbuf = memSet r.rxbuf r.rxCnt b ∧ x.rxCnt = r.rxCnt + 1) :
    cfg.headerUpd r.rxCk b = cfg.fold cfg.ckSeed (coveredBytes cfg x) := by
  unfold Config.headerUpd
  unfold coveredBytes at hc ⊢
  rw [hx.1, hx.2]
  split <;> rename_i hcov <;> simp only [hcov] at hc ⊢
  · have hn := memBytes_memSet_next r.rxbuf 0 r.rxCnt b
    rw [Nat.zero_add] at hn
    rw [hn, Config.fold_append, ← hc]
    rfl
  · rw [hc, show r.rxCnt - cfg.hdrLen = 0 by omega, show r.rxCnt + 1 - cfg.hdrLen = 0 by omega]
    rfl

/-- The bytes the checksum covers after storing a byte behind the header. -/
theorem covered_body {cfg : Config} {r : Receiver} (b : Byte) (h : cfg.hdrLen ≤ r.rxCnt)
    (hc : r.rxCk = cfg.fold cfg.ckSeed (coveredBytes cfg r)) (x : Receiver)
    (hx : x.rxbuf = memSet r.rxbuf r.rxCnt b ∧ x.rxCnt = r.rxCnt + 1) :
    cfg.upd r.rxCk b = cfg.fold cfg.ckSeed (coveredBytes cfg x) := by
  unfold coveredBytes at hc ⊢
  rw [hx.1, hx.2]
  split <;> rename_i hcov <;> simp only [hcov] at hc
  · have hn := memBytes_memSet_next r.rxbuf 0 r.rxCnt b
    rw [Nat.zero_add] at hn
    rw [hn, Config.fold_append, ← hc]
    rfl
  · have hn := memBytes_memSet_next r.rxbuf cfg.hdrLen (r.rxCnt - cfg.hdrLen) b
    rw [show cfg.hdrLen + (r.rxCnt - cfg.hdrLen) = r.rxCnt by omega,
      show r.rxCnt - cfg.hdrLen + 1 = r.rxCnt + 1 - cfg.hdrLen by omega] at hn
    rw [hn, Config.fold_append, ← hc]
    rfl

/-- A byte in Idle: the start delimiter opens a frame. -/
theorem ruleIdleStart_inv {cfg : Config} {r : Receiver} (hok : cfg.ok = true) (hi : ReceiverInv cfg r) :
    ReceiverInv cfg { r with rxCk := cfg.ckSeed, rxCnt := 0, epStatus := 0x00, epState := .receivingHeader } where
  notTransmitting := by simp
  cntLe := Nat.zero_le _
  inHeader := fun _ => ok_hdrLen hok
  inBody := by simp
  checksum := fun _ => by
    unfold coveredBytes
    split <;> simp
  busyChecksum := by simp
  busyStatus := by simp
  busyCount := by simp
  frameStatus := fun _ => rfl
  status := by show statusLegal 0x00 = true; decide
  bufferWf := hi.bufferWf
  written := written_zero _
  header := by simp
  headerSet := by simp
  fits := ok_seed hok

/-- A discarded frame (R256): only the state and the status change. -/
theorem discard_inv {cfg : Config} {r : Receiver} (hi : ReceiverInv cfg r) {f : Byte}
    (hf : f = flagCrcFailed ∨ f = flagBufferExhausted) :
    ReceiverInv cfg { r with epStatus := raiseFlag r.epStatus f, epState := .idle } where
  notTransmitting := by simp
  cntLe := hi.cntLe
  inHeader := by simp
  inBody := by simp
  checksum := by simp [inFrame]
  busyChecksum := by simp
  busyStatus := by simp
  busyCount := by simp
  frameStatus := by simp [inFrame]
  status := raise_legal hi.status (by tauto)
  bufferWf := hi.bufferWf
  written := hi.written
  header := by simp
  headerSet := by simp
  fits := hi.fits

/-- Storing a byte keeps what the invariant says of the buffer. -/
theorem storeByte_buffer {cfg : Config} {r : Receiver} (hi : ReceiverInv cfg r) (b : Byte) (h : r.rxCnt < cfg.bufCap) :
    Memory.wf cfg.bufCap (memSet r.rxbuf r.rxCnt b) = true ∧ Written (memSet r.rxbuf r.rxCnt b) (r.rxCnt + 1) :=
  ⟨memSet_wf b hi.bufferWf h, hi.written.memSet b⟩

/-- The receiver's rule on a byte in Idle (R162, R163). -/
theorem receiveByte_idle {cfg : Config} {r : Receiver} (b : Byte) (h : r.epState = .idle) :
    receiveByte cfg b r = if b = cfg.startDelim then ruleIdleStart cfg r else ruleIdleOther r := by
  by_cases hb : b = cfg.startDelim <;> simp [receiveByte, selectCase, h, classOf, hb]

/-- The receiver's rule on a byte in ReceivingHeader (R164, R165, R166). -/
theorem receiveByte_header {cfg : Config} {r : Receiver} (b : Byte) (h : r.epState = .receivingHeader) :
    receiveByte cfg b r =
      if r.rxCnt + 1 < cfg.hdrLen then ruleHeaderNotLast cfg b r
      else if bodyLenOk cfg b then ruleHeaderLastOk cfg b r else ruleHeaderLastOversize cfg b r := by
  by_cases h1 : r.rxCnt + 1 < cfg.hdrLen <;> by_cases h2 : bodyLenOk cfg b = true <;>
    simp [receiveByte, selectCase, h, h1, h2]

/-- The receiver's rule on a byte in ReceivingBody (R169 to R172): the end delimiter is tested first (R255). -/
theorem receiveByte_body {cfg : Config} {r : Receiver} (b : Byte) (h : r.epState = .receivingBody) :
    receiveByte cfg b r =
      if b = cfg.endDelim then (if frameValid cfg r then ruleBodyEndValid r else ruleBodyEndInvalid r)
      else if r.rxCnt < cfg.bufCap then ruleBodyRoom cfg b r else ruleBodyFull r := by
  by_cases h1 : b = cfg.endDelim <;> by_cases h2 : frameValid cfg r = true <;> by_cases h3 : r.rxCnt < cfg.bufCap <;>
    simp [receiveByte, selectCase, h, classOf, h1, h2, h3]

/-- The receiver's rule where no byte is read (R174). -/
theorem receiveByte_deaf {cfg : Config} {r : Receiver} (b : Byte) (h : pollsLine r.epState = false) :
    receiveByte cfg b r = .ok (.ignored, r) := by
  cases hst : r.epState <;> simp [pollsLine, hst] at h <;> simp [receiveByte, selectCase, hst, ruleIgnored]

/-- What R164 leaves. -/
theorem ruleHeaderNotLast_inv {cfg : Config} {r : Receiver} (b : Byte) (hi : ReceiverInv cfg r)
    (hst : r.epState = .receivingHeader) (h : r.rxCnt + 1 < cfg.hdrLen) :
    ruleHeaderNotLast cfg b r = .ok (.stored, { r with
        rxbuf := memSet r.rxbuf r.rxCnt b, rxCnt := r.rxCnt + 1, rxCk := cfg.headerUpd r.rxCk b }) ∧
      ReceiverInv cfg { r with
        rxbuf := memSet r.rxbuf r.rxCnt b, rxCnt := r.rxCnt + 1, rxCk := cfg.headerUpd r.rxCk b } := by
  have hcap := hdrLen_lt_bufCap cfg
  obtain ⟨hwf, hwr⟩ := storeByte_buffer hi b (by omega)
  refine ⟨by simp [ruleHeaderNotLast, storeByte_of_lt b (show r.rxCnt < cfg.bufCap by omega)], ?_⟩
  exact {
    notTransmitting := hi.notTransmitting
    cntLe := by simp only; omega
    inHeader := fun _ => h
    inBody := by simp [hst]
    checksum := fun _ => covered_header b (hi.inHeader hst) (hi.checksum (Or.inl hst)) _ ⟨rfl, rfl⟩
    busyChecksum := by simp [hst]
    busyStatus := by simp [hst]
    busyCount := by simp [hst]
    frameStatus := hi.frameStatus
    status := hi.status
    bufferWf := hwf
    written := hwr
    header := by simp [hst]
    headerSet := by simp [hst]
    fits := cfg.headerUpd_fits b hi.fits }

/-- What R165 leaves. -/
theorem ruleHeaderLastOk_inv {cfg : Config} {r : Receiver} (b : Byte) (hi : ReceiverInv cfg r)
    (hst : r.epState = .receivingHeader) (h : r.rxCnt + 1 = cfg.hdrLen) :
    ruleHeaderLastOk cfg b r = .ok (.headerDone, { r with
        rxbuf := memSet r.rxbuf r.rxCnt b, rxCnt := r.rxCnt + 1, rxCk := cfg.headerUpd r.rxCk b,
        hdr := unpackHeader cfg (memBytes (memSet r.rxbuf r.rxCnt b) 0 cfg.hdrLen), hdrSet := true,
        epState := .receivingBody }) ∧
      ReceiverInv cfg { r with
        rxbuf := memSet r.rxbuf r.rxCnt b, rxCnt := r.rxCnt + 1, rxCk := cfg.headerUpd r.rxCk b,
        hdr := unpackHeader cfg (memBytes (memSet r.rxbuf r.rxCnt b) 0 cfg.hdrLen), hdrSet := true,
        epState := .receivingBody } := by
  have hcap := hdrLen_lt_bufCap cfg
  obtain ⟨hwf, hwr⟩ := storeByte_buffer hi b (by omega)
  have hwr' : Written (memSet r.rxbuf r.rxCnt b) cfg.hdrLen := h ▸ hwr
  refine ⟨by simp [ruleHeaderLastOk, storeByte_of_lt b (show r.rxCnt < cfg.bufCap by omega),
    decodeHdr_of_written (r := { r with rxbuf := memSet r.rxbuf r.rxCnt b, rxCnt := r.rxCnt + 1, rxCk := cfg.headerUpd r.rxCk b }) hwr'], ?_⟩
  exact {
    notTransmitting := by simp
    cntLe := by simp only; omega
    inHeader := by simp
    inBody := fun _ => le_of_eq h.symm
    checksum := fun _ => covered_header b (hi.inHeader hst) (hi.checksum (Or.inl hst)) _ ⟨rfl, rfl⟩
    busyChecksum := by simp
    busyStatus := by simp
    busyCount := by simp
    frameStatus := fun _ => hi.frameStatus (Or.inl hst)
    status := hi.status
    bufferWf := hwf
    written := hwr
    header := fun _ => rfl
    headerSet := fun _ => rfl
    fits := cfg.headerUpd_fits b hi.fits }

/-- What R166 leaves. -/
theorem ruleHeaderLastOversize_inv {cfg : Config} {r : Receiver} (b : Byte) (hi : ReceiverInv cfg r)
    (h : r.rxCnt + 1 = cfg.hdrLen) :
    ruleHeaderLastOversize cfg b r = .ok (.overflow, { r with
        rxbuf := memSet r.rxbuf r.rxCnt b, rxCnt := r.rxCnt + 1,
        hdr := unpackHeader cfg (memBytes (memSet r.rxbuf r.rxCnt b) 0 cfg.hdrLen), hdrSet := true,
        epStatus := raiseFlag r.epStatus flagBufferExhausted, epState := .idle }) ∧
      ReceiverInv cfg { r with
        rxbuf := memSet r.rxbuf r.rxCnt b, rxCnt := r.rxCnt + 1,
        hdr := unpackHeader cfg (memBytes (memSet r.rxbuf r.rxCnt b) 0 cfg.hdrLen), hdrSet := true,
        epStatus := raiseFlag r.epStatus flagBufferExhausted, epState := .idle } := by
  have hcap := hdrLen_lt_bufCap cfg
  obtain ⟨hwf, hwr⟩ := storeByte_buffer hi b (by omega)
  have hwr' : Written (memSet r.rxbuf r.rxCnt b) cfg.hdrLen := h ▸ hwr
  refine ⟨by simp [ruleHeaderLastOversize, storeByte_of_lt b (show r.rxCnt < cfg.bufCap by omega),
    decodeHdr_of_written (r := { r with rxbuf := memSet r.rxbuf r.rxCnt b, rxCnt := r.rxCnt + 1 }) hwr'], ?_⟩
  exact {
    notTransmitting := by simp
    cntLe := by simp only; omega
    inHeader := by simp
    inBody := by simp
    checksum := by simp [inFrame]
    busyChecksum := by simp
    busyStatus := by simp
    busyCount := by simp
    frameStatus := by simp [inFrame]
    status := raise_legal hi.status (by tauto)
    bufferWf := hwf
    written := hwr
    header := by simp
    headerSet := by simp
    fits := hi.fits }

/-- What R170 leaves. -/
theorem ruleBodyRoom_inv {cfg : Config} {r : Receiver} (b : Byte) (hi : ReceiverInv cfg r)
    (hst : r.epState = .receivingBody) (h : r.rxCnt < cfg.bufCap) :
    ruleBodyRoom cfg b r = .ok (.stored, { r with
        rxbuf := memSet r.rxbuf r.rxCnt b, rxCnt := r.rxCnt + 1, rxCk := cfg.upd r.rxCk b }) ∧
      ReceiverInv cfg { r with
        rxbuf := memSet r.rxbuf r.rxCnt b, rxCnt := r.rxCnt + 1, rxCk := cfg.upd r.rxCk b } := by
  obtain ⟨hwf, hwr⟩ := storeByte_buffer hi b h
  have hin := hi.inBody hst
  refine ⟨by simp [ruleBodyRoom, storeByte_of_lt b h], ?_⟩
  exact {
    notTransmitting := hi.notTransmitting
    cntLe := h
    inHeader := by simp [hst]
    inBody := fun _ => by simp only; omega
    checksum := fun _ => covered_body b hin (hi.checksum (Or.inr hst)) _ ⟨rfl, rfl⟩
    busyChecksum := by simp [hst]
    busyStatus := by simp [hst]
    busyCount := by simp [hst]
    frameStatus := hi.frameStatus
    status := hi.status
    bufferWf := hwf
    written := hwr
    header := fun _ => by
      rw [memBytes_memSet_past r.rxbuf b (by omega)]
      exact hi.header (Or.inl hst)
    headerSet := fun _ => hi.headerSet (Or.inl hst)
    fits := cfg.upd_fits _ b }

/-- What R171 leaves. -/
theorem ruleBodyEndValid_inv {cfg : Config} {r : Receiver} (hi : ReceiverInv cfg r) (hst : r.epState = .receivingBody)
    (h : frameValid cfg r = true) : ReceiverInv cfg { r with epState := .busy } := by
  simp only [frameValid, Bool.and_eq_true, decide_eq_true_eq] at h
  exact {
    notTransmitting := by simp
    cntLe := hi.cntLe
    inHeader := by simp
    inBody := by simp
    checksum := by simp [inFrame]
    busyChecksum := fun _ => h.2
    busyStatus := fun _ => by simp [hi.frameStatus (Or.inr hst)]
    busyCount := fun _ => h.1
    frameStatus := by simp [inFrame]
    status := hi.status
    bufferWf := hi.bufferWf
    written := hi.written
    header := fun _ => hi.header (Or.inl hst)
    headerSet := fun _ => hi.headerSet (Or.inl hst)
    fits := hi.fits }

/-- One byte never faults, and keeps the invariant (R191). -/
theorem receiveByte_ok {cfg : Config} {r : Receiver} (b : Byte) (hok : cfg.ok = true) (hi : ReceiverInv cfg r) :
    ∃ e r', receiveByte cfg b r = .ok (e, r') ∧ ReceiverInv cfg r' := by
  cases hst : r.epState with
  | idle =>
    rw [receiveByte_idle b hst]
    split
    · exact ⟨_, _, rfl, ruleIdleStart_inv hok hi⟩
    · exact ⟨_, _, rfl, hi⟩
  | receivingHeader =>
    have hlt := hi.inHeader hst
    rw [receiveByte_header b hst]
    split
    · exact ⟨_, _, ruleHeaderNotLast_inv b hi hst ‹_›⟩
    · split
      · exact ⟨_, _, ruleHeaderLastOk_inv b hi hst (by omega)⟩
      · exact ⟨_, _, ruleHeaderLastOversize_inv b hi (by omega)⟩
  | receivingBody =>
    rw [receiveByte_body b hst]
    split
    · split
      · exact ⟨_, _, rfl, ruleBodyEndValid_inv hi hst ‹_›⟩
      · exact ⟨_, _, rfl, discard_inv hi (Or.inl rfl)⟩
    · split
      · exact ⟨_, _, ruleBodyRoom_inv b hi hst ‹_›⟩
      · exact ⟨_, _, rfl, discard_inv hi (Or.inr rfl)⟩
  | busy => exact ⟨.ignored, r, receiveByte_deaf b (by simp [pollsLine, hst]), hi⟩
  | transmitting => exact absurd hst hi.notTransmitting
  | error => exact ⟨.ignored, r, receiveByte_deaf b (by simp [pollsLine, hst]), hi⟩

end Sys2Proof.Machine
end

