-- ==== Sys2Proof/Laws/Line.lean ====
section
/-!
SUPPORT. The line and timer primitives: what a look, a read and a wait can change, and what GetByte answers.
-/

namespace Sys2Proof.Machine

theorem OnlyLine.refl (s : State) : OnlyLine s s := rfl

theorem OnlyLine.trans {s t u : State} (h1 : OnlyLine s t) (h2 : OnlyLine t u) : OnlyLine s u := by
  unfold OnlyLine at *
  rw [h2, h1]

theorem OnlyLine.fields {s t : State} (h : OnlyLine s t) :
    t.cfg = s.cfg ∧ t.dir = s.dir ∧ t.ck = s.ck ∧ t.t0 = s.t0 ∧ t.rx = s.rx ∧ t.mq = s.mq ∧ t.result = s.result ∧
    t.port = s.port ∧ t.freeCount = s.freeCount ∧ t.line.trace = s.line.trace ∧ t.line.accepts = s.line.accepts := by
  unfold OnlyLine at h
  rw [h]
  simp

/-- Everything a look can do. -/
theorem look_cases (s : State) :
    look s = s ∨ ∃ l rest, s.line.looks = l :: rest ∧ (l.patient && lineAvail s) = false ∧ look s = takeLook l rest s := by
  unfold look
  split
  · exact Or.inl rfl
  · rename_i l rest hl
    by_cases hp : (l.patient && lineAvail s) = true
    · rw [if_pos hp]
      exact Or.inl rfl
    · rw [if_neg hp]
      exact Or.inr ⟨l, rest, hl, by simpa using hp, rfl⟩

theorem takeLook_onlyLine (l : Look) (rest : List Look) (s : State) : OnlyLine s (takeLook l rest s) := rfl

theorem look_onlyLine (s : State) : OnlyLine s (look s) := by
  rcases look_cases s with h | ⟨l, rest, -, -, h⟩ <;> rw [h]
  · exact OnlyLine.refl s
  · exact takeLook_onlyLine l rest s

@[simp] theorem look_cfg (s : State) : (look s).cfg = s.cfg := (look_onlyLine s).fields.1
@[simp] theorem look_dir (s : State) : (look s).dir = s.dir := (look_onlyLine s).fields.2.1
@[simp] theorem look_rx (s : State) : (look s).rx = s.rx := (look_onlyLine s).fields.2.2.2.2.1
@[simp] theorem look_mq (s : State) : (look s).mq = s.mq := (look_onlyLine s).fields.2.2.2.2.2.1
@[simp] theorem look_t0 (s : State) : (look s).t0 = s.t0 := (look_onlyLine s).fields.2.2.2.1

theorem look_of_no_looks {s : State} (h : s.line.looks = []) : look s = s := by
  unfold look
  rw [h]

/-- Everything LineRead can answer. -/
theorem lineRead_some {s t : State} {b : Byte} (h : lineRead s = some (b, t)) :
    s.dir = .rx ∧ ∃ rest, s.line.waiting = b :: rest ∧ t = { s with line := { s.line with waiting := rest } } := by
  unfold lineRead at h
  split at h
  · rename_i hd
    split at h
    · cases h
    · rename_i c rest hw
      simp only [Option.some.injEq, Prod.mk.injEq] at h
      obtain ⟨rfl, rfl⟩ := h
      exact ⟨hd, rest, hw, rfl⟩
  · cases h

theorem lineRead_onlyLine {s t : State} {b : Byte} (h : lineRead s = some (b, t)) : OnlyLine s t := by
  obtain ⟨-, rest, -, rfl⟩ := lineRead_some h
  rfl

/-- LineRead finds a byte exactly where LineAvail is true. -/
theorem lineRead_isSome (s : State) : (lineRead s).isSome = lineAvail s := by
  unfold lineRead lineAvail
  by_cases hd : s.dir = .rx
  · cases hw : s.line.waiting <;> simp [hd]
  · simp [hd]

theorem lineRead_none_iff (s : State) : lineRead s = none ↔ lineAvail s = false := by
  rw [← lineRead_isSome]
  cases lineRead s <;> simp

/-- Nothing is received while `dir` is TX (R205). -/
theorem lineRead_tx {s : State} (h : s.dir = .tx) : lineRead s = none := by simp [lineRead, h]

theorem expire_onlyLine (timeout : Time) (s : State) : OnlyLine s (expire timeout s) := by
  unfold expire
  split <;> rfl

/-- After the clock has run out the wait has expired (R262). -/
theorem expire_expired (timeout : Time) (s : State) : expired timeout (expire timeout s) = true := by
  unfold expire
  split
  · assumption
  · simp [expired]

/-- GetByte changes only the line; the byte it returns was read from it (R224). -/
theorem getByteLoop_onlyLine (timeout : Time) (n : Nat) (s : State) : OnlyLine s (getByteLoop timeout n s).2 := by
  induction n generalizing s with
  | zero =>
    unfold getByteLoop
    split
    · rename_i h
      exact (look_onlyLine s).trans (lineRead_onlyLine h)
    · exact (look_onlyLine s).trans (expire_onlyLine timeout _)
  | succ n ih =>
    unfold getByteLoop
    split
    · rename_i h
      exact (look_onlyLine s).trans (lineRead_onlyLine h)
    · split
      · exact look_onlyLine s
      · exact (look_onlyLine s).trans (ih _)

theorem getByte_onlyLine (s : State) : OnlyLine s (getByte s).2 := getByteLoop_onlyLine ..

theorem awaitLoop_onlyLine (timeout : Time) (n : Nat) (s : State) : OnlyLine s (awaitLoop timeout n s).2 := by
  induction n generalizing s with
  | zero =>
    unfold awaitLoop
    split
    · exact look_onlyLine s
    · exact (look_onlyLine s).trans (expire_onlyLine timeout _)
  | succ n ih =>
    unfold awaitLoop
    split
    · exact look_onlyLine s
    · split
      · exact look_onlyLine s
      · exact (look_onlyLine s).trans (ih _)

/-- A silent line: GetByte waits out its deadline (R224). -/
theorem getByte_silent {s : State} (hw : s.line.waiting = []) (hl : s.line.looks = []) :
    getByte s = (none, expire s.cfg.queryTimeout s) := by
  have hr : lineRead s = none := by
    unfold lineRead
    rw [hw]
    split <;> rfl
  simp [getByte, hl, getByteLoop, look_of_no_looks hl, hr]

/-- A byte that waits with no look to come is read at once (R70, R224). -/
theorem getByte_waiting {s : State} {b : Byte} {rest : List Byte} (hd : s.dir = .rx) (hw : s.line.waiting = b :: rest)
    (hl : s.line.looks = []) : getByte s = (some b, { s with line := { s.line with waiting := rest } }) := by
  simp [getByte, hl, getByteLoop, look_of_no_looks hl, lineRead, hd, hw]

/-- What one look takes from the environment's supply. -/
theorem supply_takeLook {s : State} {l : Look} {rest : List Look} (h : s.line.looks = l :: rest) :
    supply (takeLook l rest s) < supply s := by
  simp only [supply, takeLook_waiting, takeLook_looks, h, List.map_cons, List.sum_cons, List.length_append,
    List.length_drop]
  split
  · omega
  · simp only [List.length_nil]
    omega

theorem supply_look_le (s : State) : supply (look s) ≤ supply s := by
  rcases look_cases s with h | ⟨l, rest, hl, -, h⟩ <;> rw [h]
  exact le_of_lt (supply_takeLook hl)

/-- Every byte read is taken from the supply. -/
theorem supply_lineRead {s t : State} {b : Byte} (h : lineRead s = some (b, t)) : supply t + 1 = supply s := by
  obtain ⟨-, rest, hw, rfl⟩ := lineRead_some h
  simp only [supply, hw, List.length_cons]
  omega

theorem supply_getByteLoop {timeout : Time} {n : Nat} {s : State} {b : Byte}
    (h : (getByteLoop timeout n s).1 = some b) : supply (getByteLoop timeout n s).2 < supply s := by
  induction n generalizing s with
  | zero =>
    unfold getByteLoop at h ⊢
    split at h
    · rename_i b' s2 hr
      have h1 := supply_lineRead hr
      have h2 := supply_look_le s
      simp only
      omega
    · cases h
  | succ n ih =>
    unfold getByteLoop at h ⊢
    split at h
    · rename_i b' s2 hr
      have h1 := supply_lineRead hr
      have h2 := supply_look_le s
      simp only
      omega
    · rename_i hr
      split at h
      · cases h
      · rename_i hx
        have h2 := supply_look_le s
        simp only [hx]
        exact lt_of_lt_of_le (ih h) h2

/-- A byte GetByte returns is taken from the supply, so the loops over GetByte end (R224). -/
theorem supply_getByte {s : State} {b : Byte} (h : (getByte s).1 = some b) : supply (getByte s).2 < supply s :=
  supply_getByteLoop h

/-- With no supply left GetByte returns none. -/
theorem getByte_none_of_supply {s : State} (h : supply s = 0) : (getByte s).1 = none := by
  cases hb : (getByte s).1 with
  | none => rfl
  | some b => exact absurd (supply_getByte hb) (by omega)

end Sys2Proof.Machine
end

