-- ==== Sys2Proof/Laws/Poll.lean ====
section
/-!
SUPPORT. EP.POLL and the loops over it: what a poll step can change, that it never faults from a state that meets the
invariants, and that the fuel of EP.LISTEN and `ep.poll*` is enough.
-/

namespace Sys2Proof.Machine

theorem OnlyPoll.refl (s : State) : OnlyPoll s s := rfl

theorem OnlyPoll.trans {s t u : State} (h1 : OnlyPoll s t) (h2 : OnlyPoll t u) : OnlyPoll s u := by
  unfold OnlyPoll at *
  rw [h2, h1]

theorem OnlyLine.onlyPoll {s t : State} (h : OnlyLine s t) : OnlyPoll s t := by
  unfold OnlyLine OnlyPoll at *
  rw [h]

theorem onlyPoll_setResult (r : Result) (s : State) : OnlyPoll s (setResult r s) := rfl

theorem OnlyPoll.fields {s t : State} (h : OnlyPoll s t) :
    t.cfg = s.cfg ∧ t.dir = s.dir ∧ t.ck = s.ck ∧ t.t0 = s.t0 ∧ t.mq = s.mq ∧ t.port = s.port ∧
    t.freeCount = s.freeCount ∧ t.line.trace = s.line.trace ∧ t.line.accepts = s.line.accepts := by
  unfold OnlyPoll at h
  rw [h]
  simp

/-- Everything a poll can answer: the receiver's rule for what was read, in the state after the line was looked at. -/
theorem poll_ok {s t : State} (h : poll s = .ok t) :
    (pollsLine s.rx.epState = false ∧ t = setResult (.event .ignored) s) ∨
    (pollsLine s.rx.epState = true ∧ lineRead (look s) = none ∧ t = setResult (.event .noByte) (look s)) ∨
    (pollsLine s.rx.epState = true ∧ ∃ b s2 e r, lineRead (look s) = some (b, s2) ∧
      receiveByte s.cfg b s.rx = .ok (e, r) ∧ t = setResult (.event e) { s2 with rx := r }) := by
  unfold poll at h
  split at h
  · rename_i hp
    right
    unfold pollWith at h
    split at h
    · rename_i hr
      left
      exact ⟨hp, hr, (Except.ok.inj h).symm⟩
    · rename_i b s2 hr
      right
      have hrx : s2.rx = s.rx := by rw [(lineRead_onlyLine hr).fields.2.2.2.2.1, look_rx]
      rw [hrx] at h
      unfold applyRx at h
      split at h
      · rename_i e r hrb
        exact ⟨hp, b, s2, e, r, hr, hrb, (Except.ok.inj h).symm⟩
      · cases h
  · rename_i hp
    left
    exact ⟨by simpa using hp, (Except.ok.inj h).symm⟩

/-- A poll changes nothing but the receiver, the result, and what waits on the line. -/
theorem poll_onlyPoll {s t : State} (h : poll s = .ok t) : OnlyPoll s t := by
  rcases poll_ok h with ⟨-, rfl⟩ | ⟨-, -, rfl⟩ | ⟨-, b, s2, e, r, hr, -, rfl⟩
  · rfl
  · exact (look_onlyLine s).onlyPoll.trans (onlyPoll_setResult _ _)
  · exact ((look_onlyLine s).trans (lineRead_onlyLine hr)).onlyPoll.trans rfl

/-- A poll never faults from a state that meets the receiver's invariant, and keeps it. -/
theorem poll_answers {s : State} (hok : s.cfg.ok = true) (hi : ReceiverInv s.cfg s.rx) :
    ∃ t, poll s = .ok t ∧ ReceiverInv t.cfg t.rx := by
  unfold poll
  split
  · unfold pollWith
    split
    · exact ⟨_, rfl, by simpa using hi⟩
    · rename_i b s2 hr
      have hf := ((look_onlyLine s).trans (lineRead_onlyLine hr)).fields
      have hrx : s2.rx = s.rx := hf.2.2.2.2.1
      obtain ⟨e, r, hrb, hir⟩ := receiveByte_ok b hok hi
      rw [hrx, hrb]
      exact ⟨_, rfl, by simpa [hf.1] using hir⟩
  · exact ⟨_, rfl, by simpa using hi⟩

/-- A poll in a state that reads nothing, or with a quiet line, leaves the supply; any other takes from it. -/
theorem poll_supply {s t : State} (h : poll s = .ok t) (hp : pollsLine s.rx.epState = true) :
    supply t < supply s ∨ (look s = s ∧ lineAvail s = false ∧ t = setResult (.event .noByte) s) := by
  rcases poll_ok h with ⟨hn, -⟩ | ⟨-, hr, rfl⟩ | ⟨-, b, s2, e, r, hr, -, rfl⟩
  · simp [hn] at hp
  · rcases look_cases s with hl | ⟨l, rest, hl, -, hl'⟩
    · right
      refine ⟨hl, ?_, by rw [hl]⟩
      rw [hl] at hr
      exact (lineRead_none_iff s).mp hr
    · left
      have hlt := supply_takeLook hl
      rw [← hl'] at hlt
      simpa [supply] using hlt
  · left
    have h1 := supply_lineRead hr
    have h2 := supply_look_le s
    have h3 : supply (setResult (.event e) { s2 with rx := r }) = supply s2 := rfl
    omega

/-- The event a poll returned. -/
theorem lastEvent_event (e : Event) (s : State) : lastEvent (setResult (.event e) s) = e := rfl

/-- `ep.poll*` answers from every state that meets the invariant. -/
theorem pollStar_answers {s : State} (n : Nat) (hok : s.cfg.ok = true) (hi : ReceiverInv s.cfg s.rx) :
    ∃ t, pollStar n s = .ok t ∧ ReceiverInv t.cfg t.rx ∧ OnlyPoll s t := by
  induction n generalizing s with
  | zero =>
    obtain ⟨t, ht, hit⟩ := poll_answers hok hi
    exact ⟨t, ht, hit, poll_onlyPoll ht⟩
  | succ n ih =>
    obtain ⟨t, ht, hit⟩ := poll_answers hok hi
    have hf := poll_onlyPoll ht
    unfold pollStar
    simp only [ht]
    split
    · exact ⟨t, rfl, hit, hf⟩
    · obtain ⟨u, hu, hiu, hfu⟩ := ih (by rw [hf.fields.1]; exact hok) hit
      exact ⟨u, hu, hiu, hf.trans hfu⟩

/-- EP.LISTEN's loop answers from every state that meets the invariant. -/
theorem listenLoop_answers {s : State} (n : Nat) (hok : s.cfg.ok = true) (hi : ReceiverInv s.cfg s.rx) :
    ∃ t, listenLoop n s = .ok t ∧ ReceiverInv t.cfg t.rx ∧ OnlyPoll s t := by
  induction n generalizing s with
  | zero =>
    refine ⟨_, rfl, ?_, (expire_onlyLine _ s).onlyPoll.trans (onlyPoll_setResult _ _)⟩
    have hf := (expire_onlyLine s.cfg.rxTimeout s).fields
    simpa [listenTimesOut, hf.1, hf.2.2.2.2.1] using hi
  | succ n ih =>
    obtain ⟨t, ht, hit⟩ := poll_answers hok hi
    have hf := poll_onlyPoll ht
    unfold listenLoop
    simp only [ht]
    split
    · exact ⟨t, rfl, hit, hf⟩
    · split
      · exact ⟨_, rfl, by simpa using hit, hf.trans (onlyPoll_setResult _ _)⟩
      · split
        · refine ⟨_, rfl, ?_, hf.trans ((expire_onlyLine _ t).onlyPoll.trans (onlyPoll_setResult _ _))⟩
          have hg := (expire_onlyLine t.cfg.rxTimeout t).fields
          simpa [listenTimesOut, hg.1, hg.2.2.2.2.1] using hit
        · obtain ⟨u, hu, hiu, hfu⟩ := ih (by rw [hf.fields.1]; exact hok) hit
          exact ⟨u, hu, hiu, hf.trans hfu⟩

end Sys2Proof.Machine
end

