-- ==== Sys2Proof/Laws/Run.lean ====
section
/-!
SUPPORT. What one byte can do to the receiver from any state (spec/42_receiver.md R162 to R174), and runs of polls: what
EP.LISTEN and `ep.poll*` repeat, and which bytes of RXBUF a run leaves.
-/

namespace Sys2Proof.Machine

/-- Everything one byte can do, event by event. -/
inductive ByteEffect (cfg : Config) (b : Byte) (r : Receiver) : Event → Receiver → Prop where
  | other (h : r.epState = .idle) (hb : b ≠ cfg.startDelim) : ByteEffect cfg b r .notDetected r
  | start (h : r.epState = .idle) (hb : b = cfg.startDelim) : ByteEffect cfg b r .frameStart
      { r with rxCk := cfg.ckSeed, rxCnt := 0, epStatus := 0x00, epState := .receivingHeader }
  | headerByte (h : r.epState = .receivingHeader) (hc : r.rxCnt < cfg.bufCap) : ByteEffect cfg b r .stored
      { r with rxbuf := memSet r.rxbuf r.rxCnt b, rxCnt := r.rxCnt + 1, rxCk := cfg.headerUpd r.rxCk b }
  | headerDone (h : r.epState = .receivingHeader) (hc : r.rxCnt < cfg.bufCap) (hd : Header)
      (hw : Header.fits cfg hd = true) : ByteEffect cfg b r .headerDone
      { r with
        rxbuf := memSet r.rxbuf r.rxCnt b, rxCnt := r.rxCnt + 1, rxCk := cfg.headerUpd r.rxCk b, hdr := hd,
        hdrSet := true, epState := .receivingBody }
  | oversize (h : r.epState = .receivingHeader) (hc : r.rxCnt < cfg.bufCap) (hd : Header)
      (hw : Header.fits cfg hd = true) : ByteEffect cfg b r .overflow
      { r with
        rxbuf := memSet r.rxbuf r.rxCnt b, rxCnt := r.rxCnt + 1, hdr := hd, hdrSet := true,
        epStatus := raiseFlag r.epStatus flagBufferExhausted, epState := .idle }
  | bodyByte (h : r.epState = .receivingBody) (hc : r.rxCnt < cfg.bufCap) : ByteEffect cfg b r .stored
      { r with rxbuf := memSet r.rxbuf r.rxCnt b, rxCnt := r.rxCnt + 1, rxCk := cfg.upd r.rxCk b }
  | full (h : r.epState = .receivingBody) (hc : cfg.bufCap ≤ r.rxCnt) : ByteEffect cfg b r .overflow
      { r with epStatus := raiseFlag r.epStatus flagBufferExhausted, epState := .idle }
  | ready (h : r.epState = .receivingBody) (hb : b = cfg.endDelim) : ByteEffect cfg b r .msgReady
      { r with epState := .busy }
  | corrupted (h : r.epState = .receivingBody) (hb : b = cfg.endDelim) : ByteEffect cfg b r .corrupted
      { r with epStatus := raiseFlag r.epStatus flagCrcFailed, epState := .idle }
  | ignored (h : pollsLine r.epState = false) : ByteEffect cfg b r .ignored r

/-- The header decoded from a buffer holds HDR_LEN bytes as fields (R20, R165). -/
theorem readHeader_fits {cfg : Config} {m : Mem} {bs : List Byte} (h : memRead cfg.bufCap m 0 cfg.hdrLen = .ok bs) :
    Header.fits cfg (unpackHeader cfg bs) = true :=
  unpackHeader_fits cfg (by rw [memRead_length h]; exact Nat.le_add_right _ _)

theorem receiveByte_effect {cfg : Config} {b : Byte} {r r' : Receiver} {e : Event}
    (h : receiveByte cfg b r = .ok (e, r')) : ByteEffect cfg b r e r' := by
  cases hst : r.epState with
  | idle =>
    rw [receiveByte_idle b hst] at h
    split at h
    · cases h
      exact .start hst ‹_›
    · cases h
      exact .other hst ‹_›
  | receivingHeader =>
    rw [receiveByte_header b hst] at h
    split at h
    · unfold ruleHeaderNotLast at h
      split at h
      · rename_i hs
        obtain ⟨hlt, rfl⟩ := storeByte_ok hs
        cases h
        exact .headerByte hst hlt
      · cases h
    · split at h
      · unfold ruleHeaderLastOk at h
        split at h
        · cases h
        · rename_i r1 hs
          obtain ⟨hlt, rfl⟩ := storeByte_ok hs
          split at h
          · cases h
          · rename_i r2 hd
            obtain ⟨bs, hbs, rfl⟩ := decodeHdr_ok hd
            cases h
            exact .headerDone hst hlt _ (readHeader_fits hbs)
      · unfold ruleHeaderLastOversize at h
        split at h
        · cases h
        · rename_i r1 hs
          obtain ⟨hlt, rfl⟩ := storeByte_ok hs
          split at h
          · cases h
          · rename_i r2 hd
            obtain ⟨bs, hbs, rfl⟩ := decodeHdr_ok hd
            cases h
            exact .oversize hst hlt _ (readHeader_fits hbs)
  | receivingBody =>
    rw [receiveByte_body b hst] at h
    split at h
    · rename_i hb
      split at h
      · cases h
        exact .ready hst hb
      · cases h
        exact .corrupted hst hb
    · split at h
      · unfold ruleBodyRoom at h
        split at h
        · rename_i hs
          obtain ⟨hlt, rfl⟩ := storeByte_ok hs
          cases h
          exact .bodyByte hst hlt
        · cases h
      · cases h
        exact .full hst (by omega)
  | busy =>
    have hp : pollsLine r.epState = false := by rw [hst]; rfl
    rw [receiveByte_deaf b hp] at h
    cases h
    exact .ignored hp
  | transmitting =>
    have hp : pollsLine r.epState = false := by rw [hst]; rfl
    rw [receiveByte_deaf b hp] at h
    cases h
    exact .ignored hp
  | error =>
    have hp : pollsLine r.epState = false := by rw [hst]; rfl
    rw [receiveByte_deaf b hp] at h
    cases h
    exact .ignored hp

/-- A byte is stored at the fill count only, and the fill count rises with it or falls to zero at a frame's start. -/
theorem ByteEffect.buffer {cfg : Config} {b : Byte} {r r' : Receiver} {e : Event} (h : ByteEffect cfg b r e r') :
    (r'.rxbuf = r.rxbuf ∧ (r'.rxCnt = r.rxCnt ∨ (r'.rxCnt = 0 ∧ e = .frameStart ∧ r.epState = .idle))) ∨
    (r'.rxbuf = memSet r.rxbuf r.rxCnt b ∧ r'.rxCnt = r.rxCnt + 1 ∧ inFrame r.epState ∧
      (e = .stored ∨ e = .headerDone ∨ e = .overflow)) := by
  cases h with
  | other h hb => exact Or.inl ⟨rfl, Or.inl rfl⟩
  | start h hb => exact Or.inl ⟨rfl, Or.inr ⟨rfl, rfl, h⟩⟩
  | headerByte h hc => exact Or.inr ⟨rfl, rfl, Or.inl h, by simp⟩
  | headerDone h hc hd hw => exact Or.inr ⟨rfl, rfl, Or.inl h, by simp⟩
  | oversize h hc hd hw => exact Or.inr ⟨rfl, rfl, Or.inl h, by simp⟩
  | bodyByte h hc => exact Or.inr ⟨rfl, rfl, Or.inr h, by simp⟩
  | full h hc => exact Or.inl ⟨rfl, Or.inl rfl⟩
  | ready h hb => exact Or.inl ⟨rfl, Or.inl rfl⟩
  | corrupted h hb => exact Or.inl ⟨rfl, Or.inl rfl⟩
  | ignored h => exact Or.inl ⟨rfl, Or.inl rfl⟩

/-- A stored byte that ends no frame leaves the receiver inside it. -/
theorem ByteEffect.stays {cfg : Config} {b : Byte} {r r' : Receiver} {e : Event} (h : ByteEffect cfg b r e r')
    (hin : inFrame r.epState) (he : endsValidate e = false) : inFrame r'.epState ∧ r.rxCnt ≤ r'.rxCnt := by
  cases h with
  | other h hb => simp [inFrame, h] at hin
  | start h hb => simp [inFrame, h] at hin
  | headerByte h hc => exact ⟨Or.inl h, Nat.le_succ _⟩
  | headerDone h hc hd hw => exact ⟨Or.inr rfl, Nat.le_succ _⟩
  | oversize h hc hd hw => simp [endsValidate] at he
  | bodyByte h hc => exact ⟨Or.inr h, Nat.le_succ _⟩
  | full h hc => simp [endsValidate] at he
  | ready h hb => simp [endsValidate] at he
  | corrupted h hb => simp [endsValidate] at he
  | ignored h => exact ⟨hin, le_refl _⟩

/-- `hdr` keeps its width (R20). -/
theorem ByteEffect.hdrFits {cfg : Config} {b : Byte} {r r' : Receiver} {e : Event} (h : ByteEffect cfg b r e r')
    (hf : Header.fits cfg r.hdr = true) : Header.fits cfg r'.hdr = true := by
  cases h <;> assumption

/-- `ep_status` keeps its flags, or a frame's start clears it (R32). -/
theorem ByteEffect.status {cfg : Config} {b : Byte} {r r' : Receiver} {e : Event} (h : ByteEffect cfg b r e r') :
    (e = .frameStart ∧ r'.epStatus = 0x00) ∨ ∃ f, (f = 0x00 ∨ f = flagCrcFailed ∨ f = flagBufferExhausted) ∧
      r'.epStatus = raiseFlag r.epStatus f := by
  have h0 : r.epStatus = raiseFlag r.epStatus 0x00 := by simp [raiseFlag]
  cases h with
  | other h hb => exact Or.inr ⟨_, Or.inl rfl, h0⟩
  | start h hb => exact Or.inl ⟨rfl, rfl⟩
  | headerByte h hc => exact Or.inr ⟨_, Or.inl rfl, h0⟩
  | headerDone h hc hd hw => exact Or.inr ⟨_, Or.inl rfl, h0⟩
  | oversize h hc hd hw => exact Or.inr ⟨_, Or.inr (Or.inr rfl), rfl⟩
  | bodyByte h hc => exact Or.inr ⟨_, Or.inl rfl, h0⟩
  | full h hc => exact Or.inr ⟨_, Or.inr (Or.inr rfl), rfl⟩
  | ready h hb => exact Or.inr ⟨_, Or.inl rfl, h0⟩
  | corrupted h hb => exact Or.inr ⟨_, Or.inr (Or.inl rfl), rfl⟩
  | ignored h => exact Or.inr ⟨_, Or.inl rfl, h0⟩

/-- The event a poll returned, with what it did to the receiver: nothing, or a byte's effect. -/
theorem poll_effect {s t : State} (h : poll s = .ok t) :
    ∃ e, t.result = .event e ∧ ((e = .noByte ∧ t.rx = s.rx ∧ pollsLine s.rx.epState = true) ∨
      ∃ b, ByteEffect s.cfg b s.rx e t.rx) := by
  rcases poll_ok h with ⟨hp, rfl⟩ | ⟨hp, -, rfl⟩ | ⟨-, b, s2, e, r, -, hrb, rfl⟩
  · exact ⟨_, rfl, Or.inr ⟨0, .ignored hp⟩⟩
  · exact ⟨_, rfl, Or.inl ⟨rfl, by simp, hp⟩⟩
  · exact ⟨e, rfl, Or.inr ⟨b, receiveByte_effect hrb⟩⟩

/-- Polls one after another, none but the last ending a frame. -/
inductive Run : State → State → Prop where
  | last {s t : State} (h : poll s = .ok t) : Run s t
  | more {s u t : State} (h : poll s = .ok u) (he : endsListen (lastEvent u) = false) (hr : Run u t) : Run s t

theorem endsValidate_of_endsListen {e : Event} (h : endsListen e = false) : endsValidate e = false := by
  cases e <;> simp [endsListen] at h <;> rfl

theorem endsListen_of_endsPolling {e : Event} (h : endsPolling e = false) : endsListen e = false := by
  cases e <;> simp [endsPolling] at h <;> rfl

theorem lastEvent_of_result {s : State} {e : Event} (h : s.result = .event e) : lastEvent s = e := by
  simp [lastEvent, h]

theorem pollStar_run {n : Nat} {s t : State} (h : pollStar n s = .ok t) : Run s t := by
  induction n generalizing s with
  | zero => exact .last h
  | succ n ih =>
    unfold pollStar at h
    split at h
    · cases h
    · rename_i u hu
      split at h
      · cases h
        exact .last hu
      · rename_i he
        exact .more hu (endsListen_of_endsPolling (by simpa using he)) (ih h)

/-- What EP.LISTEN's loop answers: the polls of a run, then the last poll's event or `Timeout` (R175). -/
theorem listenLoop_run {n : Nat} {s t : State} (h : listenLoop (n + 1) s = .ok t) :
    ∃ u, Run s u ∧ (t = u ∨ t = setResult .listenTimeout u ∨ t = listenTimesOut u) := by
  induction n generalizing s with
  | zero =>
    unfold listenLoop at h
    split at h
    · cases h
    · rename_i u hu
      refine ⟨u, .last hu, ?_⟩
      split at h
      · exact Or.inl (Except.ok.inj h).symm
      · split at h
        · exact Or.inr (Or.inl (Except.ok.inj h).symm)
        · split at h
          · exact Or.inr (Or.inr (Except.ok.inj h).symm)
          · exact Or.inr (Or.inr (Except.ok.inj h).symm)
  | succ n ih =>
    rw [listenLoop] at h
    split at h
    · cases h
    · rename_i u hu
      split at h
      · exact ⟨u, .last hu, Or.inl (Except.ok.inj h).symm⟩
      · rename_i he
        split at h
        · exact ⟨u, .last hu, Or.inr (Or.inl (Except.ok.inj h).symm)⟩
        · split at h
          · exact ⟨u, .last hu, Or.inr (Or.inr (Except.ok.inj h).symm)⟩
          · obtain ⟨v, hv, ht⟩ := ih h
            exact ⟨v, .more hu (by simpa using he) hv, ht⟩

/-- EP.LISTEN: a run of polls between the start and the end of its wait (R175). -/
theorem listen_run {s t : State} (h : listen s = .ok t) :
    ∃ u v, Run (startWait s) u ∧ (v = u ∨ v = setResult .listenTimeout u ∨ v = listenTimesOut u) ∧ t = endWait v := by
  unfold listen at h
  split at h
  · rename_i v hv
    obtain ⟨u, hu, hc⟩ := listenLoop_run hv
    exact ⟨u, v, hu, hc, (Except.ok.inj h).symm⟩
  · cases h

theorem Run.onlyPoll {s t : State} (h : Run s t) : OnlyPoll s t := by
  induction h with
  | last h => exact poll_onlyPoll h
  | more h _ _ ih => exact (poll_onlyPoll h).trans ih

/-- A run keeps the width of `hdr` (R20). -/
theorem Run.hdrFits {s t : State} (h : Run s t) (hf : Header.fits s.cfg s.rx.hdr = true) :
    Header.fits t.cfg t.rx.hdr = true := by
  have key : ∀ {s t : State}, poll s = .ok t → Header.fits s.cfg s.rx.hdr = true → Header.fits t.cfg t.rx.hdr = true := by
    intro s t h hf
    rw [(poll_onlyPoll h).fields.1]
    obtain ⟨e, -, ⟨-, h, -⟩ | ⟨b, h⟩⟩ := poll_effect h
    · rwa [h]
    · exact h.hdrFits hf
  induction h with
  | last h => exact key h hf
  | more h _ _ ih => exact ih (key h hf)

/-- Inside a frame a run does not lower the fill count. -/
theorem Run.count {s t : State} (h : Run s t) (hin : inFrame s.rx.epState) : s.rx.rxCnt ≤ t.rx.rxCnt := by
  induction h with
  | last h =>
    obtain ⟨e, -, ⟨-, h, -⟩ | ⟨b, h⟩⟩ := poll_effect h
    · rw [h]
    · rcases h.buffer with ⟨-, h | ⟨-, -, h⟩⟩ | ⟨-, h, -⟩
      · omega
      · simp [inFrame, h] at hin
      · omega
  | more h he _ ih =>
    obtain ⟨e, hre, ⟨-, h, -⟩ | ⟨b, h⟩⟩ := poll_effect h
    · rw [← h]
      exact ih (by rw [h]; exact hin)
    · rw [lastEvent_of_result hre] at he
      obtain ⟨h1, h2⟩ := h.stays hin (endsValidate_of_endsListen he)
      exact le_trans h2 (ih h1)

/-- A run leaves RXBUF at and above its final fill count. -/
theorem Run.above {s t : State} (h : Run s t) {a : Nat} (ha : t.rx.rxCnt ≤ a) :
    memGet t.rx.rxbuf a = memGet s.rx.rxbuf a := by
  induction h with
  | last h =>
    obtain ⟨e, -, ⟨-, h, -⟩ | ⟨b, h⟩⟩ := poll_effect h
    · rw [h]
    · rcases h.buffer with ⟨h, -⟩ | ⟨h, hc, -⟩
      · rw [h]
      · rw [h, memGet_memSet_other _ _ (by omega)]
  | more h he hr ih =>
    rw [ih ha]
    obtain ⟨e, hre, ⟨-, h, -⟩ | ⟨b, h⟩⟩ := poll_effect h
    · rw [h]
    · rw [lastEvent_of_result hre] at he
      rcases h.buffer with ⟨h, -⟩ | ⟨hb, hc, hin, -⟩
      · rw [h]
      · obtain ⟨h1, -⟩ := h.stays hin (endsValidate_of_endsListen he)
        have := hr.count h1
        rw [hb, memGet_memSet_other _ _ (by omega)]

/-- A run keeps the receiver's invariant. -/
theorem Run.inv {s t : State} (h : Run s t) (hok : s.cfg.ok = true) (hi : ReceiverInv s.cfg s.rx) :
    ReceiverInv t.cfg t.rx := by
  induction h with
  | last h =>
    obtain ⟨t', h', hi'⟩ := poll_answers hok hi
    rw [h] at h'
    cases h'
    exact hi'
  | more h _ _ ih =>
    obtain ⟨u', h', hi'⟩ := poll_answers hok hi
    rw [h] at h'
    cases h'
    exact ih (by rw [(poll_onlyPoll h).fields.1]; exact hok) hi'

/-- In a state that reads no byte a run is one poll that answers `Ignored` (R174). -/
theorem Run.deaf {s t : State} (h : Run s t) (hp : pollsLine s.rx.epState = false) :
    t = setResult (.event .ignored) s := by
  cases h with
  | last h =>
    rcases poll_ok h with ⟨-, h⟩ | ⟨h, -⟩ | ⟨h, -⟩
    · exact h
    · rw [hp] at h; cases h
    · rw [hp] at h; cases h
  | more h he _ =>
    rcases poll_ok h with ⟨-, rfl⟩ | ⟨h, -⟩ | ⟨h, -⟩
    · simp [lastEvent_event, endsListen] at he
    · rw [hp] at h; cases h
    · rw [hp] at h; cases h

/-- Arriving bytes touch only the queue of waiting bytes. -/
theorem arrive_fields (bytes : List Byte) (s : State) :
    (arrive bytes s).cfg = s.cfg ∧ (arrive bytes s).dir = s.dir ∧ (arrive bytes s).ck = s.ck ∧
    (arrive bytes s).t0 = s.t0 ∧ (arrive bytes s).rx = s.rx ∧ (arrive bytes s).mq = s.mq ∧
    (arrive bytes s).port = s.port ∧ (arrive bytes s).freeCount = s.freeCount ∧
    (arrive bytes s).line.trace = s.line.trace ∧ (arrive bytes s).line.accepts = s.line.accepts := by
  unfold arrive
  split <;> simp

/-- A byte or frame row at an endpoint is a run of polls (R101, R108). -/
theorem arrived_run {bytes : List Byte} {n : Nat} {s t : State}
    (h : poll (arrive bytes s) = .ok t ∨ pollStar n (arrive bytes s) = .ok t) : Run (arrive bytes s) t := by
  rcases h with h | h
  · exact .last h
  · exact pollStar_run h

/-- What EP.LISTEN can change. -/
theorem listen_only {s t : State} (h : listen s = .ok t) :
    t = { s with
      rx := t.rx, result := t.result, t0 := t.t0, freeCount := s.freeCount + 1
      line := { s.line with waiting := t.line.waiting, now := t.line.now, looks := t.line.looks } } := by
  obtain ⟨u, v, hr, hv, rfl⟩ := listen_run h
  have h1 := hr.onlyPoll
  have h2 : OnlyPoll (startWait s) v := by
    rcases hv with rfl | rfl | rfl
    · exact h1
    · exact h1.trans (onlyPoll_setResult _ _)
    · exact h1.trans ((expire_onlyLine _ u).onlyPoll.trans (onlyPoll_setResult _ _))
  unfold OnlyPoll at h2
  rw [h2]
  simp [endWait, startWait]

/-- EP.LISTEN leaves the receiver as a run of polls does. -/
theorem listen_rx {s t : State} (h : listen s = .ok t) : ∃ u, Run (startWait s) u ∧ t.rx = u.rx := by
  obtain ⟨u, v, hr, hv, rfl⟩ := listen_run h
  refine ⟨u, hr, ?_⟩
  rcases hv with rfl | rfl | rfl
  · rfl
  · rfl
  · exact (expire_onlyLine _ u).fields.2.2.2.2.1

end Sys2Proof.Machine
end

