-- ==== Sys2Proof/Laws/Feed.lean ====
section
/-!
SUPPORT. Bytes fed to a receiver one after another, none of which ends the frame (spec/42_receiver.md R160 to R172), and
what a receiver holds after a start delimiter, a header and the bytes behind it. The loops of VALIDATE, EP.LISTEN,
`ep.poll*` and DelimitedReceive all run through such a stretch.
-/

namespace Sys2Proof.Machine

/-- An event after which every loop over the receiver reads on. -/
def goesOn (e : Event) : Prop := endsValidate e = false ∧ endsListen e = false ∧ endsPolling e = false

/-- The bytes take the first receiver to the second, and no event among theirs ends a loop. -/
inductive Feed (cfg : Config) : List Byte → Receiver → Receiver → Prop where
  | nil (r : Receiver) : Feed cfg [] r r
  | cons {b : Byte} {bs : List Byte} {e : Event} {r r1 r2 : Receiver} (h : receiveByte cfg b r = .ok (e, r1))
      (he : goesOn e) (hf : Feed cfg bs r1 r2) : Feed cfg (b :: bs) r r2

theorem Feed.append {cfg : Config} {xs ys : List Byte} {r r1 r2 : Receiver} (h1 : Feed cfg xs r r1)
    (h2 : Feed cfg ys r1 r2) : Feed cfg (xs ++ ys) r r2 := by
  induction h1 with
  | nil => exact h2
  | cons h he _ ih => exact .cons h he (ih h2)

theorem Feed.one {cfg : Config} {b : Byte} {e : Event} {r r1 : Receiver} (h : receiveByte cfg b r = .ok (e, r1))
    (he : goesOn e) : Feed cfg [b] r r1 := .cons h he (.nil r1)

/-- An idle receiver discards what is no start delimiter (R162). -/
theorem feed_idle {cfg : Config} {r : Receiver} (hst : r.epState = .idle) {junk : List Byte}
    (hj : cfg.startDelim ∉ junk) : Feed cfg junk r r := by
  induction junk with
  | nil => exact .nil r
  | cons b bs ih =>
    simp only [List.mem_cons, not_or] at hj
    refine .cons (e := .notDetected) (r1 := r) ?_ ⟨rfl, rfl, rfl⟩ (ih hj.2)
    rw [receiveByte_idle b hst, if_neg (Ne.symm hj.1)]
    rfl

/-- What a receiver holds inside the header after the bytes `x` (R163, R164). -/
structure InHeader (cfg : Config) (x : List Byte) (r : Receiver) : Prop where
  state : r.epState = .receivingHeader
  count : r.rxCnt = x.length
  bytes : memBytes r.rxbuf 0 x.length = x
  written : Written r.rxbuf x.length
  status : r.epStatus = 0x00
  checksum : r.rxCk = cfg.fold cfg.ckSeed (cfg.coverOf x [])

/-- What a receiver holds behind the header `h` after the bytes `d` (R165, R170). -/
structure InBody (cfg : Config) (h d : List Byte) (r : Receiver) : Prop where
  state : r.epState = .receivingBody
  count : r.rxCnt = h.length + d.length
  bytes : memBytes r.rxbuf 0 (h.length + d.length) = h ++ d
  written : Written r.rxbuf (h.length + d.length)
  status : r.epStatus = 0x00
  checksum : r.rxCk = cfg.fold cfg.ckSeed (cfg.coverOf h d)
  header : r.hdr = unpackHeader cfg h
  headerSet : r.hdrSet = true

theorem feed_start {cfg : Config} {r : Receiver} (hst : r.epState = .idle) :
    ∃ r1, Feed cfg [cfg.startDelim] r r1 ∧ InHeader cfg [] r1 := by
  refine ⟨{ r with rxCk := cfg.ckSeed, rxCnt := 0, epStatus := 0x00, epState := .receivingHeader },
    .one (e := .frameStart) ?_ ⟨rfl, rfl, rfl⟩, ?_⟩
  · rw [receiveByte_idle _ hst, if_pos rfl]
    rfl
  · exact ⟨rfl, rfl, rfl, written_zero _, rfl, by unfold Config.coverOf; split <;> rfl⟩

theorem headerUpd_cover (cfg : Config) (x : List Byte) (b : Byte) :
    cfg.headerUpd (cfg.fold cfg.ckSeed (cfg.coverOf x [])) b = cfg.fold cfg.ckSeed (cfg.coverOf (x ++ [b]) []) := by
  unfold Config.headerUpd Config.coverOf
  split <;> simp [Config.fold_append]

theorem feed_header_byte {cfg : Config} {x : List Byte} {r : Receiver} (b : Byte) (hi : InHeader cfg x r)
    (hx : x.length + 1 < cfg.hdrLen) : ∃ r1, Feed cfg [b] r r1 ∧ InHeader cfg (x ++ [b]) r1 := by
  have hcap := hdrLen_lt_bufCap cfg
  refine ⟨{ r with rxbuf := memSet r.rxbuf r.rxCnt b, rxCnt := r.rxCnt + 1, rxCk := cfg.headerUpd r.rxCk b },
    .one (e := .stored) ?_ ⟨rfl, rfl, rfl⟩, ?_⟩
  · rw [receiveByte_header _ hi.state, if_pos (by rw [hi.count]; exact hx)]
    simp [ruleHeaderNotLast, storeByte_of_lt b (show r.rxCnt < cfg.bufCap by rw [hi.count]; omega)]
  · have hn := memBytes_memSet_next r.rxbuf 0 x.length b
    rw [Nat.zero_add, hi.bytes] at hn
    refine ⟨hi.state, by simp [hi.count], ?_, ?_, hi.status, ?_⟩
    · simpa [hi.count] using hn
    · simpa [hi.count] using hi.written.memSet b
    · simp only [hi.checksum, headerUpd_cover]

theorem feed_header_last {cfg : Config} {x : List Byte} {r : Receiver} (b : Byte) (hi : InHeader cfg x r)
    (hx : x.length + 1 = cfg.hdrLen) (hl : bodyLenOk cfg b = true) :
    ∃ r1, Feed cfg [b] r r1 ∧ InBody cfg (x ++ [b]) [] r1 := by
  have hcap := hdrLen_lt_bufCap cfg
  have hw : Written (memSet r.rxbuf r.rxCnt b) cfg.hdrLen := by
    rw [hi.count, ← hx]
    exact hi.written.memSet b
  have hn := memBytes_memSet_next r.rxbuf 0 x.length b
  rw [Nat.zero_add, hi.bytes] at hn
  have hd : memBytes (memSet r.rxbuf r.rxCnt b) 0 cfg.hdrLen = x ++ [b] := by rw [hi.count, ← hx, hn]
  refine ⟨{ r with
      rxbuf := memSet r.rxbuf r.rxCnt b, rxCnt := r.rxCnt + 1, rxCk := cfg.headerUpd r.rxCk b
      hdr := unpackHeader cfg (x ++ [b]), hdrSet := true, epState := .receivingBody },
    .one (e := .headerDone) ?_ ⟨rfl, rfl, rfl⟩, ?_⟩
  · rw [receiveByte_header _ hi.state, if_neg (by rw [hi.count]; omega), if_pos hl]
    have hdec := decodeHdr_of_written (cfg := cfg)
      (r := { r with rxbuf := memSet r.rxbuf r.rxCnt b, rxCnt := r.rxCnt + 1, rxCk := cfg.headerUpd r.rxCk b }) hw
    simp [ruleHeaderLastOk, storeByte_of_lt b (show r.rxCnt < cfg.bufCap by rw [hi.count]; omega), hdec, hd]
  · refine ⟨rfl, by simp [hi.count], ?_, ?_, hi.status, ?_, rfl, rfl⟩
    · simpa [hi.count] using hn
    · simpa [hi.count] using hi.written.memSet b
    · simp only [hi.checksum, headerUpd_cover]

theorem feed_header {cfg : Config} {h x : List Byte} {r : Receiver} (hi : InHeader cfg x r) (hne : h ≠ [])
    (hx : x.length + h.length = cfg.hdrLen) (hl : ∀ b, (x ++ h).getLast? = some b → bodyLenOk cfg b = true) :
    ∃ r1, Feed cfg h r r1 ∧ InBody cfg (x ++ h) [] r1 := by
  induction h generalizing x r with
  | nil => exact absurd rfl hne
  | cons b bs ih =>
    cases bs with
    | nil => exact feed_header_last b hi (by simpa using hx) (hl b (by simp))
    | cons c cs =>
      simp only [List.length_cons] at hx
      obtain ⟨r1, h1, h2⟩ := feed_header_byte b hi (by omega)
      obtain ⟨r2, h3, h4⟩ := ih h2 (by simp) (by simp; omega) (by simpa using hl)
      exact ⟨r2, h1.append h3, by simpa using h4⟩

theorem upd_cover (cfg : Config) (h d : List Byte) (b : Byte) :
    cfg.upd (cfg.fold cfg.ckSeed (cfg.coverOf h d)) b = cfg.fold cfg.ckSeed (cfg.coverOf h (d ++ [b])) := by
  unfold Config.coverOf
  split <;> simp [Config.fold_append]

theorem feed_body_byte {cfg : Config} {h d : List Byte} {r : Receiver} (b : Byte) (hi : InBody cfg h d r)
    (hb : b ≠ cfg.endDelim) (hc : h.length + d.length < cfg.bufCap) :
    ∃ r1, Feed cfg [b] r r1 ∧ InBody cfg h (d ++ [b]) r1 := by
  have hlt : r.rxCnt < cfg.bufCap := by rw [hi.count]; exact hc
  refine ⟨{ r with rxbuf := memSet r.rxbuf r.rxCnt b, rxCnt := r.rxCnt + 1, rxCk := cfg.upd r.rxCk b },
    .one (e := .stored) ?_ ⟨rfl, rfl, rfl⟩, ?_⟩
  · rw [receiveByte_body _ hi.state, if_neg hb, if_pos hlt]
    simp [ruleBodyRoom, storeByte_of_lt b hlt]
  · have hn := memBytes_memSet_next r.rxbuf 0 (h.length + d.length) b
    rw [Nat.zero_add, hi.bytes] at hn
    refine ⟨hi.state, by simp [hi.count]; omega, ?_, ?_, hi.status, ?_, hi.header, hi.headerSet⟩
    · simpa [hi.count, Nat.add_assoc] using hn
    · simpa [hi.count, Nat.add_assoc] using hi.written.memSet b
    · simp only [hi.checksum, upd_cover]

theorem feed_body {cfg : Config} {h d x : List Byte} {r : Receiver} (hi : InBody cfg h x r) (hd : cfg.endDelim ∉ d)
    (hc : h.length + x.length + d.length ≤ cfg.bufCap) :
    ∃ r1, Feed cfg d r r1 ∧ InBody cfg h (x ++ d) r1 := by
  induction d generalizing x r with
  | nil => exact ⟨r, .nil r, by simpa using hi⟩
  | cons b bs ih =>
    simp only [List.mem_cons, not_or, List.length_cons] at hd hc
    obtain ⟨r1, h1, h2⟩ := feed_body_byte b hi (Ne.symm hd.1) (by omega)
    obtain ⟨r2, h3, h4⟩ := ih h2 hd.2 (by simp; omega)
    exact ⟨r2, h1.append h3, by simpa using h4⟩

/-- An idle receiver fed a start delimiter, a header and what follows it, up to the end delimiter. -/
theorem feed_frame {cfg : Config} {h d : List Byte} {r : Receiver} (hok : cfg.ok = true) (hst : r.epState = .idle)
    (hh : h.length = cfg.hdrLen) (hl : ∀ b, h.getLast? = some b → bodyLenOk cfg b = true) (hd : cfg.endDelim ∉ d)
    (hc : d.length ≤ cfg.maxBody + cfg.ckW) :
    ∃ r1, Feed cfg ([cfg.startDelim] ++ h ++ d) r r1 ∧ InBody cfg h d r1 := by
  have h1 := ok_hdrLen hok
  obtain ⟨r1, f1, i1⟩ := feed_start (cfg := cfg) hst
  obtain ⟨r2, f2, i2⟩ := feed_header (h := h) i1 (by rintro rfl; simp at hh; omega) (by simpa using hh) (by simpa using hl)
  obtain ⟨r3, f3, i3⟩ := feed_body (d := d) i2 hd
    (by simp only [List.nil_append, List.length_nil]; unfold Config.bufCap; omega)
  exact ⟨r3, (f1.append f2).append f3, by simpa using i3⟩

/-- The end delimiter behind contents whose checksum is neutral (R171). -/
theorem feed_end {cfg : Config} {h d : List Byte} {r : Receiver} (hi : InBody cfg h d r) (hh : h.length = cfg.hdrLen)
    (hd : cfg.ckW ≤ d.length) (hz : cfg.fold cfg.ckSeed (cfg.coverOf h d) = 0) :
    receiveByte cfg cfg.endDelim r = .ok (.msgReady, { r with epState := .busy }) := by
  have hv : frameValid cfg r = true := by
    simp only [frameValid, Bool.and_eq_true, decide_eq_true_eq]
    exact ⟨by rw [hi.count]; omega, by rw [hi.checksum, hz]⟩
  rw [receiveByte_body _ hi.state, if_pos rfl, if_pos hv]
  rfl

/-- The checksum bytes neutralise what the frame covers (R120). -/
theorem fold_frame {cfg : Config} (hok : cfg.ok = true) (hn : cfg.profile.algo.Neutral) (h body : List Byte) :
    cfg.fold cfg.ckSeed (cfg.coverOf h (body ++ cfg.emit (cfg.frameCk h body))) = 0 := by
  have hf : cfg.ckFits (cfg.frameCk h body) = true := cfg.fold_fits _ (ok_seed hok)
  have key := hn _ ((cfg.ckFits_iff _).mp hf)
  have hs : cfg.coverOf h (body ++ cfg.emit (cfg.frameCk h body)) = cfg.coverOf h body ++ cfg.emit (cfg.frameCk h body) := by
    unfold Config.coverOf
    split <;> simp
  rw [hs, Config.fold_append]
  exact key

/-- The body of what is held (R62, R171). -/
theorem heldBody_of_bytes {cfg : Config} {m : Mem} {h body k : List Byte} (hh : h.length = cfg.hdrLen)
    (hk : k.length = cfg.ckW) (hc : h.length + body.length + k.length ≤ cfg.bufCap)
    (hb : memBytes m 0 (h.length + body.length + k.length) = h ++ body ++ k)
    (hw : Written m (h.length + body.length + k.length)) :
    heldBody cfg m (h.length + body.length + k.length) = .ok body := by
  unfold heldBody
  rw [← hh, ← hk, show h.length + body.length + k.length - k.length - h.length = body.length by omega,
    memRead_written hw (by omega) (by omega)]
  have h1 := memBytes_append m 0 h.length (body.length + k.length)
  have h2 := memBytes_append m h.length body.length k.length
  rw [Nat.zero_add, ← Nat.add_assoc, hb, h2, List.append_assoc] at h1
  obtain ⟨-, h3⟩ := List.append_inj h1 (by simp)
  obtain ⟨h4, -⟩ := List.append_inj h3 (by simp)
  rw [← h4]

/-- The length byte of a command's header is acceptable (R87, R143, R165). -/
theorem headerFor_last {cfg : Config} {fields body : List Byte} (hok : cfg.ok = true) (hb : body.length ≤ cfg.maxBody) :
    ∀ b, (headerFor cfg fields body).getLast? = some b → bodyLenOk cfg b = true := by
  intro b hlast
  simp only [bodyLenOk, Bool.or_eq_true, Bool.not_eq_true', decide_eq_true_eq]
  cases hl : cfg.profile.lenW with
  | false => exact Or.inl rfl
  | true =>
    right
    have hmax : cfg.maxBody ≤ 255 := by
      simp only [Config.ok, Bool.and_eq_true, hl, Bool.not_true, Bool.false_or, decide_eq_true_eq] at hok
      exact hok.1.1.1.1.1.1.2
    simp only [headerFor, packHeader, hl, if_true, List.getLast?_append, List.getLast?_singleton, Option.some_or,
      Option.some.injEq] at hlast
    rw [← hlast, BitVec.toNat_ofNat]
    omega

/-- A whole frame without its end delimiter. -/
theorem encodeFrame_eq (cfg : Config) (fields body : List Byte) :
    encodeFrame cfg fields body =
      ([cfg.startDelim] ++ headerFor cfg fields body ++ (body ++ cfg.emit (encodeCk cfg fields body))) ++
        [cfg.endDelim] := by
  simp [encodeFrame, frameBytes, encodeCk]

/-- An idle receiver fed a frame of the encoder: up to the end delimiter it collects header, body and checksum, and the
end delimiter then gives MsgReady (R143, R146, R163 to R171). -/
theorem feed_encoded {cfg : Config} {fields body : List Byte} {r : Receiver} (hok : cfg.ok = true)
    (hn : cfg.profile.algo.Neutral) (hf : cfg.fieldsFit fields = true) (hb : body.length ≤ cfg.maxBody)
    (hs : frameSafe cfg (headerFor cfg fields body) body = true) (hst : r.epState = .idle) :
    ∃ r1, Feed cfg ([cfg.startDelim] ++ headerFor cfg fields body ++ (body ++ cfg.emit (encodeCk cfg fields body))) r r1 ∧
      InBody cfg (headerFor cfg fields body) (body ++ cfg.emit (encodeCk cfg fields body)) r1 ∧
      receiveByte cfg cfg.endDelim r1 = .ok (.msgReady, { r1 with epState := .busy }) ∧
      heldBody cfg r1.rxbuf r1.rxCnt = .ok body := by
  have hh : (headerFor cfg fields body).length = cfg.hdrLen := packHeader_length _ _ _ hf
  have hsafe : cfg.endDelim ∉ body ++ cfg.emit (encodeCk cfg fields body) := by
    unfold frameSafe at hs
    simpa [encodeCk] using hs
  obtain ⟨r1, f, i⟩ := feed_frame (r := r) hok hst hh (headerFor_last hok hb) hsafe (by simp [Config.emit_length]; omega)
  refine ⟨r1, f, i, feed_end i hh (by simp [Config.emit_length]) (fold_frame hok hn _ _), ?_⟩
  have h1 := i.bytes
  have h2 := i.written
  have := heldBody_of_bytes (cfg := cfg) (m := r1.rxbuf) (h := headerFor cfg fields body) (body := body)
    (k := cfg.emit (encodeCk cfg fields body)) hh (cfg.emit_length _)
    (by simp [Config.emit_length, hh]; unfold Config.bufCap; omega)
    (by simpa [Nat.add_assoc] using h1) (by simpa [Nat.add_assoc] using h2)
  rw [i.count]
  simpa [Nat.add_assoc] using this

/-- VALIDATE goes on behind such a stretch (R147). -/
theorem validateBytes_feed {cfg : Config} {xs ys : List Byte} {r r1 : Receiver} (h : Feed cfg xs r r1) :
    validateBytes cfg (xs ++ ys) r = validateBytes cfg ys r1 := by
  induction h with
  | nil => rfl
  | cons h he _ ih => simp [validateBytes, h, he.1, ih]

/-- One poll of a byte that waits, with no look to come. -/
theorem poll_waiting {s : State} {b : Byte} {rest : List Byte} (hd : s.dir = .rx) (hp : pollsLine s.rx.epState = true)
    (hw : s.line.waiting = b :: rest) (hl : s.line.looks = []) {e : Event} {r : Receiver}
    (h : receiveByte s.cfg b s.rx = .ok (e, r)) :
    poll s = .ok { s with rx := r, result := .event e, line := { s.line with waiting := rest } } := by
  simp [poll, hp, pollWith, look_of_no_looks hl, lineRead, hd, hw, h, applyRx, setResult]

theorem feed_polls {cfg : Config} {b : Byte} {e : Event} {r r1 : Receiver} (h : receiveByte cfg b r = .ok (e, r1))
    (he : goesOn e) : pollsLine r.epState = true := by
  cases hp : pollsLine r.epState with
  | true => rfl
  | false =>
    rw [receiveByte_deaf b hp] at h
    cases h
    exact absurd he.2.1 (by decide)

/-- `ep.poll*` goes on behind such a stretch of waiting bytes (R108). -/
theorem pollStar_feed {cfg : Config} {s : State} {xs ys : List Byte} {r1 : Receiver} (n : Nat)
    (h : Feed cfg xs s.rx r1) (hc : s.cfg = cfg) (hd : s.dir = .rx) (hw : s.line.waiting = xs ++ ys) (hl : s.line.looks = []) :
    ∃ res, pollStar (xs.length + n) s =
      pollStar n { s with rx := r1, result := res, line := { s.line with waiting := ys } } := by
  generalize hr : s.rx = r at h
  induction h generalizing s with
  | nil => exact ⟨s.result, by subst hr; simp only [List.nil_append] at hw; simp [← hw]⟩
  | @cons b bs e r r1 r2 hb he _ ih =>
    subst hr hc
    obtain ⟨res, hres⟩ := ih (s := { s with rx := r1, result := .event e, line := { s.line with waiting := bs ++ ys } })
      rfl hd rfl hl rfl
    refine ⟨res, ?_⟩
    rw [show (b :: bs).length + n = bs.length + n + 1 by simp only [List.length_cons]; omega, pollStar,
      poll_waiting hd (feed_polls hb he) hw hl hb]
    simpa [lastEvent, he.2.2] using hres

/-- EP.LISTEN goes on behind such a stretch of waiting bytes, while its deadline has not passed (R175). -/
theorem listenLoop_feed {cfg : Config} {s : State} {xs ys : List Byte} {r1 : Receiver} (n : Nat)
    (h : Feed cfg xs s.rx r1) (hc : s.cfg = cfg)
    (hd : s.dir = .rx) (hw : s.line.waiting = xs ++ ys) (hl : s.line.looks = []) (hne : ys ≠ [])
    (hx : expired cfg.rxTimeout s = false) :
    ∃ res, listenLoop (xs.length + n) s =
      listenLoop n { s with rx := r1, result := res, line := { s.line with waiting := ys } } := by
  generalize hr : s.rx = r at h
  induction h generalizing s with
  | nil => exact ⟨s.result, by subst hr; simp only [List.nil_append] at hw; simp [← hw]⟩
  | @cons b bs e r r1 r2 hb he _ ih =>
    subst hr hc
    obtain ⟨res, hres⟩ := ih (s := { s with rx := r1, result := .event e, line := { s.line with waiting := bs ++ ys } })
      rfl hd rfl hl hx rfl
    refine ⟨res, ?_⟩
    rw [show (b :: bs).length + n = bs.length + n + 1 by simp only [List.length_cons]; omega, listenLoop,
      poll_waiting hd (feed_polls hb he) hw hl hb]
    have hx' : expired s.cfg.rxTimeout
        { s with rx := r1, result := .event e, line := { s.line with waiting := bs ++ ys } } = false := hx
    have hq : lineQuiet { s with rx := r1, result := .event e, line := { s.line with waiting := bs ++ ys } } = false := by
      simp [lineQuiet, lineAvail, hd, hne]
    simpa [lastEvent, he.2.1, hx', hq] using hres

/-- DelimitedReceive goes on behind such a stretch of waiting bytes (R234). -/
theorem delimitedLoop_feed {cfg : Config} {s : State} {xs ys : List Byte} {r r1 : Receiver} (n : Nat)
    (h : Feed cfg xs r r1) (hc : s.cfg = cfg) (hd : s.dir = .rx) (hw : s.line.waiting = xs ++ ys) (hl : s.line.looks = []) :
    delimitedLoop (xs.length + n) r s = delimitedLoop n r1 { s with line := { s.line with waiting := ys } } := by
  induction h generalizing s with
  | nil => simp only [List.nil_append] at hw; simp [← hw]
  | @cons b bs e r r1 r2 hb he _ ih =>
    subst hc
    rw [show (b :: bs).length + n = bs.length + n + 1 by simp only [List.length_cons]; omega, delimitedLoop,
      getByte_waiting hd hw hl]
    simpa [hb, he.1] using ih (s := { s with line := { s.line with waiting := bs ++ ys } }) rfl hd rfl hl

end Sys2Proof.Machine
end

