-- ==== Sys2Proof/Laws/Query.lean ====
section
/-!
SUPPORT. The receive half of a query (spec/44_master_query.md R223 to R234): what it can change, which `m_state` values it
passes, that it answers from every state, and what it leaves in the result registers.
-/

namespace Sys2Proof.Machine

/-- Only the master's result registers and the line's waiting bytes, looks and clock differ, and the trace has grown by
the `m_state` values `ms`. -/
def Receives (ms : List MState) (s t : State) : Prop :=
  t = { s with
    mq := t.mq
    line := { s.line with
      waiting := t.line.waiting, now := t.line.now, looks := t.line.looks
      trace := s.line.trace ++ ms.map LineOp.masterState } }

theorem Receives.refl (s : State) : Receives [] s s := by simp [Receives]

theorem Receives.trans {ms ns : List MState} {s t u : State} (h1 : Receives ms s t) (h2 : Receives ns t u) :
    Receives (ms ++ ns) s u := by
  unfold Receives at *
  rw [h2, h1]
  simp

theorem Receives.trans_nil {ms : List MState} {s t u : State} (h1 : Receives [] s t) (h2 : Receives ms t u) :
    Receives ms s u := by simpa using h1.trans h2

theorem OnlyLine.receives {s t : State} (h : OnlyLine s t) : Receives [] s t := by
  unfold OnlyLine at h
  unfold Receives
  rw [h]
  simp

theorem Receives.fields {ms : List MState} {s t : State} (h : Receives ms s t) :
    t.cfg = s.cfg ∧ t.dir = s.dir ∧ t.ck = s.ck ∧ t.t0 = s.t0 ∧ t.rx = s.rx ∧ t.result = s.result ∧ t.port = s.port ∧
    t.freeCount = s.freeCount ∧ t.line.accepts = s.line.accepts ∧
    t.line.trace = s.line.trace ++ ms.map LineOp.masterState := by
  unfold Receives at h
  rw [h]
  simp

theorem raiseQ_receives (f : Byte) (s : State) : Receives [] s (raiseQ f s) := by simp [Receives, raiseQ]

theorem setMState_receives (m : MState) (s : State) : Receives [m] s (setMState m s) := by
  simp [Receives, setMState, record]

/-- What the result registers hold while a response comes in: a fill count inside the buffer, every index below it
written, the canonical form, a legal status. -/
structure Filling (cfg : Config) (q : Master) : Prop where
  cntLe : q.qCnt ≤ cfg.bufCap
  bufferWf : Memory.wf cfg.bufCap q.qbuf = true
  written : Written q.qbuf q.qCnt
  status : statusLegal q.qStatus = true

/-- The flags of a receive. -/
def receiveFlag (f : Byte) : Prop := f = flagRxError ∨ f = flagCrcFailed ∨ f = flagBufferExhausted

theorem Filling.raise {s : State} (h : Filling s.cfg s.mq) {f : Byte} (hf : receiveFlag f) :
    Filling (raiseQ f s).cfg (raiseQ f s).mq where
  cntLe := h.cntLe
  bufferWf := h.bufferWf
  written := h.written
  status := raise_legal h.status (by unfold receiveFlag at hf; tauto)

theorem ResultInv.raise {s : State} (h : ResultInv s.cfg s.mq) {f : Byte}
    (hf : f = 0x00 ∨ f = flagTimeout ∨ f = flagCrcFailed ∨ f = flagBufferExhausted ∨ f = flagTxError ∨ f = flagRxError) :
    ResultInv (raiseQ f s).cfg (raiseQ f s).mq where
  cntLe := h.cntLe
  status := raise_legal h.status hf
  bufferWf := h.bufferWf
  written := h.written
  validCount := h.validCount
  header := h.header

/-- Filling registers without content are result registers. -/
theorem Filling.invalid {cfg : Config} {q : Master} (h : Filling cfg q) (hv : q.qValid = false) : ResultInv cfg q where
  cntLe := h.cntLe
  status := h.status
  bufferWf := h.bufferWf
  written := h.written
  validCount := by simp [hv]
  header := by simp [hv]

theorem ResultInv.filling {cfg : Config} {q : Master} (h : ResultInv cfg q) : Filling cfg q where
  cntLe := h.cntLe
  bufferWf := h.bufferWf
  written := h.written
  status := h.status

/-! CountedReceive. -/

/-- The hunt for the start delimiter changes only the line, and RX_ERROR where it fails (R225). -/
theorem huntStart_cases (n : Nat) (s : State) :
    ((huntStart n s).1 = true ∧ OnlyLine s (huntStart n s).2) ∨
    ((huntStart n s).1 = false ∧ ∃ u, OnlyLine s u ∧ (huntStart n s).2 = raiseQ flagRxError u) := by
  induction n generalizing s with
  | zero => exact Or.inr ⟨rfl, (getByte s).2, getByte_onlyLine s, rfl⟩
  | succ n ih =>
    have hg := getByte_onlyLine s
    unfold huntStart
    split
    · rename_i s1 h
      rw [h] at hg
      exact Or.inr ⟨rfl, s1, hg, rfl⟩
    · rename_i b s1 h
      rw [h] at hg
      split
      · exact Or.inl ⟨rfl, hg⟩
      · rcases ih s1 with ⟨h1, h2⟩ | ⟨h1, u, h2, h3⟩
        · exact Or.inl ⟨h1, hg.trans h2⟩
        · exact Or.inr ⟨h1, u, hg.trans h2, h3⟩

/-- Everything storing a byte can answer (R72). -/
theorem storeQ_ok {s t : State} {b : Byte} (h : storeQ b s = .ok t) :
    s.mq.qCnt < s.cfg.bufCap ∧
    t = { s with mq := { s.mq with qbuf := memSet s.mq.qbuf s.mq.qCnt b, qCnt := s.mq.qCnt + 1 } } := by
  unfold storeQ at h
  split at h
  · rename_i m hm
    obtain ⟨hlt, rfl⟩ := memWrite_ok hm
    exact ⟨hlt, (Except.ok.inj h).symm⟩
  · cases h

theorem storeQ_of_lt {s : State} (b : Byte) (h : s.mq.qCnt < s.cfg.bufCap) :
    storeQ b s = .ok { s with mq := { s.mq with qbuf := memSet s.mq.qbuf s.mq.qCnt b, qCnt := s.mq.qCnt + 1 } } := by
  simp [storeQ, memWrite_of_lt s.mq.qbuf b h]

/-- Storing keeps the registers filling. -/
theorem Filling.store {cfg : Config} {q : Master} (h : Filling cfg q) (b : Byte) (hlt : q.qCnt < cfg.bufCap) :
    Filling cfg { q with qbuf := memSet q.qbuf q.qCnt b, qCnt := q.qCnt + 1 } where
  cntLe := hlt
  bufferWf := memSet_wf b h.bufferWf hlt
  written := h.written.memSet b
  status := h.status

/-- The header loop answers, fills the buffer, and raises RX_ERROR where it comes up short (R226). -/
theorem headerLoop_answers (n : Nat) {s : State} (hf : Filling s.cfg s.mq) (hn : s.mq.qCnt + n ≤ s.cfg.bufCap) :
    ∃ b t, headerLoop n s = .ok (b, t) ∧ Receives [] s t ∧ Filling t.cfg t.mq ∧ t.mq.qValid = s.mq.qValid ∧
      s.mq.qCnt ≤ t.mq.qCnt ∧
      (b = true → t.mq.qCnt = s.mq.qCnt + n ∧ t.mq.qStatus = s.mq.qStatus) ∧
      (b = false → t.mq.qStatus = raiseFlag s.mq.qStatus flagRxError) := by
  induction n generalizing s with
  | zero => exact ⟨true, s, rfl, .refl s, hf, rfl, le_refl _, fun _ => ⟨rfl, rfl⟩, by simp⟩
  | succ n ih =>
    have hg := getByte_onlyLine s
    obtain ⟨hcfg, -, -, -, -, hmq, -⟩ := hg.fields
    unfold headerLoop
    split
    · rename_i s1 h
      rw [h] at hg hcfg hmq
      simp only at hg hcfg hmq
      have hf1 : Filling s1.cfg s1.mq := by rw [hcfg, hmq]; exact hf
      exact ⟨false, _, rfl, hg.receives.trans_nil (raiseQ_receives _ _), hf1.raise (Or.inl rfl), by simp [hmq],
        by simp [hmq], by simp, fun _ => by simp [hmq]⟩
    · rename_i b s1 h
      rw [h] at hg hcfg hmq
      simp only at hg hcfg hmq
      have hlt : s1.mq.qCnt < s1.cfg.bufCap := by rw [hcfg, hmq]; omega
      have hf1 : Filling s1.cfg s1.mq := by rw [hcfg, hmq]; exact hf
      simp only [storeQ_of_lt b hlt]
      obtain ⟨b', t, ht, hr, hft, hv, hle, h1, h2⟩ :=
        ih (s := { s1 with mq := { s1.mq with qbuf := memSet s1.mq.qbuf s1.mq.qCnt b, qCnt := s1.mq.qCnt + 1 } })
          (hf1.store b hlt) (by simp only [hmq, hcfg]; omega)
      have hs : Receives [] s1 { s1 with mq := { s1.mq with qbuf := memSet s1.mq.qbuf s1.mq.qCnt b, qCnt := s1.mq.qCnt + 1 } } := by
        simp [Receives]
      refine ⟨b', t, ht, hg.receives.trans_nil (hs.trans_nil hr), hft, by rw [hv, hmq], ?_, ?_, ?_⟩
      · simp only [hmq] at hle
        omega
      · intro hb
        obtain ⟨h3, h4⟩ := h1 hb
        simp only [hmq] at h3 h4
        exact ⟨by omega, h4⟩
      · intro hb
        have h3 := h2 hb
        simpa only [hmq] using h3

/-- The body loop answers, keeps the header's bytes, and raises RX_ERROR where it comes up short (R229). -/
theorem bodyLoop_answers (n : Nat) {s : State} (hf : Filling s.cfg s.mq) :
    ∃ b t, bodyLoop n s = .ok (b, t) ∧ Receives [] s t ∧ Filling t.cfg t.mq ∧ t.mq.qValid = s.mq.qValid ∧
      t.mq.qHdr = s.mq.qHdr ∧ s.mq.qCnt ≤ t.mq.qCnt ∧
      (∀ i, i < s.mq.qCnt → memGet t.mq.qbuf i = memGet s.mq.qbuf i) ∧
      (b = true → t.mq.qStatus = s.mq.qStatus) ∧
      (b = false → t.mq.qStatus = raiseFlag s.mq.qStatus flagRxError) := by
  induction n generalizing s with
  | zero => exact ⟨true, s, rfl, .refl s, hf, rfl, rfl, le_refl _, fun _ _ => rfl, fun _ => rfl, by simp⟩
  | succ n ih =>
    have hg := getByte_onlyLine s
    obtain ⟨hcfg, -, -, -, -, hmq, -⟩ := hg.fields
    unfold bodyLoop
    split
    · rename_i s1 h
      rw [h] at hg hcfg hmq
      simp only at hg hcfg hmq
      have hf1 : Filling s1.cfg s1.mq := by rw [hcfg, hmq]; exact hf
      exact ⟨false, _, rfl, hg.receives.trans_nil (raiseQ_receives _ _), hf1.raise (Or.inl rfl), by simp [hmq],
        by simp [hmq], by simp [hmq], by simp [hmq], by simp, fun _ => by simp [hmq]⟩
    · rename_i b s1 h
      rw [h] at hg hcfg hmq
      simp only at hg hcfg hmq
      have hf1 : Filling s1.cfg s1.mq := by rw [hcfg, hmq]; exact hf
      unfold storeOrDrop
      by_cases hlt : s1.mq.qCnt < s1.cfg.bufCap
      · simp only [if_pos hlt, storeQ_of_lt b hlt]
        obtain ⟨b', t, ht, hr, hft, hv, hh, hle, hm, h1, h2⟩ :=
          ih (s := { s1 with mq := { s1.mq with qbuf := memSet s1.mq.qbuf s1.mq.qCnt b, qCnt := s1.mq.qCnt + 1 } })
            (hf1.store b hlt)
        have hs : Receives [] s1 { s1 with mq := { s1.mq with qbuf := memSet s1.mq.qbuf s1.mq.qCnt b, qCnt := s1.mq.qCnt + 1 } } := by
          simp [Receives]
        simp only [hmq] at hv hh hle hm h1 h2
        refine ⟨b', t, ht, hg.receives.trans_nil (hs.trans_nil hr), hft, hv, hh, by omega, ?_, h1, h2⟩
        intro i hi
        rw [hm i (by omega), memGet_memSet_other _ _ (by omega)]
      · simp only [if_neg hlt]
        obtain ⟨b', t, ht, hr, hft, hv, hh, hle, hm, h1, h2⟩ := ih hf1
        simp only [hmq] at hv hh hle hm h1 h2
        exact ⟨b', t, ht, hg.receives.trans_nil hr, hft, hv, hh, hle, hm, h1, h2⟩

/-- Decoding a header that is all in the buffer (R226). -/
theorem decodeQHdr_of_written {s : State} (h : Written s.mq.qbuf s.cfg.hdrLen) :
    decodeQHdr s = .ok { s with mq := { s.mq with
      qHdr := unpackHeader s.cfg (memBytes s.mq.qbuf 0 s.cfg.hdrLen), qValid := true } } := by
  have := hdrLen_le_bufCap s.cfg
  simp [decodeQHdr, memRead_written (cap := s.cfg.bufCap) h (by omega : 0 + s.cfg.hdrLen ≤ s.cfg.hdrLen) (by omega)]

/-- The checksum test of CountedReceive reads what is stored (R231). -/
theorem checkQ_of_written {s : State} (hc : s.mq.qCnt ≤ s.cfg.bufCap) (hw : Written s.mq.qbuf s.mq.qCnt) :
    checkQ s = .ok (
      if s.mq.qCnt < s.cfg.hdrLen + s.cfg.ckW then raiseQ flagCrcFailed (setMState .processing s)
      else if s.cfg.emit (s.cfg.frameCk (memBytes s.mq.qbuf 0 s.cfg.hdrLen)
          (memBytes s.mq.qbuf s.cfg.hdrLen (s.mq.qCnt - s.cfg.ckW - s.cfg.hdrLen))) =
          memBytes s.mq.qbuf (s.mq.qCnt - s.cfg.ckW) s.cfg.ckW then setMState .processing s
      else raiseQ flagCrcFailed (setMState .processing s)) := by
  unfold checkQ
  by_cases h : s.mq.qCnt < s.cfg.hdrLen + s.cfg.ckW
  · simp [h]
  · simp only [if_neg h, heldBody,
      memRead_written (cap := s.cfg.bufCap) hw (show s.mq.qCnt - s.cfg.ckW + s.cfg.ckW ≤ s.mq.qCnt by omega) (by omega),
      memRead_written (cap := s.cfg.bufCap) hw (show 0 + s.cfg.hdrLen ≤ s.mq.qCnt by omega) (by omega),
      memRead_written (cap := s.cfg.bufCap) hw
        (show s.cfg.hdrLen + (s.mq.qCnt - s.cfg.ckW - s.cfg.hdrLen) ≤ s.mq.qCnt by omega) (by omega)]

/-- The contents end in a checksum that verifies (R231, R234). -/
def Verified (cfg : Config) (q : Master) : Prop :=
  cfg.hdrLen + cfg.ckW ≤ q.qCnt ∧ ∃ h body k, memBytes q.qbuf 0 q.qCnt = h ++ body ++ k ∧ h.length = cfg.hdrLen ∧
    body = memBytes q.qbuf cfg.hdrLen (q.qCnt - cfg.ckW - cfg.hdrLen) ∧ k.length = cfg.ckW ∧
    (if cfg.profile.lenW then k = cfg.emit (cfg.frameCk h body) else cfg.fold (cfg.frameCk h body) k = 0)

/-- The contents split into header, body and checksum bytes (R61, R62). -/
theorem memBytes_split {m : Mem} {n h k : Nat} (hn : h + k ≤ n) :
    memBytes m 0 n = memBytes m 0 h ++ memBytes m h (n - k - h) ++ memBytes m (n - k) k := by
  have h1 := memBytes_append m 0 h (n - k - h)
  have h2 := memBytes_append m 0 (n - k) k
  rw [show h + (n - k - h) = n - k by omega, Nat.zero_add] at h1
  rw [show n - k + k = n by omega, Nat.zero_add] at h2
  rw [h2, h1]

/-- Flags were raised, but never TIMEOUT. -/
def Raised (a b : Byte) : Prop := ∃ f : Byte, b = a ||| f ∧ f.getLsbD 1 = false

theorem Raised.refl (a : Byte) : Raised a a := ⟨0, by simp, by decide⟩

theorem Raised.trans {a b c : Byte} (h1 : Raised a b) (h2 : Raised b c) : Raised a c := by
  obtain ⟨f, rfl, hf⟩ := h1
  obtain ⟨g, rfl, hg⟩ := h2
  exact ⟨f ||| g, by rw [BitVec.or_assoc], by rw [BitVec.getLsbD_or, hf, hg]; rfl⟩

theorem Raised.raise (a : Byte) {f : Byte} (hf : receiveFlag f) : Raised a (raiseFlag a f) :=
  ⟨f, rfl, by rcases hf with rfl | rfl | rfl <;> decide⟩

theorem Raised.timeout {a b : Byte} (h : Raised a b) : b.getLsbD 1 = a.getLsbD 1 := by
  obtain ⟨f, rfl, hf⟩ := h
  rw [BitVec.getLsbD_or, hf, Bool.or_false]

theorem or_eq_zero {a f : Byte} (h : a ||| f = 0) : a = 0 ∧ f = 0 := by
  constructor <;> apply BitVec.eq_of_getLsbD_eq <;> intro i hi <;>
    have := congrArg (fun x => x.getLsbD i) h <;> simp at this <;> simp [this]

theorem Raised.zero {a b : Byte} (h : Raised a b) (hb : b = 0) : a = 0 := by
  obtain ⟨f, rfl, -⟩ := h
  exact (or_eq_zero hb).1

theorem raiseFlag_ne_zero {a f : Byte} (hf : receiveFlag f) : raiseFlag a f ≠ 0 := by
  intro h
  have := (or_eq_zero h).2
  rcases hf with rfl | rfl | rfl <;> simp [flagRxError, flagCrcFailed, flagBufferExhausted] at this

/-- The checksum test answers and leaves the content; with status 0 the checksum verifies (R231). -/
theorem checkQ_answers {s : State} (hi : ResultInv s.cfg s.mq) (hl : s.cfg.profile.lenW = true) :
    ∃ t, checkQ s = .ok t ∧ Receives [.processing] s t ∧ ResultInv t.cfg t.mq ∧ t.mq.qValid = s.mq.qValid ∧
      Raised s.mq.qStatus t.mq.qStatus ∧ (t.mq.qStatus = 0 → Verified t.cfg t.mq) := by
  have hm : ResultInv (setMState .processing s).cfg (setMState .processing s).mq := by
    simpa using ⟨hi.cntLe, hi.status, hi.bufferWf, hi.written, hi.validCount, hi.header⟩
  have hr := setMState_receives .processing s
  have hr2 : Receives [.processing] s (raiseQ flagCrcFailed (setMState .processing s)) := by
    simpa using hr.trans (raiseQ_receives flagCrcFailed (setMState .processing s))
  have hcrc : receiveFlag flagCrcFailed := Or.inr (Or.inl rfl)
  rw [checkQ_of_written hi.cntLe hi.written]
  refine ⟨_, rfl, ?_⟩
  split
  · refine ⟨hr2, hm.raise (by tauto), by simp, ?_, ?_⟩
    · simpa using Raised.raise _ hcrc
    · intro h
      simp at h
      exact absurd h (raiseFlag_ne_zero hcrc)
  · rename_i hlen
    split
    · rename_i hk
      refine ⟨hr, hm, by simp, by simpa using Raised.refl _, fun _ => ⟨by simpa using not_lt.mp hlen, _, _, _,
        memBytes_split (h := s.cfg.hdrLen) (k := s.cfg.ckW) (by simpa using not_lt.mp hlen), ?_, ?_, ?_, ?_⟩⟩
      · simp
      · simp
      · simp
      · simp [hl, hk]
    · refine ⟨hr2, hm.raise (by tauto), by simp, ?_, ?_⟩
      · simpa using Raised.raise _ hcrc
      · intro h
        simp at h
        exact absurd h (raiseFlag_ne_zero hcrc)

/-- Testing the end delimiter changes only the line and, where it is missing, RX_ERROR (R230). -/
theorem endDelimiter_receives (s : State) : Receives [] s (endDelimiter s) ∧
    ((endDelimiter s).mq = s.mq ∨ (endDelimiter s).mq = (raiseQ flagRxError s).mq) := by
  have hg := getByte_onlyLine s
  have hmq := hg.fields.2.2.2.2.2.1
  unfold endDelimiter
  simp only
  split
  · exact ⟨hg.receives, Or.inl hmq⟩
  · refine ⟨hg.receives.trans_nil (raiseQ_receives _ _), Or.inr ?_⟩
    simp [raiseQ, hmq]

/-- CountedReceive from the complete header on answers with the content kept (R228 to R231). -/
theorem countedBody_answers {s : State} (hi : ResultInv s.cfg s.mq) (hl : s.cfg.profile.lenW = true)
    (hv : s.mq.qValid = true) :
    ∃ t, countedBody s = .ok t ∧ Receives [.processing] s t ∧ ResultInv t.cfg t.mq ∧ t.mq.qValid = true ∧
      Raised s.mq.qStatus t.mq.qStatus ∧ (t.mq.qStatus = 0 → Verified t.cfg t.mq) := by
  have hbuf : receiveFlag flagBufferExhausted := Or.inr (Or.inr rfl)
  have hrx : receiveFlag flagRxError := Or.inl rfl
  have hcap : Receives [] s (capacityTest s) ∧ ResultInv (capacityTest s).cfg (capacityTest s).mq ∧
      (capacityTest s).mq.qValid = true ∧ Raised s.mq.qStatus (capacityTest s).mq.qStatus := by
    unfold capacityTest
    split
    · exact ⟨raiseQ_receives _ _, hi.raise (by tauto), by simp [hv], by simpa using Raised.raise _ hbuf⟩
    · exact ⟨.refl s, hi, hv, .refl _⟩
  obtain ⟨hr1, hi1, hv1, hs1⟩ := hcap
  have hl1 : (capacityTest s).cfg.profile.lenW = true := by rw [hr1.fields.1]; exact hl
  obtain ⟨b, u, hu, hr2, hf2, hv2, hh2, hle2, hm2, hst, hsf⟩ :=
    bodyLoop_answers ((capacityTest s).mq.qHdr.bodyLen.toNat + (capacityTest s).cfg.ckW) hi1.filling
  have hcnt := hi1.validCount hv1
  have hiu : ResultInv u.cfg u.mq := {
    cntLe := hf2.cntLe, status := hf2.status, bufferWf := hf2.bufferWf, written := hf2.written
    validCount := fun _ => by rw [hr2.fields.1]; omega
    header := fun _ => by
      rw [hh2, hi1.header hv1, hr2.fields.1]
      congr 1
      exact memBytes_congr fun i hi => (hm2 (0 + i) (by omega)).symm }
  have hlu : u.cfg.profile.lenW = true := by rw [hr2.fields.1]; exact hl1
  unfold countedBody
  simp only [hu]
  cases b with
  | false =>
    obtain ⟨t, ht, hr3, hi3, hv3, hs3, hz⟩ := checkQ_answers hiu hlu
    refine ⟨t, ht, hr1.trans_nil (hr2.trans_nil hr3), hi3, by rw [hv3, hv2, hv1], ?_, hz⟩
    have h := hsf rfl
    exact hs1.trans ((h ▸ Raised.raise _ hrx).trans hs3)
  | true =>
    obtain ⟨hre, hme⟩ := endDelimiter_receives u
    have hcfge := hre.fields.1
    have hie : ResultInv (endDelimiter u).cfg (endDelimiter u).mq := by
      rw [hcfge]
      rcases hme with h | h <;> rw [h]
      · exact hiu
      · exact hiu.raise (by tauto)
    have hve : (endDelimiter u).mq.qValid = u.mq.qValid := by rcases hme with h | h <;> rw [h]; simp
    have hse : Raised u.mq.qStatus (endDelimiter u).mq.qStatus := by
      rcases hme with h | h <;> rw [h]
      · exact .refl _
      · simpa using Raised.raise _ hrx
    obtain ⟨t, ht, hr3, hi3, hv3, hs3, hz⟩ := checkQ_answers hie (by rw [hcfge]; exact hlu)
    refine ⟨t, ht, hr1.trans_nil (hr2.trans_nil (hre.trans_nil hr3)), hi3, by rw [hv3, hve, hv2, hv1], ?_, hz⟩
    have h := hst rfl
    exact hs1.trans (h ▸ (hse.trans hs3))

/-- What the receive half of a query leaves, from a state whose results were cleared. -/
structure Received (s t : State) : Prop where
  /-- R235: Receiving is followed by Processing or by nothing. -/
  path : Receives [] s t ∨ Receives [.processing] s t
  inv : ResultInv t.cfg t.mq
  raised : Raised s.mq.qStatus t.mq.qStatus
  /-- Without content RX_ERROR is up (R236(3)). -/
  noContent : t.mq.qValid = false → ∃ f, t.mq.qStatus = raiseFlag f flagRxError
  /-- Status 0 means that the frame verifies (R233). -/
  success : t.mq.qStatus = 0 → t.mq.qValid = true ∧ Verified t.cfg t.mq

theorem Received.cfg {s t : State} (h : Received s t) : t.cfg = s.cfg := by
  rcases h.path with h | h <;> exact h.fields.1

/-- CountedReceive answers (R225 to R231). -/
theorem countedReceive_answers {s : State} (hf : Filling s.cfg s.mq) (hl : s.cfg.profile.lenW = true)
    (hv : s.mq.qValid = false) (h0 : s.mq.qCnt = 0) : ∃ t, countedReceive s = .ok t ∧ Received s t := by
  have hrx : receiveFlag flagRxError := Or.inl rfl
  unfold countedReceive
  split
  · rename_i s1 h
    have hc := huntStart_cases (supply s) s
    rw [h] at hc
    obtain ⟨h1, -⟩ | ⟨-, u, hu, rfl⟩ := hc
    · simp at h1
    · obtain ⟨hcfg, -, -, -, -, hmq, -⟩ := hu.fields
      have hfu : Filling u.cfg u.mq := by rw [hcfg, hmq]; exact hf
      refine ⟨_, rfl, Or.inl (hu.receives.trans_nil (raiseQ_receives _ _)), (hfu.raise hrx).invalid (by simp [hmq, hv]),
        ?_, fun _ => ⟨u.mq.qStatus, by simp⟩, fun h => ?_⟩
      · rw [← hmq]
        simpa using Raised.raise _ hrx
      · simp at h
        exact absurd h (raiseFlag_ne_zero hrx)
  · rename_i s1 h
    have hc := huntStart_cases (supply s) s
    rw [h] at hc
    obtain ⟨-, hu⟩ | ⟨h1, -⟩ := hc
    · simp only at hu
      obtain ⟨hcfg, -, -, -, -, hmq, -⟩ := hu.fields
      have hfu : Filling s1.cfg s1.mq := by rw [hcfg, hmq]; exact hf
      have hle := hdrLen_le_bufCap s1.cfg
      obtain ⟨b, t, ht, hr, hft, hvt, -, htr, hfa⟩ := headerLoop_answers s1.cfg.hdrLen hfu (by rw [hmq, h0]; omega)
      simp only [ht]
      cases b with
      | false =>
        have hs := hfa rfl
        refine ⟨t, rfl, Or.inl (hu.receives.trans_nil hr), hft.invalid (by rw [hvt, hmq, hv]), ?_,
          fun _ => ⟨_, hs⟩, fun hz => ?_⟩
        · rw [← hmq, hs]
          exact Raised.raise _ hrx
        · rw [hs] at hz
          exact absurd hz (raiseFlag_ne_zero hrx)
      | true =>
        obtain ⟨hcnt, hst⟩ := htr rfl
        rw [hmq, h0, Nat.zero_add] at hcnt
        have hcfgt : t.cfg = s1.cfg := hr.fields.1
        have hw : Written t.mq.qbuf t.cfg.hdrLen := by rw [hcfgt, ← hcnt]; exact hft.written
        simp only [decodeQHdr_of_written hw]
        have hi3 : ResultInv t.cfg { t.mq with
            qHdr := unpackHeader t.cfg (memBytes t.mq.qbuf 0 t.cfg.hdrLen), qValid := true } := {
          cntLe := hft.cntLe, status := hft.status, bufferWf := hft.bufferWf, written := hft.written
          validCount := fun _ => by rw [hcfgt]; exact le_of_eq hcnt.symm
          header := fun _ => rfl }
        have hr3 : Receives [] t { t with mq := { t.mq with
            qHdr := unpackHeader t.cfg (memBytes t.mq.qbuf 0 t.cfg.hdrLen), qValid := true } } := by simp [Receives]
        obtain ⟨v, hv1, hr4, hi4, hv4, hs4, hz⟩ :=
          countedBody_answers (s := { t with mq := { t.mq with
            qHdr := unpackHeader t.cfg (memBytes t.mq.qbuf 0 t.cfg.hdrLen), qValid := true } }) hi3
            (by simp only [hcfgt, hcfg]; exact hl) rfl
        refine ⟨v, hv1, Or.inr (hu.receives.trans_nil (hr.trans_nil (hr3.trans_nil hr4))), hi4, ?_, by simp [hv4],
          fun h => ⟨hv4, hz h⟩⟩
        simp only at hs4
        rw [hst, hmq] at hs4
        exact hs4
    · simp at h1

/-! DelimitedReceive. -/

/-- What the local receiver of DelimitedReceive holds between bytes. -/
structure LocalInv (cfg : Config) (r : Receiver) : Prop where
  inv : ReceiverInv cfg r
  reads : pollsLine r.epState = true
  status : r.epStatus = 0x00
  notSet : r.epState = .idle ∨ r.epState = .receivingHeader → r.hdrSet = false

/-- What it holds when a byte has ended the frame. -/
structure LocalEnd (cfg : Config) (e : Event) (r : Receiver) : Prop where
  inv : ReceiverInv cfg r
  hdrSet : r.hdrSet = true
  count : cfg.hdrLen ≤ r.rxCnt
  header : r.hdr = unpackHeader cfg (memBytes r.rxbuf 0 cfg.hdrLen)
  status : (e = .msgReady ∧ r.epStatus = 0x00 ∧ cfg.hdrLen + cfg.ckW ≤ r.rxCnt ∧
      cfg.fold cfg.ckSeed (coveredBytes cfg r) = 0) ∨
    (e = .corrupted ∧ r.epStatus = flagCrcFailed) ∨ (e = .overflow ∧ r.epStatus = flagBufferExhausted)

/-- One byte at the local receiver (R234, R162 to R172). -/
theorem receiveByte_local {cfg : Config} {r : Receiver} (b : Byte) (hok : cfg.ok = true) (hi : LocalInv cfg r) :
    ∃ e r', receiveByte cfg b r = .ok (e, r') ∧ (endsValidate e = false → LocalInv cfg r') ∧
      (endsValidate e = true → LocalEnd cfg e r') := by
  cases hst : r.epState with
  | idle =>
    rw [receiveByte_idle b hst]
    split
    · exact ⟨_, _, rfl, fun _ => ⟨ruleIdleStart_inv hok hi.inv, rfl, rfl, fun _ => hi.notSet (Or.inl hst)⟩, by simp [endsValidate]⟩
    · exact ⟨_, _, rfl, fun _ => hi, by simp [endsValidate]⟩
  | receivingHeader =>
    have hlt := hi.inv.inHeader hst
    rw [receiveByte_header b hst]
    split
    · obtain ⟨h1, h2⟩ := ruleHeaderNotLast_inv b hi.inv hst ‹_›
      exact ⟨_, _, h1, fun _ => ⟨h2, hi.reads, hi.status, hi.notSet⟩, by simp [endsValidate]⟩
    · split
      · obtain ⟨h1, h2⟩ := ruleHeaderLastOk_inv b hi.inv hst (by omega)
        exact ⟨_, _, h1, fun _ => ⟨h2, rfl, hi.status, by simp⟩, by simp [endsValidate]⟩
      · obtain ⟨h1, h2⟩ := ruleHeaderLastOversize_inv b hi.inv (show r.rxCnt + 1 = cfg.hdrLen by omega)
        refine ⟨_, _, h1, by simp [endsValidate], fun _ => ⟨h2, rfl, ?_, rfl, Or.inr (Or.inr ⟨rfl, ?_⟩)⟩⟩
        · simp only
          omega
        · simp [raiseFlag, hi.status]
  | receivingBody =>
    have hin := hi.inv.inBody hst
    have hset := hi.inv.headerSet (Or.inl hst)
    have hhdr := hi.inv.header (Or.inl hst)
    rw [receiveByte_body b hst]
    split
    · split
      · rename_i hfv
        have hinv := ruleBodyEndValid_inv hi.inv hst hfv
        simp only [frameValid, Bool.and_eq_true, decide_eq_true_eq] at hfv
        refine ⟨_, _, rfl, by simp [endsValidate], fun _ => ⟨hinv, hset, hin, hhdr,
          Or.inl ⟨rfl, hi.status, hfv.1, ?_⟩⟩⟩
        have := hi.inv.checksum (Or.inr hst)
        rw [hfv.2] at this
        exact this.symm
      · exact ⟨_, _, rfl, by simp [endsValidate], fun _ => ⟨discard_inv hi.inv (Or.inl rfl), hset, hin, hhdr,
          Or.inr (Or.inl ⟨rfl, by simp [raiseFlag, hi.status]⟩)⟩⟩
    · split
      · obtain ⟨h1, h2⟩ := ruleBodyRoom_inv b hi.inv hst ‹_›
        exact ⟨_, _, h1, fun _ => ⟨h2, hi.reads, hi.status, by simp [hst]⟩, by simp [endsValidate]⟩
      · exact ⟨_, _, rfl, by simp [endsValidate], fun _ => ⟨discard_inv hi.inv (Or.inr rfl), hset, hin, hhdr,
          Or.inr (Or.inr ⟨rfl, by simp [raiseFlag, hi.status]⟩)⟩⟩
  | busy => exact absurd hi.reads (by simp [pollsLine, hst])
  | transmitting => exact absurd hi.reads (by simp [pollsLine, hst])
  | error => exact absurd hi.reads (by simp [pollsLine, hst])

theorem putLocal_receives (r : Receiver) (s : State) : Receives [] s (putLocal r s) := by simp [Receives, putLocal]

/-- The master's registers once the local receiver's are put back (R234). -/
theorem putLocal_filling {s : State} {r : Receiver} (hi : ReceiverInv s.cfg r)
    (hst : statusLegal (raiseFlag s.mq.qStatus r.epStatus) = true) :
    Filling (putLocal r s).cfg (putLocal r s).mq where
  cntLe := hi.cntLe
  bufferWf := hi.bufferWf
  written := hi.written
  status := hst

/-- The local receiver's registers are result registers when the receive stops between bytes. -/
theorem putLocal_result {s : State} {r : Receiver} (hi : LocalInv s.cfg r) (hs : statusLegal s.mq.qStatus = true) :
    ResultInv (putLocal r s).cfg (putLocal r s).mq := by
  have hf := putLocal_filling hi.inv (by simpa [raiseFlag, hi.status] using hs)
  have hbody : r.hdrSet = true → r.epState = .receivingBody := by
    intro h
    have h1 := hi.reads
    have h2 := hi.notSet
    cases hst : r.epState <;> simp_all [pollsLine]
  exact {
    cntLe := hf.cntLe, status := hf.status, bufferWf := hf.bufferWf, written := hf.written
    validCount := fun h => hi.inv.inBody (hbody h)
    header := fun h => hi.inv.header (Or.inl (hbody h)) }

/-- The end of the frame leaves a verified frame or a flag (R234). -/
theorem putLocal_ended {s : State} {r : Receiver} {e : Event} (h : LocalEnd s.cfg e r)
    (hl : s.cfg.profile.lenW = false) (hs : statusLegal s.mq.qStatus = true) :
    ResultInv (putLocal r s).cfg (putLocal r s).mq ∧ (putLocal r s).mq.qValid = true ∧
    Raised s.mq.qStatus (putLocal r s).mq.qStatus ∧
    ((putLocal r s).mq.qStatus = 0 → Verified (putLocal r s).cfg (putLocal r s).mq) := by
  have hcrc : receiveFlag flagCrcFailed := Or.inr (Or.inl rfl)
  have hbuf : receiveFlag flagBufferExhausted := Or.inr (Or.inr rfl)
  have hraise : statusLegal (raiseFlag s.mq.qStatus r.epStatus) = true := by
    rcases h.status with ⟨-, h1, -⟩ | ⟨-, h1⟩ | ⟨-, h1⟩ <;> rw [h1]
    · exact raise_legal hs (Or.inl rfl)
    · exact raise_legal hs (by tauto)
    · exact raise_legal hs (by tauto)
  have hf := putLocal_filling h.inv hraise
  refine ⟨⟨hf.cntLe, hf.status, hf.bufferWf, hf.written, fun _ => h.count, fun _ => h.header⟩, h.hdrSet, ?_, ?_⟩
  · show Raised s.mq.qStatus (raiseFlag s.mq.qStatus r.epStatus)
    rcases h.status with ⟨-, h1, -⟩ | ⟨-, h1⟩ | ⟨-, h1⟩ <;> rw [h1]
    · exact ⟨0, rfl, by decide⟩
    · exact .raise _ hcrc
    · exact .raise _ hbuf
  · intro hz
    have hz' : raiseFlag s.mq.qStatus r.epStatus = 0 := hz
    rcases h.status with ⟨-, -, hc, hk⟩ | ⟨-, h1⟩ | ⟨-, h1⟩
    · have hc' : s.cfg.hdrLen + s.cfg.ckW ≤ r.rxCnt := hc
      refine ⟨hc, _, _, _, memBytes_split (h := s.cfg.hdrLen) (k := s.cfg.ckW) hc, by simp [putLocal], rfl, by simp [putLocal], ?_⟩
      simp only [putLocal, hl, Bool.false_eq_true, if_false]
      cases hcov : s.cfg.profile.cover <;> simp only [coveredBytes, hcov] at hk <;>
        simp only [Config.frameCk, Config.coverOf, hcov]
      · rw [← Config.fold_append, ← memBytes_split hc]
        exact hk
      · have h1 := memBytes_append r.rxbuf s.cfg.hdrLen (r.rxCnt - s.cfg.ckW - s.cfg.hdrLen) s.cfg.ckW
        rw [show r.rxCnt - s.cfg.ckW - s.cfg.hdrLen + s.cfg.ckW = r.rxCnt - s.cfg.hdrLen by omega,
          show s.cfg.hdrLen + (r.rxCnt - s.cfg.ckW - s.cfg.hdrLen) = r.rxCnt - s.cfg.ckW by omega] at h1
        rw [← Config.fold_append, ← h1]
        exact hk
    · rw [h1] at hz'
      exact absurd hz' (raiseFlag_ne_zero hcrc)
    · rw [h1] at hz'
      exact absurd hz' (raiseFlag_ne_zero hbuf)

/-- DelimitedReceive stops without a frame: RX_ERROR (R234). -/
theorem delimited_short {s u : State} {r : Receiver} (hu : OnlyLine s u) (hi : LocalInv s.cfg r)
    (hs : statusLegal s.mq.qStatus = true) : Received s (raiseQ flagRxError (putLocal r u)) := by
  have hrx : receiveFlag flagRxError := Or.inl rfl
  obtain ⟨hcfg, -, -, -, -, hmq, -⟩ := hu.fields
  have hres := putLocal_result (s := u) (r := r) (by rw [hcfg]; exact hi) (by rw [hmq]; exact hs)
  refine ⟨Or.inl (hu.receives.trans_nil ((putLocal_receives r u).trans_nil (raiseQ_receives _ _))),
    hres.raise (by tauto), ?_, fun _ => ⟨(putLocal r u).mq.qStatus, by simp⟩, fun h => ?_⟩
  · have h1 : Raised s.mq.qStatus (putLocal r u).mq.qStatus := ⟨r.epStatus, by simp [putLocal, hmq, raiseFlag], by
      rw [hi.status]; decide⟩
    exact h1.trans (by simpa using Raised.raise _ hrx)
  · simp at h
    exact absurd h (raiseFlag_ne_zero hrx)

/-- DelimitedReceive answers (R234). -/
theorem delimitedLoop_answers (n : Nat) {s : State} {r : Receiver} (hok : s.cfg.ok = true)
    (hl : s.cfg.profile.lenW = false) (hi : LocalInv s.cfg r) (hs : statusLegal s.mq.qStatus = true) :
    ∃ t, delimitedLoop n r s = .ok t ∧ Received s t := by
  induction n generalizing s r with
  | zero => exact ⟨_, rfl, delimited_short (getByte_onlyLine s) hi hs⟩
  | succ n ih =>
    have hg := getByte_onlyLine s
    unfold delimitedLoop
    split
    · rename_i s1 h
      rw [h] at hg
      exact ⟨_, rfl, delimited_short hg hi hs⟩
    · rename_i b s1 h
      rw [h] at hg
      simp only at hg
      obtain ⟨hcfg, -, -, -, -, hmq, -⟩ := hg.fields
      obtain ⟨e, r1, hrb, hgo, hend⟩ := receiveByte_local (cfg := s1.cfg) b (by rw [hcfg]; exact hok) (by rw [hcfg]; exact hi)
      simp only [hrb]
      split
      · rename_i he
        obtain ⟨hres, hval, hra, hz⟩ := putLocal_ended (s := s1) (hend he) (by rw [hcfg]; exact hl) (by rw [hmq]; exact hs)
        have hp := hg.receives.trans_nil (putLocal_receives r1 s1)
        have hm : ∀ x : State, (setMState .processing x).mq = { x.mq with mState := .processing } := fun _ => rfl
        have hresP : ResultInv (setMState .processing (putLocal r1 s1)).cfg (setMState .processing (putLocal r1 s1)).mq := by
          simpa using ⟨hres.cntLe, hres.status, hres.bufferWf, hres.written, hres.validCount, hres.header⟩
        rw [hmq] at hra
        have hpr : Received s (setMState .processing (putLocal r1 s1)) :=
          ⟨Or.inr (hp.trans_nil (setMState_receives _ _)), hresP, hra,
            (fun hn => by rw [hm] at hn; simp only at hn; rw [hval] at hn; cases hn), fun h0 => ⟨hval, hz h0⟩⟩
        refine ⟨_, rfl, ?_⟩
        rcases (hend he).status with ⟨rfl, -⟩ | ⟨rfl, -⟩ | ⟨rfl, -⟩
        · exact hpr
        · exact hpr
        · exact ⟨Or.inl hp, hres, hra, (fun hn => by simp only [afterEvent] at hn; rw [hval] at hn; cases hn), fun h0 => ⟨hval, hz h0⟩⟩
      · rename_i he
        obtain ⟨t, ht, hrec⟩ := ih (s := s1) (r := r1) (by rw [hcfg]; exact hok) (by rw [hcfg]; exact hl)
          (hgo (by simpa using he)) (by rw [hmq]; exact hs)
        refine ⟨t, ht, ?_, hrec.inv, by rw [← hmq]; exact hrec.raised, hrec.noContent, hrec.success⟩
        rcases hrec.path with h | h
        · exact Or.inl (hg.receives.trans_nil h)
        · exact Or.inr (hg.receives.trans_nil h)

/-- The local receiver starts as an idle receiver (R234). -/
theorem localReceiver_inv {s : State} (hok : s.cfg.ok = true) (hf : Filling s.cfg s.mq) : LocalInv s.cfg (localReceiver s) where
  inv := {
    notTransmitting := by simp [localReceiver]
    cntLe := hf.cntLe
    inHeader := by simp [localReceiver]
    inBody := by simp [localReceiver]
    checksum := by simp [localReceiver, inFrame]
    busyChecksum := by simp [localReceiver]
    busyStatus := by simp [localReceiver]
    busyCount := by simp [localReceiver]
    frameStatus := by simp [localReceiver]
    status := by show statusLegal 0x00 = true; decide
    bufferWf := hf.bufferWf
    written := hf.written
    header := by simp [localReceiver]
    headerSet := by simp [localReceiver]
    fits := ok_seed hok }
  reads := rfl
  status := rfl
  notSet := fun _ => rfl

/-- The receive procedure of either profile answers (R223). -/
theorem receiveResponse_answers {s : State} (hok : s.cfg.ok = true) (hf : Filling s.cfg s.mq)
    (hv : s.mq.qValid = false) (h0 : s.mq.qCnt = 0) : ∃ t, receiveResponse s = .ok t ∧ Received s t := by
  unfold receiveResponse
  cases hl : s.cfg.profile.lenW with
  | true => exact countedReceive_answers hf hl hv h0
  | false => exact delimitedLoop_answers _ hok hl (localReceiver_inv hok hf) hf.status

/-- What AwaitResponse leaves: nothing came and TIMEOUT is up, or a response was received (R223). -/
structure Awaited (s t : State) : Prop where
  /-- The frame, and R235's states. -/
  frame : ∃ ms, ms ∈ [[.awaitingResponse, .idle], [.awaitingResponse, .receiving, .idle],
      [MState.awaitingResponse, .receiving, .processing, .idle]] ∧
    t = { s with
      mq := t.mq, t0 := t.t0, freeCount := s.freeCount + 1
      line := { s.line with
        waiting := t.line.waiting, now := t.line.now, looks := t.line.looks
        trace := s.line.trace ++ ms.map LineOp.masterState } }
  idle : t.mq.mState = .idle
  inv : ResultInv t.cfg t.mq
  outcome : (t.mq.qStatus = raiseFlag s.mq.qStatus flagTimeout ∧ t.mq.qValid = false ∧ t.mq.qCnt = 0 ∧
      t.mq.qbuf = s.mq.qbuf) ∨
    (Raised s.mq.qStatus t.mq.qStatus ∧ (t.mq.qValid = false → ∃ f, t.mq.qStatus = raiseFlag f flagRxError) ∧
      (t.mq.qStatus = 0 → t.mq.qValid = true ∧ Verified t.cfg t.mq))

theorem Awaited.fields {s t : State} (h : Awaited s t) :
    t.cfg = s.cfg ∧ t.dir = s.dir ∧ t.ck = s.ck ∧ t.rx = s.rx ∧ t.result = s.result ∧ t.port = s.port ∧
    t.line.accepts = s.line.accepts := by
  obtain ⟨ms, -, h⟩ := h.frame
  rw [h]
  simp

/-- Going back to Idle keeps the results (R223). -/
theorem toIdle_result {s : State} (h : ResultInv s.cfg s.mq) :
    ResultInv (endWait (setMState .idle s)).cfg (endWait (setMState .idle s)).mq := by
  simpa using ⟨h.cntLe, h.status, h.bufferWf, h.written, h.validCount, h.header⟩

/-- AwaitResponse answers, whatever the environment does (R223, R236). -/
theorem awaitResponse_answers {s : State} (hok : s.cfg.ok = true) (hf : Filling s.cfg s.mq)
    (hv : s.mq.qValid = false) (h0 : s.mq.qCnt = 0) : ∃ t, awaitResponse s = .ok t ∧ Awaited s t := by
  unfold awaitResponse
  simp only
  have hl := awaitLoop_onlyLine (startWait (setMState .awaitingResponse s)).cfg.queryTimeout
    (startWait (setMState .awaitingResponse s)).line.looks.length (startWait (setMState .awaitingResponse s))
  split
  · rename_i s2 h
    rw [h] at hl
    simp only at hl
    have hmq : s2.mq = { s.mq with mState := .awaitingResponse } := hl.fields.2.2.2.2.2.1
    refine ⟨_, rfl, ⟨[.awaitingResponse, .idle], by simp, ?_⟩, rfl, ?_, Or.inl ?_⟩
    · unfold OnlyLine at hl
      rw [hl]
      simp [startWait, setMState, record, raiseQ, endWait]
    · have hcfg : s2.cfg = s.cfg := hl.fields.1
      refine toIdle_result ((Filling.invalid (q := s2.mq) ?_ ?_).raise (by tauto))
      · rw [hcfg, hmq]
        exact ⟨hf.cntLe, hf.bufferWf, hf.written, hf.status⟩
      · rw [hmq]
        exact hv
    · simp [endWait, setMState, record, raiseQ, hmq, hv, h0]
  · rename_i s2 h
    rw [h] at hl
    simp only at hl
    have hmq : s2.mq = { s.mq with mState := .awaitingResponse } := hl.fields.2.2.2.2.2.1
    have hcfg : s2.cfg = s.cfg := hl.fields.1
    have hmr : (setMState .receiving s2).mq = { s.mq with mState := .receiving } := by
      show ({ s2.mq with mState := .receiving } : Master) = _
      rw [hmq]
    obtain ⟨t, ht, hrec⟩ := receiveResponse_answers (s := setMState .receiving s2) (by simpa [hcfg] using hok)
      (by rw [hmr]; simp only [setMState_cfg, hcfg]; exact ⟨hf.cntLe, hf.bufferWf, hf.written, hf.status⟩)
      (by rw [hmr]; exact hv) (by rw [hmr]; exact h0)
    simp only [ht]
    have hraise : Raised s.mq.qStatus t.mq.qStatus := by
      have := hrec.raised
      rwa [hmr] at this
    refine ⟨_, rfl, ?_, rfl, toIdle_result hrec.inv, Or.inr ⟨by simpa using hraise, by simpa using hrec.noContent, ?_⟩⟩
    · rcases hrec.path with hp | hp
      · refine ⟨[.awaitingResponse, .receiving, .idle], by simp, ?_⟩
        unfold OnlyLine at hl
        unfold Receives at hp
        rw [hp, hl]
        simp [startWait, setMState, record, endWait]
      · refine ⟨[.awaitingResponse, .receiving, .processing, .idle], by simp, ?_⟩
        unfold OnlyLine at hl
        unfold Receives at hp
        rw [hp, hl]
        simp [startWait, setMState, record, endWait]
    · intro hz
      obtain ⟨h1, h2⟩ := hrec.success (by simpa using hz)
      exact ⟨h1, h2⟩

/-- Returning the result only sets it (R233). -/
theorem returnQuery_of_inv {s : State} (h : ResultInv s.cfg s.mq) :
    returnQuery s = .ok (setResult
      (.query s.mq.qStatus (if s.mq.qValid then some (s.mq.qHdr, memBytes s.mq.qbuf 0 s.mq.qCnt) else none)) s) := by
  unfold returnQuery
  have hc := h.cntLe
  cases hv : s.mq.qValid with
  | false => simp
  | true =>
    simp [memRead_written (cap := s.cfg.bufCap) h.written (show 0 + s.mq.qCnt ≤ s.mq.qCnt by omega)
      (by omega)]

/-- A query's wait answers and returns what it left (R222, R223, R233). -/
theorem awaitAndReturn_answers {s : State} (hok : s.cfg.ok = true) (hf : Filling s.cfg s.mq)
    (hv : s.mq.qValid = false) (h0 : s.mq.qCnt = 0) :
    ∃ t, Awaited s t ∧ awaitAndReturn s = .ok (setResult
      (.query t.mq.qStatus (if t.mq.qValid then some (t.mq.qHdr, memBytes t.mq.qbuf 0 t.mq.qCnt) else none)) t) := by
  obtain ⟨t, ht, hw⟩ := awaitResponse_answers hok hf hv h0
  refine ⟨t, hw, ?_⟩
  unfold awaitAndReturn
  simp only [ht]
  exact returnQuery_of_inv hw.inv

end Sys2Proof.Machine
end

