-- ==== Sys2Proof/Laws/Effect.lean ====
section
/-!
SUPPORT. What an instruction can do, said once: the rows of EP.POLL are one command, and every next state `exec` answers
has one of the shapes of `Effect`.
-/

namespace Sys2Proof.Machine

/-! The rows of EP.POLL (R160). -/

theorem lineRead_look_rx {s u : State} {b : Byte} (h : lineRead (look s) = some (b, u)) : u.rx = s.rx ∧ u.cfg = s.cfg := by
  have hf := ((look_onlyLine s).trans (lineRead_onlyLine h)).fields
  exact ⟨hf.2.2.2.2.1, hf.1⟩

/-- A row's own rules give what the dispatch of R160 gives, where R160 selects the row's case. -/
theorem pollWith_own {c : PollCase} {own : Byte → Receiver → RxOut} {s : State} (hp : pollsLine s.rx.epState = true)
    (hc : pollCase s = c)
    (hown : ∀ b, selectCase s.cfg s.rx (some b) = c → own b s.rx = receiveByte s.cfg b s.rx) :
    pollWith own s = poll s := by
  unfold poll
  rw [if_pos hp]
  unfold pollWith
  split
  · rfl
  · rename_i b u h
    rw [(lineRead_look_rx h).1]
    congr 1
    refine hown b ?_
    rw [← hc, pollCase, pollByte, if_pos hp, h]
    rfl

/-- In a state that reads no byte R160 selects `ignored` only; a case of a byte or of no byte means the line is polled. -/
theorem pollsLine_of_case {s : State} (h : pollCase s ≠ .ignored) : pollsLine s.rx.epState = true := by
  cases hst : s.rx.epState <;> first | rfl | (exfalso; apply h; simp [pollCase, selectCase, hst])

theorem pollCase_ignored {s : State} (h : pollCase s = .ignored) : pollsLine s.rx.epState = false := by
  cases hp : pollsLine s.rx.epState with
  | false => rfl
  | true =>
    exfalso
    revert h
    unfold pollCase
    cases hst : s.rx.epState <;> simp [hst, pollsLine] at hp <;> unfold selectCase <;> rw [hst] <;> split <;>
      (try split) <;> (try split) <;> simp_all

/-- Every row of EP.POLL is R160's dispatch on an endpoint, and refused on a master (log 13). -/
theorem pollAs_eq {c : PollCase} {own : State → Except Fault State} {s : State}
    (h : pollCase s = c → own s = poll s) :
    pollAs c own s = forRole .endpoint s (finish (poll s)) := by
  unfold pollAs
  split
  · rename_i hc
    rw [h hc]
  · rfl

theorem exec_poll (s : State) {i : Instr} (h : opcodeByte i = 0x0A) :
    exec i s = forRole .endpoint s (finish (poll s)) := by
  have key : ∀ {c : PollCase} {own : Byte → Receiver → RxOut}, c ≠ .ignored →
      (∀ b, selectCase s.cfg s.rx (some b) = c → own b s.rx = receiveByte s.cfg b s.rx) →
      pollAs c (pollWith own) s = forRole .endpoint s (finish (poll s)) := fun {c own} hne ho =>
    pollAs_eq fun hc => pollWith_own (pollsLine_of_case (by rw [hc]; exact hne)) hc ho
  cases i <;> first
    | (exfalso; revert h; simp [opcodeByte]; done)
    | exact key (by simp) (fun b hb => by simp [receiveByte, hb])
    | exact pollAs_eq fun hc => by simp [poll, pollCase_ignored hc]

/-- What an instruction can do. -/
inductive Effect (s : State) : Instr → State → Prop where
  /-- A command that only returns something, a refused one among them (R105). -/
  | answered (i : Instr) (r : Result) : Effect s i (setResult r s)
  /-- The checksum unit and ENCODE (R127 to R129, R143). -/
  | checksum (i : Instr) (c : Ck) (r : Result)
      (hi : i = .ckInit ∨ (∃ b, i = .ckUpdate b) ∨ (∃ x y z, i = .ckBlock x y z) ∨ (∃ x y, i = .encode x y))
      (hf : s.cfg.ckFits s.cfg.ckSeed = true → s.cfg.ckFits c = true) (hr : r ≠ .refused) :
      Effect s i (setResult r { s with ck := c })
  /-- EP.POLL (R160). -/
  | polled (i : Instr) (t : State) (hi : opcodeByte i = 0x0A) (hr : s.cfg.role = .endpoint) (h : poll s = .ok t) :
      Effect s i t
  /-- EP.LISTEN (R175). -/
  | listened (t : State) (hr : s.cfg.role = .endpoint) (h : listen s = .ok t) : Effect s .epListen t
  /-- Bytes arrive at an endpoint and are polled (R101, R108). -/
  | arrived (i : Instr) (bytes : List Byte) (n : Nat) (t : State) (hi : isArrival i = true)
      (hr : s.cfg.role = .endpoint) (h : poll (arrive bytes s) = .ok t ∨ pollStar n (arrive bytes s) = .ok t) :
      Effect s i t
  /-- Bytes arrive at a master and wait (R300). -/
  | queued (i : Instr) (bytes : List Byte) (hi : isArrival i = true) (hr : s.cfg.role = .master) :
      Effect s i (setResult .nothing (arrive bytes s))
  /-- EP.DONE (R176). -/
  | done (hr : s.cfg.role = .endpoint) (hb : s.rx.epState = .busy) :
      Effect s .epDone (setResult .nothing { s with rx := { s.rx with epState := .idle } })
  /-- EP.FAULT (R178). -/
  | faulted (hr : s.cfg.role = .endpoint) :
      Effect s .epFault (setResult .nothing { s with rx := { s.rx with epState := .error } })
  /-- EP.RESET (R179). -/
  | wasReset (hr : s.cfg.role = .endpoint) :
      Effect s .epReset (setResult .nothing (setDir .rx
        { s with rx := { Receiver.reset s.cfg with hdr := freeHeader s }, freeCount := s.freeCount + s.cfg.hdrLen }))
  /-- EP.REPLY of a frame (R177). -/
  | replied (fields body : List Byte) (pause : Bool) (hr : s.cfg.role = .endpoint) (hb : s.rx.epState = .busy) :
      Effect s (.epReply fields body pause) (replyFrame fields body pause s)
  /-- DIR.TX, DIR.RX (R200, R201). -/
  | directedTx : Effect s .dirTx (setResult .nothing (setDir .tx s))
  | directedRx : Effect s .dirRx (setResult .nothing (setDir .rx s))
  /-- SEND (R202). -/
  | sent (bytes : List Byte) (pause : Bool) :
      Effect s (.send bytes pause)
        (setResult (.sent (sendBytes bytes pause s).1 (sendBytes bytes pause s).2.1) (sendBytes bytes pause s).2.2)
  /-- M.BEGIN (R220). -/
  | begun (rate : BitVec 32) (hr : s.cfg.role = .master) :
      Effect s (.mBegin rate) (setResult .nothing (setMState .idle (clearQ (setDir .rx (lineBegin rate s)))))
  /-- M.RAWSEND (R221). -/
  | rawSent (bytes : List Byte) (pause : Bool) (hr : s.cfg.role = .master) (hm : s.mq.mState = .idle) :
      Effect s (.mRawSend bytes pause)
        (setResult (.count (rawSend bytes pause s).1) (setMState .idle (rawSend bytes pause s).2))
  /-- M.RAWQUERY (R222). -/
  | rawQueried (bytes : List Byte) (pause : Bool) (t : State) (hr : s.cfg.role = .master) (hm : s.mq.mState = .idle)
      (h : awaitAndReturn (rawSend bytes pause s).2 = .ok t) : Effect s (.mRawQuery bytes pause) t
  /-- M.QUERY that sends nothing (R232). -/
  | notSent (ready : Bool) (fields body : List Byte) (pause : Bool) (f : Byte) (hr : s.cfg.role = .master)
      (hm : s.mq.mState = .idle) (hf : f = flagTxError ∨ f = flagBufferExhausted) :
      Effect s (.mQuery ready fields body pause) (setResult (.query f none) (raiseQ f (setDir .rx (clearQ s))))
  /-- M.QUERY (R232). -/
  | queried (fields body : List Byte) (pause : Bool) (t : State) (hr : s.cfg.role = .master) (hm : s.mq.mState = .idle)
      (h : awaitAndReturn (querySend fields body pause (clearQ s)) = .ok t) :
      Effect s (.mQuery true fields body pause) t

theorem finish_next {x : Except Fault State} {t : State} (h : finish x = .next t) : x = .ok t := by
  cases x with
  | ok u => simp [finish] at h; rw [h]
  | error f => simp [finish] at h

theorem refuse_next {s t : State} (h : refuseCommand s = .next t) : t = setResult .refused s := by
  simp only [refuseCommand, Host.Outcome.next.injEq] at h
  exact h.symm

/-- A command of one role answers its own meaning or `Refused`. -/
theorem forRole_next {r : Role} {s t : State} {x : Out} (h : forRole r s x = .next t) :
    (s.cfg.role = r ∧ x = .next t) ∨ t = setResult .refused s := by
  unfold forRole at h
  split at h
  · exact Or.inl ⟨‹_›, h⟩
  · exact Or.inr (refuse_next h)

theorem withOperands_next {b : Bool} {m : String} {t : State} {x : Out} (h : withOperands b m x = .next t) :
    b = true ∧ x = .next t := by
  unfold withOperands at h
  split at h
  · exact ⟨‹_›, h⟩
  · cases h

theorem arriveByte_effect {s t : State} {i : Instr} {b : Byte} (hi : isArrival i = true)
    (h : arriveByte b s = .next t) : Effect s i t := by
  unfold arriveByte at h
  split at h
  · rename_i hr
    exact .arrived i [b] 0 t hi hr (Or.inl (finish_next h))
  · rename_i hr
    simp only [Host.Outcome.next.injEq] at h
    exact h ▸ .queued i [b] hi hr

theorem arriveFrame_effect {s t : State} {i : Instr} {bytes : List Byte} (hi : isArrival i = true)
    (h : arriveFrame bytes s = .next t) : Effect s i t := by
  unfold arriveFrame at h
  split at h
  · rename_i hr
    exact .arrived i bytes _ t hi hr (Or.inr (finish_next h))
  · rename_i hr
    simp only [Host.Outcome.next.injEq] at h
    exact h ▸ .queued i bytes hi hr

/-- Every next state `exec` answers is one of these effects. -/
theorem exec_effect {i : Instr} {s t : State} (h : exec i s = .next t) : Effect s i t := by
  have hpoll : opcodeByte i = 0x0A → Effect s i t := fun hi => by
    rw [exec_poll s hi] at h
    rcases forRole_next h with ⟨hr, h⟩ | rfl
    · exact .polled i t hi hr (finish_next h)
    · exact .answered i _
  have hplain : ∀ r, exec i s = .next (setResult r s) → Effect s i t := fun r hr => by
    rw [hr] at h
    simp only [Host.Outcome.next.injEq] at h
    exact h ▸ .answered i r
  cases i with
  | nop => exact hplain _ rfl
  | ckInit =>
    simp only [exec, execCkInit, Host.Outcome.next.injEq] at h
    exact h ▸ .checksum _ _ _ (Or.inl rfl) id (by simp)
  | ckUpdate b =>
    simp only [exec, execCkUpdate, Host.Outcome.next.injEq] at h
    exact h ▸ .checksum _ _ _ (Or.inr (Or.inl ⟨b, rfl⟩)) (fun _ => s.cfg.upd_fits _ b) (by simp)
  | ckBlock x y z =>
    obtain ⟨hf, h⟩ := withOperands_next h
    simp only [Host.Outcome.next.injEq] at h
    simp only [Config.blockFits, Bool.and_eq_true] at hf
    exact h ▸ .checksum _ _ _ (Or.inr (Or.inr (Or.inl ⟨x, y, z, rfl⟩))) (fun _ => s.cfg.fold_fits _ hf.2) (by simp)
  | ckEmit => exact hplain _ rfl
  | ckCheck => exact hplain _ rfl
  | hdrPack x y =>
    obtain ⟨-, h⟩ := withOperands_next h
    simp only [Host.Outcome.next.injEq] at h
    exact h ▸ .answered _ _
  | hdrUnpack x =>
    obtain ⟨-, h⟩ := withOperands_next h
    simp only [Host.Outcome.next.injEq] at h
    exact h ▸ .answered _ _
  | encode x y =>
    obtain ⟨-, h⟩ := withOperands_next h
    split at h
    · simp only [Host.Outcome.next.injEq] at h
      exact h ▸ .checksum _ _ _ (Or.inr (Or.inr (Or.inr ⟨x, y, rfl⟩))) (fun hs => s.cfg.fold_fits _ hs) (by simp)
    · simp only [Host.Outcome.next.injEq] at h
      exact h ▸ .answered _ _
  | validate x =>
    have h' := finish_next h
    split at h'
    · exact (Except.ok.inj h') ▸ .answered _ _
    · cases h'
  | epListen =>
    rcases forRole_next h with ⟨hr, h⟩ | rfl
    · exact .listened t hr (finish_next h)
    · exact .answered _ _
  | epDone =>
    rcases forRole_next h with ⟨hr, h⟩ | rfl
    · split at h
      · rename_i hb
        simp only [Host.Outcome.next.injEq] at h
        exact h ▸ .done hr hb
      · exact refuse_next h ▸ .answered _ _
    · exact .answered _ _
  | epReply x y z =>
    obtain ⟨-, h⟩ := withOperands_next h
    rcases forRole_next h with ⟨hr, h⟩ | rfl
    · split at h
      · rename_i hb
        split at h
        · simp only [Host.Outcome.next.injEq] at h
          exact h ▸ .replied x y z hr hb
        · simp only [Host.Outcome.next.injEq] at h
          exact h ▸ .answered _ _
      · exact refuse_next h ▸ .answered _ _
    · exact .answered _ _
  | epFault =>
    rcases forRole_next h with ⟨hr, h⟩ | rfl
    · simp only [Host.Outcome.next.injEq] at h
      exact h ▸ .faulted hr
    · exact .answered _ _
  | epReset =>
    rcases forRole_next h with ⟨hr, h⟩ | rfl
    · simp only [Host.Outcome.next.injEq] at h
      exact h ▸ .wasReset hr
    · exact .answered _ _
  | dirTx =>
    simp only [exec, execDirTx, Host.Outcome.next.injEq] at h
    exact h ▸ .directedTx
  | dirRx =>
    simp only [exec, execDirRx, Host.Outcome.next.injEq] at h
    exact h ▸ .directedRx
  | send x y =>
    simp only [exec, execSend, Host.Outcome.next.injEq] at h
    exact h ▸ .sent x y
  | mBegin rate =>
    rcases forRole_next h with ⟨hr, h⟩ | rfl
    · split at h
      · simp only [Host.Outcome.next.injEq] at h
        exact h ▸ .begun rate hr
      · exact refuse_next h ▸ .answered _ _
    · exact .answered _ _
  | mRawSend x y =>
    rcases forRole_next h with ⟨hr, h⟩ | rfl
    · split at h
      · rename_i hm
        simp only [Host.Outcome.next.injEq] at h
        exact h ▸ .rawSent x y hr hm
      · exact refuse_next h ▸ .answered _ _
    · exact .answered _ _
  | mRawQuery x y =>
    rcases forRole_next h with ⟨hr, h⟩ | rfl
    · split at h
      · rename_i hm
        exact .rawQueried x y t hr hm (finish_next h)
      · exact refuse_next h ▸ .answered _ _
    · exact .answered _ _
  | mQuery w x y z =>
    obtain ⟨-, h⟩ := withOperands_next h
    rcases forRole_next h with ⟨hr, h⟩ | rfl
    · split at h
      · rename_i hm
        have h' := finish_next h
        unfold queryRound at h'
        split at h'
        · simp only [turnedAway, returnQuery, raiseQ, setDir, record, clearQ, Bool.false_eq_true, if_false, Except.ok.injEq] at h'
          exact h' ▸ .notSent w x y z flagTxError hr hm (Or.inl rfl)
        · split at h'
          · simp only [turnedAway, returnQuery, raiseQ, setDir, record, clearQ, Bool.false_eq_true, if_false, Except.ok.injEq] at h'
            exact h' ▸ .notSent w x y z flagBufferExhausted hr hm (Or.inr rfl)
          · rename_i hw _
            have hw' : w = true := by simpa using hw
            subst hw'
            exact .queried x y z t hr hm h'
      · exact refuse_next h ▸ .answered _ _
    · exact .answered _ _
  | epPollIdleOther => exact hpoll rfl
  | epPollIdleStart => exact hpoll rfl
  | epPollHeaderNotLast => exact hpoll rfl
  | epPollHeaderLastOk => exact hpoll rfl
  | epPollHeaderLastOversize => exact hpoll rfl
  | epPollReceivingNone => exact hpoll rfl
  | epPollBodyFull => exact hpoll rfl
  | epPollBodyRoom => exact hpoll rfl
  | epPollBodyEndValid => exact hpoll rfl
  | epPollBodyEndInvalid => exact hpoll rfl
  | epPollIgnored => exact hpoll rfl
  | reserved17 => exact hplain _ rfl
  | reserved18 => exact hplain _ rfl
  | reserved19 => exact hplain _ rfl
  | reserved1A => exact hplain _ rfl
  | reserved1B => exact hplain _ rfl
  | reserved1C => exact hplain _ rfl
  | reserved1D => exact hplain _ rfl
  | reserved1E => exact hplain _ rfl
  | reserved1F => exact hplain _ rfl
  | byteStart => exact arriveByte_effect rfl h
  | byteEnd => exact arriveByte_effect rfl h
  | byteData d => exact arriveByte_effect rfl h
  | byteOther d => exact arriveByte_effect rfl h
  | frameA x y z b => exact arriveFrame_effect rfl h
  | frameB x y z b => exact arriveFrame_effect rfl (withOperands_next h).2
  | opcodeInfo => exact arriveByte_effect rfl h

end Sys2Proof.Machine
end

