-- ==== Sys2Proof/Laws/Send.lean ====
section
/-!
SUPPORT. The sending half: what SEND's sequence, EP.REPLY and the writes of M.QUERY leave in each register, the flags
they raise, and that every write in the trace is made with `dir` = TX (spec/43_direction.md R202, R204).
-/

namespace Sys2Proof.Machine

/-- The trace has grown by a stretch in which every write is made with `dir` = TX and which ends in the new `dir`. -/
def Directed (s t : State) : Prop :=
  ∃ ops, t.line.trace = s.line.trace ++ ops ∧ directAll s.dir ops = some t.dir

theorem directAll_append {d e : Dir} {xs ys : List LineOp} (h : directAll d xs = some e) :
    directAll d (xs ++ ys) = directAll e ys := by
  induction xs generalizing d with
  | nil => simp [directAll] at h; rw [← h]; rfl
  | cons x xs ih =>
    simp only [directAll] at h
    split at h
    · rename_i d' hd
      simp only [List.cons_append, directAll, hd]
      exact ih h
    · cases h

theorem Directed.refl (s : State) : Directed s s := ⟨[], by simp, rfl⟩

theorem Directed.trans {s t u : State} (h1 : Directed s t) (h2 : Directed t u) : Directed s u := by
  obtain ⟨xs, hx, hdx⟩ := h1
  obtain ⟨ys, hy, hdy⟩ := h2
  exact ⟨xs ++ ys, by rw [hy, hx, List.append_assoc], by rw [directAll_append hdx, hdy]⟩

/-- A step that leaves trace and direction is directed. -/
theorem Directed.same {s t : State} (h1 : t.line.trace = s.line.trace) (h2 : t.dir = s.dir) : Directed s t :=
  ⟨[], by simp [h1], by simp [directAll, h2]⟩

theorem Directed.setDir (d : Dir) (s : State) : Directed s (setDir d s) := ⟨[.direction d], rfl, rfl⟩

/-- Recording anything but a direction or a write keeps the direction. -/
theorem Directed.record {op : LineOp} (s : State) (h : directOne s.dir op = some s.dir) : Directed s (record op s) :=
  ⟨[op], rfl, by simp [directAll, h]⟩

theorem directAll_masterStates (d : Dir) (ms : List MState) : directAll d (ms.map LineOp.masterState) = some d := by
  induction ms with
  | nil => rfl
  | cons m ms ih => simpa [directAll, directOne] using ih

theorem lineWrite_directed (bytes : List Byte) {s : State} (h : s.dir = .tx) : Directed s (lineWrite bytes s).2 :=
  ⟨[.wrote (bytes.take (acceptedCount s.line.accepts bytes.length))], rfl, by
    show directAll s.dir _ = some s.dir
    rw [h]
    rfl⟩

/-- Two short-write tests raise TX_ERROR when one of them does. -/
theorem shortWriteFlag_or (a b c d : Nat) :
    shortWriteFlag a b ||| shortWriteFlag c d = if a < b ∨ c < d then flagTxError else 0x00 := by
  unfold shortWriteFlag
  by_cases a < b <;> by_cases c < d <;> simp [*]

/-- A flag of a write is TX_ERROR or nothing. -/
def sendFlag (f : Byte) : Prop := f = 0x00 ∨ f = flagTxError

theorem shortWriteFlag_sendFlag (a b : Nat) : sendFlag (shortWriteFlag a b) := by
  unfold shortWriteFlag
  split
  · exact Or.inr rfl
  · exact Or.inl rfl

theorem sendFlag_or {f g : Byte} (hf : sendFlag f) (hg : sendFlag g) : sendFlag (f ||| g) := by
  rcases hf with rfl | rfl <;> rcases hg with rfl | rfl <;> simp [sendFlag]

/-- Only the direction, the accepted counts and the trace differ. -/
def OnlySend (s t : State) : Prop :=
  t = { s with dir := t.dir, line := { s.line with accepts := t.line.accepts, trace := t.line.trace } }

theorem OnlySend.trans {s t u : State} (h1 : OnlySend s t) (h2 : OnlySend t u) : OnlySend s u := by
  unfold OnlySend at *
  rw [h2, h1]

theorem OnlySend.fields {s t : State} (h : OnlySend s t) :
    t.cfg = s.cfg ∧ t.ck = s.ck ∧ t.t0 = s.t0 ∧ t.rx = s.rx ∧ t.mq = s.mq ∧ t.result = s.result ∧ t.port = s.port ∧
    t.freeCount = s.freeCount ∧ t.line.waiting = s.line.waiting ∧ t.line.now = s.line.now ∧
    t.line.looks = s.line.looks := by
  unfold OnlySend at h
  rw [h]
  simp

theorem setDir_onlySend (d : Dir) (s : State) : OnlySend s (setDir d s) := rfl

theorem lineWrite_onlySend (bytes : List Byte) (s : State) : OnlySend s (lineWrite bytes s).2 := rfl

theorem turnAround_onlySend (s : State) : OnlySend s (turnAround s) := rfl

theorem guardWrite_onlySend (pause : Bool) (s : State) : OnlySend s (guardWrite pause s).2 := by
  unfold guardWrite
  split <;> rfl

theorem guardWrite_dir (pause : Bool) (s : State) : (guardWrite pause s).2.dir = s.dir := by
  unfold guardWrite
  split <;> rfl

theorem guardWrite_flag (pause : Bool) (s : State) : sendFlag (guardWrite pause s).1 := by
  unfold guardWrite
  split
  · exact shortWriteFlag_sendFlag _ _
  · exact Or.inl rfl

theorem guardWrite_directed (pause : Bool) {s : State} (h : s.dir = .tx) : Directed s (guardWrite pause s).2 := by
  unfold guardWrite
  split
  · exact lineWrite_directed _ h
  · exact .refl s

theorem turnAround_directed (s : State) : Directed s (turnAround s) :=
  ⟨[.flushed, .direction .rx], by simp, rfl⟩

/-- SEND's sequence changes the direction, the accepted counts and the trace, and ends in RX (R202, R206). -/
theorem sendBytes_onlySend (bytes : List Byte) (pause : Bool) (s : State) : OnlySend s (sendBytes bytes pause s).2.2 :=
  (setDir_onlySend .tx s).trans ((guardWrite_onlySend pause _).trans
    ((lineWrite_onlySend bytes _).trans (turnAround_onlySend _)))

theorem sendBytes_dir (bytes : List Byte) (pause : Bool) (s : State) : (sendBytes bytes pause s).2.2.dir = .rx := rfl

theorem sendBytes_flag (bytes : List Byte) (pause : Bool) (s : State) : sendFlag (sendBytes bytes pause s).2.1 :=
  sendFlag_or (guardWrite_flag _ _) (shortWriteFlag_sendFlag _ _)

theorem sendBytes_directed (bytes : List Byte) (pause : Bool) (s : State) : Directed s (sendBytes bytes pause s).2.2 :=
  (Directed.setDir .tx s).trans ((guardWrite_directed pause rfl).trans
    ((lineWrite_directed bytes (guardWrite_dir pause _)).trans (turnAround_directed _)))

/-- EP.REPLY's frame (R177): `ck`, `ep_status`, the direction, the result and the line's accepted counts and trace. -/
theorem replyFrame_fields (fields body : List Byte) (pause : Bool) (s : State) :
    ∃ f, sendFlag f ∧ replyFrame fields body pause s =
      { s with
        ck := encodeCk s.cfg fields body
        dir := .rx
        rx := { s.rx with epState := .busy, epStatus := raiseFlag s.rx.epStatus f }
        result := (replyFrame fields body pause s).result
        line := { s.line with
          accepts := (replyFrame fields body pause s).line.accepts
          trace := (replyFrame fields body pause s).line.trace } } := by
  refine ⟨_, sendBytes_flag (encodeFrame s.cfg fields body) pause
    (setEpState .transmitting { s with ck := encodeCk s.cfg fields body }), ?_⟩
  have h := sendBytes_onlySend (encodeFrame s.cfg fields body) pause
    (setEpState .transmitting { s with ck := encodeCk s.cfg fields body })
  have hd := sendBytes_dir (encodeFrame s.cfg fields body) pause
    (setEpState .transmitting { s with ck := encodeCk s.cfg fields body })
  unfold OnlySend at h
  unfold replyFrame
  simp only
  generalize sendBytes (encodeFrame s.cfg fields body) pause
    (setEpState .transmitting { s with ck := encodeCk s.cfg fields body }) = r at h hd ⊢
  obtain ⟨n, f, t⟩ := r
  simp only at h hd ⊢
  rw [h, hd]
  simp [setResult, setEpState, raiseEp, record]

theorem replyFrame_directed (fields body : List Byte) (pause : Bool) (s : State) :
    Directed s (replyFrame fields body pause s) := by
  have h1 : Directed s (setEpState .transmitting { s with ck := encodeCk s.cfg fields body }) :=
    ⟨[.endpointState .transmitting], rfl, rfl⟩
  refine (h1.trans (sendBytes_directed (encodeFrame s.cfg fields body) pause _)).trans ?_
  exact ⟨[.endpointState .busy], rfl, rfl⟩

/-- What the sending half of M.RAWSEND and M.RAWQUERY leaves (R221, R222). -/
theorem rawSend_fields (bytes : List Byte) (pause : Bool) (s : State) :
    ∃ f, sendFlag f ∧ (rawSend bytes pause s).2 =
      { s with
        dir := .rx
        mq := { s.mq with mState := .transmitting, qStatus := f, qValid := false, qCnt := 0 }
        line := { s.line with
          accepts := (rawSend bytes pause s).2.line.accepts, trace := (rawSend bytes pause s).2.line.trace } } := by
  refine ⟨_, sendBytes_flag bytes pause (setMState .transmitting (clearQ s)), ?_⟩
  have h := sendBytes_onlySend bytes pause (setMState .transmitting (clearQ s))
  have hd := sendBytes_dir bytes pause (setMState .transmitting (clearQ s))
  unfold OnlySend at h
  unfold rawSend
  simp only
  generalize sendBytes bytes pause (setMState .transmitting (clearQ s)) = r at h hd ⊢
  obtain ⟨n, f, t⟩ := r
  simp only at h hd ⊢
  rw [h, hd]
  simp [setMState, clearQ, raiseQ, record, raiseFlag]

theorem rawSend_directed (bytes : List Byte) (pause : Bool) (s : State) : Directed s (rawSend bytes pause s).2 := by
  have h1 : Directed s (setMState .transmitting (clearQ s)) := ⟨[.masterState .transmitting], rfl, rfl⟩
  exact (h1.trans (sendBytes_directed bytes pause _)).trans (.same rfl rfl)

/-- Only the direction, the accepted counts, the trace and `q_status`, by send flags, differ. -/
def OnlyQuerySend (s t : State) : Prop :=
  ∃ f, sendFlag f ∧ t = { s with
    dir := t.dir
    mq := { s.mq with qStatus := s.mq.qStatus ||| f }
    line := { s.line with accepts := t.line.accepts, trace := t.line.trace } }

theorem OnlyQuerySend.trans {s t u : State} (h1 : OnlyQuerySend s t) (h2 : OnlyQuerySend t u) : OnlyQuerySend s u := by
  obtain ⟨f, hf, h1⟩ := h1
  obtain ⟨g, hg, h2⟩ := h2
  refine ⟨f ||| g, sendFlag_or hf hg, ?_⟩
  rw [h2, h1]
  simp [BitVec.or_assoc]

theorem OnlySend.query {s t : State} (h : OnlySend s t) : OnlyQuerySend s t := by
  refine ⟨0, Or.inl rfl, ?_⟩
  unfold OnlySend at h
  rw [h]
  simp

theorem queryWrite_only (bytes : List Byte) (s : State) : OnlyQuerySend s (queryWrite bytes s) :=
  ⟨_, shortWriteFlag_sendFlag _ _, rfl⟩

theorem queryWrite_directed (bytes : List Byte) {s : State} (h : s.dir = .tx) : Directed s (queryWrite bytes s) :=
  (lineWrite_directed bytes h).trans (.same rfl rfl)

theorem queryWrite_dir (bytes : List Byte) (s : State) : (queryWrite bytes s).dir = s.dir := rfl

/-- M.QUERY up to the guard (R232). -/
theorem queryGuard_only (pause : Bool) (s : State) :
    OnlyQuerySend s (raiseQ (guardWrite pause s).1 (guardWrite pause s).2) := by
  refine ⟨_, guardWrite_flag pause s, ?_⟩
  have h := guardWrite_onlySend pause s
  unfold OnlySend at h
  generalize guardWrite pause s = r at h ⊢
  obtain ⟨f, t⟩ := r
  simp only at h ⊢
  rw [h]
  simp [raiseQ, raiseFlag]

/-- What the sends of M.QUERY leave (R232). -/
theorem querySend_fields (fields body : List Byte) (pause : Bool) (s : State) :
    ∃ f, sendFlag f ∧ querySend fields body pause s =
      { s with
        ck := encodeCk s.cfg fields body
        dir := .rx
        mq := { s.mq with mState := .transmitting, qStatus := s.mq.qStatus ||| f }
        line := { s.line with
          accepts := (querySend fields body pause s).line.accepts
          trace := (querySend fields body pause s).line.trace } } := by
  have h := ((setDir_onlySend .tx (setMState .transmitting { s with ck := encodeCk s.cfg fields body })).query).trans
    ((queryGuard_only pause _).trans ((queryWrite_only ([s.cfg.startDelim] ++ headerFor s.cfg fields body) _).trans
      ((queryWrite_only body _).trans
        ((queryWrite_only (s.cfg.emit (encodeCk s.cfg fields body) ++ [s.cfg.endDelim]) _).trans
          (turnAround_onlySend _).query))))
  obtain ⟨f, hf, h⟩ := h
  refine ⟨f, hf, ?_⟩
  exact h

theorem querySend_directed (fields body : List Byte) (pause : Bool) (s : State) :
    Directed s (querySend fields body pause s) := by
  have h1 : Directed s (setDir .tx (setMState .transmitting { s with ck := encodeCk s.cfg fields body })) :=
    ⟨[.masterState .transmitting, .direction .tx], by simp [setMState, record, setDir], rfl⟩
  have key : ∀ s1 : State, s1.dir = .tx → ∀ x y z : List Byte, Directed s1 (turnAround (queryWrite x (queryWrite y
      (queryWrite z (raiseQ (guardWrite pause s1).1 (guardWrite pause s1).2))))) := by
    intro s1 hd x y z
    have hg : (raiseQ (guardWrite pause s1).1 (guardWrite pause s1).2).dir = .tx := by
      rw [← hd]; exact guardWrite_dir pause s1
    have h2 : Directed s1 (raiseQ (guardWrite pause s1).1 (guardWrite pause s1).2) :=
      (guardWrite_directed pause hd).trans (.same rfl rfl)
    generalize raiseQ (guardWrite pause s1).1 (guardWrite pause s1).2 = g at hg h2 ⊢
    have h3 := queryWrite_directed z hg
    have h4 := queryWrite_directed y (s := queryWrite z g) hg
    have h5 := queryWrite_directed x (s := queryWrite y (queryWrite z g)) hg
    exact h2.trans (h3.trans (h4.trans (h5.trans (turnAround_directed _))))
  exact h1.trans (key _ rfl _ _ _)

/-- The results a query clears are filling registers with a send's flags (R33). -/
theorem cleared_filling {cfg : Config} {q : Master} (hw : Memory.wf cfg.bufCap q.qbuf = true) {f : Byte}
    (hf : sendFlag f) (m : MState) : Filling cfg { q with mState := m, qStatus := f, qValid := false, qCnt := 0 } where
  cntLe := Nat.zero_le _
  bufferWf := hw
  written := written_zero _
  status := by
    have h : ∀ f : Byte, f = 0x00 ∨ f = flagTxError → statusLegal f = true := by decide
    exact h f hf

/-- One write: the prefix accepted goes into the trace (R71). -/
theorem lineWrite_snd (bytes : List Byte) (s : State) :
    (lineWrite bytes s).2 =
      { s with line := { s.line with
          accepts := s.line.accepts.tail
          trace := s.line.trace ++ [.wrote (bytes.take (acceptedCount s.line.accepts bytes.length))] } } := rfl

/-- A write is short exactly when its accepted prefix is not all of it. -/
theorem shortWriteFlag_take (accepts : List Nat) (w : List Byte) :
    shortWriteFlag (acceptedCount accepts w.length) w.length =
      if w.take (acceptedCount accepts w.length) = w then 0x00 else flagTxError := by
  unfold shortWriteFlag
  simp only [List.take_eq_self_iff]
  split <;> split <;> first | rfl | omega

/-- The flags of writes made one after another, joined (R202, R232). -/
theorem sendStatus_cons (accepts : List Nat) (w : List Byte) (ws : List (List Byte)) :
    sendStatus accepts (w :: ws) =
      shortWriteFlag (acceptedCount accepts w.length) w.length ||| sendStatus accepts.tail ws := by
  rw [shortWriteFlag_take]
  unfold sendStatus
  simp only [acceptedPrefixes, List.cons.injEq]
  by_cases h1 : w.take (acceptedCount accepts w.length) = w <;> by_cases h2 : acceptedPrefixes accepts.tail ws = ws <;>
    simp [h1, h2]

theorem sendStatus_nil (accepts : List Nat) : sendStatus accepts [] = 0x00 := rfl

theorem sendStatus_sendFlag (accepts : List Nat) (ws : List (List Byte)) : sendFlag (sendStatus accepts ws) := by
  unfold sendStatus
  split
  · exact Or.inl rfl
  · exact Or.inr rfl

theorem acceptedPrefixes_all (ws : List (List Byte)) : acceptedPrefixes [] ws = ws := by
  induction ws with
  | nil => rfl
  | cons w ws ih => simp [acceptedPrefixes, acceptedCount, ih]

/-- The state a query's sending half leaves (R222, R232): its writes between the turnarounds, its flags in `q_status`. -/
def afterSend (c : Ck) (writes : List (List Byte)) (s : State) : State :=
  { s with
    ck := c
    dir := .rx
    mq := { s.mq with
      mState := .transmitting, qStatus := sendStatus s.line.accepts writes, qValid := false, qCnt := 0 }
    line := { s.line with
      accepts := s.line.accepts.drop writes.length
      trace := s.line.trace ++ [.masterState .transmitting, .direction .tx] ++
        (acceptedPrefixes s.line.accepts writes).map LineOp.wrote ++ [.flushed, .direction .rx] } }

theorem rawSend_afterSend (bytes : List Byte) (pause : Bool) (s : State) :
    (rawSend bytes pause s).2 = afterSend s.ck (guardWrites s.cfg pause ++ [bytes]) s := by
  cases pause <;>
    simp [rawSend, sendBytes, guardWrite, turnAround, lineFlush, setDir, record, setMState, clearQ, raiseQ, raiseFlag,
      afterSend, guardWrites, sendStatus_cons, sendStatus_nil, acceptedPrefixes, lineWrite, ← List.drop_one]

theorem querySend_afterSend (fields body : List Byte) (pause : Bool) (s : State) :
    querySend fields body pause (clearQ s) =
      afterSend (encodeCk s.cfg fields body) (guardWrites s.cfg pause ++ frameWrites s.cfg fields body) s := by
  cases pause <;>
    simp [querySend, queryWrite, guardWrite, turnAround, lineFlush, setDir, record, setMState, clearQ, raiseQ, raiseFlag,
      afterSend, guardWrites, frameWrites, sendStatus_cons, sendStatus_nil, acceptedPrefixes, lineWrite, encodeCk,
      BitVec.or_assoc, ← List.drop_one]

/-- A query that sends goes on to its wait from the state its writes leave, whichever query it is (R222, R232). -/
theorem exec_querySends {s : State} {i : Instr} {writes : List (List Byte)} (hr : s.cfg.role = .master)
    (hm : s.mq.mState = .idle) (h : QuerySends s.cfg i writes) :
    ∃ c, exec i s = finish (awaitAndReturn (afterSend c writes s)) ∧
      ((∃ bytes pause, i = .mRawQuery bytes pause) ∧ c = s.ck ∨
        ∃ fields body pause, i = .mQuery true fields body pause ∧ c = encodeCk s.cfg fields body) := by
  rcases h with ⟨bytes, pause, rfl, rfl⟩ | ⟨fields, body, pause, rfl, hf, hb, rfl⟩
  · exact ⟨_, by simp [exec, execMRawQuery, forRole, hr, hm, rawSend_afterSend], Or.inl ⟨⟨_, _, rfl⟩, rfl⟩⟩
  · refine ⟨_, ?_, Or.inr ⟨_, _, _, rfl, rfl⟩⟩
    simp [exec, execMQuery, withOperands, hf, forRole, hr, hm, queryRound, bodyFits, hb, querySend_afterSend]

end Sys2Proof.Machine
end

