-- ==== Sys2Proof/Laws/QueryFrame.lean ====
section
/-!
SUPPORT. The receive half of a query from any state, without the invariants: when it answers, only the result registers
and the line have changed, no flag but those of a receive was raised, QBUF is as before at and above the fill count, and `q_hdr`
keeps its width.
-/

namespace Sys2Proof.Machine

/-- A stretch of a receive: frame, flags, fill count, the bytes of QBUF, the width of `q_hdr`. -/
structure Fills (ms : List MState) (s t : State) : Prop where
  frame : Receives ms s t
  raised : Raised s.mq.qStatus t.mq.qStatus
  count : s.mq.qCnt ≤ t.mq.qCnt
  above : ∀ a, t.mq.qCnt ≤ a → memGet t.mq.qbuf a = memGet s.mq.qbuf a
  hdr : Header.fits s.cfg s.mq.qHdr = true → Header.fits s.cfg t.mq.qHdr = true

theorem Fills.trans {ms ns : List MState} {s t u : State} (h1 : Fills ms s t) (h2 : Fills ns t u) :
    Fills (ms ++ ns) s u where
  frame := h1.frame.trans h2.frame
  raised := h1.raised.trans h2.raised
  count := le_trans h1.count h2.count
  above := fun a ha => by rw [h2.above a ha, h1.above a (le_trans h2.count ha)]
  hdr := fun h => by
    have h2' := h2.hdr
    rw [h1.frame.fields.1] at h2'
    exact h2' (h1.hdr h)

theorem Fills.refl (s : State) : Fills [] s s := ⟨.refl s, .refl _, le_refl _, fun _ _ => rfl, id⟩

theorem OnlyLine.fills {s t : State} (h : OnlyLine s t) : Fills [] s t := by
  have hmq := h.fields.2.2.2.2.2.1
  exact ⟨h.receives, by rw [hmq]; exact .refl _, by rw [hmq], fun _ _ => by rw [hmq], by rw [hmq]; exact id⟩

theorem raiseQ_fills {f : Byte} (hf : receiveFlag f) (s : State) : Fills [] s (raiseQ f s) :=
  ⟨raiseQ_receives f s, .raise _ hf, le_refl _, fun _ _ => rfl, id⟩

theorem setMState_fills (m : MState) (s : State) : Fills [m] s (setMState m s) :=
  ⟨setMState_receives m s, .refl _, le_refl _, fun _ _ => rfl, id⟩

theorem storeQ_fills {s t : State} {b : Byte} (h : storeQ b s = .ok t) : Fills [] s t := by
  obtain ⟨-, rfl⟩ := storeQ_ok h
  exact ⟨by simp [Receives], .refl _, Nat.le_succ _, fun a ha => memGet_memSet_other _ _ (by simp only at ha; omega),
    id⟩

theorem receiveFlag_rx : receiveFlag flagRxError := Or.inl rfl
theorem receiveFlag_crc : receiveFlag flagCrcFailed := Or.inr (Or.inl rfl)
theorem receiveFlag_buf : receiveFlag flagBufferExhausted := Or.inr (Or.inr rfl)

theorem headerLoop_fills {n : Nat} {s t : State} {b : Bool} (h : headerLoop n s = .ok (b, t)) : Fills [] s t := by
  induction n generalizing s with
  | zero => cases h; exact .refl _
  | succ n ih =>
    have hg := getByte_onlyLine s
    unfold headerLoop at h
    split at h
    · rename_i s1 hb
      rw [hb] at hg
      cases h
      exact hg.fills.trans (raiseQ_fills receiveFlag_rx _)
    · rename_i x s1 hb
      rw [hb] at hg
      split at h
      · rename_i s2 hs
        exact hg.fills.trans ((storeQ_fills hs).trans (ih h))
      · cases h

theorem bodyLoop_fills {n : Nat} {s t : State} {b : Bool} (h : bodyLoop n s = .ok (b, t)) : Fills [] s t := by
  induction n generalizing s with
  | zero => cases h; exact .refl _
  | succ n ih =>
    have hg := getByte_onlyLine s
    unfold bodyLoop at h
    split at h
    · rename_i s1 hb
      rw [hb] at hg
      cases h
      exact hg.fills.trans (raiseQ_fills receiveFlag_rx _)
    · rename_i x s1 hb
      rw [hb] at hg
      split at h
      · rename_i s2 hs
        unfold storeOrDrop at hs
        split at hs
        · exact hg.fills.trans ((storeQ_fills hs).trans (ih h))
        · cases hs
          exact hg.fills.trans (ih h)
      · cases h

theorem decodeQHdr_fills {s t : State} (h : decodeQHdr s = .ok t) : Fills [] s t := by
  unfold decodeQHdr at h
  split at h
  · rename_i bs hbs
    cases h
    exact ⟨by simp [Receives], .refl _, le_refl _, fun _ _ => rfl, fun _ => readHeader_fits hbs⟩
  · cases h

theorem checkQ_fills {s t : State} (h : checkQ s = .ok t) : Fills [.processing] s t := by
  have h1 := setMState_fills .processing s
  have h2 : Fills [.processing] s (raiseQ flagCrcFailed (setMState .processing s)) := by
    simpa using h1.trans (raiseQ_fills receiveFlag_crc (setMState .processing s))
  unfold checkQ at h
  simp only at h
  split at h
  · cases h
    exact h2
  · split at h
    · cases h
      split
      · exact h1
      · exact h2
    · cases h
    · cases h
    · cases h

theorem capacityTest_fills (s : State) : Fills [] s (capacityTest s) := by
  unfold capacityTest
  split
  · exact raiseQ_fills receiveFlag_buf s
  · exact .refl s

theorem endDelimiter_fills (s : State) : Fills [] s (endDelimiter s) := by
  have hg := getByte_onlyLine s
  unfold endDelimiter
  simp only
  split
  · exact hg.fills
  · exact hg.fills.trans (raiseQ_fills receiveFlag_rx _)

theorem countedBody_fills {s t : State} (h : countedBody s = .ok t) : Fills [.processing] s t := by
  unfold countedBody at h
  simp only at h
  split at h
  · cases h
  · rename_i u hb
    exact (capacityTest_fills s).trans ((bodyLoop_fills hb).trans ((endDelimiter_fills u).trans (checkQ_fills h)))
  · rename_i u hb
    exact (capacityTest_fills s).trans ((bodyLoop_fills hb).trans (checkQ_fills h))

theorem huntStart_fills (n : Nat) (s : State) : Fills [] s (huntStart n s).2 := by
  rcases huntStart_cases n s with ⟨-, h⟩ | ⟨-, u, hu, h⟩
  · exact h.fills
  · rw [h]
    exact hu.fills.trans (raiseQ_fills receiveFlag_rx u)

theorem countedReceive_fills {s t : State} (h : countedReceive s = .ok t) : Fills [] s t ∨ Fills [.processing] s t := by
  have hh := huntStart_fills (supply s) s
  unfold countedReceive at h
  split at h
  · rename_i s1 hb
    rw [hb] at hh
    cases h
    exact Or.inl hh
  · rename_i s1 hb
    rw [hb] at hh
    split at h
    · cases h
    · rename_i s2 hl
      cases h
      exact Or.inl (hh.trans (headerLoop_fills hl))
    · rename_i s2 hl
      split at h
      · cases h
      · rename_i s3 hd
        exact Or.inr (hh.trans ((headerLoop_fills hl).trans ((decodeQHdr_fills hd).trans (countedBody_fills h))))

/-- A local receiver whose registers agree with QBUF at and above its fill count, with no flag up and a header of `q_hdr`'s
width. -/
def LocalFrame (s : State) (r : Receiver) : Prop :=
  r.epStatus = 0x00 ∧ (∀ a, r.rxCnt ≤ a → memGet r.rxbuf a = memGet s.mq.qbuf a) ∧ (r.epState = .idle → r.rxCnt = 0) ∧
  (Header.fits s.cfg s.mq.qHdr = true → Header.fits s.cfg r.hdr = true)

theorem putLocal_fills {s u : State} {r : Receiver} (hu : OnlyLine s u) (h0 : s.mq.qCnt = 0)
    (hs : r.epStatus = 0x00 ∨ receiveFlag r.epStatus)
    (ha : ∀ a, r.rxCnt ≤ a → memGet r.rxbuf a = memGet s.mq.qbuf a)
    (hh : Header.fits s.cfg s.mq.qHdr = true → Header.fits s.cfg r.hdr = true) : Fills [] s (putLocal r u) := by
  have hmq := hu.fields.2.2.2.2.2.1
  refine ⟨hu.receives.trans_nil (putLocal_receives r u), ?_, by rw [h0]; exact Nat.zero_le _, ha, hh⟩
  show Raised s.mq.qStatus (raiseFlag u.mq.qStatus r.epStatus)
  rw [hmq]
  rcases hs with h | h
  · rw [h]
    exact ⟨0, rfl, by decide⟩
  · exact .raise _ h

/-- One byte keeps the local receiver's frame. -/
theorem localFrame_byte {s : State} {b : Byte} {r r' : Receiver} {e : Event}
    (h : ByteEffect s.cfg b r e r') (hf : LocalFrame s r) :
    (r'.epStatus = 0x00 ∨ receiveFlag r'.epStatus) ∧ (∀ a, r'.rxCnt ≤ a → memGet r'.rxbuf a = memGet s.mq.qbuf a) ∧
    (Header.fits s.cfg s.mq.qHdr = true → Header.fits s.cfg r'.hdr = true) ∧
    (endsValidate e = false → LocalFrame s r') := by
  obtain ⟨h1, h2, h3, h4⟩ := hf
  have h4' : Header.fits s.cfg s.mq.qHdr = true → Header.fits s.cfg r'.hdr = true := fun hq => h.hdrFits (h4 hq)
  have hz : ∀ f, raiseFlag r.epStatus f = f := fun f => by simp [h1, raiseFlag]
  have hset : ∀ a, r.rxCnt + 1 ≤ a → memGet (memSet r.rxbuf r.rxCnt b) a = memGet s.mq.qbuf a := fun a ha => by
    rw [memGet_memSet_other _ _ (by omega), h2 a (by omega)]
  cases h with
  | other h hb => exact ⟨Or.inl h1, h2, h4', fun _ => ⟨h1, h2, h3, h4'⟩⟩
  | start h hb =>
    have h0 := h3 h
    have h2' : ∀ a, 0 ≤ a → memGet r.rxbuf a = memGet s.mq.qbuf a := fun a _ => h2 a (by omega)
    exact ⟨Or.inl rfl, h2', h4', fun _ => ⟨rfl, h2', by simp, h4'⟩⟩
  | headerByte h hc => exact ⟨Or.inl h1, hset, h4', fun _ => ⟨h1, hset, by simp [h], h4'⟩⟩
  | headerDone h hc hd hw => exact ⟨Or.inl h1, hset, h4', fun _ => ⟨h1, hset, by simp, h4'⟩⟩
  | oversize h hc hd hw => exact ⟨Or.inr (by simp only [hz]; exact receiveFlag_buf), hset, h4', by simp [endsValidate]⟩
  | bodyByte h hc => exact ⟨Or.inl h1, hset, h4', fun _ => ⟨h1, hset, by simp [h], h4'⟩⟩
  | full h hc => exact ⟨Or.inr (by simp only [hz]; exact receiveFlag_buf), h2, h4', by simp [endsValidate]⟩
  | ready h hb => exact ⟨Or.inl h1, h2, h4', by simp [endsValidate]⟩
  | corrupted h hb => exact ⟨Or.inr (by simp only [hz]; exact receiveFlag_crc), h2, h4', by simp [endsValidate]⟩
  | ignored h => exact ⟨Or.inl h1, h2, h4', fun _ => ⟨h1, h2, h3, h4'⟩⟩

theorem delimitedLoop_fills {n : Nat} {s t : State} {r : Receiver} (h : delimitedLoop n r s = .ok t)
    (h0 : s.mq.qCnt = 0) (hf : LocalFrame s r) : Fills [] s t ∨ Fills [.processing] s t := by
  induction n generalizing s r with
  | zero =>
    cases h
    exact Or.inl ((putLocal_fills (getByte_onlyLine s) h0 (Or.inl hf.1) hf.2.1 hf.2.2.2).trans (raiseQ_fills receiveFlag_rx _))
  | succ n ih =>
    have hg := getByte_onlyLine s
    unfold delimitedLoop at h
    split at h
    · rename_i s1 hb
      rw [hb] at hg
      cases h
      exact Or.inl ((putLocal_fills hg h0 (Or.inl hf.1) hf.2.1 hf.2.2.2).trans (raiseQ_fills receiveFlag_rx _))
    · rename_i b s1 hb
      rw [hb] at hg
      simp only at hg
      have hmq := hg.fields.2.2.2.2.2.1
      split at h
      · cases h
      · rename_i e r1 hr
        obtain ⟨hs1, ha1, hh1, hgo⟩ := localFrame_byte (by rw [← hg.fields.1]; exact receiveByte_effect hr) hf
        split at h
        · cases h
          have hp := putLocal_fills hg h0 hs1 ha1 hh1
          unfold afterEvent
          split
          · exact Or.inr (hp.trans (setMState_fills _ _))
          · exact Or.inr (hp.trans (setMState_fills _ _))
          · exact Or.inl hp
        · rename_i he
          have hf1 : LocalFrame s1 r1 := by
            have := hgo (by simpa using he)
            unfold LocalFrame at this ⊢
            rwa [hmq, hg.fields.1]
          rcases ih h (by rw [hmq]; exact h0) hf1 with h | h
          · exact Or.inl (hg.fills.trans h)
          · exact Or.inr (hg.fills.trans h)

theorem receiveResponse_fills {s t : State} (h : receiveResponse s = .ok t) (h0 : s.mq.qCnt = 0) :
    Fills [] s t ∨ Fills [.processing] s t := by
  unfold receiveResponse at h
  split at h
  · exact countedReceive_fills h
  · exact delimitedLoop_fills h h0 ⟨rfl, fun _ _ => rfl, fun _ => h0, id⟩

/-- What a query's wait leaves, from a state whose results were cleared (R223, R233, R235, R255). -/
structure Waited (s t : State) : Prop where
  frame : ∃ ms, ms ∈ [[.awaitingResponse, .idle], [.awaitingResponse, .receiving, .idle],
      [MState.awaitingResponse, .receiving, .processing, .idle]] ∧
    t = { s with
      mq := t.mq, t0 := t.t0, freeCount := s.freeCount + 1, result := t.result
      line := { s.line with
        waiting := t.line.waiting, now := t.line.now, looks := t.line.looks
        trace := s.line.trace ++ ms.map LineOp.masterState } }
  idle : t.mq.mState = .idle
  above : ∀ a, t.mq.qCnt ≤ a → memGet t.mq.qbuf a = memGet s.mq.qbuf a
  flags : (t.mq.qStatus = raiseFlag s.mq.qStatus flagTimeout ∧ t.mq.qValid = s.mq.qValid ∧ t.mq.qCnt = s.mq.qCnt) ∨
    Raised s.mq.qStatus t.mq.qStatus
  result : ∃ c, t.result = .query t.mq.qStatus c
  /-- `q_hdr` keeps its width (R20). -/
  hdr : Header.fits s.cfg s.mq.qHdr = true → Header.fits s.cfg t.mq.qHdr = true

theorem awaitResponse_waited {s t : State} (h : awaitResponse s = .ok t) (h0 : s.mq.qCnt = 0) :
    t.result = s.result ∧ ∀ c, Waited s (setResult (.query t.mq.qStatus c) t) := by
  unfold awaitResponse at h
  simp only at h
  have hl := awaitLoop_onlyLine (startWait (setMState .awaitingResponse s)).cfg.queryTimeout
    (startWait (setMState .awaitingResponse s)).line.looks.length (startWait (setMState .awaitingResponse s))
  split at h
  · rename_i s2 hb
    rw [hb] at hl
    simp only at hl
    have hmq : s2.mq = { s.mq with mState := .awaitingResponse } := hl.fields.2.2.2.2.2.1
    cases h
    refine ⟨hl.fields.2.2.2.2.2.2.1, fun c => ⟨⟨[.awaitingResponse, .idle], by simp, ?_⟩, rfl, ?_, Or.inl ?_, ⟨c, rfl⟩, ?_⟩⟩
    · unfold OnlyLine at hl
      rw [hl]
      simp [startWait, setMState, record, raiseQ, endWait, setResult]
    · intro a _
      simp [endWait, setMState, record, raiseQ, setResult, hmq]
    · simp [endWait, setMState, record, raiseQ, setResult, hmq]
    · simp [endWait, setMState, record, raiseQ, setResult, hmq]
  · rename_i s2 hb
    rw [hb] at hl
    simp only at hl
    have hmq : s2.mq = { s.mq with mState := .awaitingResponse } := hl.fields.2.2.2.2.2.1
    have hmr : (setMState .receiving s2).mq = { s.mq with mState := .receiving } := by
      show ({ s2.mq with mState := .receiving } : Master) = _
      rw [hmq]
    split at h
    · rename_i s3 hr
      cases h
      have hrf := receiveResponse_fills hr (by rw [hmr]; exact h0)
      have hres : s3.result = s.result := by
        rcases hrf with hf | hf
        · rw [hf.frame.fields.2.2.2.2.2.1]
          exact hl.fields.2.2.2.2.2.2.1
        · rw [hf.frame.fields.2.2.2.2.2.1]
          exact hl.fields.2.2.2.2.2.2.1
      refine ⟨hres, fun c => ⟨?_, rfl, ?_, Or.inr ?_, ⟨c, rfl⟩, ?_⟩⟩
      · rcases hrf with hf | hf
        · refine ⟨[.awaitingResponse, .receiving, .idle], by simp, ?_⟩
          have hp := hf.frame
          unfold OnlyLine at hl
          unfold Receives at hp
          rw [hp, hl]
          simp [startWait, setMState, record, endWait, setResult]
        · refine ⟨[.awaitingResponse, .receiving, .processing, .idle], by simp, ?_⟩
          have hp := hf.frame
          unfold OnlyLine at hl
          unfold Receives at hp
          rw [hp, hl]
          simp [startWait, setMState, record, endWait, setResult]
      · intro a ha
        have hab : memGet s3.mq.qbuf a = memGet (setMState .receiving s2).mq.qbuf a := by
          rcases hrf with hf | hf
          · exact hf.above a ha
          · exact hf.above a ha
        rw [hmr] at hab
        exact hab
      · have hra : Raised (setMState .receiving s2).mq.qStatus s3.mq.qStatus := by
          rcases hrf with hf | hf
          · exact hf.raised
          · exact hf.raised
        rw [hmr] at hra
        exact hra
      · have hcfg : (setMState .receiving s2).cfg = s.cfg := hl.fields.1
        have hh : Header.fits (setMState .receiving s2).cfg (setMState .receiving s2).mq.qHdr = true →
            Header.fits (setMState .receiving s2).cfg s3.mq.qHdr = true := by
          rcases hrf with hf | hf
          · exact hf.hdr
          · exact hf.hdr
        rw [hmr, hcfg] at hh
        exact hh
    · cases h

/-- A query's wait and result (R222, R223, R233). -/
theorem awaitAndReturn_waited {s t : State} (h : awaitAndReturn s = .ok t) (h0 : s.mq.qCnt = 0) : Waited s t := by
  unfold awaitAndReturn at h
  split at h
  · rename_i u hu
    obtain ⟨-, hw⟩ := awaitResponse_waited hu h0
    unfold returnQuery at h
    split at h
    · split at h
      · cases h
        exact hw _
      · cases h
    · cases h
      exact hw _
  · cases h

/-- No instruction changes the width of `hdr` (R20): it writes decodes of HDR_LEN bytes or nothing. -/
theorem Effect.hdrFits {i : Instr} {s t : State} (h : Effect s i t) (hf : Header.fits s.cfg s.rx.hdr = true) :
    Header.fits s.cfg t.rx.hdr = true := by
  have run : ∀ {u v : State}, u.cfg = s.cfg → u.rx = s.rx → Run u v → Header.fits s.cfg v.rx.hdr = true := by
    intro u v hc hr h
    have := h.hdrFits (by rw [hc, hr]; exact hf)
    rwa [h.onlyPoll.fields.1, hc] at this
  have wait : ∀ {u v : State}, Waited u v → v.rx = u.rx := fun hw => by
    obtain ⟨_, -, h⟩ := hw.frame
    rw [h]
  cases h with
  | answered i r => exact hf
  | checksum i c r => exact hf
  | polled _ _ _ _ h => exact run rfl rfl (.last h)
  | listened _ _ h =>
    obtain ⟨u, v, hu, hv, rfl⟩ := listen_run h
    have := run (u := startWait s) rfl rfl hu
    rcases hv with rfl | rfl | rfl <;> simpa [listenTimesOut, expire, apply_ite] using this
  | arrived _ bytes n _ _ _ h => exact run (arrive_fields bytes s).1 (arrive_fields bytes s).2.2.2.2.1 (arrived_run h)
  | queued _ bytes => simpa [(arrive_fields bytes s).2.2.2.2.1] using hf
  | done => exact hf
  | faulted => exact hf
  | wasReset => exact unpackHeader_fits s.cfg (by simp [Config.hdrLen])
  | replied fields body pause =>
    obtain ⟨f, -, h⟩ := replyFrame_fields fields body pause s
    rw [h]
    exact hf
  | directedTx => exact hf
  | directedRx => exact hf
  | sent bytes pause =>
    have := (sendBytes_onlySend bytes pause s).fields
    simpa [this] using hf
  | begun => exact hf
  | rawSent bytes pause =>
    obtain ⟨f, -, h⟩ := rawSend_fields bytes pause s
    rw [h]
    exact hf
  | rawQueried bytes pause _ _ _ h =>
    rw [rawSend_afterSend] at h
    rw [wait (awaitAndReturn_waited h rfl)]
    exact hf
  | notSent => exact hf
  | queried fields body pause _ _ _ h =>
    rw [querySend_afterSend] at h
    rw [wait (awaitAndReturn_waited h rfl)]
    exact hf

/-- Nor that of `q_hdr`. -/
theorem Effect.qHdrFits {i : Instr} {s t : State} (h : Effect s i t) (hf : Header.fits s.cfg s.mq.qHdr = true) :
    Header.fits s.cfg t.mq.qHdr = true := by
  have run : ∀ {u v : State}, u.mq = s.mq → Run u v → Header.fits s.cfg v.mq.qHdr = true := by
    intro u v hm h
    rw [show v.mq = s.mq by rw [← hm]; exact h.onlyPoll.fields.2.2.2.2.1]
    exact hf
  cases h with
  | answered i r => exact hf
  | checksum i c r => exact hf
  | polled _ _ _ _ h => exact run rfl (.last h)
  | listened _ _ h =>
    obtain ⟨u, v, hu, hv, rfl⟩ := listen_run h
    have := run (u := startWait s) rfl hu
    rcases hv with rfl | rfl | rfl <;> simpa [listenTimesOut, expire, apply_ite] using this
  | arrived _ bytes n _ _ _ h => exact run (arrive_fields bytes s).2.2.2.2.2.1 (arrived_run h)
  | queued _ bytes => simpa [(arrive_fields bytes s).2.2.2.2.2.1] using hf
  | done => exact hf
  | faulted => exact hf
  | wasReset => exact hf
  | replied fields body pause =>
    obtain ⟨f, -, h⟩ := replyFrame_fields fields body pause s
    rw [h]
    exact hf
  | directedTx => exact hf
  | directedRx => exact hf
  | sent bytes pause =>
    have := (sendBytes_onlySend bytes pause s).fields
    simpa [this] using hf
  | begun => exact hf
  | rawSent bytes pause =>
    obtain ⟨f, -, h⟩ := rawSend_fields bytes pause s
    rw [h]
    exact hf
  | rawQueried bytes pause _ _ _ h =>
    rw [rawSend_afterSend] at h
    exact (awaitAndReturn_waited h rfl).hdr hf
  | notSent => exact hf
  | queried fields body pause _ _ _ h =>
    rw [querySend_afterSend] at h
    exact (awaitAndReturn_waited h rfl).hdr hf

/-- A query's wait writes nothing to the line. -/
theorem waited_directed {s t : State} (h : Waited s t) : Directed s t := by
  obtain ⟨ms, -, h⟩ := h.frame
  refine ⟨ms.map LineOp.masterState, by rw [h], by rw [directAll_masterStates]; rw [h]⟩

end Sys2Proof.Machine
end

