-- ==== Sys2Proof/Laws/Counted.lean ====
section
/-!
SUPPORT. The loops of CountedReceive (spec/44_master_query.md R225, R226, R229) on bytes that wait, with no look to come,
and the wait for a response that arrives whole (R223).
-/

namespace Sys2Proof.Machine

/-- Bytes stored one after another from index `a` on. -/
def memFill (m : Mem) (a : Nat) : List Byte → Mem
  | [] => m
  | b :: bs => memFill (memSet m a b) (a + 1) bs

theorem memFill_bytes (m : Mem) (a : Nat) (xs : List Byte) :
    memBytes (memFill m a xs) 0 (a + xs.length) = memBytes m 0 a ++ xs := by
  induction xs generalizing m a with
  | nil => simp [memFill]
  | cons b bs ih =>
    have hn := memBytes_memSet_next m 0 a b
    rw [Nat.zero_add] at hn
    rw [memFill, show a + (b :: bs).length = a + 1 + bs.length by simp; omega, ih, hn]
    simp

theorem memFill_written {m : Mem} {a : Nat} (xs : List Byte) (h : Written m a) : Written (memFill m a xs) (a + xs.length) := by
  induction xs generalizing m a with
  | nil => exact h
  | cons b bs ih =>
    have := ih (h.memSet b)
    rwa [show a + 1 + bs.length = a + (b :: bs).length by simp; omega] at this

/-- The master with `xs` stored at the fill count (R226, R229). -/
def stored (xs : List Byte) (q : Master) : Master :=
  { q with qbuf := memFill q.qbuf q.qCnt xs, qCnt := q.qCnt + xs.length }

/-- The hunt passes over what is no start delimiter (R225). -/
theorem huntStart_waiting {s : State} {junk ys : List Byte} (n : Nat) (hj : s.cfg.startDelim ∉ junk) (hd : s.dir = .rx)
    (hw : s.line.waiting = junk ++ [s.cfg.startDelim] ++ ys) (hl : s.line.looks = []) :
    huntStart (junk.length + 1 + n) s = (true, { s with line := { s.line with waiting := ys } }) := by
  induction junk generalizing s with
  | nil =>
    rw [show ([] : List Byte).length + 1 + n = n + 1 by simp; omega, huntStart, getByte_waiting hd hw hl]
    simp
  | cons b bs ih =>
    simp only [List.mem_cons, not_or] at hj
    rw [show (b :: bs).length + 1 + n = (bs.length + 1 + n) + 1 by simp; omega, huntStart,
      getByte_waiting (rest := bs ++ [s.cfg.startDelim] ++ ys) hd (by rw [hw]; rfl) hl]
    simp only [if_neg (Ne.symm hj.1)]
    rw [ih (s := { s with line := { s.line with waiting := bs ++ [s.cfg.startDelim] ++ ys } }) hj.2 hd rfl hl]

/-- The header loop stores waiting bytes (R226). -/
theorem headerLoop_waiting {s : State} {xs ys : List Byte} (hc : s.mq.qCnt + xs.length ≤ s.cfg.bufCap) (hd : s.dir = .rx)
    (hw : s.line.waiting = xs ++ ys) (hl : s.line.looks = []) :
    headerLoop xs.length s =
      .ok (true, { s with mq := stored xs s.mq, line := { s.line with waiting := ys } }) := by
  induction xs generalizing s with
  | nil =>
    simp only [List.nil_append] at hw
    simp [headerLoop, stored, memFill, ← hw]
  | cons b bs ih =>
    simp only [List.length_cons] at hc
    rw [List.length_cons, headerLoop, getByte_waiting (rest := bs ++ ys) hd (by rw [hw]; rfl) hl]
    simp only
    rw [storeQ_of_lt b (by simp only; omega)]
    simp only
    rw [ih (s := { s with
      mq := { s.mq with qbuf := memSet s.mq.qbuf s.mq.qCnt b, qCnt := s.mq.qCnt + 1 }
      line := { s.line with waiting := bs ++ ys } }) (by simp only; omega) hd rfl hl]
    simp [stored, memFill, Nat.add_assoc, Nat.add_comm]

/-- The body loop stores waiting bytes that fit (R229). -/
theorem bodyLoop_waiting {s : State} {xs ys : List Byte} (hc : s.mq.qCnt + xs.length ≤ s.cfg.bufCap) (hd : s.dir = .rx)
    (hw : s.line.waiting = xs ++ ys) (hl : s.line.looks = []) :
    bodyLoop xs.length s =
      .ok (true, { s with mq := stored xs s.mq, line := { s.line with waiting := ys } }) := by
  induction xs generalizing s with
  | nil =>
    simp only [List.nil_append] at hw
    simp [bodyLoop, stored, memFill, ← hw]
  | cons b bs ih =>
    simp only [List.length_cons] at hc
    rw [List.length_cons, bodyLoop, getByte_waiting (rest := bs ++ ys) hd (by rw [hw]; rfl) hl]
    simp only [storeOrDrop]
    rw [if_pos (by omega), storeQ_of_lt b (by simp only; omega)]
    simp only
    rw [ih (s := { s with
      mq := { s.mq with qbuf := memSet s.mq.qbuf s.mq.qCnt b, qCnt := s.mq.qCnt + 1 }
      line := { s.line with waiting := bs ++ ys } }) (by simp only; omega) hd rfl hl]
    simp [stored, memFill, Nat.add_assoc, Nat.add_comm]

/-- A response that arrives in the only look is there at once (R223, R224). -/
theorem awaitLoop_one {s : State} {timeout : Time} {l : Look} (hd : s.dir = .rx) (hw : s.line.waiting = [])
    (hl : s.line.looks = [l]) (ha : l.arrived ≠ []) :
    awaitLoop timeout s.line.looks.length s =
      (true, { s with line := { s.line with waiting := l.arrived, looks := [], now := s.line.now + l.dt } }) := by
  have hk : look s = { s with line := { s.line with waiting := l.arrived, looks := [], now := s.line.now + l.dt } } := by
    simp [look, hl, lineAvail, hw, takeLook, hd]
  rw [hl, List.length_singleton, awaitLoop, hk]
  simp [lineAvail, hd, ha]

end Sys2Proof.Machine
end

