-- ==== Sys2Proof/Laws/PerInstr.lean ====
section
/-!
SUPPORT. Lemmas per constructor: the first byte of every instruction's words (spec/30_encoding.md R100, log 11, 12).
-/

namespace Sys2Proof.Laws.OpcodeByte

/-- The words of an instruction begin with its code byte, which is a 5-bit command code for a command and one of the
line arrivals' bytes for what arrives; all codes but EP.POLL's name one constructor. -/
def Statement (i : Sys2Proof.Instr) : Prop :=
  (∀ cfg : Sys2Proof.Config, (Sys2Proof.encode cfg i).head? = some (Sys2Proof.opcodeByte i)) ∧
  (Sys2Proof.opcodeByte i).toNat ≤ 0x26 ∧
  (Sys2Proof.opcodeByte i = 0x0A ∨ Sys2Proof.canonical i = i) ∧
  (Sys2Proof.Machine.commandRole i ≠ none → Sys2Proof.Machine.isArrival i = false)

theorem nop : Statement .nop :=
  ⟨fun _ => rfl, Nat.le_of_ble_eq_true rfl, Or.inr rfl, fun _ => rfl⟩

theorem ckInit : Statement .ckInit :=
  ⟨fun _ => rfl, Nat.le_of_ble_eq_true rfl, Or.inr rfl, fun _ => rfl⟩

theorem ckUpdate (b : Byte) : Statement (.ckUpdate b) :=
  ⟨fun _ => rfl, Nat.le_of_ble_eq_true rfl, Or.inr rfl, fun _ => rfl⟩

theorem ckBlock (bytes : List Byte) (length : BitVec 32) (seed : Ck) : Statement (.ckBlock bytes length seed) :=
  ⟨fun _ => rfl, Nat.le_of_ble_eq_true rfl, Or.inr rfl, fun _ => rfl⟩

theorem ckEmit : Statement .ckEmit :=
  ⟨fun _ => rfl, Nat.le_of_ble_eq_true rfl, Or.inr rfl, fun _ => rfl⟩

theorem ckCheck : Statement .ckCheck :=
  ⟨fun _ => rfl, Nat.le_of_ble_eq_true rfl, Or.inr rfl, fun _ => rfl⟩

theorem hdrPack (fields : List Byte) (n : Byte) : Statement (.hdrPack fields n) :=
  ⟨fun _ => rfl, Nat.le_of_ble_eq_true rfl, Or.inr rfl, fun _ => rfl⟩

theorem hdrUnpack (h : List Byte) : Statement (.hdrUnpack h) :=
  ⟨fun _ => rfl, Nat.le_of_ble_eq_true rfl, Or.inr rfl, fun _ => rfl⟩

theorem encode (fields : List Byte) (body : List Byte) : Statement (.encode fields body) :=
  ⟨fun _ => rfl, Nat.le_of_ble_eq_true rfl, Or.inr rfl, fun _ => rfl⟩

theorem validate (bytes : List Byte) : Statement (.validate bytes) :=
  ⟨fun _ => rfl, Nat.le_of_ble_eq_true rfl, Or.inr rfl, fun _ => rfl⟩

theorem epListen : Statement .epListen :=
  ⟨fun _ => rfl, Nat.le_of_ble_eq_true rfl, Or.inr rfl, fun _ => rfl⟩

theorem epDone : Statement .epDone :=
  ⟨fun _ => rfl, Nat.le_of_ble_eq_true rfl, Or.inr rfl, fun _ => rfl⟩

theorem epReply (fields : List Byte) (body : List Byte) (pause : Bool) : Statement (.epReply fields body pause) :=
  ⟨fun _ => rfl, Nat.le_of_ble_eq_true rfl, Or.inr rfl, fun _ => rfl⟩

theorem epFault : Statement .epFault :=
  ⟨fun _ => rfl, Nat.le_of_ble_eq_true rfl, Or.inr rfl, fun _ => rfl⟩

theorem epReset : Statement .epReset :=
  ⟨fun _ => rfl, Nat.le_of_ble_eq_true rfl, Or.inr rfl, fun _ => rfl⟩

theorem dirTx : Statement .dirTx :=
  ⟨fun _ => rfl, Nat.le_of_ble_eq_true rfl, Or.inr rfl, fun _ => rfl⟩

theorem dirRx : Statement .dirRx :=
  ⟨fun _ => rfl, Nat.le_of_ble_eq_true rfl, Or.inr rfl, fun _ => rfl⟩

theorem send (bytes : List Byte) (pause : Bool) : Statement (.send bytes pause) :=
  ⟨fun _ => rfl, Nat.le_of_ble_eq_true rfl, Or.inr rfl, fun _ => rfl⟩

theorem mBegin (rate : BitVec 32) : Statement (.mBegin rate) :=
  ⟨fun _ => rfl, Nat.le_of_ble_eq_true rfl, Or.inr rfl, fun _ => rfl⟩

theorem mRawSend (bytes : List Byte) (pause : Bool) : Statement (.mRawSend bytes pause) :=
  ⟨fun _ => rfl, Nat.le_of_ble_eq_true rfl, Or.inr rfl, fun _ => rfl⟩

theorem mRawQuery (bytes : List Byte) (pause : Bool) : Statement (.mRawQuery bytes pause) :=
  ⟨fun _ => rfl, Nat.le_of_ble_eq_true rfl, Or.inr rfl, fun _ => rfl⟩

theorem mQuery (ready : Bool) (fields : List Byte) (body : List Byte) (pause : Bool) : Statement (.mQuery ready fields body pause) :=
  ⟨fun _ => rfl, Nat.le_of_ble_eq_true rfl, Or.inr rfl, fun _ => rfl⟩

theorem epPollIdleOther : Statement .epPollIdleOther :=
  ⟨fun _ => rfl, Nat.le_of_ble_eq_true rfl, Or.inl rfl, fun _ => rfl⟩

theorem epPollIdleStart : Statement .epPollIdleStart :=
  ⟨fun _ => rfl, Nat.le_of_ble_eq_true rfl, Or.inl rfl, fun _ => rfl⟩

theorem epPollHeaderNotLast : Statement .epPollHeaderNotLast :=
  ⟨fun _ => rfl, Nat.le_of_ble_eq_true rfl, Or.inl rfl, fun _ => rfl⟩

theorem epPollHeaderLastOk : Statement .epPollHeaderLastOk :=
  ⟨fun _ => rfl, Nat.le_of_ble_eq_true rfl, Or.inl rfl, fun _ => rfl⟩

theorem epPollHeaderLastOversize : Statement .epPollHeaderLastOversize :=
  ⟨fun _ => rfl, Nat.le_of_ble_eq_true rfl, Or.inl rfl, fun _ => rfl⟩

theorem epPollReceivingNone : Statement .epPollReceivingNone :=
  ⟨fun _ => rfl, Nat.le_of_ble_eq_true rfl, Or.inl rfl, fun _ => rfl⟩

theorem epPollBodyFull : Statement .epPollBodyFull :=
  ⟨fun _ => rfl, Nat.le_of_ble_eq_true rfl, Or.inl rfl, fun _ => rfl⟩

theorem epPollBodyRoom : Statement .epPollBodyRoom :=
  ⟨fun _ => rfl, Nat.le_of_ble_eq_true rfl, Or.inl rfl, fun _ => rfl⟩

theorem epPollBodyEndValid : Statement .epPollBodyEndValid :=
  ⟨fun _ => rfl, Nat.le_of_ble_eq_true rfl, Or.inl rfl, fun _ => rfl⟩

theorem epPollBodyEndInvalid : Statement .epPollBodyEndInvalid :=
  ⟨fun _ => rfl, Nat.le_of_ble_eq_true rfl, Or.inl rfl, fun _ => rfl⟩

theorem epPollIgnored : Statement .epPollIgnored :=
  ⟨fun _ => rfl, Nat.le_of_ble_eq_true rfl, Or.inl rfl, fun _ => rfl⟩

theorem reserved17 : Statement .reserved17 :=
  ⟨fun _ => rfl, Nat.le_of_ble_eq_true rfl, Or.inr rfl, fun _ => rfl⟩

theorem reserved18 : Statement .reserved18 :=
  ⟨fun _ => rfl, Nat.le_of_ble_eq_true rfl, Or.inr rfl, fun _ => rfl⟩

theorem reserved19 : Statement .reserved19 :=
  ⟨fun _ => rfl, Nat.le_of_ble_eq_true rfl, Or.inr rfl, fun _ => rfl⟩

theorem reserved1A : Statement .reserved1A :=
  ⟨fun _ => rfl, Nat.le_of_ble_eq_true rfl, Or.inr rfl, fun _ => rfl⟩

theorem reserved1B : Statement .reserved1B :=
  ⟨fun _ => rfl, Nat.le_of_ble_eq_true rfl, Or.inr rfl, fun _ => rfl⟩

theorem reserved1C : Statement .reserved1C :=
  ⟨fun _ => rfl, Nat.le_of_ble_eq_true rfl, Or.inr rfl, fun _ => rfl⟩

theorem reserved1D : Statement .reserved1D :=
  ⟨fun _ => rfl, Nat.le_of_ble_eq_true rfl, Or.inr rfl, fun _ => rfl⟩

theorem reserved1E : Statement .reserved1E :=
  ⟨fun _ => rfl, Nat.le_of_ble_eq_true rfl, Or.inr rfl, fun _ => rfl⟩

theorem reserved1F : Statement .reserved1F :=
  ⟨fun _ => rfl, Nat.le_of_ble_eq_true rfl, Or.inr rfl, fun _ => rfl⟩

theorem byteStart : Statement .byteStart :=
  ⟨fun _ => rfl, Nat.le_of_ble_eq_true rfl, Or.inr rfl, fun h => absurd rfl h⟩

theorem byteEnd : Statement .byteEnd :=
  ⟨fun _ => rfl, Nat.le_of_ble_eq_true rfl, Or.inr rfl, fun h => absurd rfl h⟩

theorem byteData (d : Byte) : Statement (.byteData d) :=
  ⟨fun _ => rfl, Nat.le_of_ble_eq_true rfl, Or.inr rfl, fun h => absurd rfl h⟩

theorem byteOther (d : Byte) : Statement (.byteOther d) :=
  ⟨fun _ => rfl, Nat.le_of_ble_eq_true rfl, Or.inr rfl, fun h => absurd rfl h⟩

theorem frameA (code fromAddr toAddr : Byte) (body : List Byte) : Statement (.frameA code fromAddr toAddr body) :=
  ⟨fun _ => rfl, Nat.le_of_ble_eq_true rfl, Or.inr rfl, fun h => absurd rfl h⟩

theorem frameB (addr0 addr1 opcode : Byte) (body : List Byte) : Statement (.frameB addr0 addr1 opcode body) :=
  ⟨fun _ => rfl, Nat.le_of_ble_eq_true rfl, Or.inr rfl, fun h => absurd rfl h⟩

theorem opcodeInfo : Statement .opcodeInfo :=
  ⟨fun _ => rfl, Nat.le_of_ble_eq_true rfl, Or.inr rfl, fun h => absurd rfl h⟩

end Sys2Proof.Laws.OpcodeByte
end

