-- ==== Sys2Proof/Tests/Slice0.lean ====
section
/-!
SUPPORT. The model's own tests: ill-formed operands, words written out from the spec's encodings, one step against the
spec's vectors (spec/95_test_vectors.md), and for every obligation with hypotheses a state and operands that meet them.
-/

open Sys2Proof Sys2Proof.Machine

namespace Sys2Proof.Tests

/-! Small states. -/

/-- An endpoint of profile A after reset. -/
def epA : State := State.reset

/-- An endpoint of profile B after reset. -/
def epB : State := State.resetWith (Config.of .endpoint Profile.b [0x01, 0x00])

/-- A master of a profile, line opened. -/
def idleMaster (p : Profile) (addr : List Byte) : State :=
  let s := State.resetWith (Config.of .master p addr)
  { s with mq := { s.mq with mState := .idle } }

/-- A master of profile B, line opened. -/
def mB : State := idleMaster Profile.b [0x01, 0x00]

/-- A master of profile A, line opened. -/
def mA : State := idleMaster Profile.a [0x10]

/-- With another MAX_BODY. -/
def withMaxBody (n : Nat) (s : State) : State := { s with cfg := { s.cfg with maxBody := n } }

/-- With bytes waiting on the line. -/
def onLine (bytes : List Byte) (s : State) : State := { s with line := { s.line with waiting := bytes } }

/-- With bytes arriving at the first availability test that finds none. -/
def responding (bytes : List Byte) (s : State) : State := { s with line := { s.line with looks := [⟨true, 5, 0, bytes⟩] } }

/-- With the next write accepting at most n bytes. -/
def short (n : Nat) (s : State) : State := { s with line := { s.line with accepts := [n] } }

/-- A buffer holding these bytes from index 0. -/
def bufferOf (bytes : List Byte) : Mem := (List.range bytes.length).zip bytes

/-- With the receiver in a state, these bytes stored, and this checksum. -/
def receiving (st : EpState) (stored : List Byte) (ck : Ck) (s : State) : State :=
  { s with rx := { s.rx with epState := st, rxbuf := bufferOf stored, rxCnt := stored.length, rxCk := ck } }

/-- With a decoded header and a status. -/
def decoded (h : Header) (status : Byte) (s : State) : State :=
  { s with rx := { s.rx with hdr := h, hdrSet := true, epStatus := status } }

/-- The header of a profile-A frame. -/
def headerA (code fromAddr toAddr : Byte) : Header :=
  { Header.zero with code := code, fromAddr := [fromAddr], toAddr := [toAddr] }

/-- The header of a profile-B frame. -/
def headerB (x y opcode n : Byte) : Header := { Header.zero with addr := [x, y], opcode := opcode, bodyLen := n }

/-- An endpoint that holds the frame of vector X2. -/
def busyA : State :=
  decoded (headerA 0x05 0x10 0x20) 0x00 (receiving .busy [0x05, 0x10, 0x20, 0xAA, 0x55, 0xFF] 0x00 epA)

/-- "device-v1". -/
def deviceV1 : List Byte := [0x64, 0x65, 0x76, 0x69, 0x63, 0x65, 0x2D, 0x76, 0x31]

/-- The answer is a next state of which this holds. -/
def gives (o : Out) (p : State → Bool) : Bool :=
  match o with
  | .next t => p t
  | .fault _ => false
  | .refused _ => false

/-- The answer is a refusal. -/
def refuses (o : Out) (r : Refusal) : Bool :=
  match o with
  | .refused q => q = r
  | .next _ => false
  | .fault _ => false

/-! Ill-formed operands. -/

/-- R129: a length above the bytes, a seed wider than CK_W. -/
theorem test_illFormed_ckBlock :
    WellFormed epA.cfg (.ckBlock [0xAA] 2 0) = false ∧ WellFormed epA.cfg (.ckBlock [0xAA] 1 0x100) = false ∧
    WellFormed epA.cfg (.ckBlock [0xAA] 1 0xFF) = true ∧ WellFormed epB.cfg (.ckBlock [0xAA] 1 0xFFFF) = true := by decide

/-- R141, R142, R143, R177, R232: too few or too many header bytes. -/
theorem test_illFormed_headers :
    WellFormed epA.cfg (.hdrPack [0x05, 0x10] 0) = false ∧ WellFormed epA.cfg (.hdrUnpack [0x05, 0x10]) = false ∧
    WellFormed epA.cfg (.encode [0x05] []) = false ∧ WellFormed epA.cfg (.epReply [0x05, 0x10, 0x20, 0] [] false) = false ∧
    WellFormed mB.cfg (.mQuery true [0x01, 0x00] [] false) = false := by decide

/-- R82: the body length is one byte. -/
theorem test_illFormed_frameB :
    WellFormed epB.cfg (.frameB 1 0 1 (List.replicate 256 0)) = false ∧
    WellFormed epB.cfg (.frameB 1 0 1 (List.replicate 255 0)) = true := by decide +kernel

/-! Words, from the code table of R100 (operands: log 11; line arrivals: log 12). -/

/-- The checksum and codec commands. -/
theorem test_decode_checksum_codec :
    decode epA.cfg [0x00] = .ok (.nop, []) ∧ decode epA.cfg [0x01] = .ok (.ckInit, []) ∧
    decode epA.cfg [0x02, 0xFF] = .ok (.ckUpdate 0xFF, []) ∧
    decode epB.cfg [0x03, 1, 0x31, 0, 0, 0, 0, 1, 0x12, 0x34] = .ok (.ckBlock [0x31] 1 0x1234, []) ∧
    decode epA.cfg [0x04] = .ok (.ckEmit, []) ∧ decode epA.cfg [0x05] = .ok (.ckCheck, []) ∧
    decode epB.cfg [0x06, 0x01, 0x00, 0x01, 0x09] = .ok (.hdrPack [0x01, 0x00, 0x01] 9, []) ∧
    decode epB.cfg [0x07, 0x01, 0x00, 0x01, 0x09] = .ok (.hdrUnpack [0x01, 0x00, 0x01, 0x09], []) ∧
    decode epA.cfg [0x08, 0x05, 0x10, 0x20, 1, 0xAA, 0] = .ok (.encode [0x05, 0x10, 0x20] [0xAA], []) ∧
    decode epA.cfg [0x09, 1, 0x02, 1, 0x03, 0] = .ok (.validate [0x02, 0x03], []) := by decide

/-- The endpoint's commands. -/
theorem test_decode_endpoint :
    decode epA.cfg [0x0A] = .ok (.epPollIdleOther, []) ∧ decode epA.cfg [0x0B] = .ok (.epListen, []) ∧
    decode epA.cfg [0x0C] = .ok (.epDone, []) ∧
    decode epA.cfg [0x0D, 0x05, 0x20, 0x10, 1, 0x11, 0, 1] = .ok (.epReply [0x05, 0x20, 0x10] [0x11] true, []) ∧
    decode epA.cfg [0x0E] = .ok (.epFault, []) ∧ decode epA.cfg [0x0F] = .ok (.epReset, []) := by decide

/-- The direction and master commands. -/
theorem test_decode_direction_master :
    decode epA.cfg [0x10] = .ok (.dirTx, []) ∧ decode epA.cfg [0x11] = .ok (.dirRx, []) ∧
    decode epA.cfg [0x12, 0, 0] = .ok (.send [] false, []) ∧
    decode mB.cfg [0x13, 0, 0, 0x25, 0x80] = .ok (.mBegin 9600, []) ∧
    decode mB.cfg [0x14, 1, 0x02, 0, 0] = .ok (.mRawSend [0x02] false, []) ∧
    decode mB.cfg [0x15, 1, 0x02, 0, 1] = .ok (.mRawQuery [0x02] true, []) ∧
    decode mB.cfg [0x16, 1, 0x01, 0x00, 0x01, 0, 1] = .ok (.mQuery true [0x01, 0x00, 0x01] [] true, []) := by decide

/-- The reserved codes. -/
theorem test_decode_reserved :
    decode epA.cfg [0x17] = .ok (.reserved17, []) ∧ decode epA.cfg [0x18] = .ok (.reserved18, []) ∧
    decode epA.cfg [0x19] = .ok (.reserved19, []) ∧ decode epA.cfg [0x1A] = .ok (.reserved1A, []) ∧
    decode epA.cfg [0x1B] = .ok (.reserved1B, []) ∧ decode epA.cfg [0x1C] = .ok (.reserved1C, []) ∧
    decode epA.cfg [0x1D] = .ok (.reserved1D, []) ∧ decode epA.cfg [0x1E] = .ok (.reserved1E, []) ∧
    decode epA.cfg [0x1F] = .ok (.reserved1F, []) := by decide

/-- What is no command. -/
theorem test_decode_refuses :
    decode epA.cfg [0x27] = .error .unknownFirstByte ∧
    decode epA.cfg [] = .error .noBytes ∧ decode epA.cfg [0x02] = .error .truncated ∧
    decode epA.cfg [0x12, 0, 2] = .error .badBit ∧ decode epA.cfg [0x09, 2, 0] = .error .badSequence ∧
    decode epA.cfg [0x03, 0, 0, 0, 0, 1, 0] = .error .illFormed := by decide

/-- What arrives on the line. -/
theorem test_decode_arrivals :
    decode epA.cfg [0x20] = .ok (.byteStart, []) ∧ decode epA.cfg [0x21] = .ok (.byteEnd, []) ∧
    decode epA.cfg [0x22, 0x55] = .ok (.byteData 0x55, []) ∧ decode epA.cfg [0x23, 0x55] = .ok (.byteOther 0x55, []) ∧
    decode epA.cfg [0x24, 0x01, 0x10, 0x20, 0] = .ok (.frameA 0x01 0x10 0x20 [], []) ∧
    decode epA.cfg [0x25, 0x01, 0x00, 0x07, 1, 0xAA, 0] = .ok (.frameB 0x01 0x00 0x07 [0xAA], []) ∧
    decode epA.cfg [0x26] = .ok (.opcodeInfo, []) := by decide

/-- The eleven rows of EP.POLL from their word 0x0A, by the state R160 looks at. -/
theorem test_select_poll :
    pollCase epA = .idleOther ∧ pollCase (onLine [0x02] epA) = .idleStart ∧ pollCase (onLine [0x03] epA) = .idleOther ∧
    pollCase (onLine [0x02] (receiving .receivingHeader [0x05] 0x1B epA)) = .headerNotLast ∧
    pollCase (onLine [0x02] (receiving .receivingHeader [0x05, 0x10] 0x31 epA)) = .headerLastOk ∧
    pollCase (onLine [0x21] (receiving .receivingHeader [0x01, 0x00, 0x01] 0 epB)) = .headerLastOversize ∧
    pollCase (receiving .receivingBody [0x05, 0x10, 0x20] 0x77 epA) = .receivingNone ∧
    pollCase (onLine [0x11] (withMaxBody 2 (receiving .receivingBody [5, 16, 32, 1, 2, 3] 0 epA))) = .bodyFull ∧
    pollCase (onLine [0x02] (receiving .receivingBody [0x05, 0x10, 0x20] 0x77 epA)) = .bodyRoom ∧
    pollCase (onLine [0x03] (receiving .receivingBody [0x01, 0x10, 0x20, 0xDC] 0 epA)) = .bodyEndValid ∧
    pollCase (onLine [0x03] (receiving .receivingBody [0, 0, 0] 0 epA)) = .bodyEndInvalid ∧
    pollCase (onLine [0x03] busyA) = .ignored := by decide +kernel

/-- The first instruction after reset from a table word: code 0x0B, EP.LISTEN. -/
theorem test_fetch : decodeTableWord 8 0x0B = some .epListen ∧ decodeTableWord 8 0x1F = some .reserved1F ∧
    decode epA.cfg (epA.withFetchWord 8 0x0B).port = .ok (.epListen, []) := by decide +kernel

/-! One step against the spec's vectors. -/

/-- Z5. -/
theorem test_nop : gives (exec .nop epA) (fun t => t = { epA with result := .nothing }) = true := by decide

/-- K1, K2. -/
theorem test_ckUpdate : gives (exec (.ckUpdate 0x80) epA) (fun t => t.ck = 0x89) = true ∧
    gives (exec (.ckUpdate 0x00) { epA with ck := 0xFF }) (fun t => t.ck = 0xF3) = true := by decide +kernel

/-- K8, K9. -/
theorem test_ckUpdate16 : gives (exec (.ckUpdate 0xFF) epB) (fun t => t.ck = 0x1EF0) = true ∧
    gives (exec (.ckUpdate 0x00) { epB with ck := 0xFFFF }) (fun t => t.ck = 0xE1F0) = true := by decide +kernel

/-- P4 steps 16 and 18. -/
theorem test_ckBlock :
    gives (exec (.ckBlock [0x05, 0x10, 0x20, 0xAA, 0x55] 3 0) epA) (fun t => t.ck = 0x77 ∧ t.result = .checksum 0x77) ∧
    gives (exec (.ckBlock [0xAA, 0x55] 0 0x77) epA) (fun t => t.result = .checksum 0x77) := by decide +kernel

/-- K16, K17. -/
theorem test_sum8 : CkAlgo.sum8.fold 0 [0x05, 0x10, 0x20, 0xAA, 0x55] = 0x34 ∧ CkAlgo.sum8.emit 0x34 = [0xCC] ∧
    CkAlgo.sum8.fold 0 [0x31, 0x32, 0x33, 0x34, 0x35, 0x36, 0x37, 0x38, 0x39] = 0xDD := by decide +kernel

/-- K10, K12, K14. -/
theorem test_crc16 :
    CkAlgo.crc16.fold 0 [0x31, 0x32, 0x33, 0x34, 0x35, 0x36, 0x37, 0x38, 0x39] = 0x31C3 ∧
    CkAlgo.crc16.fold 0x31C3 [0xC3, 0x31] = 0xBAFE ∧ CkAlgo.crc16.fold 0 [0x01, 0x00, 0x01, 0x00] = 0x4585 := by
  decide +kernel

/-- K3, K4. -/
theorem test_crc8 :
    CkAlgo.crc8.fold 0 [0x31, 0x32, 0x33, 0x34, 0x35, 0x36, 0x37, 0x38, 0x39] = 0xF4 ∧ CkAlgo.crc8.upd 0xF4 0xF4 = 0 := by
  decide +kernel

/-- E11. -/
theorem test_hdr : gives (exec (.hdrPack [0x01, 0x00, 0x01] 0) epB) (fun t => t.result = .bytes [0x01, 0x00, 0x01, 0x00]) ∧
    gives (exec (.hdrUnpack [0x01, 0x00, 0x01, 0x09]) epB) (fun t => t.result = .header (headerB 1 0 1 9)) := by
  decide +kernel

/-- E3, E8. -/
theorem test_encode :
    gives (exec (.encode [0x01, 0x20, 0x10] deviceV1) epA)
      (fun t => t.result = .bytes ([0x02, 0x01, 0x20, 0x10] ++ deviceV1 ++ [0x67, 0x03]) ∧ t.ck = 0x67) ∧
    gives (exec (.encode [0x05, 0x10, 0x20] [0xAA, 0x55, 0x11]) (withMaxBody 2 epA))
      (fun t => t.result = .refusedFor 0x09 ∧ t.ck = 0) := by decide +kernel

/-- E6, E7. -/
theorem test_encodeB :
    encodeFrame epB.cfg [0x01, 0x00, 0x07] [0xAA, 0x55] = [0x02, 0x01, 0x00, 0x07, 0x02, 0xAA, 0x55, 0xF8, 0xE5, 0x03] ∧
    encodeFrame (Config.of .endpoint Profile.bhb [1, 0]) [0x01, 0x00, 0x07] [0xAA, 0x55] =
      [0x02, 0x01, 0x00, 0x07, 0x02, 0xAA, 0x55, 0x82, 0x08, 0x03] := by decide +kernel

/-- V3, V6, V9. -/
theorem test_validate :
    gives (exec (.validate [0x00, 0x00, 0x02, 0x01, 0x10, 0x20, 0xDC, 0x03, 0xFF]) epA)
      (fun t => t.result = .validated .msgReady 0x00 (some (headerA 0x01 0x10 0x20, []))) ∧
    gives (exec (.validate [0x02, 0x05, 0x10, 0x20, 0x1B, 0x03, 0x03]) epA)
      (fun t => t.result = .validated .corrupted 0x05 none) ∧
    gives (exec (.validate [0x02, 0x00, 0x00, 0x00, 0x00, 0x03]) epA)
      (fun t => t.result = .validated .msgReady 0x00 (some (headerA 0 0 0, []))) := by decide +kernel

/-- X1, third byte and fourth byte. -/
theorem test_poll_header :
    gives (exec .epPollHeaderNotLast (onLine [0x10] (receiving .receivingHeader [0x01] 0x07 epA)))
      (fun t => t.result = .event .stored ∧ t.rx.rxCk = 0x65 ∧ t.rx.rxCnt = 2) ∧
    gives (exec .epPollHeaderLastOk (onLine [0x20] (receiving .receivingHeader [0x01, 0x10] 0x65 epA)))
      (fun t => t.result = .event .headerDone ∧ t.rx.rxCk = 0xDC ∧ t.rx.hdr = headerA 0x01 0x10 0x20) := by decide +kernel

/-- X7: the length byte of a header that declares too much. -/
theorem test_poll_oversize :
    gives (exec .epPollHeaderLastOversize
        (onLine [0x09, 0x64] (withMaxBody 8 (receiving .receivingHeader [0x01, 0x00, 0x01] 0 epB))))
      (fun t => t.result = .event .overflow ∧ t.rx.epState = .idle ∧ t.rx.epStatus = 0x09 ∧ t.rx.hdr.bodyLen = 9 ∧
        t.line.waiting = [0x64]) = true := by decide +kernel

/-- X5: the buffer is full; X6: no room for a checksum byte. -/
theorem test_poll_body_limits :
    gives (exec .epPollBodyFull (onLine [0x11] (withMaxBody 2 (receiving .receivingBody [5, 16, 32, 0xAA, 0x55, 0xFF] 0 epA))))
      (fun t => t.result = .event .overflow ∧ t.rx.rxCnt = 6 ∧ t.rx.epStatus = 0x09 ∧ memGet t.rx.rxbuf 6 = none) ∧
    gives (exec .epPollBodyEndInvalid (onLine [0x03] (receiving .receivingBody [0, 0, 0] 0 epA)))
      (fun t => t.result = .event .corrupted ∧ t.rx.epState = .idle ∧ t.rx.epStatus = 0x05) := by decide +kernel

/-- X8, the first body byte; X4, the end delimiter with the buffer full. -/
theorem test_poll_body :
    gives (exec .epPollBodyRoom (onLine [0xAA] (receiving .receivingBody [0x01, 0x00, 0x07, 0x02] 0 epB)))
      (fun t => t.result = .event .stored ∧ t.rx.rxCk = 0x14A0 ∧ t.rx.rxCnt = 5) ∧
    gives (exec .epPollBodyEndValid (onLine [0x03] (withMaxBody 2 (receiving .receivingBody [5, 16, 32, 0xAA, 0x55, 0xFF] 0 epA))))
      (fun t => t.result = .event .msgReady ∧ t.rx.epState = .busy) := by decide +kernel

/-- X3, X17: Idle. -/
theorem test_poll_idle :
    gives (exec .epPollIdleOther (onLine [0x00] (decoded Header.zero 0x05 epA)))
      (fun t => t.result = .event .notDetected ∧ t.rx.epStatus = 0x05 ∧ t.line.waiting = []) ∧
    gives (exec .epPollIdleStart (onLine [0x02] (decoded Header.zero 0x05 epA)))
      (fun t => t.result = .event .frameStart ∧ t.rx.epStatus = 0x00 ∧ t.rx.epState = .receivingHeader) := by decide +kernel

/-- X11's pause; X13. -/
theorem test_poll_nothing :
    gives (exec .epPollReceivingNone (receiving .receivingHeader [0x05, 0x10] 0x31 epA))
      (fun t => t.result = .event .noByte ∧ t.rx.rxCnt = 2) ∧
    gives (exec .epPollIgnored (onLine [0x99] busyA)) (fun t => t.result = .event .ignored ∧ t.line.waiting = [0x99]) := by
  decide +kernel

/-- X14 (b) and (c). -/
theorem test_listen :
    gives (exec .epListen (onLine [0x02, 0x05, 0x10] epA))
      (fun t => t.result = .listenTimeout ∧ t.rx.epState = .receivingHeader ∧ t.rx.rxCk = 0x31 ∧ t.line.now = 1000) ∧
    gives (exec .epListen (onLine [0x02, 0x01, 0x10, 0x20, 0xDC, 0x03] epA))
      (fun t => t.result = .event .msgReady ∧ t.rx.hdr = headerA 0x01 0x10 0x20) := by decide +kernel

/-- X15. -/
theorem test_reply :
    gives (exec (.epReply [0x05, 0x20, 0x10] [] false) busyA)
      (fun t => t.result = .count 6 ∧ acceptedBytes t = [0x02, 0x05, 0x20, 0x10, 0x1E, 0x03] ∧ t.rx.epState = .busy) ∧
    gives (exec (.epReply [0x05, 0x20, 0x10] [] false) (short 4 busyA))
      (fun t => t.result = .count 4 ∧ t.rx.epStatus = 0x11 ∧ t.dir = .rx) := by decide +kernel

/-- X16, X13. -/
theorem test_done_fault_reset :
    gives (exec .epDone busyA) (fun t => t.rx = { busyA.rx with epState := .idle }) ∧
    gives (exec .epDone epA) (fun t => t.result = .refused) ∧ gives (exec .epFault busyA) (fun t => t.rx.epState = .error) ∧
    gives (exec .epReset { busyA with dir := .tx })
      (fun t => t.rx.epState = .idle ∧ t.rx.rxCnt = 0 ∧ t.dir = .rx ∧ t.rx.rxbuf = [] ∧ t.rx.hdrSet = false) := by
  decide +kernel

/-- T1, T2. -/
theorem test_dir : gives (exec .dirTx epA) (fun t => t.dir = .tx) ∧
    gives (exec .dirRx { epA with dir := .tx }) (fun t => t.dir = .rx ∧ t.line.trace = epA.line.trace ++ [.direction .rx]) := by
  decide

/-- T4, T6. -/
theorem test_send :
    gives (exec (.send [0x02, 0x01, 0x10, 0x20, 0xDC, 0x03] true) epA)
      (fun t => t.result = .sent 6 0x00 ∧ acceptedBytes t = [0, 0, 0, 0, 0x02, 0x01, 0x10, 0x20, 0xDC, 0x03]) ∧
    gives (exec (.send [0x02, 0x01, 0x10, 0x20, 0xDC, 0x03] true) (short 2 epA))
      (fun t => t.result = .sent 6 0x11 ∧ acceptedBytes t = [0, 0, 0x02, 0x01, 0x10, 0x20, 0xDC, 0x03]) := by decide +kernel

/-- P2 step 2, Z4. -/
theorem test_begin :
    gives (exec (.mBegin 9600) (State.resetWith mB.cfg)) (fun t => t.mq.mState = .idle ∧ t.mq.qValid = false) ∧
    gives (exec (.mBegin 9600) epA) (fun t => t.result = .refused) := by decide +kernel

/-- M17; M16. -/
theorem test_rawSend :
    gives (exec (.mRawSend [0x02, 0x01, 0x10, 0x20, 0xDC, 0x03] false) (short 3 mB))
      (fun t => t.result = .count 3 ∧ t.mq.qStatus = 0x11 ∧ t.mq.mState = .idle) ∧
    gives (exec (.mRawSend [0x02] false) (State.resetWith mB.cfg)) (fun t => t.result = .refused) := by decide +kernel

/-- M18 with M6. -/
theorem test_rawQuery :
    gives (exec (.mRawQuery [0x02, 0x01, 0x00, 0x01, 0x00, 0x00, 0x00, 0x03] true) (responding [0x02, 0x01, 0x00] mB))
      (fun t => t.result = .query 0x21 none ∧ t.mq.qCnt = 2 ∧ t.mq.mState = .idle ∧
        acceptedBytes t = [0, 0, 0, 0, 0x02, 0x01, 0x00, 0x01, 0x00, 0x00, 0x00, 0x03]) = true := by decide +kernel

/-- M7. -/
theorem test_query_short :
    gives (exec (.mQuery true [0x01, 0x00, 0x01] [] false)
        (responding [0x02, 0x01, 0x00, 0x01, 0x09, 0x64, 0x65, 0x76, 0x69] mB))
      (fun t => t.mq.qStatus = 0x25 ∧ t.mq.qValid = true ∧ t.mq.qCnt = 8) = true := by decide +kernel

/-- M12. -/
theorem test_query_overlong :
    gives (exec (.mQuery true [0x01, 0x00, 0x01] [] false)
        (withMaxBody 8 (responding ([0x02, 0x01, 0x00, 0x01, 0x09] ++ deviceV1 ++ [0xC1, 0xF1, 0x03]) mB)))
      (fun t => t.mq.qStatus = 0x0D ∧ t.mq.qValid = true ∧ t.mq.qCnt = 14 ∧ t.line.waiting = []) = true := by
  decide +kernel

/-- A byte that arrives (X1, X6, X3) and the INFO opcode byte as header byte. -/
theorem test_arrivals :
    gives (exec .byteStart epA) (fun t => t.result = .event .frameStart) ∧
    gives (exec .byteEnd (receiving .receivingBody [0, 0, 0] 0 epA)) (fun t => t.result = .event .corrupted) ∧
    gives (exec (.byteData 0x01) (receiving .receivingHeader [] 0 epA)) (fun t => t.rx.rxCk = 0x07) ∧
    gives (exec (.byteOther 0x00) epA) (fun t => t.result = .event .notDetected) ∧
    gives (exec .opcodeInfo (receiving .receivingHeader [] 0 epA)) (fun t => t.rx.rxCk = 0x07 ∧ t.rx.rxCnt = 1) := by
  decide +kernel

/-- X2 and X8 as whole frames. -/
theorem test_frames :
    gives (exec (.frameA 0x05 0x10 0x20 [0xAA, 0x55]) epA)
      (fun t => t.rx.epState = .busy ∧ t.rx.rxCnt = 6 ∧ t.rx.rxbuf = bufferOf [0x05, 0x10, 0x20, 0xAA, 0x55, 0xFF]) ∧
    gives (exec (.frameB 0x01 0x00 0x07 [0xAA, 0x55]) epB) (fun t => t.rx.epState = .busy ∧ t.rx.rxCnt = 8) := by
  decide +kernel

/-- A reserved code is refused by exec with nothing changed (Z3). -/
theorem test_reserved : gives (exec .reserved17 busyA) (fun t => t = { busyA with result := .refused }) = true := by decide

/-- Z6. -/
theorem test_timer_wrap :
    expired 1000 { epA with t0 := 0xFFFFFF00, line := { epA.line with now := 0x2E8 } } = true ∧
    expired 1000 { epA with t0 := 0xFFFFFF00, line := { epA.line with now := 0x2E7 } } = false := by decide

/-! Witnesses: for each obligation with hypotheses, a state and operands that meet them, clause by clause. -/

/-- The default header of a profile-B command. -/
def fieldsB : List Byte := [0x01, 0x00, 0x01]

/-- CRC8 meets the neutrality law, in the profile of `epA`. -/
theorem witness_neutral : epA.cfg.profile.algo.Neutral := by
  intro c hc
  have h : ∀ x : BitVec 8, CkAlgo.crc8.fold (x.setWidth 16) (CkAlgo.crc8.emit (x.setWidth 16)) = 0 := by decide +kernel
  have e : (c.setWidth 8).setWidth 16 = c := by
    apply BitVec.eq_of_toNat_eq
    simp only [epA, State.reset, State.resetWith, Config.standard, Config.of, Profile.a, CkAlgo.width] at hc
    simp only [BitVec.toNat_setWidth]
    omega
  exact e ▸ h (c.setWidth 8)

/-- The lawful configurations used below. -/
theorem witness_cfg_ok : epA.cfg.ok = true ∧ epB.cfg.ok = true ∧ mA.cfg.ok = true ∧ mB.cfg.ok = true ∧
    (withMaxBody 2 epA).cfg.ok = true ∧ (Config.of .endpoint Profile.bhb [1, 0]).ok = true := by decide +kernel

theorem witness_DecodeEncodeAgree :
    WellFormed epB.cfg (.ckBlock [0xAA] 1 0xFFFF) = true ∧ WellFormed epA.cfg (.hdrPack [0xFF, 0x00, 0x02] 0xFF) = true ∧
    WellFormed epB.cfg (.hdrUnpack [0x01, 0x00, 0x01, 0xFF]) = true ∧ WellFormed epA.cfg (.encode [1, 2, 3] [0x03]) = true ∧
    WellFormed epA.cfg (.epReply [1, 2, 3] [] true) = true ∧ WellFormed mB.cfg (.mQuery true fieldsB [0] true) = true ∧
    WellFormed epB.cfg (.frameB 1 0 1 (List.replicate 255 0)) = true := by decide +kernel

theorem witness_OnlyWellFormedIsDecoded :
    decode epA.cfg [0x0D, 1, 2, 3, 0, 1, 0x0C] = .ok (.epReply [1, 2, 3] [] true, [0x0C]) ∧
    WellFormed epA.cfg (.epReply [1, 2] [] true) = false := by decide

theorem witness_StepRunsDecoded :
    decode epA.cfg [0x0C, 0x00] = .ok (.epDone, [0x00]) ∧ opcodeByte .epDone ≠ 0x0A ∧
    decode epA.cfg [0x0A] = .ok (.epPollIdleOther, []) ∧ opcodeByte .epPollIdleOther = 0x0A ∧
    opcodeByte .epPollBodyFull = 0x0A ∧ epA.cfg.role = .endpoint ∧ epA.port = [] ∧ decode epA.cfg [0x40] = .error .unknownFirstByte := by decide

theorem witness_RefusedCommands :
    (opcodeByte .reserved17).toNat = 0x17 ∧ (opcodeByte .reserved1F).toNat = 0x1F ∧
    (commandRole (.mBegin 0) = some .master ∧ epA.cfg.role ≠ .master ∧ WellFormed epA.cfg (.mBegin 0) = true) ∧
    (commandRole .epPollIgnored = some .endpoint ∧ mB.cfg.role ≠ .endpoint) ∧ epA.rx.epState ≠ .busy ∧
    epA.cfg.fieldsFit [1, 2, 3] = true ∧
    (let s := { mB with mq := { mB.mq with mState := .receiving } }; s.mq.mState ≠ .setup ∧ s.mq.mState ≠ .idle) ∧
    (State.resetWith mB.cfg).mq.mState ≠ .idle ∧ mB.cfg.fieldsFit fieldsB = true := by decide +kernel

theorem witness_CkBlockFolds :
    (2 : BitVec 32).toNat ≤ ([0xAA, 0x55] : List Byte).length ∧ epA.cfg.ckFits 0xFF = true ∧
    epB.cfg.ckFits 0xFFFF = true ∧ (0 : BitVec 32).toNat ≤ ([] : List Byte).length ∧
    gives (exec (.ckBlock [0x05, 0x10, 0x20] 3 0) epA) (fun u => u.result = .checksum 0x77 ∧
      gives (exec (.ckBlock [0xAA, 0x55] 2 0x77) u) (fun v => v.result = .checksum 0xFF)) := by decide +kernel

theorem witness_CkEmitAndCheck : epA.cfg.ckSeed = 0 ∧ gives (exec .ckInit epA) (fun t => t.ck = 0) = true := by decide

theorem witness_checksum_algorithms :
    (0xFF : Ck).toNat < 2 ^ (8 * CkAlgo.crc8.width) ∧ (0xFFFF : Ck).toNat < 2 ^ (8 * CkAlgo.crc16.width) ∧
    ([0xFF] : List Byte).length = CkAlgo.crc8.width ∧ ([0xC1, 0xF1] : List Byte).length = CkAlgo.crc16.width ∧
    (0xFF : Ck).toNat < 2 ^ (8 * CkAlgo.sum8.width) := by decide

theorem witness_HeaderPackUnpack :
    epA.cfg.fieldsFit [1, 2, 3] = true ∧ epB.cfg.fieldsFit fieldsB = true ∧
    ([0x01, 0x00, 0x01, 0x09] : List Byte).length = epB.cfg.hdrLen ∧ ([1, 2, 3] : List Byte).length = epA.cfg.hdrLen ∧
    epA.cfg.profile.layout.Nodup ∧ epB.cfg.profile.layout.Nodup ∧ epB.cfg.profile.lenW = true := by decide

theorem witness_EncodeFrames :
    epA.cfg.fieldsFit [1, 2, 3] = true ∧ (List.replicate 32 (0x00 : Byte)).length ≤ epA.cfg.maxBody ∧
    epA.cfg.maxBody < (List.replicate 33 (0x00 : Byte)).length := by decide

theorem witness_ValidateRoundTrip :
    epA.cfg.fieldsFit [0x02, 0x03, 0x02] = true ∧ (List.replicate 32 (0x02 : Byte)).length ≤ epA.cfg.maxBody ∧
    frameSafe epA.cfg (headerFor epA.cfg [0x02, 0x03, 0x02] (List.replicate 32 0x02)) (List.replicate 32 0x02) = true := by
  decide +kernel

theorem witness_ValidateIsPure :
    epA.cfg.startDelim ∉ ([0x05, 0x10, 0x20] : List Byte) ∧
    gives (exec (.validate [0x02, 0x00, 0x00, 0x00, 0x03]) epA)
      (fun t => t = { epA with result := .validated .corrupted 0x05 none }) = true := by decide +kernel

theorem witness_PollWithoutByte :
    inFrame (receiving .receivingHeader [0x05] 0x1B epA).rx.epState ∧ lineRead (look (receiving .receivingHeader [0x05] 0x1B epA)) = none ∧
    busyA.rx.epState = .busy ∧ busyA.cfg.role = .endpoint ∧ ({ epA with dir := .tx } : State).dir = .tx :=
  ⟨Or.inl rfl, rfl, rfl, rfl, rfl⟩

theorem witness_idle_bytes :
    epA.rx.epState = .idle ∧ lineRead (look epA) = none ∧
    lineRead (look (onLine [0x03] epA)) = some (0x03, epA) ∧ (0x03 : Byte) ≠ epA.cfg.startDelim ∧
    lineRead (look (onLine [0x02, 0x05] epA)) = some (epA.cfg.startDelim, onLine [0x05] epA) := by decide

theorem witness_HeaderByteStored :
    let s := onLine [0x02] (receiving .receivingHeader [0x05] 0x1B epA)
    s.cfg.role = .endpoint ∧ s.rx.epState = .receivingHeader ∧ s.rx.rxCnt + 1 < s.cfg.hdrLen ∧
    lineRead (look s) = some (0x02, receiving .receivingHeader [0x05] 0x1B epA) := by decide

theorem written_of_all {m : Mem} {n : Nat} (h : (List.range n).all (fun i => (memGet m i).isSome) = true) : Written m n :=
  fun i hi => List.all_eq_true.mp h i (List.mem_range.mpr hi)

/-- The length bytes 0x20 and 0x21 stand on both sides of MAX_BODY. -/
theorem witness_last_header_byte :
    let s := receiving .receivingHeader [0x01, 0x00, 0x01] 0 epB
    s.cfg.role = .endpoint ∧ s.rx.epState = .receivingHeader ∧ s.rx.rxCnt + 1 = s.cfg.hdrLen ∧
    Written s.rx.rxbuf s.rx.rxCnt ∧ lineRead (look (onLine [0x20] s)) = some (0x20, s) ∧
    (0x20 : Byte).toNat ≤ s.cfg.maxBody ∧ lineRead (look (onLine [0x21] s)) = some (0x21, s) ∧
    s.cfg.profile.lenW = true ∧ s.cfg.maxBody < (0x21 : Byte).toNat :=
  ⟨rfl, rfl, by decide, written_of_all (by decide), by decide, by decide, by decide, rfl, by decide⟩

theorem witness_body_bytes :
    let s := withMaxBody 2 (receiving .receivingBody [5, 16, 32, 0xAA, 0x55] 0xFF epA)
    let f := withMaxBody 2 (receiving .receivingBody [5, 16, 32, 0xAA, 0x55, 0xFF] 0 epA)
    s.rx.epState = .receivingBody ∧ lineRead (look (onLine [0x02] s)) = some (0x02, s) ∧ (0x02 : Byte) ≠ s.cfg.endDelim ∧
    s.rx.rxCnt < s.cfg.bufCap ∧ lineRead (look (onLine [0x02] f)) = some (0x02, f) ∧ f.rx.rxCnt = f.cfg.bufCap ∧
    lineRead (look (onLine [0x03] f)) = some (f.cfg.endDelim, f) ∧ f.cfg.hdrLen + f.cfg.ckW ≤ f.rx.rxCnt ∧ f.rx.rxCk = 0 ∧
    lineRead (look (onLine [0x03] s)) = some (s.cfg.endDelim, s) ∧ s.rx.rxCk ≠ 0 := by decide

/-- The other reason for the verdict Corrupted (X6). -/
theorem witness_no_checksum_byte :
    let s := receiving .receivingBody [0, 0, 0] 0 epA
    s.rx.rxCk = 0 ∧ s.rx.rxCnt < s.cfg.hdrLen + s.cfg.ckW := by decide

theorem witness_poll_answers :
    gives (exec .epPollIdleStart (onLine [0x02] epA)) (fun t => t.rx.epState ≠ epA.rx.epState) ∧
    gives (exec .epDone busyA) (fun t => t.rx.epState ≠ busyA.rx.epState) ∧
    gives (exec .epFault busyA) (fun t => t.rx.epState ≠ busyA.rx.epState) := by decide +kernel

/-- A receiver that holds a frame meets the invariant (R191). -/
theorem witness_receiverInv : ReceiverInv busyA.cfg busyA.rx where
  notTransmitting := by decide
  cntLe := by decide
  inHeader := by decide
  inBody := by decide
  checksum := by rintro (h | h) <;> cases h
  busyChecksum := fun _ => rfl
  busyStatus := fun _ => rfl
  busyCount := by decide
  frameStatus := by rintro (h | h) <;> cases h
  status := by decide
  bufferWf := by decide
  written := written_of_all (by decide)
  header := fun _ => by decide
  headerSet := fun _ => rfl
  fits := by decide

/-- A receiver in the middle of a body meets it too (vector X2 after 77, 1D). -/
theorem witness_receiverInv_body :
    let s := decoded (headerA 0x05 0x10 0x20) 0x00 (receiving .receivingBody [0x05, 0x10, 0x20, 0xAA] 0x1D epA)
    ReceiverInv s.cfg s.rx ∧ pollsLine s.rx.epState = true :=
  ⟨{ notTransmitting := by decide
     cntLe := by decide
     inHeader := by decide
     inBody := by decide
     checksum := fun _ => by decide +kernel
     busyChecksum := by decide
     busyStatus := by decide
     busyCount := by decide
     frameStatus := fun _ => rfl
     status := by decide
     bufferWf := by decide
     written := written_of_all (by decide)
     header := fun _ => by decide
     headerSet := fun _ => rfl
     fits := by decide }, rfl⟩

/-- The result registers of a master that has received M10's empty reply. -/
def answeredB : State :=
  { mB with mq := { mB.mq with
      qValid := true, qHdr := headerB 1 0 1 0, qbuf := bufferOf [1, 0, 1, 0, 0, 0], qCnt := 6 } }

theorem witness_Inv : Inv answeredB where
  cfgOk := by decide +kernel
  rx :=
    { notTransmitting := by decide
      cntLe := by decide
      inHeader := by decide
      inBody := by decide
      checksum := by rintro (h | h) <;> cases h
      busyChecksum := by decide
      busyStatus := by decide
      busyCount := by decide
      frameStatus := by rintro (h | h) <;> cases h
      status := by decide
      bufferWf := by decide
      written := written_of_all (by decide)
      header := by decide
      headerSet := by decide
      fits := by decide }
  mq :=
    { cntLe := by decide
      status := by decide
      bufferWf := by decide
      written := written_of_all (by decide)
      validCount := by decide
      header := fun _ => by decide }
  rests := Or.inr rfl
  ckFits := by decide
  hdrFits := by decide
  qHdrFits := by decide

/-- A command that such a state runs. -/
theorem witness_step :
    gives (step { answeredB with port := [0x14, 1, 0x02, 0, 0] }) (fun t => t.result = .count 1 ∧ t.port = []) = true := by
  decide +kernel

theorem witness_ListenRepeatsPolls : epA.cfg.role = .endpoint ∧ pollsLine busyA.rx.epState = false := ⟨rfl, rfl⟩

theorem witness_ListenReceivesFrame :
    let s := onLine (encodeFrame epA.cfg [0x05, 0x10, 0x20] [0xAA, 0x55] ++ [0x02]) epA
    s.cfg.role = .endpoint ∧ s.cfg.fieldsFit [0x05, 0x10, 0x20] = true ∧ ([0xAA, 0x55] : List Byte).length ≤ s.cfg.maxBody ∧
    frameSafe s.cfg (headerFor s.cfg [0x05, 0x10, 0x20] [0xAA, 0x55]) [0xAA, 0x55] = true ∧ s.rx.epState = .idle ∧
    s.dir = .rx ∧ s.line.looks = [] ∧
    s.line.waiting = [0x02, 0x05, 0x10, 0x20, 0xAA, 0x55, 0xFF, 0x03, 0x02] := by decide +kernel

theorem witness_ReplySendsFrame :
    busyA.cfg.role = .endpoint ∧ busyA.rx.epState = .busy ∧ busyA.cfg.fieldsFit [5, 32, 16] = true ∧
    (List.replicate 32 (0x00 : Byte)).length ≤ busyA.cfg.maxBody ∧
    busyA.cfg.maxBody < (List.replicate 33 (0x00 : Byte)).length := by decide

theorem witness_EpStatusKept :
    gives (exec .epPollIdleStart (onLine [0x02] (decoded Header.zero 0x05 epA))) (fun t => t.rx.epStatus = 0x00) ∧
    gives (exec (.epReply [5, 32, 16] [] false) (short 4 (decoded (headerA 5 16 32) 0x21 busyA))) (fun t => t.rx.epStatus = 0x31) ∧
    gives (exec .epReset (decoded Header.zero 0x05 epA)) (fun t => t.rx.epStatus = 0x00) := by decide +kernel

/-- An endpoint in Error (X13). -/
def errorA : State := { busyA with rx := { busyA.rx with epState := .error } }

theorem witness_ErrorIsLatched :
    errorA.rx.epState = .error ∧ errorA.cfg.role = .endpoint ∧ errorA.cfg.fieldsFit [5, 32, 16] = true ∧
    gives (exec .epPollIgnored errorA) (fun t => t.result = .event .ignored) ∧
    gives (exec .epListen errorA) (fun t => t.result = .event .ignored) ∧
    gives (exec (.send [0x02] false) errorA) (fun t => t.result = .sent 1 0x00) ∧
    gives (exec (.send [0x02] false) epA) (fun t => t.rx.epState = .idle) ∧
    (hardwareReset epA.cfg errorA).rx.epState = .idle := by decide +kernel

theorem witness_directions :
    gives (exec (.send [0x02] true) epA) (fun t => directAll epA.dir (t.line.trace.drop 1) = some t.dir ∧ t.dir = .rx) ∧
    gives (exec .dirTx epA) (fun t => t.dir = .tx) ∧ epA.dir = .rx ∧
    gives (exec (.epReply [5, 32, 16] [] false) { busyA with dir := .tx }) (fun t => t.dir = .rx) ∧
    gives (exec (.mQuery false fieldsB [] false) { mB with dir := .tx }) (fun t => t.dir = .rx) := by decide +kernel

theorem witness_BeginOpensLine : mB.cfg.role = .master ∧ mB.mq.mState = .idle ∧
    (State.resetWith mB.cfg).mq.mState = .setup := by decide

theorem witness_queries :
    mB.cfg.role = .master ∧ mB.mq.mState = .idle ∧ Memory.wf mB.cfg.bufCap mB.mq.qbuf = true ∧
    Memory.wf answeredB.cfg.bufCap answeredB.mq.qbuf = true ∧ mB.cfg.fieldsFit fieldsB = true ∧
    ([] : List Byte).length ≤ mB.cfg.maxBody ∧ (List.replicate 32 (0x00 : Byte)).length ≤ mB.cfg.maxBody ∧
    mB.cfg.maxBody < (List.replicate 33 (0x00 : Byte)).length ∧ mB.line.accepts = [] ∧ mB.dir = .rx := by decide

/-- Vectors M18 (the guard a write of its own) and M13 (the first of three writes short). -/
theorem witness_QueryWritesFrame :
    QuerySends mB.cfg (.mRawQuery [0x02, 0x01] true) [[0, 0, 0, 0], [0x02, 0x01]] ∧
    QuerySends mB.cfg (.mQuery true fieldsB [] false)
      [[0x02, 0x01, 0x00, 0x01, 0x00], [], [0x00, 0x00, 0x03]] ∧
    acceptedPrefixes (short 3 mB).line.accepts [[0x02, 0x01, 0x00, 0x01, 0x00], [], [0x00, 0x00, 0x03]] =
      [[0x02, 0x01, 0x00], [], [0x00, 0x00, 0x03]] :=
  ⟨Or.inl ⟨_, _, rfl, rfl⟩, Or.inr ⟨fieldsB, [], false, rfl, rfl, by decide, by decide +kernel⟩, by decide⟩

theorem witness_SilentWaitsTimeOut : SilentLine epA ∧ pollsLine epA.rx.epState = true ∧ SilentLine mB ∧
    SilentLine (short 3 mB) ∧ QuerySends mB.cfg (.mRawQuery [0x02] true) [[0, 0, 0, 0], [0x02]] ∧
    gives (exec (.mRawQuery [0x02] true) (short 3 mB)) (fun t => t.mq.qStatus = 0x13) = true :=
  ⟨⟨rfl, rfl⟩, rfl, ⟨rfl, rfl⟩, ⟨rfl, rfl⟩, Or.inl ⟨_, _, rfl, rfl⟩, by decide +kernel⟩

/-- Vector M4's reply with a byte behind it; M1 and M3 are the two values of the checksum bytes' test. -/
theorem witness_CountedReplyReceived :
    let h := headerFor mB.cfg fieldsB deviceV1
    let s := responding ([0x00] ++ [mB.cfg.startDelim] ++ h ++ deviceV1 ++ [0xC1, 0xF1] ++ [mB.cfg.endDelim] ++ [0x55]) mB
    s.cfg.profile.lenW = true ∧ deviceV1.length ≤ s.cfg.maxBody ∧ ([0xC1, 0xF1] : List Byte).length = s.cfg.ckW ∧
    s.cfg.startDelim ∉ ([0x00] : List Byte) ∧ s.line.waiting = [] ∧
    [0xC1, 0xF1] = s.cfg.emit (s.cfg.frameCk h deviceV1) ∧ [0xC1, 0xF2] ≠ s.cfg.emit (s.cfg.frameCk h deviceV1) ∧
    gives (exec (.mQuery true fieldsB [] false) s)
      (fun t => t.mq.qStatus = 0x00 ∧ t.mq.qCnt = 15 ∧ t.line.waiting = [0x55]) ∧
    gives (exec (.mRawQuery [0x02, 0x01] false) (short 1 s))
      (fun t => t.mq.qStatus = 0x11 ∧ t.mq.qCnt = 15 ∧ t.line.waiting = [0x55]) := by decide +kernel

/-- M5, M6, M7, and M12 (MAX_BODY 8: the declared length 9 stands just above it). -/
theorem witness_CountedReceiveReports :
    (mB.cfg.startDelim ∉ ([0x00, 0x00] : List Byte) ∧
      gives (exec (.mQuery true fieldsB [] false) (responding [0x00, 0x00] mB)) (fun t => t.result = .query 0x21 none)) ∧
    ([0x01, 0x00] : List Byte).length < mB.cfg.hdrLen ∧ ([0x01, 0x00, 0x01] : List Byte).length < mB.cfg.hdrLen ∧
    gives (exec (.mQuery true fieldsB [] false) (responding [0x02, 0x01, 0x00] mB)) (fun t => t.mq.qCnt = 2) ∧
    ([0x01, 0x00, 0x01, 0x09] : List Byte).length = mB.cfg.hdrLen ∧
    gives (exec (.mQuery true fieldsB [] false)
        (withMaxBody 8 (responding ([0x02, 0x01, 0x00, 0x01, 0x09] ++ deviceV1 ++ [0xC1, 0xF1, 0x03]) mB)))
      (fun t => t.mq.qStatus = 0x0D ∧ t.line.waiting = []) := by decide +kernel

/-- Vector M20: a good reply, and the reply cut off; then each clause at the edge of its range, with MAX_BODY 0 (one byte
fits behind the header). -/
theorem witness_DelimitedReplyReceived :
    let q := Instr.mQuery true [0x01, 0x10, 0x20] [] false
    let s := responding ([0x00] ++ encodeFrame mA.cfg [0x01, 0x20, 0x10] deviceV1 ++ [0x55]) mA
    let small := fun bytes => withMaxBody 0 (responding (0x02 :: bytes) mA)
    s.cfg.profile.lenW = false ∧ s.cfg.profile.algo = epA.cfg.profile.algo ∧ s.cfg.fieldsFit [0x01, 0x20, 0x10] = true ∧
    deviceV1.length ≤ s.cfg.maxBody ∧ frameSafe s.cfg (headerFor s.cfg [0x01, 0x20, 0x10] deviceV1) deviceV1 = true ∧
    s.cfg.startDelim ∉ ([0x00] : List Byte) ∧ s.line.waiting = [] ∧
    gives (exec q s) (fun t => t.mq.qStatus = 0x00 ∧ t.mq.qCnt = 13 ∧ t.line.waiting = [0x55]) ∧
    gives (exec (.mRawQuery [0x02, 0x03] false) (responding [0x02, 0x01, 0x20, 0x10, 0x64] mA))
      (fun t => t.result = .query 0x21 (some (headerA 0x01 0x20 0x10, [0x01, 0x20, 0x10, 0x64]))) ∧
    gives (exec q (responding [0x00] mA)) (fun t => t.result = .query 0x21 none) ∧
    gives (exec q (small [0x01, 0x20])) (fun t => t.result = .query 0x21 none) ∧
    gives (exec q (small [0x01, 0x20, 0x10, 0xB5, 0x03])) (fun t => t.mq.qStatus = 0x00) ∧
    gives (exec q (small [0x01, 0x20, 0x10, 0x03])) (fun t => t.mq.qStatus = 0x05) ∧
    gives (exec q (small [0x01, 0x20, 0x10, 0xB5, 0x55])) (fun t => t.mq.qStatus = 0x09 ∧ t.mq.qValid = true) ∧
    gives (exec q (small [0x01, 0x20, 0x10, 0xB5])) (fun t => t.mq.qStatus = 0x21 ∧ t.mq.qValid = true) := by
  decide +kernel

theorem witness_TimeoutExcludesReceiveFlags :
    gives (exec (.mQuery true fieldsB [] false) mB) (fun t => t.mq.qStatus.getLsbD 1 = true ∧ t.mq.qStatus = 0x03) ∧
    gives (exec (.mRawQuery [0x02, 0x01] false) (short 1 mB)) (fun t => t.mq.qStatus = 0x13) := by decide +kernel

theorem witness_QueryStatusExplainsContent :
    gives (exec (.mQuery true fieldsB [] false) mB) (fun t => t.mq.qValid = false) ∧
    gives (exec (.mRawQuery [] false) (responding [0x02, 0x01, 0x00, 0x01, 0x00, 0x00, 0x00, 0x03] mB))
      (fun t => t.mq.qStatus = 0x00 ∧ t.mq.qValid = true) := by decide +kernel

theorem witness_QueryIsIdempotent :
    mB.cfg = answeredB.cfg ∧ mB.mq.mState = answeredB.mq.mState ∧ SameAnswers mB answeredB ∧
    gives (exec (.mQuery true fieldsB [] false) mB) (fun t => t.result = .query 0x03 none) ∧
    gives (exec (.mQuery true fieldsB [] false) answeredB) (fun t => t.result = .query 0x03 none) :=
  ⟨rfl, rfl, ⟨rfl, rfl, rfl, rfl⟩, by decide +kernel, by decide +kernel⟩

theorem witness_RegisterWriters :
    gives (exec .ckInit epA) (fun t => t.cfg = epA.cfg) ∧ gives (exec .epListen epA) (fun t => t.freeCount = 1) ∧
    gives (exec .dirTx epA) (fun t => t.dir ≠ epA.dir) := by decide +kernel

theorem witness_BufferBytesFramed :
    gives (exec .epPollHeaderNotLast (onLine [0x10] (receiving .receivingHeader [0x01] 0x07 epA)))
      (fun t => memGet t.rx.rxbuf 0 = some 0x01 ∧ memGet t.rx.rxbuf 1 = some 0x10 ∧ memGet t.rx.rxbuf 2 = none) ∧
    gives (exec .epDone busyA) (fun t => t.rx.rxbuf = busyA.rx.rxbuf) := by decide +kernel

theorem witness_OnlyReceivedBytesRead : busyA.rx.rxCnt ≤ 6 ∧ 5 < busyA.rx.rxCnt ∧ answeredB.mq.qCnt ≤ 6 ∧ 5 < answeredB.mq.qCnt ∧
    busyA.rx.epState = .busy ∧ hostRxByte busyA 5 = .ok 0xFF ∧ hostBody busyA = .ok [0xAA, 0x55] := by decide

theorem witness_LineAndTimer :
    (onLine [0x02] epA).dir = .rx ∧ (onLine [0x02] epA).line.waiting = [0x02] ∧ epA.line.waiting = [] ∧
    lineRead (look (responding [0x02] mB)) = some (0x02, { mB with line := { mB.line with now := 5 } }) ∧
    (getByte mB).1 = none := by decide

theorem witness_ArrivingBytesPolled :
    epA.dir = .rx ∧ epA.line.looks = [] ∧ epA.line.waiting = [] ∧ pollsLine epA.rx.epState = true ∧
    pollsLine busyA.rx.epState = false ∧ mB.dir = .rx ∧ mB.line.looks = [] ∧ mB.line.waiting = [] := by decide

theorem witness_ArrivingFramesReceived :
    epA.cfg.profile = Profile.a ∧ epB.cfg.profile = Profile.b ∧ epA.rx.epState = .idle ∧
    frameSafe epA.cfg [0x02, 0x03, 0x02] [0xAA, 0x55] = true ∧
    frameSafe epB.cfg [0x03, 0x02, 0x03, 0x02] [0xAA, 0x55] = true ∧ ([0xAA, 0x55] : List Byte).length ≤ epA.cfg.maxBody ∧
    (List.replicate 255 (0x00 : Byte)).length ≤ 255 ∧ mB.cfg.role = .master ∧ mB.dir = .rx := by decide +kernel

/-- A reset leaves the bytes that wait (R282). -/
theorem test_reset_keeps_queue :
    (hardwareReset epA.cfg (onLine [0x20, 0x03] busyA)).line.waiting = [0x20, 0x03] ∧
    (hardwareReset epA.cfg (onLine [0x20, 0x03] busyA)).rx.epState = .idle := by decide

/-- HDR_LEN bytes as fields in `hdr` and `q_hdr` at reset: 3 in profile A, 4 in profile B with the length byte (R20). -/
theorem test_reset_header_width :
    (fieldBytes State.reset.cfg State.reset.rx.hdr).length = 3 ∧
    (fieldBytes mB.cfg (State.resetWith mB.cfg).mq.qHdr).length + 1 = 4 ∧
    (State.resetWith mB.cfg).mq.qHdr.addr = [0, 0] := by decide

theorem witness_ResetLeaves : mB.cfg.role = .master ∧ WellFormed mB.cfg (.mRawSend [0x01] true) = true ∧
    commandRole (.mRawSend [0x01] true) = some .master ∧ commandRole (.mQuery true fieldsB [] true) = some .master ∧
    WellFormed mB.cfg (.mQuery true fieldsB [] true) = true ∧ commandRole (.mRawQuery [] false) = some .master := by decide

end Sys2Proof.Tests
end

