-- ==== Sys2Proof/Proofs/PollTransition.lean ====
section
/-!
SUPPORT. What one EP.POLL step takes from the line, where it stores, and which change of `ep_state` goes with its event
(spec/00_scope.md R13, spec/20_memory.md R72, spec/42_receiver.md R160 to R174).
-/

namespace Sys2Proof.Machine

/-- The change of the receiver each event of a poll announces (R161 to R174). -/
def EventTransition (r r' : Receiver) : Event → Prop
  | .noByte => r' = r
  | .notDetected => r' = r ∧ r.epState = .idle
  | .frameStart => r.epState = .idle ∧ r'.epState = .receivingHeader
  | .stored => r'.epState = r.epState ∧ inFrame r.epState
  | .headerDone => r.epState = .receivingHeader ∧ r'.epState = .receivingBody
  | .msgReady => r.epState = .receivingBody ∧ r'.epState = .busy
  | .corrupted => r.epState = .receivingBody ∧ r'.epState = .idle
  | .overflow => inFrame r.epState ∧ r'.epState = .idle
  | .ignored => r' = r ∧ ¬ inFrame r.epState ∧ r.epState ≠ .idle

/-- The receiver is deaf exactly outside Idle and outside a frame (R160, R174). -/
theorem pollsLine_eq_false_iff (st : EpState) : pollsLine st = false ↔ ¬ inFrame st ∧ st ≠ .idle := by
  cases st <;> simp [pollsLine, inFrame]

theorem ByteEffect.transition {cfg : Config} {b : Byte} {r r' : Receiver} {e : Event} (h : ByteEffect cfg b r e r') :
    EventTransition r r' e := by
  cases h with
  | other h hb => exact ⟨rfl, h⟩
  | start h hb => exact ⟨h, rfl⟩
  | headerByte h hc => exact ⟨rfl, Or.inl h⟩
  | headerDone h hc hd hw => exact ⟨h, rfl⟩
  | oversize h hc hd hw => exact ⟨Or.inl h, rfl⟩
  | bodyByte h hc => exact ⟨rfl, Or.inr h⟩
  | full h hc => exact ⟨Or.inr h, rfl⟩
  | ready h hb => exact ⟨h, rfl⟩
  | corrupted h hb => exact ⟨h, rfl⟩
  | ignored h => exact ⟨rfl, (pollsLine_eq_false_iff _).mp h⟩

theorem ByteEffect.memGet_other {cfg : Config} {b : Byte} {r r' : Receiver} {e : Event} {a : Nat}
    (h : ByteEffect cfg b r e r') (ha : a ≠ r.rxCnt) : memGet r'.rxbuf a = memGet r.rxbuf a := by
  rcases h.buffer with ⟨hbuf, -⟩ | ⟨hbuf, -⟩
  · rw [hbuf]
  · rw [hbuf, memGet_memSet_other _ _ ha]

theorem poll_transition {s t : State} (h : poll s = .ok t) :
    ∃ e, t.result = .event e ∧ EventTransition s.rx t.rx e := by
  obtain ⟨e, he, ⟨rfl, hrx, -⟩ | ⟨b, hb⟩⟩ := poll_effect h
  · exact ⟨.noByte, he, hrx⟩
  · exact ⟨e, he, hb.transition⟩

/-- A poll stores at the fill count only (R72). -/
theorem poll_memGet_other {s t : State} {a : Nat} (h : poll s = .ok t) (ha : a ≠ s.rx.rxCnt) :
    memGet t.rx.rxbuf a = memGet s.rx.rxbuf a := by
  obtain ⟨e, -, ⟨-, hrx, -⟩ | ⟨b, hb⟩⟩ := poll_effect h
  · rw [hrx]
  · exact hb.memGet_other ha

/-- A poll takes at most the first byte of what waits after its look at the line (R13, R160). -/
theorem poll_takes_le_one {s t : State} (h : poll s = .ok t) :
    t.line = s.line ∨ ∃ k ≤ 1, t.line.waiting = (look s).line.waiting.drop k := by
  rcases poll_ok h with ⟨-, rfl⟩ | ⟨-, -, rfl⟩ | ⟨-, b, u, e, r, hr, -, rfl⟩
  · exact Or.inl rfl
  · exact Or.inr ⟨0, Nat.zero_le 1, rfl⟩
  · obtain ⟨-, rest, hw, rfl⟩ := lineRead_some hr
    exact Or.inr ⟨1, le_refl 1, by rw [hw]; rfl⟩

/-- An endpoint's EP.POLL, whichever row is named, is the poll step (R160, log 13). -/
theorem poll_of_exec {s t : State} {i : Instr} (hi : opcodeByte i = 0x0A) (hr : s.cfg.role = .endpoint)
    (h : exec i s = .next t) : poll s = .ok t := by
  rw [exec_poll s hi, forRole, if_pos hr] at h
  exact finish_next h

/-- Settles O27, from what a poll can answer: one lemma each for its frame, the line, the buffer and the event. -/
theorem pollOneByteOneTransition : Obligations.PollOneByteOneTransition := by
  intro s t i hi hr h
  have hp := poll_of_exec hi hr h
  exact ⟨poll_onlyPoll hp, poll_takes_le_one hp, fun _ ha => poll_memGet_other hp ha, poll_transition hp⟩

end Sys2Proof.Machine
end

