-- ==== Sys2Proof/Proofs/EpStatus.lean ====
section
/-!
SUPPORT. Which commands write `ep_status`, and that none of them but an accepted start delimiter and EP.RESET clears a
flag of it (spec/10_state.md R32, spec/42_receiver.md R160 to R179).
-/

namespace Sys2Proof.Machine

/-- Raising a flag clears none (R15, R250). -/
theorem raiseFlag_and_self (status flag : Byte) : raiseFlag status flag &&& status = status := by
  ext i hi
  rw [raiseFlag, BitVec.getElem_and, BitVec.getElem_or]
  cases status[i] <;> simp

/-- A query's wait leaves the receiver alone (R223). -/
theorem Waited.rx_eq {s t : State} (h : Waited s t) : t.rx = s.rx := by
  obtain ⟨_, -, h⟩ := h.frame
  rw [h]

theorem ByteEffect.clears_or_keeps {cfg : Config} {b : Byte} {r r' : Receiver} {e : Event}
    (h : ByteEffect cfg b r e r') :
    (e = .frameStart ∧ r'.epStatus = 0x00) ∨ r'.epStatus &&& r.epStatus = r.epStatus := by
  rcases h.status with hstart | ⟨f, -, hf⟩
  · exact Or.inl hstart
  · exact Or.inr (hf ▸ raiseFlag_and_self _ f)

theorem poll_clears_or_keeps {s t : State} (h : poll s = .ok t) :
    (t.result = .event .frameStart ∧ t.rx.epStatus = 0x00) ∨ t.rx.epStatus &&& s.rx.epStatus = s.rx.epStatus := by
  obtain ⟨e, he, ⟨-, hrx, -⟩ | ⟨b, hb⟩⟩ := poll_effect h
  · exact Or.inr (by rw [hrx, BitVec.and_self])
  · exact hb.clears_or_keeps.imp_left fun ⟨hs, hz⟩ => ⟨hs ▸ he, hz⟩

/-- A command that polls no byte and is no reset keeps `ep_status`, or, as EP.REPLY after a short write does, raises a
flag in it (R176 to R178). -/
theorem Effect.epStatus_raised {i : Instr} {s t : State} (h : Effect s i t) (hpoll : opcodeByte i ≠ 0x0A)
    (hlisten : i ≠ .epListen) (harrive : isArrival i = false) (hreset : i ≠ .epReset) :
    t.rx.epStatus = s.rx.epStatus ∨ ∃ f, t.rx.epStatus = raiseFlag s.rx.epStatus f := by
  cases h with
  | polled _ _ hi => exact absurd hi hpoll
  | listened => exact absurd rfl hlisten
  | arrived _ _ _ _ hi => exact absurd hi (by simp [harrive])
  | queued _ _ hi => exact absurd hi (by simp [harrive])
  | wasReset => exact absurd rfl hreset
  | replied fields body pause =>
    obtain ⟨f, -, h⟩ := replyFrame_fields fields body pause s
    exact Or.inr ⟨f, by rw [h]⟩
  | sent bytes pause =>
    obtain ⟨-, -, -, hrx, -⟩ := (sendBytes_onlySend bytes pause s).fields
    exact Or.inl (by rw [setResult_rx, hrx])
  | rawSent bytes pause =>
    rw [rawSend_afterSend]
    exact Or.inl rfl
  | rawQueried bytes pause _ _ _ h =>
    rw [rawSend_afterSend] at h
    exact Or.inl (by rw [(awaitAndReturn_waited h rfl).rx_eq]; rfl)
  | queried fields body pause _ _ _ h =>
    rw [querySend_afterSend] at h
    exact Or.inl (by rw [(awaitAndReturn_waited h rfl).rx_eq]; rfl)
  | answered => exact Or.inl rfl
  | checksum => exact Or.inl rfl
  | done => exact Or.inl rfl
  | faulted => exact Or.inl rfl
  | directedTx => exact Or.inl rfl
  | directedRx => exact Or.inl rfl
  | begun => exact Or.inl rfl
  | notSent => exact Or.inl rfl

/-- EP.RESET clears `ep_status` (R179). -/
theorem epReset_epStatus {s t : State} (hr : s.cfg.role = .endpoint) (h : exec .epReset s = .next t) :
    t.rx.epStatus = 0x00 := by
  rw [exec, execEpReset, forRole, if_pos hr, Host.Outcome.next.injEq] at h
  rw [← h]
  rfl

/-- Settles O33: a poll from the effect of one byte, every other command from its effect, EP.RESET from its meaning. -/
theorem epStatusKept : Obligations.EpStatusKept := by
  refine ⟨fun s t i hi h => ?_, fun s t i hpoll hlisten harrive hreset h => ?_, fun s t hr h => epReset_epStatus hr h⟩
  · rw [exec_poll s hi] at h
    rcases forRole_next h with ⟨-, hp⟩ | rfl
    · exact poll_clears_or_keeps (finish_next hp)
    · exact Or.inr (BitVec.and_self)
  · rcases (exec_effect h).epStatus_raised hpoll hlisten harrive hreset with heq | ⟨f, hf⟩
    · rw [heq, BitVec.and_self]
    · rw [hf, raiseFlag_and_self]

end Sys2Proof.Machine
end

