-- ==== Sys2Proof/Proofs/Nop.lean ====
section
/-!
SUPPORT. NOP (spec/30_encoding.md R104).
-/

namespace Sys2Proof.Machine

/-- NOP writes the result register only (R104, log 22). -/
theorem exec_nop (s : State) : exec .nop s = .next (setResult .nothing s) := by
  rw [exec, execNop]

/-- Settles O6: the code is the table's row, and NOP's meaning is one write of the result register. -/
theorem nopChangesNothing : Obligations.NopChangesNothing :=
  ⟨rfl, fun s => by rw [exec_nop, setResult]⟩

end Sys2Proof.Machine
end

