-- ==== Sys2Proof/Proofs/ChecksumUnit.lean ====
section
/-!
SUPPORT. What CK.INIT, CK.UPDATE and CK.BLOCK answer (spec/40_checksum.md R127 to R129), and that blocks compose as the
fold does (R121).
-/

namespace Sys2Proof.Machine

/-- Operands in their domain leave the command its answer (log 20). -/
theorem withOperands_of_fits {fits : Bool} (h : fits = true) (m : String) (x : Out) : withOperands fits m x = x :=
  if_pos h

theorem exec_ckInit (s : State) : exec .ckInit s = .next (setResult .nothing { s with ck := s.cfg.ckSeed }) := by
  rw [exec, execCkInit]

theorem exec_ckUpdate (b : Byte) (s : State) :
    exec (.ckUpdate b) s = .next (setResult .nothing { s with ck := s.cfg.upd s.ck b }) := by
  rw [exec, execCkUpdate]

/-- CK.BLOCK's operand domain (R129). -/
theorem blockFits_iff (cfg : Config) (bytes : List Byte) (length : BitVec 32) (seed : Ck) :
    cfg.blockFits bytes length seed = true ↔ length.toNat ≤ bytes.length ∧ cfg.ckFits seed = true := by
  rw [Config.blockFits, Bool.and_eq_true, decide_eq_true_iff]

/-- CK.BLOCK returns the value it leaves in `ck` (R129). -/
theorem exec_ckBlock {s : State} {bytes : List Byte} {length : BitVec 32} {seed : Ck}
    (hlen : length.toNat ≤ bytes.length) (hseed : s.cfg.ckFits seed = true) :
    exec (.ckBlock bytes length seed) s =
      .next (setResult (.checksum (s.cfg.fold seed (bytes.take length.toNat)))
        { s with ck := s.cfg.fold seed (bytes.take length.toNat) }) := by
  rw [exec, execCkBlock, withOperands_of_fits ((blockFits_iff ..).mpr ⟨hlen, hseed⟩)]

/-- Over all its bytes CK.BLOCK folds all of them (R129). -/
theorem exec_ckBlock_all {s : State} {bytes : List Byte} {length : BitVec 32} {seed : Ck}
    (hlen : length.toNat = bytes.length) (hseed : s.cfg.ckFits seed = true) :
    exec (.ckBlock bytes length seed) s =
      .next (setResult (.checksum (s.cfg.fold seed bytes)) { s with ck := s.cfg.fold seed bytes }) := by
  rw [exec_ckBlock hlen.le hseed, hlen, List.take_length]

/-- A block seeded with the value of the block before it answers what one block over both answers (R121, R129). -/
theorem exec_ckBlock_append {s u : State} {x y : List Byte} {lx ly lxy : BitVec 32} {seed c : Ck}
    (hx : lx.toNat = x.length) (hy : ly.toNat = y.length) (hxy : lxy.toNat = (x ++ y).length)
    (hseed : s.cfg.ckFits seed = true) (hu : exec (.ckBlock x lx seed) s = .next u) (hc : u.result = .checksum c) :
    exec (.ckBlock (x ++ y) lxy seed) s = exec (.ckBlock y ly c) s := by
  have hfold : c = s.cfg.fold seed x := by
    rw [exec_ckBlock_all hx hseed, Host.Outcome.next.injEq] at hu
    rw [← hu, setResult_result, Result.checksum.injEq] at hc
    exact hc.symm
  have hfits : s.cfg.ckFits c = true := hfold ▸ s.cfg.fold_fits x hseed
  rw [exec_ckBlock_all hxy hseed, exec_ckBlock_all hy hfits, hfold, Config.fold_append]

/-- Settles O7: each command is one write of `ck` and one of the result register; the update examples are computed. -/
theorem ckInitAndUpdate : Obligations.CkInitAndUpdate :=
  ⟨rfl, fun _ => rfl, fun s => by rw [exec_ckInit, setResult], fun _ _ _ => rfl,
    fun s b => by rw [exec_ckUpdate, setResult], by decide, by decide, by decide, by decide⟩

/-- Settles O8, from CK.BLOCK's answer and the fold over an append; the examples are computed. -/
theorem ckBlockFolds : Obligations.CkBlockFolds := by
  refine ⟨fun _ _ _ => rfl, fun s bytes length seed hlen hseed => ?_, fun a c s t => ⟨?_, a.fold_append c s t⟩,
    fun s u v x y lx ly lxy seed c hx hy hxy hseed hu hc hv => ?_, by decide +kernel, by decide +kernel⟩
  · rw [exec_ckBlock hlen hseed, setResult]
  · rw [List.take_zero, CkAlgo.fold_nil]
  · rw [exec_ckBlock_append hx hy hxy hseed hu hc, hv]

end Sys2Proof.Machine
end

