-- ==== Sys2Proof/Proofs/HeaderCodec.lean ====
section
/-!
SUPPORT. What HDR.PACK and HDR.UNPACK answer, and that packing and unpacking undo each other in every layout that names
no item twice (spec/41_encoder.md R141, R142).
-/

namespace Sys2Proof.Machine

/-- The domain of a `fields` operand (R141). -/
theorem fieldsFit_iff (cfg : Config) (fields : List Byte) :
    cfg.fieldsFit fields = true ↔ fields.length = cfg.fieldLen := decide_eq_true_iff

theorem exec_hdrPack {s : State} {fields : List Byte} (n : Byte) (hf : s.cfg.fieldsFit fields = true) :
    exec (.hdrPack fields n) s = .next (setResult (.bytes (packHeader s.cfg fields n)) s) := by
  rw [exec, execHdrPack, withOperands_of_fits hf]

theorem exec_hdrUnpack {s : State} {h : List Byte} (hl : h.length = s.cfg.hdrLen) :
    exec (.hdrUnpack h) s = .next (setResult (.header (unpackHeader s.cfg h)) s) := by
  rw [exec, execHdrUnpack, withOperands_of_fits (decide_eq_true hl)]

theorem packHeader_of_lenW {cfg : Config} (hl : cfg.profile.lenW = true) (fields : List Byte) (n : Byte) :
    packHeader cfg fields n = fields ++ [n] := by
  rw [packHeader, if_pos hl]

theorem packHeader_of_no_lenW {cfg : Config} (hl : cfg.profile.lenW = false) (fields : List Byte) (n : Byte) :
    packHeader cfg fields n = fields := by
  rw [packHeader, hl, if_neg Bool.false_ne_true, List.append_nil]

/-- HDR_LEN without a length byte, and with one (R9). -/
theorem hdrLen_eq (cfg : Config) : cfg.hdrLen = cfg.fieldLen + if cfg.profile.lenW then 1 else 0 := rfl

/-- A packed header begins with its field bytes. -/
theorem packHeader_take {cfg : Config} {fields : List Byte} (n : Byte) (hf : cfg.fieldsFit fields = true) :
    (packHeader cfg fields n).take cfg.fieldLen = fields := by
  rw [packHeader, List.take_left' ((fieldsFit_iff cfg fields).mp hf)]

/-- The body length is the byte behind the field bytes (R86, log 9). -/
theorem unpackHeader_bodyLen {cfg : Config} (hl : cfg.profile.lenW = true) (bs : List Byte) :
    (unpackHeader cfg bs).bodyLen = (bs.drop cfg.fieldLen).headD 0 := by
  rw [unpackHeader, if_pos hl]

/-- Unpacking a packed header gives its fields (R142). -/
theorem fieldBytes_packHeader {cfg : Config} {fields : List Byte} (n : Byte) (hn : cfg.profile.layout.Nodup)
    (hf : cfg.fieldsFit fields = true) : fieldBytes cfg (unpackHeader cfg (packHeader cfg fields n)) = fields := by
  have hlen : cfg.fieldLen ≤ (packHeader cfg fields n).length := by
    rw [packHeader_length cfg fields n hf]
    exact Nat.le_add_right _ _
  rw [fieldBytes_unpackHeader cfg hn _ hlen, packHeader_take n hf]

/-- Unpacking a packed header gives its length byte (R142). -/
theorem bodyLen_packHeader {cfg : Config} {fields : List Byte} (n : Byte) (hl : cfg.profile.lenW = true)
    (hf : cfg.fieldsFit fields = true) : (unpackHeader cfg (packHeader cfg fields n)).bodyLen = n := by
  rw [unpackHeader_bodyLen hl, packHeader_of_lenW hl, List.drop_left' ((fieldsFit_iff cfg fields).mp hf), List.headD_cons]

/-- Packing an unpacked header gives its bytes (R142). -/
theorem packHeader_unpackHeader {cfg : Config} {h : List Byte} (hn : cfg.profile.layout.Nodup)
    (hlen : h.length = cfg.hdrLen) :
    packHeader cfg (fieldBytes cfg (unpackHeader cfg h)) (unpackHeader cfg h).bodyLen = h := by
  rw [hdrLen_eq] at hlen
  rw [fieldBytes_unpackHeader cfg hn h (hlen ▸ Nat.le_add_right _ _)]
  cases hl : cfg.profile.lenW with
  | true =>
    rw [hl, if_pos rfl] at hlen
    obtain ⟨b, hb⟩ : ∃ b, h.drop cfg.fieldLen = [b] := List.length_eq_one_iff.mp (by rw [List.length_drop]; omega)
    rw [packHeader_of_lenW hl, unpackHeader_bodyLen hl, hb, List.headD_cons, ← hb, List.take_append_drop]
  | false =>
    rw [hl, if_neg Bool.false_ne_true, Nat.add_zero] at hlen
    rw [packHeader_of_no_lenW hl, List.take_of_length_le hlen.le]

/-- Settles O14: the two commands' answers, and the two inverses from the decode's field bytes and its length byte; the
named layouts are computed. -/
theorem headerPackUnpack : Obligations.HeaderPackUnpack := by
  refine ⟨fun _ _ => rfl, fun _ => rfl, fun s fields n hf => ⟨?_, packHeader_length s.cfg fields n hf⟩,
    fun _ _ _ _ _ _ => ⟨rfl, rfl⟩, fun s h hl => ?_, fun _ _ _ _ _ _ => ⟨rfl, rfl⟩,
    fun cfg fields n hn hf => ⟨fieldBytes_packHeader n hn hf, fun hl => bodyLen_packHeader n hl hf⟩,
    fun cfg h hn hl => packHeader_unpackHeader hn hl⟩
  · rw [exec_hdrPack n hf, setResult]
  · rw [exec_hdrUnpack hl, setResult]

end Sys2Proof.Machine
end

