-- ==== Sys2Proof/Proofs/Encoder.lean ====
section
/-!
SUPPORT. What ENCODE answers to a body that fits and to one that does not, and the length of its frame
(spec/41_encoder.md R143, R144, spec/30_encoding.md R80).
-/

namespace Sys2Proof.Machine

/-- ENCODE of a body that fits returns the frame and leaves its checksum in `ck` (R143). -/
theorem exec_encode {s : State} {fields body : List Byte} (hf : s.cfg.fieldsFit fields = true)
    (hb : body.length ≤ s.cfg.maxBody) :
    exec (.encode fields body) s =
      .next (setResult (.bytes (encodeFrame s.cfg fields body)) { s with ck := encodeCk s.cfg fields body }) := by
  rw [exec, execEncode, withOperands_of_fits hf, bodyFits, if_pos (decide_eq_true hb)]

/-- ENCODE refuses a longer body and leaves `ck` (R144). -/
theorem exec_encode_refused {s : State} {fields body : List Byte} (hf : s.cfg.fieldsFit fields = true)
    (hb : s.cfg.maxBody < body.length) :
    exec (.encode fields body) s = .next (setResult (.refusedFor flagBufferExhausted) s) := by
  rw [exec, execEncode, withOperands_of_fits hf, bodyFits, if_neg (by simpa using hb)]

/-- A frame is its header, its body, CK_W checksum bytes and two delimiters (R80). -/
theorem frameBytes_length (cfg : Config) (h body : List Byte) :
    (frameBytes cfg h body).length = h.length + body.length + cfg.ckW + 2 := by
  simp only [frameBytes, List.length_append, List.length_singleton, Config.emit_length]
  omega

theorem encodeFrame_length {cfg : Config} {fields : List Byte} (body : List Byte) (hf : cfg.fieldsFit fields = true) :
    (encodeFrame cfg fields body).length = cfg.hdrLen + body.length + cfg.ckW + 2 := by
  rw [encodeFrame, frameBytes_length, headerFor, packHeader_length cfg fields _ hf]

/-- A frame without its delimiters fits the buffer (R37, R80). -/
theorem frame_le_bufCap (cfg : Config) {n : Nat} (h : n ≤ cfg.maxBody) : cfg.hdrLen + n + cfg.ckW ≤ cfg.bufCap := by
  rw [Config.bufCap]
  omega

/-- Settles O15: ENCODE's two answers and the length of a frame; the example frame is computed. -/
theorem encodeFrames : Obligations.EncodeFrames :=
  ⟨fun _ _ => rfl,
    fun s _ body hf hb =>
      ⟨exec_encode hf hb, encodeFrame_length body hf, Nat.add_le_add_right (frame_le_bufCap s.cfg hb) 2⟩,
    fun _ _ _ hf hb => exec_encode_refused hf hb, by decide +kernel⟩

end Sys2Proof.Machine
end

