-- ==== Sys2Proof/Proofs/Validate.lean ====
section
/-!
SUPPORT. VALIDATE (spec/41_encoder.md R147): its scratch receiver run through the bytes is a receiver polled through them,
and which bytes it skips or does not look at.
-/

namespace Sys2Proof.Machine

/-! The command and its loop. -/

theorem exec_validate {s : State} {bytes : List Byte} {res : Result}
    (h : validateBytes s.cfg bytes (Receiver.reset s.cfg) = .ok res) :
    exec (.validate bytes) s = .next (setResult res s) := by
  rw [exec, execValidate, h, finish]

/-- VALIDATE sees of its bytes only what its loop sees. -/
theorem exec_validate_congr {s : State} {bytes bytes' : List Byte}
    (h : validateBytes s.cfg bytes (Receiver.reset s.cfg) = validateBytes s.cfg bytes' (Receiver.reset s.cfg)) :
    exec (.validate bytes) s = exec (.validate bytes') s := by
  rw [exec, exec, execValidate, execValidate, h]

/-- Everything VALIDATE can answer with a next state. -/
theorem exec_validate_next {s t : State} {bytes : List Byte} (h : exec (.validate bytes) s = .next t) :
    ∃ res, validateBytes s.cfg bytes (Receiver.reset s.cfg) = .ok res ∧ t = setResult res s := by
  rw [exec, execValidate] at h
  have hok := finish_next h
  split at hok
  · rename_i res hres
    exact ⟨res, hres, (Except.ok.inj hok).symm⟩
  · cases hok

theorem validateBytes_nil (cfg : Config) (r : Receiver) : validateBytes cfg [] r = .ok (.incomplete r.epStatus) := rfl

/-- A final event ends the loop. -/
theorem validateBytes_final {cfg : Config} {b : Byte} {e : Event} {r r1 : Receiver} (bs : List Byte)
    (h : receiveByte cfg b r = .ok (e, r1)) (he : endsValidate e = true) :
    validateBytes cfg (b :: bs) r = validateVerdict cfg e r1 := by
  simp only [validateBytes, h, he, if_true]

/-- Any other event goes on with the next byte. -/
theorem validateBytes_more {cfg : Config} {b : Byte} {e : Event} {r r1 : Receiver} (bs : List Byte)
    (h : receiveByte cfg b r = .ok (e, r1)) (he : endsValidate e = false) :
    validateBytes cfg (b :: bs) r = validateBytes cfg bs r1 := by
  simp only [validateBytes, h, he, Bool.false_eq_true, if_false]

/-- The loop does not look behind the byte of its final event. -/
theorem validateBytes_append {cfg : Config} {bytes : List Byte} (more : List Byte) {r : Receiver} {e : Event}
    {st : Byte} {c : Option (Header × List Byte)} (h : validateBytes cfg bytes r = .ok (.validated e st c)) :
    validateBytes cfg (bytes ++ more) r = .ok (.validated e st c) := by
  induction bytes generalizing r with
  | nil => cases h
  | cons b bs ih =>
    rw [List.cons_append]
    cases hb : receiveByte cfg b r with
    | error f => simp only [validateBytes, hb, reduceCtorEq] at h
    | ok a =>
      obtain ⟨e1, r1⟩ := a
      cases he : endsValidate e1 with
      | true => rwa [validateBytes_final _ hb he, ← validateBytes_final bs hb he]
      | false =>
        rw [validateBytes_more _ hb he] at h ⊢
        exact ih h

/-- Bytes without a start delimiter leave the scratch receiver as reset made it (R147, R162). -/
theorem feed_reset_of_not_mem {cfg : Config} {bytes : List Byte} (h : cfg.startDelim ∉ bytes) :
    Feed cfg bytes (Receiver.reset cfg) (Receiver.reset cfg) :=
  feed_idle rfl h

/-! The scratch receiver as a polled one. -/

/-- A receiver fresh from reset meets the invariant (R191, R280). -/
theorem receiverReset_inv {cfg : Config} (hok : cfg.ok = true) : ReceiverInv cfg (Receiver.reset cfg) where
  notTransmitting := nofun
  cntLe := Nat.zero_le _
  inHeader := nofun
  inBody := nofun
  checksum := by rintro (h | h) <;> cases h
  busyChecksum := nofun
  busyStatus := nofun
  busyCount := nofun
  frameStatus := fun _ => rfl
  status := by
    show statusLegal 0x00 = true
    decide
  bufferWf := memWf_nil _
  written := written_zero _
  header := by rintro (h | h) <;> cases h
  headerSet := by rintro (h | h) <;> cases h
  fits := ok_seed hok

/-- Only a final event takes a receiver that reads the line to a state that does not (R171, R174). -/
theorem ByteEffect.keeps_polling {cfg : Config} {b : Byte} {r r' : Receiver} {e : Event} (h : ByteEffect cfg b r e r')
    (hp : pollsLine r.epState = true) (he : endsValidate e = false) : pollsLine r'.epState = true := by
  cases h with
  | other h hb => exact hp
  | start h hb => rfl
  | headerByte h hc => exact hp
  | headerDone h hc hd hw => rfl
  | oversize h hc hd hw => rfl
  | bodyByte h hc => exact hp
  | full h hc => rfl
  | ready h hb => cases he
  | corrupted h hb => rfl
  | ignored h => exact hp

/-- The body of a held frame is read without a fault where all held bytes are written (R62, R171). -/
theorem heldBody_of_written {cfg : Config} {m : Mem} {cnt : Nat} (hw : Written m cnt) (hc : cnt ≤ cfg.bufCap) :
    heldBody cfg m cnt = .ok (memBytes m cfg.hdrLen (cnt - cfg.ckW - cfg.hdrLen)) := by
  have hcap := hdrLen_le_bufCap cfg
  exact memRead_of_written (by omega) fun i hi => hw _ (by omega)

/-- The content of VALIDATE's answer after event `e` of the receiver of `u`: on MsgReady the header and the body the host
would read, else none (R147). -/
def ContentAfter (e : Event) (u : State) (c : Option (Header × List Byte)) : Prop :=
  if e = .msgReady then ∃ b, hostBody u = .ok b ∧ c = some (u.rx.hdr, b) else c = none

theorem validateVerdict_answers {u : State} (e : Event) (hi : ReceiverInv u.cfg u.rx) :
    ∃ c, validateVerdict u.cfg e u.rx = .ok (.validated e u.rx.epStatus c) ∧ ContentAfter e u c := by
  cases e with
  | msgReady =>
    have hbody := heldBody_of_written hi.written hi.cntLe
    exact ⟨_, by rw [validateVerdict, hbody], by rw [ContentAfter, if_pos rfl]; exact ⟨_, hbody, rfl⟩⟩
  | _ => exact ⟨none, rfl, by simp [ContentAfter]⟩

theorem pollTimes_succ {n : Nat} {s t : State} (h : poll s = .ok t) : pollTimes (n + 1) s = pollTimes n t := by
  rw [pollTimes, h]

/-- VALIDATE's answer where its polls have stopped in `u` after `n` of `k` bytes: the final event with its content, or
`Incomplete` after the last byte (R147). -/
def StopAnswer (k n : Nat) (u : State) (res : Result) : Prop :=
  (endsValidate (lastEvent u) = true ∧
    ∃ c, res = .validated (lastEvent u) u.rx.epStatus c ∧ ContentAfter (lastEvent u) u c) ∨
  (endsValidate (lastEvent u) = false ∧ n = k ∧ res = .incomplete u.rx.epStatus)

/-- `n` polls from `p` lead to `u`, the first of them with a final event if there is one, and VALIDATE's answer on `k`
bytes is then `res` (R147). -/
structure PolledAnswer (k : Nat) (p : State) (n : Nat) (u : State) (res : Result) : Prop where
  le : n ≤ k
  polls : pollTimes n p = .ok u
  before : ∀ m v, m < n → pollTimes m p = .ok v → endsValidate (lastEvent v) = false
  answer : StopAnswer k n u res

/-- One more poll in front, of a byte whose event does not end VALIDATE. -/
theorem PolledAnswer.cons {k n : Nat} {s t u : State} {res : Result} (h : PolledAnswer k t n u res)
    (hs : endsValidate (lastEvent s) = false) (hp : poll s = .ok t) : PolledAnswer (k + 1) s (n + 1) u res where
  le := Nat.succ_le_succ h.le
  polls := (pollTimes_succ hp).trans h.polls
  before := by
    intro m v hm hv
    cases m with
    | zero => exact Except.ok.inj hv ▸ hs
    | succ m => exact h.before m v (Nat.lt_of_succ_lt_succ hm) (pollTimes_succ hp ▸ hv)
  answer := h.answer.imp_right fun ⟨he, hn, hres⟩ => ⟨he, congrArg Nat.succ hn, hres⟩

/-- The loop of VALIDATE over bytes, from the receiver of a state where these bytes wait, answers what polling that state
gives (R147, R160). -/
theorem validateBytes_polled {s : State} {bytes : List Byte} (hok : s.cfg.ok = true) (hi : ReceiverInv s.cfg s.rx)
    (hd : s.dir = .rx) (hl : s.line.looks = []) (hw : s.line.waiting = bytes) (hp : pollsLine s.rx.epState = true)
    (hs : endsValidate (lastEvent s) = false) :
    ∃ n u res, validateBytes s.cfg bytes s.rx = .ok res ∧ PolledAnswer bytes.length s n u res := by
  induction bytes generalizing s with
  | nil =>
    exact ⟨0, s, _, validateBytes_nil _ _, le_refl _, rfl, fun m _ hm => absurd hm (Nat.not_lt_zero m),
      Or.inr ⟨hs, rfl, rfl⟩⟩
  | cons b bs ih =>
    obtain ⟨e, r, hb, hir⟩ := receiveByte_ok b hok hi
    have hpoll := poll_waiting hd hp hw hl hb
    cases he : endsValidate e with
    | true =>
      obtain ⟨c, hc, hcontent⟩ := validateVerdict_answers
        (u := { s with rx := r, result := .event e, line := { s.line with waiting := bs } }) e hir
      refine ⟨1, _, _, (validateBytes_final bs hb he).trans hc, Nat.le_add_left 1 _, pollTimes_succ hpoll, ?_,
        Or.inl ⟨he, c, rfl, hcontent⟩⟩
      intro m v hm hv
      obtain rfl : m = 0 := Nat.lt_one_iff.mp hm
      exact Except.ok.inj hv ▸ hs
    | false =>
      obtain ⟨n, u, res, hres, hrun⟩ := ih
        (s := { s with rx := r, result := .event e, line := { s.line with waiting := bs } })
        hok hir hd hl rfl ((receiveByte_effect hb).keeps_polling hp he) he
      exact ⟨n + 1, u, res, (validateBytes_more bs hb he).trans hres, hrun.cons hs hpoll⟩

/-- Settles O18: the scratch receiver against polls of a fresh one, by induction on the bytes; skipped bytes as a stretch
fed to an idle receiver; the loop's end for the bytes behind it. The examples are computed. -/
theorem validateIsPure : Obligations.ValidateIsPure := by
  refine ⟨fun _ => rfl, fun s bytes hok => ?_, fun s junk bytes hj => ?_, fun s bytes hb => ?_,
    fun s bytes more e st c h => ?_, exec_validate (by decide +kernel), exec_validate (by decide +kernel)⟩
  · obtain ⟨n, u, res, hres, hrun⟩ := validateBytes_polled
      (s := { State.resetWith s.cfg with line := { Line.reset s.cfg with waiting := bytes } })
      hok (receiverReset_inv hok) rfl rfl rfl rfl rfl
    exact ⟨n, u, res, hrun.le, hrun.polls, exec_validate hres, hrun.before, hrun.answer⟩
  · exact exec_validate_congr (validateBytes_feed (feed_reset_of_not_mem hj))
  · have hfeed := validateBytes_feed (ys := []) (feed_reset_of_not_mem hb)
    rw [List.append_nil, validateBytes_nil] at hfeed
    exact exec_validate hfeed
  · obtain ⟨res, hres, ht⟩ := exec_validate_next h
    obtain rfl : Result.validated e st c = res := congrArg State.result ht
    exact exec_validate (validateBytes_append more hres)

end Sys2Proof.Machine
end

