-- ==== Sys2Proof/Proofs/PollRules.lean ====
section
/-!
SUPPORT. What EP.POLL answers in each of R160's cases: the receiver's answer to one byte in each state, and the poll that
takes that byte off the line (spec/42_receiver.md R162 to R174).
-/

namespace Sys2Proof.Machine

/-! One poll, whichever row is named (log 13). -/

/-- A byte read after the environment's look is taken off the line, and nothing else has changed (R14, R160). -/
theorem onlyLine_of_read {s u : State} {b : Byte} (h : lineRead (look s) = some (b, u)) : OnlyLine s u :=
  (look_onlyLine s).trans (lineRead_onlyLine h)

theorem waiting_of_read {s u : State} {b : Byte} (h : lineRead (look s) = some (b, u)) :
    (look s).line.waiting = b :: u.line.waiting := by
  obtain ⟨-, rest, hw, rfl⟩ := lineRead_some h
  exact hw

theorem exec_poll_endpoint {s : State} {i : Instr} (hi : opcodeByte i = 0x0A) (hr : s.cfg.role = .endpoint) :
    exec i s = finish (poll s) := by
  rw [exec_poll s hi, forRole, if_pos hr]

/-- A poll that reads a byte puts the receiver's answer to it into the state (R160). -/
theorem exec_poll_byte {s u : State} {i : Instr} {b : Byte} {e : Event} {r : Receiver} (hi : opcodeByte i = 0x0A)
    (hr : s.cfg.role = .endpoint) (hp : pollsLine s.rx.epState = true) (hread : lineRead (look s) = some (b, u))
    (hb : receiveByte s.cfg b s.rx = .ok (e, r)) :
    exec i s = .next (setResult (.event e) { u with rx := r }) := by
  have hpoll : poll s = .ok (setResult (.event e) { u with rx := r }) := by
    simp only [poll, if_pos hp, pollWith, hread, (lineRead_look_rx hread).1, hb, applyRx]
  rw [exec_poll_endpoint hi hr, hpoll, finish]

/-- A poll that finds no byte answers NoByte (R162, R167). -/
theorem exec_poll_noByte {s : State} {i : Instr} (hi : opcodeByte i = 0x0A) (hr : s.cfg.role = .endpoint)
    (hp : pollsLine s.rx.epState = true) (hread : lineRead (look s) = none) :
    exec i s = .next (setResult (.event .noByte) (look s)) := by
  have hpoll : poll s = .ok (setResult (.event .noByte) (look s)) := by
    simp only [poll, if_pos hp, pollWith, hread, applyRx, ruleNoByte]
  rw [exec_poll_endpoint hi hr, hpoll, finish]

/-- A poll in a state that reads no byte does not look at the line (R174). -/
theorem exec_poll_ignored {s : State} {i : Instr} (hi : opcodeByte i = 0x0A) (hr : s.cfg.role = .endpoint)
    (hp : pollsLine s.rx.epState = false) : exec i s = .next (setResult (.event .ignored) s) := by
  have hpoll : poll s = .ok (setResult (.event .ignored) s) := by
    simp only [poll, hp, Bool.false_eq_true, if_false, applyRx, ruleIgnored]
  rw [exec_poll_endpoint hi hr, hpoll, finish]

theorem pollsLine_of_inFrame {st : EpState} (h : inFrame st) : pollsLine st = true := by
  rcases h with rfl | rfl <;> rfl

/-! The receiver's answer to one byte. -/

/-- The header's bytes feed the checksum under HeaderBody only (R164). -/
theorem headerUpd_eq_ite (cfg : Config) (c : Ck) (b : Byte) :
    cfg.headerUpd c b = if cfg.profile.cover = .headerBody then cfg.upd c b else c := by
  rw [Config.headerUpd]
  cases cfg.profile.cover <;> rfl

theorem bodyLenOk_iff (cfg : Config) (b : Byte) :
    bodyLenOk cfg b = true ↔ cfg.profile.lenW = false ∨ b.toNat ≤ cfg.maxBody := by
  rw [bodyLenOk, Bool.or_eq_true, Bool.not_eq_true', decide_eq_true_iff]

theorem frameValid_iff (cfg : Config) (r : Receiver) :
    frameValid cfg r = true ↔ cfg.hdrLen + cfg.ckW ≤ r.rxCnt ∧ r.rxCk = 0 := by
  rw [frameValid, Bool.and_eq_true, decide_eq_true_iff, decide_eq_true_iff]

/-- The header fits the buffer (R37), so its bytes are stored. -/
theorem storeByte_inHeader {cfg : Config} {r : Receiver} (b : Byte) (h : r.rxCnt + 1 ≤ cfg.hdrLen) :
    storeByte cfg b r = .ok { r with rxbuf := memSet r.rxbuf r.rxCnt b, rxCnt := r.rxCnt + 1 } :=
  storeByte_of_lt b (Nat.lt_of_succ_le (h.trans (hdrLen_le_bufCap cfg)))

/-- ReceivingHeader, before the last header byte: stored (R164). -/
theorem receiveByte_headerNotLast {cfg : Config} {r : Receiver} (b : Byte) (hst : r.epState = .receivingHeader)
    (h : r.rxCnt + 1 < cfg.hdrLen) :
    receiveByte cfg b r = .ok (.stored, { r with
      rxbuf := memSet r.rxbuf r.rxCnt b, rxCk := cfg.headerUpd r.rxCk b, rxCnt := r.rxCnt + 1 }) := by
  rw [receiveByte_header b hst, if_pos h, ruleHeaderNotLast, storeByte_inHeader b h.le]

/-- The last header byte completes the stored header, so it can be decoded. -/
theorem written_last {cfg : Config} {r : Receiver} (b : Byte) (h : r.rxCnt + 1 = cfg.hdrLen)
    (hw : Written r.rxbuf r.rxCnt) : Written (memSet r.rxbuf r.rxCnt b) cfg.hdrLen :=
  h ▸ hw.memSet b

/-- The last header byte, length acceptable: the header is decoded (R165). -/
theorem receiveByte_headerLastOk {cfg : Config} {r : Receiver} {b : Byte} (hst : r.epState = .receivingHeader)
    (h : r.rxCnt + 1 = cfg.hdrLen) (hw : Written r.rxbuf r.rxCnt) (hb : bodyLenOk cfg b = true) :
    receiveByte cfg b r = .ok (.headerDone, { r with
      rxbuf := memSet r.rxbuf r.rxCnt b, rxCk := cfg.headerUpd r.rxCk b, rxCnt := cfg.hdrLen,
      hdr := unpackHeader cfg (memBytes (memSet r.rxbuf r.rxCnt b) 0 cfg.hdrLen), hdrSet := true,
      epState := .receivingBody }) := by
  have hdec := decodeHdr_of_written (r := { r with
    rxbuf := memSet r.rxbuf r.rxCnt b, rxCk := cfg.headerUpd r.rxCk b, rxCnt := cfg.hdrLen }) (written_last b h hw)
  rw [receiveByte_header b hst, if_neg h.not_lt, if_pos hb]
  simp only [ruleHeaderLastOk, storeByte_inHeader b h.le, h, hdec]

/-- The last header byte, length above MAX_BODY: decoded, then discarded (R166). -/
theorem receiveByte_headerLastOversize {cfg : Config} {r : Receiver} {b : Byte} (hst : r.epState = .receivingHeader)
    (h : r.rxCnt + 1 = cfg.hdrLen) (hw : Written r.rxbuf r.rxCnt) (hb : ¬ bodyLenOk cfg b = true) :
    receiveByte cfg b r = .ok (.overflow, { r with
      rxbuf := memSet r.rxbuf r.rxCnt b, rxCnt := cfg.hdrLen,
      hdr := unpackHeader cfg (memBytes (memSet r.rxbuf r.rxCnt b) 0 cfg.hdrLen), hdrSet := true,
      epStatus := raiseFlag r.epStatus flagBufferExhausted, epState := .idle }) := by
  have hdec := decodeHdr_of_written (r := { r with rxbuf := memSet r.rxbuf r.rxCnt b, rxCnt := cfg.hdrLen })
    (written_last b h hw)
  rw [receiveByte_header b hst, if_neg h.not_lt, if_neg hb]
  simp only [ruleHeaderLastOversize, storeByte_inHeader b h.le, h, hdec]

/-- ReceivingBody, room left: stored (R170). -/
theorem receiveByte_bodyRoom {cfg : Config} {r : Receiver} {b : Byte} (hst : r.epState = .receivingBody)
    (hb : b ≠ cfg.endDelim) (h : r.rxCnt < cfg.bufCap) :
    receiveByte cfg b r = .ok (.stored, { r with
      rxbuf := memSet r.rxbuf r.rxCnt b, rxCk := cfg.upd r.rxCk b, rxCnt := r.rxCnt + 1 }) := by
  rw [receiveByte_body b hst, if_neg hb, if_pos h, ruleBodyRoom, storeByte_of_lt b h]

/-- ReceivingBody, buffer full: the frame is discarded (R169). -/
theorem receiveByte_bodyFull {cfg : Config} {r : Receiver} {b : Byte} (hst : r.epState = .receivingBody)
    (hb : b ≠ cfg.endDelim) (h : cfg.bufCap ≤ r.rxCnt) :
    receiveByte cfg b r =
      .ok (.overflow, { r with epStatus := raiseFlag r.epStatus flagBufferExhausted, epState := .idle }) := by
  rw [receiveByte_body b hst, if_neg hb, if_neg h.not_gt, ruleBodyFull]

/-- END_DELIM of a valid frame (R171). -/
theorem receiveByte_endValid {cfg : Config} {r : Receiver} (hst : r.epState = .receivingBody)
    (h : frameValid cfg r = true) :
    receiveByte cfg cfg.endDelim r = .ok (.msgReady, { r with epState := .busy }) := by
  rw [receiveByte_body _ hst, if_pos rfl, if_pos h, ruleBodyEndValid]

/-- END_DELIM of a frame that is not valid (R172). -/
theorem receiveByte_endInvalid {cfg : Config} {r : Receiver} (hst : r.epState = .receivingBody)
    (h : ¬ frameValid cfg r = true) :
    receiveByte cfg cfg.endDelim r =
      .ok (.corrupted, { r with epStatus := raiseFlag r.epStatus flagCrcFailed, epState := .idle }) := by
  rw [receiveByte_body _ hst, if_pos rfl, if_neg h, ruleBodyEndInvalid]

/-! The obligations. -/

/-- Settles O19: a poll without a byte, a poll of a deaf receiver, and the line with `dir` TX. -/
theorem pollWithoutByte : Obligations.PollWithoutByte := by
  refine ⟨fun s hr hin hread => ?_, fun s hr hst => ?_, look_onlyLine, fun s hd => ?_⟩
  · exact exec_poll_noByte rfl hr (pollsLine_of_inFrame hin) hread
  · have hp : pollsLine s.rx.epState = false := by rcases hst with h | h | h <;> rw [h] <;> rfl
    exact exec_poll_ignored rfl hr hp
  · exact lineRead_tx (by rw [look_dir, hd])

/-- Settles O20: in Idle a poll without a byte, and one whose byte opens no frame. -/
theorem idleDiscardsOther : Obligations.IdleDiscardsOther := by
  refine ⟨fun s hr hst hread => ?_, fun s u b hr hst hread hne => ?_⟩
  · exact ⟨exec_poll_noByte rfl hr (congrArg pollsLine hst) hread, look_onlyLine s⟩
  · have hb : receiveByte s.cfg b s.rx = .ok (.notDetected, u.rx) := by
      rw [receiveByte_idle b hst, if_neg hne, ruleIdleOther, (lineRead_look_rx hread).1]
    exact ⟨exec_poll_byte rfl hr (congrArg pollsLine hst) hread hb, onlyLine_of_read hread, waiting_of_read hread⟩

/-- Settles O21: in Idle a poll whose byte is START_DELIM. -/
theorem startDelimiterOpensFrame : Obligations.StartDelimiterOpensFrame := by
  intro s u hr hst hread
  have hb : receiveByte s.cfg s.cfg.startDelim s.rx = ruleIdleStart s.cfg s.rx := by
    rw [receiveByte_idle _ hst, if_pos rfl]
  exact ⟨exec_poll_byte rfl hr (congrArg pollsLine hst) hread hb, onlyLine_of_read hread⟩

/-- Settles O22, from the receiver's answer to a header byte that is not the last. -/
theorem headerByteStored : Obligations.HeaderByteStored := by
  intro s u b hr hst hcnt hread
  rw [← headerUpd_eq_ite]
  exact ⟨exec_poll_byte rfl hr (congrArg pollsLine hst) hread (receiveByte_headerNotLast b hst hcnt),
    onlyLine_of_read hread⟩

/-- Settles O23, from the receiver's answer to a last header byte that is an acceptable length, or none. -/
theorem lastHeaderByteDecodes : Obligations.LastHeaderByteDecodes := by
  intro s u b hr hst hcnt hw hread hlen
  have hb := receiveByte_headerLastOk hst hcnt hw ((bodyLenOk_iff s.cfg b).mpr hlen)
  rw [← headerUpd_eq_ite]
  exact ⟨exec_poll_byte rfl hr (congrArg pollsLine hst) hread hb, onlyLine_of_read hread⟩

/-- Settles O24, from the receiver's answer to a length above MAX_BODY. -/
theorem oversizeHeaderAborts : Obligations.OversizeHeaderAborts := by
  intro s u b hr hst hcnt hw hread hl hlen
  have hbad : ¬ bodyLenOk s.cfg b = true := by
    rw [bodyLenOk_iff, hl]
    rintro (h | h)
    · cases h
    · exact hlen.not_ge h
  exact ⟨exec_poll_byte rfl hr (congrArg pollsLine hst) hread (receiveByte_headerLastOversize hst hcnt hw hbad),
    onlyLine_of_read hread⟩

/-- Settles O25, from the receiver's answers to a body byte with room left and with none. -/
theorem bodyByteStoredOrAborts : Obligations.BodyByteStoredOrAborts := by
  intro s u b hr hst hread hne
  have hp : pollsLine s.rx.epState = true := congrArg pollsLine hst
  exact ⟨onlyLine_of_read hread,
    fun hroom => exec_poll_byte rfl hr hp hread (receiveByte_bodyRoom hst hne hroom),
    fun hfull => exec_poll_byte rfl hr hp hread (receiveByte_bodyFull hst hne hfull.ge)⟩

/-- Settles O26, from the receiver's two answers to END_DELIM: its test of the frame is the one stated. -/
theorem endDelimiterGivesVerdict : Obligations.EndDelimiterGivesVerdict := by
  intro s u hr hst hread
  have hp : pollsLine s.rx.epState = true := congrArg pollsLine hst
  refine ⟨onlyLine_of_read hread, fun hvalid => ?_, fun hbad => ?_⟩
  · exact exec_poll_byte rfl hr hp hread (receiveByte_endValid hst ((frameValid_iff s.cfg s.rx).mpr hvalid))
  · have hinvalid : ¬ frameValid s.cfg s.rx = true := by
      rw [frameValid_iff]
      rintro ⟨hlen, hck⟩
      exact hbad.elim (absurd hck) hlen.not_gt
    exact exec_poll_byte rfl hr hp hread (receiveByte_endInvalid hst hinvalid)

end Sys2Proof.Machine
end

