-- ==== Sys2Proof/Proofs/LineTimer.lean ====
section
/-!
SUPPORT. LineAvail and LineRead on a line where a byte waits and where none does, the test of an expired wait as
arithmetic, and the two ways GetByte ends (spec/00_scope.md R14, spec/20_memory.md R70, spec/43_direction.md R205,
spec/44_master_query.md R224, spec/60_exceptions.md R262).
-/

namespace Sys2Proof.Machine

/-! LineRead and LineAvail. -/

theorem lineRead_of_waiting {s : State} {b : Byte} {rest : List Byte} (hd : s.dir = .rx)
    (hw : s.line.waiting = b :: rest) :
    lineRead s = some (b, { s with line := { s.line with waiting := rest } }) := by
  simp only [lineRead, if_pos hd, hw]

theorem lineRead_of_empty {s : State} (hw : s.line.waiting = []) : lineRead s = none := by
  simp only [lineRead, hw, ite_self]

/-! The timer. -/

/-- The clock wraps at 2^32, and so does the elapsed time (R262). -/
theorem expired_iff (timeout : Time) (s : State) :
    expired timeout s = true ↔ timeout.toNat ≤ (s.line.now.toNat + 2 ^ 32 - s.t0.toNat) % 2 ^ 32 := by
  have helapsed : (s.line.now - s.t0).toNat = (s.line.now.toNat + 2 ^ 32 - s.t0.toNat) % 2 ^ 32 := by
    have ht0 : s.t0.toNat < 2 ^ 32 := s.t0.isLt
    rw [BitVec.toNat_sub, ← Nat.sub_add_comm ht0.le, Nat.add_comm]
  rw [expired, decide_eq_true_iff, helapsed]

/-- Running the clock out brings and takes no byte (log 2). -/
@[simp] theorem lineAvail_expire (timeout : Time) (s : State) : lineAvail (expire timeout s) = lineAvail s := by
  unfold expire
  split <;> rfl

/-! GetByte. -/

/-- A byte there after the first look is the answer, whatever time has passed (R224). -/
theorem getByteLoop_of_read {s u : State} {b : Byte} (timeout : Time) (n : Nat)
    (h : lineRead (look s) = some (b, u)) : getByteLoop timeout n s = (some b, u) := by
  cases n <;> simp only [getByteLoop, h]

/-- GetByte gives up only after its deadline, at a moment when no byte waits: it reads before it tests the clock
(R224). -/
theorem getByteLoop_none {timeout : Time} {n : Nat} {s : State} (h : (getByteLoop timeout n s).1 = none) :
    expired timeout (getByteLoop timeout n s).2 = true ∧ lineAvail (getByteLoop timeout n s).2 = false := by
  induction n generalizing s with
  | zero =>
    unfold getByteLoop at h ⊢
    split at h
    · cases h
    · rename_i hr
      exact ⟨expire_expired timeout _, by rw [lineAvail_expire, (lineRead_none_iff _).mp hr]⟩
  | succ n ih =>
    unfold getByteLoop at h ⊢
    split at h
    · cases h
    · rename_i hr
      by_cases hx : expired timeout (look s) = true
      · rw [if_pos hx]
        exact ⟨hx, (lineRead_none_iff _).mp hr⟩
      · rw [if_neg hx] at h ⊢
        exact ih h

/-- Settles O58, from the rules of LineRead, the elapsed time as arithmetic modulo 2^32, and how GetByte's loop ends. -/
theorem lineAndTimer : Obligations.LineAndTimer := by
  refine ⟨fun s b rest hd hw => ?_, fun s hs => ?_, expired_iff,
    fun s b u hread => getByteLoop_of_read _ _ hread, fun s hnone => getByteLoop_none hnone, getByte_onlyLine⟩
  · have hread := lineRead_of_waiting hd hw
    exact ⟨by rw [← lineRead_isSome, hread, Option.isSome_some], hread⟩
  · have hread : lineRead s = none := hs.elim lineRead_of_empty lineRead_tx
    exact ⟨(lineRead_none_iff s).mp hread, hread⟩

end Sys2Proof.Machine
end

