-- ==== Sys2Proof/Proofs/Operands.lean ====
section
/-!
SUPPORT. The operand forms of the command port: what each field decoder answers on the bytes its writer puts, and that
whatever it answers is read from those bytes (the model's encoding, log 11, 30).
-/

namespace Sys2Proof

theorem takeExact_append (xs rest : List Byte) : takeExact xs.length (xs ++ rest) = .ok (xs, rest) := by
  induction xs with
  | nil => rfl
  | cons b xs ih => simp only [List.length_cons, List.cons_append, takeExact, ih]

theorem takeExact_of_length {n : Nat} {xs : List Byte} (h : xs.length = n) (rest : List Byte) :
    takeExact n (xs ++ rest) = .ok (xs, rest) := h ▸ takeExact_append xs rest

theorem takeExact_ok {n : Nat} {bs xs rest : List Byte} (h : takeExact n bs = .ok (xs, rest)) :
    xs.length = n ∧ bs = xs ++ rest := by
  induction n generalizing bs xs with
  | zero => cases h; exact ⟨rfl, rfl⟩
  | succ n ih =>
    cases bs with
    | nil => cases h
    | cons b bs =>
      rw [takeExact] at h
      split at h
      · rename_i ys r hy
        cases h
        obtain ⟨hl, hb⟩ := ih hy
        exact ⟨congrArg (· + 1) hl, congrArg (b :: ·) hb⟩
      · cases h

theorem takeSeq_putSeq (xs rest : List Byte) : takeSeq (putSeq xs ++ rest) = .ok (xs, rest) := by
  induction xs with
  | nil => cases rest <;> rfl
  | cons b xs ih =>
    rw [putSeq, List.cons_append, List.cons_append, takeSeq, if_neg (by decide), if_pos rfl, ih]

theorem takeSeq_ok {bs xs rest : List Byte} (h : takeSeq bs = .ok (xs, rest)) : bs = putSeq xs ++ rest := by
  induction bs using takeSeq.induct generalizing xs with
  | case1 => cases h
  | case2 => cases h; rfl
  | case3 m hm => rw [takeSeq, if_neg hm] at h; cases h
  | case4 b r => cases h; rfl
  | case5 b r ys r' hy hm ih =>
    rw [takeSeq, if_neg hm, if_pos rfl, hy] at h
    cases h
    rw [putSeq, ih hy]
    rfl
  | case6 b r e hy hm => rw [takeSeq, if_neg hm, if_pos rfl, hy] at h; cases h
  | case7 m b r h0 h1 => rw [takeSeq, if_neg h0, if_neg h1] at h; cases h

theorem takeByteOperand_ok {bs rest : List Byte} {b : Byte} (h : takeByteOperand bs = .ok (b, rest)) : bs = b :: rest := by
  cases bs with
  | nil => cases h
  | cons c bs => cases h; rfl

theorem takeBit_putBit (b : Bool) (rest : List Byte) : takeBit (putBit b :: rest) = .ok (b, rest) := by
  cases b <;> rfl

theorem takeBit_ok {bs rest : List Byte} {b : Bool} (h : takeBit bs = .ok (b, rest)) : bs = putBit b :: rest := by
  cases bs with
  | nil => cases h
  | cons c bs =>
    rw [takeBit] at h
    split at h
    · next h0 => cases h; rw [h0]; rfl
    · split at h
      · next h1 => cases h; rw [h1]; rfl
      · cases h

/-! Numbers, high byte first. -/

@[simp] theorem putBig_length (n v : Nat) : (putBig n v).length = n := by
  induction n with
  | zero => rfl
  | succ n ih => rw [putBig, List.length_cons, ih]

/-- Reading a number back gives what its bytes can hold of it. -/
theorem bigEndian_putBig (n v : Nat) : bigEndian (putBig n v) = v % 256 ^ n := by
  induction n with
  | zero => rw [pow_zero, Nat.mod_one]; rfl
  | succ n ih =>
    have hmod : v % 256 ^ (n + 1) = v % 256 ^ n + 256 ^ n * (v / 256 ^ n % 256) := by rw [pow_succ, Nat.mod_mul]
    rw [putBig, bigEndian, putBig_length, ih, BitVec.toNat_ofNat, hmod, Nat.add_comm, Nat.mul_comm]

theorem bigEndian_lt (xs : List Byte) : bigEndian xs < 256 ^ xs.length := by
  induction xs with
  | nil => exact Nat.one_pos
  | cons b xs ih =>
    have hb : b.toNat < 256 := b.isLt
    rw [bigEndian, List.length_cons, pow_succ']
    calc b.toNat * 256 ^ xs.length + bigEndian xs < (b.toNat + 1) * 256 ^ xs.length := by rw [Nat.succ_mul]; omega
      _ ≤ 256 * 256 ^ xs.length := Nat.mul_le_mul_right _ hb

theorem putBig_mod (n v : Nat) {m : Nat} (h : n ≤ m) : putBig n (v % 256 ^ m) = putBig n v := by
  induction n with
  | zero => rfl
  | succ n ih =>
    rw [putBig, putBig, ih (by omega)]
    congr 1
    apply BitVec.eq_of_toNat_eq
    rw [BitVec.toNat_ofNat, BitVec.toNat_ofNat]
    obtain ⟨k, rfl⟩ := Nat.exists_eq_add_of_lt h
    rw [show n + k + 1 = n + (k + 1) by omega, pow_add, Nat.mod_mul_right_div_self, pow_succ]
    exact Nat.mod_mul_left_mod _ _ _

/-- The bytes of a number are the bytes it was read from. -/
theorem putBig_bigEndian (xs : List Byte) : putBig xs.length (bigEndian xs) = xs := by
  induction xs with
  | nil => rfl
  | cons b xs ih =>
    have hlt := bigEndian_lt xs
    have hdiv : bigEndian (b :: xs) / 256 ^ xs.length = b.toNat := by
      rw [bigEndian, Nat.mul_comm, Nat.mul_add_div (Nat.pow_pos (by decide)), Nat.div_eq_of_lt hlt, Nat.add_zero]
    have hmod : bigEndian (b :: xs) % 256 ^ xs.length = bigEndian xs := by
      rw [bigEndian, Nat.mul_comm, Nat.mul_add_mod, Nat.mod_eq_of_lt hlt]
    rw [List.length_cons, putBig, hdiv, ← putBig_mod _ _ (le_refl _), hmod, ih, BitVec.ofNat_toNat, BitVec.setWidth_eq]

theorem take32_putBig (v : BitVec 32) (rest : List Byte) : take32 (putBig 4 v.toNat ++ rest) = .ok (v, rest) := by
  have hlt : v.toNat < 256 ^ 4 := v.isLt
  rw [take32, takeExact_of_length (putBig_length 4 v.toNat)]
  simp only [bigEndian_putBig, Nat.mod_eq_of_lt hlt, BitVec.ofNat_toNat,
    BitVec.setWidth_eq]

theorem take32_ok {bs rest : List Byte} {v : BitVec 32} (h : take32 bs = .ok (v, rest)) :
    bs = putBig 4 v.toNat ++ rest := by
  rw [take32] at h
  split at h
  · rename_i xs r hx
    cases h
    obtain ⟨hl, rfl⟩ := takeExact_ok hx
    have hlt : bigEndian xs < 2 ^ 32 := by
      have h4 := bigEndian_lt xs
      rwa [hl] at h4
    rw [BitVec.toNat_ofNat, Nat.mod_eq_of_lt hlt, ← hl, putBig_bigEndian]
  · cases h

/-- CK_W bytes hold the values of the checksum's width (R9, R133). -/
theorem two_pow_ckW (cfg : Config) : 2 ^ (8 * cfg.ckW) = 256 ^ cfg.ckW := pow_mul 2 8 cfg.ckW

theorem takeCk_putBig {cfg : Config} {c : Ck} (h : cfg.ckFits c = true) (rest : List Byte) :
    takeCk cfg (putBig cfg.ckW c.toNat ++ rest) = .ok (c, rest) := by
  have hlt : c.toNat < 256 ^ cfg.ckW := by
    rw [← two_pow_ckW]
    exact of_decide_eq_true h
  rw [takeCk, takeExact_of_length (putBig_length cfg.ckW c.toNat)]
  simp only [bigEndian_putBig, Nat.mod_eq_of_lt hlt, BitVec.ofNat_toNat, BitVec.setWidth_eq]

theorem takeCk_ok {cfg : Config} {bs rest : List Byte} {c : Ck} (h : takeCk cfg bs = .ok (c, rest)) :
    bs = putBig cfg.ckW c.toNat ++ rest := by
  rw [takeCk] at h
  split at h
  · rename_i xs r hx
    cases h
    obtain ⟨hl, rfl⟩ := takeExact_ok hx
    have hlt : bigEndian xs < 2 ^ 16 := by
      refine (bigEndian_lt xs).trans_le ?_
      rw [hl]
      rcases cfg.ckW_cases with hw | hw <;> rw [hw] <;> decide
    rw [BitVec.toNat_ofNat, Nat.mod_eq_of_lt hlt, ← hl, putBig_bigEndian]
  · cases h

/-! One operand after another. -/

theorem andThen_of_ok {α β : Type} {p : Parsed α} {a : α} {rest : List Byte} (h : p = .ok (a, rest))
    (k : α → List Byte → Parsed β) : andThen p k = k a rest := by
  subst h
  rfl

theorem andThen_ok {α β : Type} {p : Parsed α} {k : α → List Byte → Parsed β} {r : β × List Byte}
    (h : andThen p k = .ok r) : ∃ a rest, p = .ok (a, rest) ∧ k a rest = .ok r := by
  cases p with
  | ok x => exact ⟨x.1, x.2, rfl, h⟩
  | error e => cases h

end Sys2Proof
end

