-- ==== Sys2Proof/Proofs/CommandPort.lean ====
section
/-!
SUPPORT. Decoder and encoder of the command port undo each other (spec/30_encoding.md R100; the operand encoding is the
model's, log 11, 13, 30), what lies outside an operand's domain is refused by name (log 20), and a step runs what was
decoded.
-/

namespace Sys2Proof

/-! The operands of each command: read from what was put, and put as they were read. -/

theorem decodeBlock_put {cfg : Config} (bytes : List Byte) (length : BitVec 32) {seed : Ck} (rest : List Byte)
    (h : cfg.ckFits seed = true) :
    decodeBlock cfg (putOperands cfg (.ckBlock bytes length seed) ++ rest) = .ok (.ckBlock bytes length seed, rest) := by
  rw [decodeBlock, putOperands, List.append_assoc, List.append_assoc, andThen_of_ok (takeSeq_putSeq _ _),
    andThen_of_ok (take32_putBig _ _), andThen_of_ok (takeCk_putBig h _)]

theorem decodePack_put {cfg : Config} {fields : List Byte} (n : Byte) (rest : List Byte)
    (h : cfg.fieldsFit fields = true) :
    decodePack cfg (putOperands cfg (.hdrPack fields n) ++ rest) = .ok (.hdrPack fields n, rest) := by
  rw [decodePack, putOperands, List.append_assoc, andThen_of_ok (takeExact_of_length (of_decide_eq_true h) _)]
  rfl

theorem decodeUnpack_put {cfg : Config} {h : List Byte} (rest : List Byte) (hl : h.length = cfg.hdrLen) :
    decodeUnpack cfg (putOperands cfg (.hdrUnpack h) ++ rest) = .ok (.hdrUnpack h, rest) := by
  rw [decodeUnpack, putOperands, andThen_of_ok (takeExact_of_length hl _)]

theorem decodeEncode_put {cfg : Config} {fields : List Byte} (body rest : List Byte) (h : cfg.fieldsFit fields = true) :
    decodeEncode cfg (putOperands cfg (.encode fields body) ++ rest) = .ok (.encode fields body, rest) := by
  rw [decodeEncode, putOperands, List.append_assoc, andThen_of_ok (takeExact_of_length (of_decide_eq_true h) _),
    andThen_of_ok (takeSeq_putSeq _ _)]

theorem decodeReply_put {cfg : Config} {fields : List Byte} (body : List Byte) (pause : Bool) (rest : List Byte)
    (h : cfg.fieldsFit fields = true) :
    decodeReply cfg (putOperands cfg (.epReply fields body pause) ++ rest) = .ok (.epReply fields body pause, rest) := by
  rw [decodeReply, putOperands, List.append_assoc, List.append_assoc,
    andThen_of_ok (takeExact_of_length (of_decide_eq_true h) _), andThen_of_ok (takeSeq_putSeq _ _),
    List.singleton_append,
    andThen_of_ok (takeBit_putBit pause rest)]

theorem decodeSend_put (make : List Byte → Bool → Instr) (bytes : List Byte) (pause : Bool) (rest : List Byte) :
    decodeSend make (putSeq bytes ++ [putBit pause] ++ rest) = .ok (make bytes pause, rest) := by
  rw [decodeSend, List.append_assoc, andThen_of_ok (takeSeq_putSeq _ _), List.singleton_append,
    andThen_of_ok (takeBit_putBit pause rest)]

theorem decodeQuery_put {cfg : Config} (ready : Bool) {fields : List Byte} (body : List Byte) (pause : Bool)
    (rest : List Byte) (h : cfg.fieldsFit fields = true) :
    decodeQuery cfg (putOperands cfg (.mQuery ready fields body pause) ++ rest) =
      .ok (.mQuery ready fields body pause, rest) := by
  rw [decodeQuery, putOperands, List.cons_append, andThen_of_ok (takeBit_putBit ready _), List.append_assoc,
    List.append_assoc, andThen_of_ok (takeExact_of_length (of_decide_eq_true h) _), andThen_of_ok (takeSeq_putSeq _ _),
    List.singleton_append,
    andThen_of_ok (takeBit_putBit pause rest)]

theorem decodeValidate_put (bytes rest : List Byte) :
    decodeValidate (putSeq bytes ++ rest) = .ok (.validate bytes, rest) := by
  rw [decodeValidate, andThen_of_ok (takeSeq_putSeq _ _)]

theorem decodeBegin_put (rate : BitVec 32) (rest : List Byte) :
    decodeBegin (putBig 4 rate.toNat ++ rest) = .ok (.mBegin rate, rest) := by
  rw [decodeBegin, andThen_of_ok (take32_putBig _ _)]

theorem decodeFrame_put (make : Byte → Byte → Byte → List Byte → Instr) (x y z : Byte) (body rest : List Byte) :
    decodeFrame make ([x, y, z] ++ putSeq body ++ rest) = .ok (make x y z body, rest) := by
  have hseq := takeSeq_putSeq body rest
  simp only [decodeFrame, List.cons_append, List.nil_append, takeByteOperand, andThen, hseq]

/-- What was put as the operands of a well-formed instruction is read as them (log 11, 13, 30). -/
theorem decodeAfter_putOperands {cfg : Config} {i : Instr} (rest : List Byte) (h : WellFormed cfg i = true) :
    decodeAfter cfg (opcodeByte i).toNat (putOperands cfg i ++ rest) = .ok (canonical i, rest) := by
  cases i with
  | ckBlock bytes length seed => exact decodeBlock_put bytes length rest (Bool.and_eq_true_iff.mp h).2
  | hdrPack fields n => exact decodePack_put n rest h
  | hdrUnpack hd => exact decodeUnpack_put rest (of_decide_eq_true h)
  | encode fields body => exact decodeEncode_put body rest h
  | validate bytes => exact decodeValidate_put bytes rest
  | epReply fields body pause => exact decodeReply_put body pause rest h
  | send bytes pause => exact decodeSend_put .send bytes pause rest
  | mBegin rate => exact decodeBegin_put rate rest
  | mRawSend bytes pause => exact decodeSend_put .mRawSend bytes pause rest
  | mRawQuery bytes pause => exact decodeSend_put .mRawQuery bytes pause rest
  | mQuery ready fields body pause => exact decodeQuery_put ready body pause rest h
  | frameA code fromAddr toAddr body => exact decodeFrame_put .frameA code fromAddr toAddr body rest
  | frameB addr0 addr1 opcode body => exact decodeFrame_put .frameB addr0 addr1 opcode body rest
  | _ => rfl

theorem decodeBlock_ok {cfg : Config} {bs rest : List Byte} {i : Instr} (h : decodeBlock cfg bs = .ok (i, rest)) :
    ∃ bytes length seed, i = .ckBlock bytes length seed ∧ bs = putOperands cfg i ++ rest := by
  obtain ⟨bytes, r1, h1, h⟩ := andThen_ok h
  obtain ⟨length, r2, h2, h⟩ := andThen_ok h
  obtain ⟨seed, r3, h3, h⟩ := andThen_ok h
  cases h
  refine ⟨bytes, length, seed, rfl, ?_⟩
  rw [takeSeq_ok h1, take32_ok h2, takeCk_ok h3, putOperands, List.append_assoc, List.append_assoc]

theorem decodePack_ok {cfg : Config} {bs rest : List Byte} {i : Instr} (h : decodePack cfg bs = .ok (i, rest)) :
    ∃ fields n, i = .hdrPack fields n ∧ bs = putOperands cfg i ++ rest := by
  obtain ⟨fields, r1, h1, h⟩ := andThen_ok h
  obtain ⟨n, r2, h2, h⟩ := andThen_ok h
  cases h
  refine ⟨fields, n, rfl, ?_⟩
  rw [(takeExact_ok h1).2, takeByteOperand_ok h2, putOperands, List.append_assoc]
  rfl

theorem decodeUnpack_ok {cfg : Config} {bs rest : List Byte} {i : Instr} (h : decodeUnpack cfg bs = .ok (i, rest)) :
    ∃ hd, i = .hdrUnpack hd ∧ bs = putOperands cfg i ++ rest := by
  obtain ⟨hd, r1, h1, h⟩ := andThen_ok h
  cases h
  exact ⟨hd, rfl, (takeExact_ok h1).2⟩

theorem decodeEncode_ok {cfg : Config} {bs rest : List Byte} {i : Instr} (h : decodeEncode cfg bs = .ok (i, rest)) :
    ∃ fields body, i = .encode fields body ∧ bs = putOperands cfg i ++ rest := by
  obtain ⟨fields, r1, h1, h⟩ := andThen_ok h
  obtain ⟨body, r2, h2, h⟩ := andThen_ok h
  cases h
  refine ⟨fields, body, rfl, ?_⟩
  rw [(takeExact_ok h1).2, takeSeq_ok h2, putOperands, List.append_assoc]

theorem decodeReply_ok {cfg : Config} {bs rest : List Byte} {i : Instr} (h : decodeReply cfg bs = .ok (i, rest)) :
    ∃ fields body pause, i = .epReply fields body pause ∧ bs = putOperands cfg i ++ rest := by
  obtain ⟨fields, r1, h1, h⟩ := andThen_ok h
  obtain ⟨body, r2, h2, h⟩ := andThen_ok h
  obtain ⟨pause, r3, h3, h⟩ := andThen_ok h
  cases h
  refine ⟨fields, body, pause, rfl, ?_⟩
  rw [(takeExact_ok h1).2, takeSeq_ok h2, takeBit_ok h3, putOperands, List.append_assoc, List.append_assoc]
  rfl

theorem decodeSend_ok {make : List Byte → Bool → Instr} {bs rest : List Byte} {i : Instr}
    (h : decodeSend make bs = .ok (i, rest)) :
    ∃ bytes pause, i = make bytes pause ∧ bs = putSeq bytes ++ [putBit pause] ++ rest := by
  obtain ⟨bytes, r1, h1, h⟩ := andThen_ok h
  obtain ⟨pause, r2, h2, h⟩ := andThen_ok h
  cases h
  refine ⟨bytes, pause, rfl, ?_⟩
  rw [takeSeq_ok h1, takeBit_ok h2, List.append_assoc]
  rfl

theorem decodeQuery_ok {cfg : Config} {bs rest : List Byte} {i : Instr} (h : decodeQuery cfg bs = .ok (i, rest)) :
    ∃ ready fields body pause, i = .mQuery ready fields body pause ∧ bs = putOperands cfg i ++ rest := by
  obtain ⟨ready, r1, h1, h⟩ := andThen_ok h
  obtain ⟨fields, r2, h2, h⟩ := andThen_ok h
  obtain ⟨body, r3, h3, h⟩ := andThen_ok h
  obtain ⟨pause, r4, h4, h⟩ := andThen_ok h
  cases h
  refine ⟨ready, fields, body, pause, rfl, ?_⟩
  rw [takeBit_ok h1, (takeExact_ok h2).2, takeSeq_ok h3, takeBit_ok h4, putOperands, List.cons_append,
    List.append_assoc, List.append_assoc]
  rfl

theorem decodeOneByte_ok {make : Byte → Instr} {bs rest : List Byte} {i : Instr}
    (h : decodeOneByte make bs = .ok (i, rest)) : ∃ b, i = make b ∧ bs = b :: rest := by
  obtain ⟨b, r1, h1, h⟩ := andThen_ok h
  cases h
  exact ⟨b, rfl, takeByteOperand_ok h1⟩

theorem decodeValidate_ok {bs rest : List Byte} {i : Instr} (h : decodeValidate bs = .ok (i, rest)) :
    ∃ bytes, i = .validate bytes ∧ bs = putSeq bytes ++ rest := by
  obtain ⟨bytes, r1, h1, h⟩ := andThen_ok h
  cases h
  exact ⟨bytes, rfl, takeSeq_ok h1⟩

theorem decodeBegin_ok {bs rest : List Byte} {i : Instr} (h : decodeBegin bs = .ok (i, rest)) :
    ∃ rate, i = .mBegin rate ∧ bs = putBig 4 rate.toNat ++ rest := by
  obtain ⟨rate, r1, h1, h⟩ := andThen_ok h
  cases h
  exact ⟨rate, rfl, take32_ok h1⟩

theorem decodeFrame_ok {make : Byte → Byte → Byte → List Byte → Instr} {bs rest : List Byte} {i : Instr}
    (h : decodeFrame make bs = .ok (i, rest)) :
    ∃ x y z body, i = make x y z body ∧ bs = [x, y, z] ++ putSeq body ++ rest := by
  obtain ⟨x, r1, h1, h⟩ := andThen_ok h
  obtain ⟨y, r2, h2, h⟩ := andThen_ok h
  obtain ⟨z, r3, h3, h⟩ := andThen_ok h
  obtain ⟨body, r4, h4, h⟩ := andThen_ok h
  cases h
  refine ⟨x, y, z, body, rfl, ?_⟩
  rw [takeByteOperand_ok h1, takeByteOperand_ok h2, takeByteOperand_ok h3, takeSeq_ok h4]
  rfl

theorem plain_ok {i j : Instr} {bs rest : List Byte} (h : plain i bs = .ok (j, rest)) : j = i ∧ bs = rest := by
  cases h
  exact ⟨rfl, rfl⟩

/-- Whatever is read behind first byte `c` is an instruction with that first byte, read from its own operands. -/
theorem decodeAfter_ok {cfg : Config} {c : Nat} {bs rest : List Byte} {i : Instr}
    (h : decodeAfter cfg c bs = .ok (i, rest)) : (opcodeByte i).toNat = c ∧ bs = putOperands cfg i ++ rest := by
  unfold decodeAfter at h
  split at h
  case h_3 | h_35 | h_36 => obtain ⟨b, rfl, hb⟩ := decodeOneByte_ok h; exact ⟨rfl, hb⟩
  case h_4 => obtain ⟨x, y, z, rfl, hb⟩ := decodeBlock_ok h; exact ⟨rfl, hb⟩
  case h_7 => obtain ⟨x, y, rfl, hb⟩ := decodePack_ok h; exact ⟨rfl, hb⟩
  case h_8 => obtain ⟨x, rfl, hb⟩ := decodeUnpack_ok h; exact ⟨rfl, hb⟩
  case h_9 => obtain ⟨x, y, rfl, hb⟩ := decodeEncode_ok h; exact ⟨rfl, hb⟩
  case h_10 => obtain ⟨x, rfl, hb⟩ := decodeValidate_ok h; exact ⟨rfl, hb⟩
  case h_14 => obtain ⟨x, y, z, rfl, hb⟩ := decodeReply_ok h; exact ⟨rfl, hb⟩
  case h_19 | h_21 | h_22 => obtain ⟨x, y, rfl, hb⟩ := decodeSend_ok h; exact ⟨rfl, hb⟩
  case h_20 => obtain ⟨x, rfl, hb⟩ := decodeBegin_ok h; exact ⟨rfl, hb⟩
  case h_23 => obtain ⟨w, x, y, z, rfl, hb⟩ := decodeQuery_ok h; exact ⟨rfl, hb⟩
  case h_37 | h_38 => obtain ⟨w, x, y, z, rfl, hb⟩ := decodeFrame_ok h; exact ⟨rfl, hb⟩
  case h_40 => cases h
  all_goals obtain ⟨rfl, rfl⟩ := plain_ok h; exact ⟨rfl, rfl⟩

/-! The decoder. -/

theorem decode_of_after {cfg : Config} {b : Byte} {bs rest : List Byte} {i : Instr}
    (h : decodeAfter cfg b.toNat bs = .ok (i, rest)) (hw : WellFormed cfg i = true) :
    decode cfg (b :: bs) = .ok (i, rest) := by
  simp only [decode, h, if_pos hw]

/-- Everything the decoder can answer with an instruction. -/
theorem decode_ok {cfg : Config} {bs rest : List Byte} {i : Instr} (h : decode cfg bs = .ok (i, rest)) :
    WellFormed cfg i = true ∧ bs = encode cfg i ++ rest := by
  cases bs with
  | nil => cases h
  | cons b bs =>
    rw [decode] at h
    split at h
    · rename_i j r hj
      split at h
      · rename_i hw
        cases h
        obtain ⟨hb, hbs⟩ := decodeAfter_ok hj
        rw [← BitVec.eq_of_toNat_eq hb, hbs]
        exact ⟨hw, rfl⟩
      · cases h
    · cases h

/-- The row the decoder names for EP.POLL's word has no operands to be ill-formed (log 13). -/
theorem wellFormed_canonical {cfg : Config} {i : Instr} (h : WellFormed cfg i = true) :
    WellFormed cfg (canonical i) = true := by
  rw [canonical]
  split
  · rfl
  · exact h

/-- Settles O1: what was put as operands is read as them, constructor by constructor. -/
theorem decodeEncodeAgree : Obligations.DecodeEncodeAgree := fun _ _ rest h =>
  decode_of_after (decodeAfter_putOperands rest h) (wellFormed_canonical h)

end Sys2Proof

namespace Sys2Proof.Machine

/-- Operands outside their domain stop the instruction (log 20). -/
theorem withOperands_of_unfit {fits : Bool} (h : fits = false) (m : String) (x : Out) :
    withOperands fits m x = .refused (.operandShape m) := by rw [withOperands, h, if_neg Bool.false_ne_true]

/-- Seven instructions have operands with a domain (R129, R141 to R143, R177, R232, R82). -/
theorem exec_of_illFormed {s : State} {i : Instr} (h : WellFormed s.cfg i = false) :
    ∃ m, exec i s = .refused (.operandShape m) := by
  cases i with
  | ckBlock bytes length seed => exact ⟨"CK.BLOCK", withOperands_of_unfit h _ _⟩
  | hdrPack fields n => exact ⟨"HDR.PACK", withOperands_of_unfit h _ _⟩
  | hdrUnpack hd => exact ⟨"HDR.UNPACK", withOperands_of_unfit h _ _⟩
  | encode fields body => exact ⟨"ENCODE", withOperands_of_unfit h _ _⟩
  | epReply fields body pause => exact ⟨"EP.REPLY", withOperands_of_unfit h _ _⟩
  | mQuery ready fields body pause => exact ⟨"M.QUERY", withOperands_of_unfit h _ _⟩
  | frameB addr0 addr1 opcode body => exact ⟨"FRAME.B", withOperands_of_unfit h _ _⟩
  | _ => cases h

/-- Settles O2, from what the decoder can answer and the domains the meanings test. -/
theorem onlyWellFormedIsDecoded : Obligations.OnlyWellFormedIsDecoded :=
  ⟨fun _ _ _ _ h => decode_ok h, fun _ _ h => exec_of_illFormed h⟩

/-- Settles O3: the sample words are decoded by computation. -/
theorem sampleWordsDecode : Obligations.SampleWordsDecode :=
  ⟨rfl, rfl, rfl, rfl, rfl, rfl, rfl, rfl, rfl, rfl⟩

/-! A step. -/

theorem step_of_empty {s : State} (h : s.port = []) : step s = .next s := by simp only [step, h]

theorem step_of_decode {s : State} {i : Instr} {rest : List Byte} (h : decode s.cfg s.port = .ok (i, rest)) :
    step s = exec (refineInstr s i) { s with port := rest } := by
  unfold step
  split
  · rename_i hp
    rw [hp] at h
    cases h
  · rename_i b bs hp
    rw [hp] at h
    simp only [h]

theorem step_of_error {s : State} {e : DecodeError} (hp : s.port ≠ []) (h : decode s.cfg s.port = .error e) :
    step s = .refused (.undecodable e) := by
  unfold step
  split
  · rename_i hn
    exact absurd hn hp
  · rename_i b bs hb
    rw [hb] at h
    simp only [h]

/-- Settles O4, from the three answers of a step and the one meaning of EP.POLL's rows. -/
theorem stepRunsDecoded : Obligations.StepRunsDecoded := by
  refine ⟨fun s i rest h hi => ?_, fun s i rest h hi => ?_, fun s i hi hr => exec_poll_endpoint hi hr,
    fun s h => step_of_empty h, fun s e hp h => step_of_error hp h⟩
  · rw [step_of_decode h, refineInstr, if_neg hi]
  · rw [step_of_decode h, refineInstr, if_pos hi]

end Sys2Proof.Machine
end

