-- ==== Sys2Proof/Proofs/Crc.lean ====
section
/-!
SUPPORT. The algebra of the two CRCs (spec/40_checksum.md sections 2, 3, 5, 6): one shift is linear over exclusive-or and
loses nothing, so an update is injective in the running value and in the byte; from this come the neutrality law, the
equivalence of R132 and the detection of a flipped bit (R134).
-/

namespace Sys2Proof

/-! One shift, for any width and polynomial. -/

/-- A CRC shift: left by one, and the polynomial added where a bit fell out (R122, R123). -/
def polyShift {w : Nat} (p c : BitVec w) : BitVec w := if c.msb then (c <<< 1) ^^^ p else c <<< 1

theorem crc8Shift_eq : crc8Shift = polyShift 0x07 := rfl

theorem crc16Shift_eq : crc16Shift = polyShift 0x1021 := rfl

theorem polyShift_of_msb_false {w : Nat} (p : BitVec w) {c : BitVec w} (h : c.msb = false) : polyShift p c = c <<< 1 := by
  rw [polyShift, h, if_neg Bool.false_ne_true]

theorem polyShift_eq_xor {w : Nat} (p c : BitVec w) : polyShift p c = (c <<< 1) ^^^ (if c.msb then p else 0#w) := by
  unfold polyShift
  split
  · rfl
  · rw [BitVec.xor_zero]

theorem polyShift_xor {w : Nat} (p c d : BitVec w) : polyShift p (c ^^^ d) = polyShift p c ^^^ polyShift p d := by
  have hp : (if (c ^^^ d).msb then p else 0#w) = (if c.msb then p else 0#w) ^^^ (if d.msb then p else 0#w) := by
    rw [BitVec.msb_xor]
    cases c.msb <;> cases d.msb <;> simp
  rw [polyShift_eq_xor, polyShift_eq_xor, polyShift_eq_xor, hp, BitVec.shiftLeft_xor_distrib]
  ac_rfl

theorem polyShift_zero {w : Nat} (p : BitVec w) : polyShift p 0#w = 0#w := by
  rw [polyShift_of_msb_false p BitVec.msb_zero, BitVec.zero_shiftLeft]

/-- The polynomial's lowest bit tells that a bit fell out, so nothing but zero is shifted to zero. -/
theorem polyShift_eq_zero {w : Nat} {p c : BitVec (w + 1)} (hp : p.getLsbD 0 = true) (h : polyShift p c = 0#(w + 1)) :
    c = 0#(w + 1) := by
  have hbit : ∀ i, (polyShift p c).getLsbD i = false := fun i => by rw [h, BitVec.getLsbD_zero]
  have hmsb : c.msb = false := by
    have h0 := hbit 0
    rw [polyShift_eq_xor] at h0
    cases hm : c.msb
    · rfl
    · rw [hm, if_pos rfl, BitVec.getLsbD_xor, hp, BitVec.getLsbD_shiftLeft] at h0
      simp at h0
  apply BitVec.eq_of_getLsbD_eq
  intro i hi
  rw [BitVec.getLsbD_zero]
  have hnext := hbit (i + 1)
  rw [polyShift_of_msb_false p hmsb, BitVec.getLsbD_shiftLeft] at hnext
  by_cases htop : i = w
  · rw [BitVec.msb_eq_getLsbD_last] at hmsb
    rw [htop]
    exact hmsb
  · simpa [show i + 1 < w + 1 by omega] using hnext

/-! Shifts one after another. -/

theorem repeat_polyShift_xor {w : Nat} (p : BitVec w) (n : Nat) (c d : BitVec w) :
    Nat.repeat (polyShift p) n (c ^^^ d) = Nat.repeat (polyShift p) n c ^^^ Nat.repeat (polyShift p) n d := by
  induction n with
  | zero => rfl
  | succ n ih => rw [Nat.repeat, ih, polyShift_xor]; rfl

theorem repeat_polyShift_zero {w : Nat} (p : BitVec w) (n : Nat) : Nat.repeat (polyShift p) n 0#w = 0#w := by
  induction n with
  | zero => rfl
  | succ n ih => rw [Nat.repeat, ih, polyShift_zero]

theorem repeat_polyShift_injective {w : Nat} {p : BitVec (w + 1)} (hp : p.getLsbD 0 = true) (n : Nat) {c d : BitVec (w + 1)}
    (h : Nat.repeat (polyShift p) n c = Nat.repeat (polyShift p) n d) : c = d := by
  have hzero : ∀ {x : BitVec (w + 1)}, Nat.repeat (polyShift p) n x = 0#(w + 1) → x = 0#(w + 1) := by
    intro x hx
    clear h
    induction n with
    | zero => exact hx
    | succ n ih => exact ih (polyShift_eq_zero hp hx)
  exact BitVec.xor_eq_zero_iff.mp (hzero (by rw [repeat_polyShift_xor, h, BitVec.xor_self]))

/-! The two CRCs. -/

theorem upd8_eq (c : BitVec 8) (b : Byte) : upd8 c b = Nat.repeat (polyShift 0x07) 8 (c ^^^ b) := rfl

theorem upd16_eq (c : BitVec 16) (b : Byte) :
    upd16 c b = Nat.repeat (polyShift 0x1021) 8 (c ^^^ (b.setWidth 16 <<< 8)) := rfl

theorem upd8_xor (c d : BitVec 8) (x y : Byte) : upd8 (c ^^^ d) (x ^^^ y) = upd8 c x ^^^ upd8 d y := by
  rw [upd8_eq, upd8_eq, upd8_eq, ← repeat_polyShift_xor]
  congr 1
  ac_rfl

theorem upd16_xor (c d : BitVec 16) (x y : Byte) : upd16 (c ^^^ d) (x ^^^ y) = upd16 c x ^^^ upd16 d y := by
  rw [upd16_eq, upd16_eq, upd16_eq, ← repeat_polyShift_xor, BitVec.setWidth_xor, BitVec.shiftLeft_xor_distrib]
  congr 1
  ac_rfl

theorem CkAlgo.upd_crc8 (c : Ck) (b : Byte) : CkAlgo.crc8.upd c b = (upd8 (c.setWidth 8) b).setWidth 16 := rfl

theorem CkAlgo.upd_crc16 (c : Ck) (b : Byte) : CkAlgo.crc16.upd c b = upd16 c b := rfl

theorem CkAlgo.upd_xor {a : CkAlgo} (ha : a = .crc8 ∨ a = .crc16) (c d : Ck) (x y : Byte) :
    a.upd (c ^^^ d) (x ^^^ y) = a.upd c x ^^^ a.upd d y := by
  rcases ha with rfl | rfl
  · rw [upd_crc8, upd_crc8, upd_crc8, BitVec.setWidth_xor, upd8_xor, BitVec.setWidth_xor]
  · exact upd16_xor c d x y

theorem CkAlgo.upd_zero {a : CkAlgo} (ha : a = .crc8 ∨ a = .crc16) : a.upd 0 0x00 = 0 := by
  rcases ha with rfl | rfl <;> decide

theorem CkAlgo.fold_zeros {a : CkAlgo} (ha : a = .crc8 ∨ a = .crc16) (n : Nat) : a.fold 0 (List.replicate n 0x00) = 0 := by
  induction n with
  | zero => rfl
  | succ n ih => rw [List.replicate_succ, fold_cons, upd_zero ha, ih]

/-- Settles O11: linearity from that of one shift, the width from the architect's law, zeros by induction. -/
theorem updateIsLinear : Obligations.UpdateIsLinear :=
  ⟨fun _ c d x y ha => CkAlgo.upd_xor ha c d x y, CkAlgo.upd_lt, fun _ n ha => CkAlgo.fold_zeros ha n⟩

/-! Nothing is lost: an update is injective in the running value and in the byte. -/

theorem upd8_injective {c d : BitVec 8} {x y : Byte} (h : upd8 c x = upd8 d y) : c ^^^ x = d ^^^ y :=
  repeat_polyShift_injective (by decide) 8 h

theorem upd16_injective {c d : BitVec 16} {x y : Byte} (h : upd16 c x = upd16 d y) :
    c ^^^ (x.setWidth 16 <<< 8) = d ^^^ (y.setWidth 16 <<< 8) :=
  repeat_polyShift_injective (by decide) 8 h

/-- A byte in the 16 bits of a checksum value. -/
theorem setWidth_widen (b : Byte) : (b.setWidth 16).setWidth 8 = b := by
  rw [BitVec.setWidth_setWidth_of_le _ (by decide), BitVec.setWidth_eq]

theorem widen_injective {x y : Byte} (h : x.setWidth 16 = y.setWidth 16) : x = y := by
  rw [← setWidth_widen x, h, setWidth_widen]

/-- The high byte of a value made of two bytes. -/
theorem highByte_pair (x y : Byte) : (((x.setWidth 16 <<< 8) ^^^ y.setWidth 16) >>> 8).setWidth 8 = x := by
  ext i hi
  simp [hi, show 8 + i < 16 by omega]

/-- The low byte of a value made of two bytes. -/
theorem lowByte_pair (x y : Byte) : ((x.setWidth 16 <<< 8) ^^^ y.setWidth 16).setWidth 8 = y := by
  ext i hi
  simp

/-- A value is made of its two bytes. -/
theorem pair_bytes (c : Ck) : (((c >>> 8).setWidth 8).setWidth 16 <<< 8) ^^^ (c.setWidth 8).setWidth 16 = c := by
  ext i hi
  by_cases h8 : i < 8
  · simp [h8, BitVec.getLsbD_eq_getElem hi]
  · simp [h8, show i - 8 < 8 by omega, show 8 + (i - 8) = i by omega, BitVec.getLsbD_eq_getElem hi]

/-- A value of one byte (R133). -/
theorem widen_setWidth {c : Ck} (h : c.toNat < 2 ^ 8) : (c.setWidth 8).setWidth 16 = c := by
  apply BitVec.eq_of_toNat_eq
  simp only [BitVec.toNat_setWidth]
  omega

theorem CkAlgo.upd_injective_ck {a : CkAlgo} (ha : a = .crc8 ∨ a = .crc16) {c d : Ck} (hc : c.toNat < 2 ^ (8 * a.width))
    (hd : d.toNat < 2 ^ (8 * a.width)) {b : Byte} (h : a.upd c b = a.upd d b) : c = d := by
  rcases ha with rfl | rfl
  · have hbyte : c.setWidth 8 = d.setWidth 8 := (BitVec.xor_left_inj _).mp (upd8_injective (widen_injective h))
    rw [← widen_setWidth hc, hbyte, widen_setWidth hd]
  · exact (BitVec.xor_left_inj _).mp (upd16_injective h)

theorem CkAlgo.upd_injective_byte {a : CkAlgo} (ha : a = .crc8 ∨ a = .crc16) {c : Ck} {x y : Byte}
    (h : a.upd c x = a.upd c y) : x = y := by
  rcases ha with rfl | rfl
  · exact (BitVec.xor_right_inj _).mp (upd8_injective (widen_injective h))
  · have hhigh := (BitVec.xor_right_inj _).mp (upd16_injective h)
    rw [← highByte_pair x 0, hhigh, highByte_pair]

theorem CkAlgo.fold_injective {a : CkAlgo} (ha : a = .crc8 ∨ a = .crc16) (m : List Byte) {c d : Ck}
    (hc : c.toNat < 2 ^ (8 * a.width)) (hd : d.toNat < 2 ^ (8 * a.width)) (h : a.fold c m = a.fold d m) : c = d := by
  induction m generalizing c d with
  | nil => exact h
  | cons b m ih => exact upd_injective_ck ha hc hd (ih (a.upd_lt c b) (a.upd_lt d b) h)

theorem CkAlgo.fold_replaced_byte {a : CkAlgo} (ha : a = .crc8 ∨ a = .crc16) {seed : Ck} {x y : List Byte} {b b' : Byte}
    (h : a.fold seed (x ++ b' :: y) = a.fold seed (x ++ b :: y)) : b' = b := by
  rw [fold_append, fold_append, fold_cons, fold_cons] at h
  exact upd_injective_byte ha (fold_injective ha y (a.upd_lt _ _) (a.upd_lt _ _) h)

theorem flip_ne (b : Byte) (i : Fin 8) : b ^^^ ((1 : Byte) <<< i.val) ≠ b := by
  have hne : ∀ j : Fin 8, (1 : Byte) <<< j.val ≠ 0#8 := by decide
  intro h
  rw [← BitVec.xor_zero (x := b), BitVec.xor_assoc, BitVec.xor_right_inj, BitVec.zero_xor] at h
  exact hne i h

/-- Settles O13: the fold is injective in any one byte of a message. -/
theorem oneBitFlipIsDetected : Obligations.OneBitFlipIsDetected := fun _ _ _ _ b i ha _ h =>
  flip_ne b i (CkAlgo.fold_replaced_byte ha h)

/-! The neutrality law. -/

/-- Eight shifts of a value whose high byte is clear only move its low byte up (R123). -/
theorem repeat_crc16Shift_low (b : Byte) {k : Nat} (hk : k ≤ 8) :
    Nat.repeat (polyShift 0x1021) k (b.setWidth 16) = b.setWidth 16 <<< k := by
  induction k with
  | zero => rw [BitVec.shiftLeft_zero]; rfl
  | succ k ih =>
    have hmsb : (b.setWidth 16 <<< k).msb = false := by
      rw [BitVec.msb_eq_getLsbD_last, BitVec.getLsbD_shiftLeft, BitVec.getLsbD_setWidth,
        BitVec.getLsbD_of_ge b _ (by omega), Bool.and_false, Bool.and_false]
    rw [Nat.repeat, ih (by omega), polyShift_of_msb_false _ hmsb, ← BitVec.shiftLeft_add]

theorem CkAlgo.emit_crc8 (c : Ck) : CkAlgo.crc8.emit c = [c.setWidth 8] := rfl

theorem CkAlgo.emit_crc16 (c : Ck) : CkAlgo.crc16.emit c = [(c >>> 8).setWidth 8, c.setWidth 8] := rfl

/-- Feeding the high byte of a value leaves the low byte in its place (R124). -/
theorem upd16_pair (x y : Byte) : upd16 ((x.setWidth 16 <<< 8) ^^^ y.setWidth 16) x = y.setWidth 16 <<< 8 := by
  have hx : (x.setWidth 16 <<< 8) ^^^ y.setWidth 16 ^^^ (x.setWidth 16 <<< 8) = y.setWidth 16 := by
    rw [BitVec.xor_comm, ← BitVec.xor_assoc, BitVec.xor_self, BitVec.zero_xor]
  rw [upd16_eq, hx, repeat_crc16Shift_low y (le_refl 8)]

theorem upd8_self (b : Byte) : upd8 b b = 0#8 := by rw [upd8_eq, BitVec.xor_self, repeat_polyShift_zero]

theorem upd16_self (b : Byte) : upd16 (b.setWidth 16 <<< 8) b = 0#16 := by
  rw [upd16_eq, BitVec.xor_self, repeat_polyShift_zero]

theorem CkAlgo.crc8_neutral : CkAlgo.crc8.Neutral := fun c _ => by
  rw [emit_crc8, fold_cons, fold_nil, upd_crc8, upd8_self]
  rfl

theorem CkAlgo.crc16_neutral : CkAlgo.crc16.Neutral := fun c _ => by
  rw [emit_crc16, fold_cons, fold_cons, fold_nil, upd_crc16, upd_crc16]
  nth_rewrite 1 [← pair_bytes c]
  rw [upd16_pair, upd16_self]
  rfl

theorem CkAlgo.sum8_neutral : CkAlgo.sum8.Neutral := fun c _ => by
  have hsum : CkAlgo.sum8.fold c (CkAlgo.sum8.emit c) =
      (c.setWidth 8 + ((-(c.setWidth 8)).setWidth 16).setWidth 8).setWidth 16 := rfl
  rw [hsum, setWidth_widen, BitVec.add_right_neg]
  rfl

/-- A message followed by its checksum folds to zero under any algorithm that meets the law (R125). -/
theorem CkAlgo.Neutral.fold_message {a : CkAlgo} (ha : a.Neutral) {seed : Ck} (hs : seed.toNat < 2 ^ (8 * a.width))
    (m : List Byte) : a.fold seed (m ++ a.emit (a.fold seed m)) = 0 := by
  rw [fold_append]
  exact ha _ (a.fold_lt m hs)

theorem CkAlgo.neutral_of_named {a : CkAlgo} (ha : a = .crc8 ∨ a = .crc16 ∨ a = .sum8) : a.Neutral := by
  rcases ha with rfl | rfl | rfl
  · exact crc8_neutral
  · exact crc16_neutral
  · exact sum8_neutral

/-- Settles O10: the three algorithms meet the law, messages follow from it, and the value 1 with the low byte first does
not fold to zero. -/
theorem neutralityLaw : Obligations.NeutralityLaw :=
  ⟨CkAlgo.crc8_neutral, CkAlgo.crc16_neutral, CkAlgo.sum8_neutral,
    fun _ _ m ha hs => (CkAlgo.neutral_of_named ha).fold_message hs m, fun h => absurd (h 1) (by decide +kernel)⟩

/-! The two verdicts. -/

/-- A fold over CK_W bytes that ends at zero went through the checksum's own bytes (R132). -/
theorem CkAlgo.emit_of_fold_zero {a : CkAlgo} (ha : a = .crc8 ∨ a = .crc16) {c : Ck} {k : List Byte}
    (hk : k.length = a.width) (h : a.fold c k = 0) : k = a.emit c := by
  rcases ha with rfl | rfl
  · obtain ⟨b, rfl⟩ := List.length_eq_one_iff.mp hk
    have hzero : upd8 (c.setWidth 8) b = upd8 b b := by
      rw [upd8_self]
      exact widen_injective h
    have hb : c.setWidth 8 = b := (BitVec.xor_left_inj _).mp (upd8_injective hzero)
    rw [emit_crc8, hb]
  · obtain ⟨x, y, rfl⟩ := List.length_eq_two.mp hk
    rw [fold_cons, fold_cons, fold_nil, upd_crc16, upd_crc16] at h
    have hlow : upd16 c x = y.setWidth 16 <<< 8 :=
      (BitVec.xor_left_inj _).mp (upd16_injective (h.trans (upd16_self y).symm))
    have hpair : c = (x.setWidth 16 <<< 8) ^^^ y.setWidth 16 :=
      (BitVec.xor_left_inj _).mp (upd16_injective (hlow.trans (upd16_pair x y).symm))
    rw [emit_crc16, hpair, highByte_pair, lowByte_pair]

/-- Settles O12: one direction is the neutrality law, the other that the CRC loses nothing. -/
theorem validIffChecksumMatches : Obligations.ValidIffChecksumMatches := by
  intro a seed d k ha hs hk
  refine ⟨fun h => ?_, fun h => ?_⟩
  · rw [CkAlgo.fold_append] at h
    exact CkAlgo.emit_of_fold_zero ha hk h
  · rw [h]
    exact (CkAlgo.neutral_of_named (ha.imp_right Or.inl)).fold_message hs d

end Sys2Proof
end

