-- ==== Sys2Proof/Proofs/Frames.lean ====
section
/-!
SUPPORT. A frame of the encoder at an idle receiver, by VALIDATE, by EP.LISTEN and as an arrival (spec/41_encoder.md R143
to R147, spec/42_receiver.md R160 to R175, spec/30_encoding.md R81, R82, R101): the receiver ends in Busy and holds it.
-/

namespace Sys2Proof.Machine

/-- Both timeouts are positive and no header item stands twice in a lawful configuration (R9, R10, log 9). -/
theorem ok_timeouts_nodup {cfg : Config} (h : cfg.ok = true) :
    0 < cfg.rxTimeout.toNat ∧ 0 < cfg.queryTimeout.toNat ∧ cfg.profile.layout.Nodup := by
  simp only [Config.ok, Bool.and_eq_true, decide_eq_true_eq] at h
  obtain ⟨⟨⟨⟨⟨-, hrx⟩, hq⟩, -⟩, -⟩, hn⟩ := h
  exact ⟨hrx, hq, hn⟩

/-! The bytes of the two profiles' frames. -/

theorem profileAFrame_eq_encodeFrame (cfg : Config) (code fromAddr toAddr : Byte) (body : List Byte) :
    profileAFrame cfg code fromAddr toAddr body =
      encodeFrame { cfg with profile := Profile.a } [code, fromAddr, toAddr] body := rfl

theorem profileBFrame_eq_encodeFrame (cfg : Config) (x y opcode : Byte) (body : List Byte) :
    profileBFrame cfg x y opcode body =
      encodeFrame { cfg with profile := { Profile.b with cover := cfg.profile.cover } } [x, y, opcode] body := rfl

/-- Settles O16: both layouts are the frame's parts in order (R80), regrouped. -/
theorem profileFrames : Obligations.ProfileFrames := by
  refine ⟨fun cfg code fromAddr toAddr body => ⟨?_, profileAFrame_eq_encodeFrame ..⟩,
    fun cfg x y opcode body => ⟨?_, profileBFrame_eq_encodeFrame ..⟩⟩
  · rw [profileAFrame, frameBytes, List.append_assoc]
    rfl
  · rw [profileBFrame, frameBytes, List.append_assoc]
    simp only [Config.frameCk, Config.coverOf]
    cases cfg.profile.cover <;> rfl

/-! A held frame. -/

/-- The receiver holds the frame of `fields` and `body` in Busy (R171). -/
structure HoldsFrame (cfg : Config) (fields body : List Byte) (r : Receiver) : Prop where
  busy : r.epState = .busy
  status : r.epStatus = 0x00
  count : r.rxCnt = cfg.hdrLen + body.length + cfg.ckW
  bytes : memBytes r.rxbuf 0 r.rxCnt = headerFor cfg fields body ++ body ++ cfg.emit (encodeCk cfg fields body)
  header : r.hdr = unpackHeader cfg (headerFor cfg fields body)
  headerSet : r.hdrSet = true
  body : heldBody cfg r.rxbuf r.rxCnt = .ok body

/-- The bytes of a frame before its end delimiter. -/
def frameOpen (cfg : Config) (fields body : List Byte) : List Byte :=
  [cfg.startDelim] ++ headerFor cfg fields body ++ (body ++ cfg.emit (encodeCk cfg fields body))

theorem encodeFrame_frameOpen (cfg : Config) (fields body : List Byte) :
    encodeFrame cfg fields body = frameOpen cfg fields body ++ [cfg.endDelim] := encodeFrame_eq ..

/-- The frames a receiver takes whole (R146): fields of the layout, a body that fits, and no END_DELIM behind the header;
under an algorithm that meets the neutrality law. -/
structure Takeable (cfg : Config) (fields body : List Byte) : Prop where
  ok : cfg.ok = true
  neutral : cfg.profile.algo.Neutral
  fieldsFit : cfg.fieldsFit fields = true
  bodyFits : body.length ≤ cfg.maxBody
  safe : frameSafe cfg (headerFor cfg fields body) body = true

/-- An idle receiver reads such a frame on to its end delimiter, and then holds it. -/
theorem Takeable.held {cfg : Config} {fields body : List Byte} {r : Receiver} (h : Takeable cfg fields body)
    (hst : r.epState = .idle) :
    ∃ r1 r2, Feed cfg (frameOpen cfg fields body) r r1 ∧ pollsLine r1.epState = true ∧
      receiveByte cfg cfg.endDelim r1 = .ok (.msgReady, r2) ∧ HoldsFrame cfg fields body r2 := by
  obtain ⟨r1, hfeed, hin, hend, hbody⟩ := feed_encoded h.ok h.neutral h.fieldsFit h.bodyFits h.safe hst
  have hlen : (headerFor cfg fields body).length = cfg.hdrLen := packHeader_length _ _ _ h.fieldsFit
  refine ⟨r1, _, hfeed, congrArg pollsLine hin.state, hend, rfl, hin.status, ?_, ?_, hin.header, hin.headerSet, hbody⟩
  · rw [hin.count, List.length_append, cfg.emit_length, hlen, Nat.add_assoc]
  · rw [hin.count, hin.bytes, List.append_assoc]

theorem HoldsFrame.hostHdr_eq {cfg : Config} {fields body : List Byte} {t : State} (h : HoldsFrame cfg fields body t.rx) :
    hostHdr t = .ok (unpackHeader cfg (headerFor cfg fields body)) := by
  rw [hostHdr, if_pos h.headerSet, h.header]

/-- Settles O17: the scratch receiver is idle and reads the frame on to its end delimiter; the header's fields are the
round trip of HDR.PACK and HDR.UNPACK. -/
theorem validateRoundTrip : Obligations.ValidateRoundTrip := by
  intro s fields body hok hneutral hfields hbody hsafe
  obtain ⟨-, -, hnodup⟩ := ok_timeouts_nodup hok
  obtain ⟨r1, r2, hfeed, -, hend, hheld⟩ :=
    Takeable.held ⟨hok, hneutral, hfields, hbody, hsafe⟩ (r := Receiver.reset s.cfg) rfl
  refine ⟨unpackHeader s.cfg (headerFor s.cfg fields body), exec_validate ?_, fieldBytes_packHeader _ hnodup hfields,
    fun hl => bodyLen_packHeader _ hl hfields⟩
  rw [encodeFrame_frameOpen, validateBytes_feed hfeed, validateBytes_final [] hend rfl]
  simp only [validateVerdict, hheld.body, hheld.status, hheld.header]

/-! The same frame on the line. -/

/-- A wait that has just begun has not expired. -/
theorem expired_startWait {s : State} {timeout : Time} (h : 0 < timeout.toNat) : expired timeout (startWait s) = false := by
  rw [expired, startWait_now, show (startWait s).t0 = s.line.now from rfl, BitVec.sub_self]
  exact decide_eq_false h.not_ge

/-- Waiting bytes behind what an EP.LISTEN reads on through, and a byte that ends it (R175). -/
theorem listen_of_feed {s : State} {xs rest : List Byte} {b : Byte} {r1 r2 : Receiver} {e : Event} (hok : s.cfg.ok = true)
    (hfeed : Feed s.cfg xs s.rx r1) (hpolls : pollsLine r1.epState = true)
    (hend : receiveByte s.cfg b r1 = .ok (e, r2)) (he : endsListen e = true) (hd : s.dir = .rx)
    (hl : s.line.looks = []) (hw : s.line.waiting = xs ++ b :: rest) :
    listen s = .ok (endWait { s with
      t0 := s.line.now, rx := r2, result := .event e, line := { s.line with waiting := rest } }) := by
  have hfuel : supply s + 1 = xs.length + (rest.length + 2) := by
    rw [supply, hw, hl, List.length_append, List.length_cons, List.map_nil, List.sum_nil]
    omega
  have hfresh : expired s.cfg.rxTimeout (startWait s) = false := expired_startWait (ok_timeouts_nodup hok).1
  obtain ⟨res, hloop⟩ := listenLoop_feed (s := startWait s) (rest.length + 2) hfeed rfl hd hw hl (List.cons_ne_nil b rest)
    hfresh
  have hpoll := poll_waiting
    (s := { startWait s with rx := r1, result := res, line := { s.line with waiting := b :: rest } }) hd hpolls rfl hl hend
  rw [listen, hfuel, hloop, listenLoop]
  simp only [startWait] at hpoll ⊢
  simp only [hpoll, lastEvent, he, if_pos]

theorem exec_epListen_of_ok {s t : State} (hr : s.cfg.role = .endpoint) (h : listen s = .ok t) :
    exec .epListen s = .next t := by
  rw [exec, execEpListen, forRole, if_pos hr, h, finish]

/-- Settles O30: EP.LISTEN reads the frame on to its end delimiter, which ends it. -/
theorem listenReceivesFrame : Obligations.ListenReceivesFrame := by
  intro s fields body rest hok hr hneutral hfields hbody hsafe hst hd hl hw
  obtain ⟨r1, r2, hfeed, hpolls, hend, hheld⟩ := Takeable.held ⟨hok, hneutral, hfields, hbody, hsafe⟩ hst
  rw [encodeFrame_frameOpen, List.append_assoc, List.singleton_append] at hw
  exact ⟨_, exec_epListen_of_ok hr (listen_of_feed hok hfeed hpolls hend rfl hd hl hw), rfl, hheld.busy, hheld.status,
    hheld.count, hheld.bytes, hheld.hostHdr_eq, hheld.body, rfl⟩

/-- `ep.poll*` over waiting bytes it reads on through, and a byte that ends it (R108). -/
theorem pollStar_of_feed {s : State} {xs rest : List Byte} {b : Byte} {r1 r2 : Receiver} {e : Event}
    (hfeed : Feed s.cfg xs s.rx r1) (hpolls : pollsLine r1.epState = true)
    (hend : receiveByte s.cfg b r1 = .ok (e, r2)) (he : endsPolling e = true) (hd : s.dir = .rx)
    (hl : s.line.looks = []) (hw : s.line.waiting = xs ++ b :: rest) :
    pollStar (xs.length + 1) s =
      .ok { s with rx := r2, result := .event e, line := { s.line with waiting := rest } } := by
  obtain ⟨res, hloop⟩ := pollStar_feed (s := s) 1 hfeed rfl hd hw hl
  have hpoll := poll_waiting
    (s := { s with rx := r1, result := res, line := { s.line with waiting := b :: rest } }) hd hpolls rfl hl hend
  rw [hloop, pollStar]
  simp only [hpoll, lastEvent, he, if_pos]

/-- Bytes that arrive on an empty line wait there, where the receive path is connected (R41, R70). -/
theorem arrive_on_empty {s : State} (bytes : List Byte) (hd : s.dir = .rx) (hw : s.line.waiting = []) :
    arrive bytes s = { s with line := { s.line with waiting := bytes } } := by
  rw [arrive, if_pos hd, hw, List.nil_append]

theorem arrive_onlyLine (bytes : List Byte) (s : State) : OnlyLine s (arrive bytes s) := by
  unfold arrive
  split <;> rfl

theorem arriveFrame_of_ok {s t : State} {bytes : List Byte} (hr : s.cfg.role = .endpoint)
    (h : pollStar (supply (arrive bytes s)) (arrive bytes s) = .ok t) : arriveFrame bytes s = .next t := by
  rw [arriveFrame, hr]
  simp only [h, finish]

/-- A frame that arrives at an idle endpoint is held in Busy and leaves nothing on the line (R108). -/
theorem arriveFrame_holds {s : State} {fields body : List Byte} (h : Takeable s.cfg fields body)
    (hr : s.cfg.role = .endpoint) (hst : s.rx.epState = .idle) (hd : s.dir = .rx) (hl : s.line.looks = [])
    (hw : s.line.waiting = []) :
    ∃ t, arriveFrame (encodeFrame s.cfg fields body) s = .next t ∧ t.result = .event .msgReady ∧
      t.cfg = s.cfg ∧ HoldsFrame s.cfg fields body t.rx ∧ t.line.waiting = [] := by
  obtain ⟨r1, r2, hfeed, hpolls, hend, hheld⟩ := h.held hst
  have harrive := arrive_on_empty (encodeFrame s.cfg fields body) hd hw
  have hfuel : supply (arrive (encodeFrame s.cfg fields body) s) = (frameOpen s.cfg fields body).length + 1 := by
    rw [harrive, supply, hl, encodeFrame_frameOpen, List.length_append, List.map_nil, List.sum_nil]
    rfl
  have hpoll := pollStar_of_feed (s := { s with line := { s.line with waiting := encodeFrame s.cfg fields body } })
    (rest := []) hfeed hpolls hend rfl hd hl (encodeFrame_frameOpen ..)
  rw [← hfuel, ← harrive] at hpoll
  exact ⟨_, arriveFrame_of_ok hr hpoll, rfl, (arrive_fields _ s).1, hheld, rfl⟩

/-- A frame row at an endpoint that meets the receiver's invariant answers and keeps it (R191). -/
theorem arriveFrame_answers {s : State} (bytes : List Byte) (hok : s.cfg.ok = true) (hr : s.cfg.role = .endpoint)
    (hi : ReceiverInv s.cfg s.rx) :
    ∃ t, arriveFrame bytes s = .next t ∧ OnlyPoll s t ∧ ReceiverInv t.cfg t.rx := by
  have harrive := arrive_onlyLine bytes s
  obtain ⟨hcfg, -, -, -, hrx, -⟩ := harrive.fields
  obtain ⟨t, ht, hinv, honly⟩ := pollStar_answers (s := arrive bytes s) (supply (arrive bytes s)) (by rw [hcfg]; exact hok)
    (by rw [hcfg, hrx]; exact hi)
  exact ⟨t, arriveFrame_of_ok hr ht, harrive.onlyPoll.trans honly, hinv⟩

theorem arriveFrame_master {s : State} (bytes : List Byte) (hr : s.cfg.role = .master) (hd : s.dir = .rx) :
    arriveFrame bytes s =
      .next { s with result := .nothing, line := { s.line with waiting := s.line.waiting ++ bytes } } := by
  simp only [arriveFrame, hr, arrive, if_pos hd, setResult]

theorem exec_frameB {s : State} (x y opcode : Byte) {body : List Byte} (hb : body.length ≤ 255) :
    exec (.frameB x y opcode body) s = arriveFrame (profileBFrame s.cfg x y opcode body) s :=
  withOperands_of_fits (decide_eq_true hb) _ _

theorem ok_maxBody {cfg : Config} (h : cfg.ok = true) (hl : cfg.profile.lenW = true) : cfg.maxBody ≤ 255 := by
  simp only [Config.ok, Bool.and_eq_true, Bool.or_eq_true, decide_eq_true_eq, hl] at h
  obtain ⟨⟨⟨⟨⟨⟨⟨-, hmax⟩, -⟩, -⟩, -⟩, -⟩, -⟩, -⟩ := h
  exact hmax.resolve_left Bool.false_ne_true

/-- Profile A's frame is ENCODE's at an endpoint of profile A. -/
theorem profileAFrame_own {cfg : Config} (hp : cfg.profile = Profile.a) (code fromAddr toAddr : Byte) (body : List Byte) :
    profileAFrame cfg code fromAddr toAddr body = encodeFrame cfg [code, fromAddr, toAddr] body := by
  rw [profileAFrame_eq_encodeFrame, ← hp]

/-- Profile B's frame is ENCODE's at an endpoint of profile B, under either coverage. -/
theorem profileBFrame_own {cfg : Config} (hp : cfg.profile = { Profile.b with cover := cfg.profile.cover })
    (x y opcode : Byte) (body : List Byte) :
    profileBFrame cfg x y opcode body = encodeFrame cfg [x, y, opcode] body := by
  rw [profileBFrame_eq_encodeFrame, ← hp]

theorem HoldsFrame.hostBody_eq {cfg : Config} {fields body : List Byte} {t : State} (h : HoldsFrame cfg fields body t.rx)
    (hc : t.cfg = cfg) : hostBody t = .ok body := by rw [hostBody, hc, h.body]

/-- Settles O60: the two profiles' algorithms meet the neutrality law, so a frame that arrives is one the receiver takes;
the invariant and the line of a master are those of any arrival. -/
theorem arrivingFramesReceived : Obligations.ArrivingFramesReceived := by
  refine ⟨fun s code fromAddr toAddr body hok hr hp hst hd hl hw hbody hsafe => ?_,
    fun s x y opcode body hok hr hp hst hd hl hw hbody hsafe => ?_, fun s i hi hok hr hinv => ?_,
    fun s x y z body hr hd hlen => ?_⟩
  · have hheader : headerFor s.cfg [code, fromAddr, toAddr] body = [code, fromAddr, toAddr] := by
      rw [headerFor, packHeader, hp]
      rfl
    have htake : Takeable s.cfg [code, fromAddr, toAddr] body :=
      ⟨hok, by rw [hp]; exact CkAlgo.crc8_neutral, decide_eq_true (by rw [Config.fieldLen, hp]; rfl), hbody,
        by rw [hheader]; exact hsafe⟩
    obtain ⟨t, ht, hres, hcfg, hheld, hleft⟩ := arriveFrame_holds htake hr hst hd hl hw
    refine ⟨t, ?_, hres, hheld.busy, ?_, hheld.hostBody_eq hcfg, hleft⟩
    · rw [← ht, ← profileAFrame_own hp]
      rfl
    · rw [hheld.hostHdr_eq, hheader, unpackHeader, hp]
      rfl
  · have hown : s.cfg.profile = { Profile.b with cover := s.cfg.profile.cover } := by
      rcases hp with hp | hp
      · rw [hp]
      · rw [hp, Profile.bhb]
    have hlenW : s.cfg.profile.lenW = true := by rw [hown]; rfl
    have hheader : headerFor s.cfg [x, y, opcode] body = [x, y, opcode, BitVec.ofNat 8 body.length] := by
      rw [headerFor, packHeader_of_lenW hlenW]
      rfl
    have htake : Takeable s.cfg [x, y, opcode] body :=
      ⟨hok, by rw [hown]; exact CkAlgo.crc16_neutral, decide_eq_true (by rw [Config.fieldLen, hown]; rfl), hbody,
        by rw [hheader]; exact hsafe⟩
    obtain ⟨t, ht, hres, hcfg, hheld, hleft⟩ := arriveFrame_holds htake hr hst hd hl hw
    refine ⟨t, ?_, hres, hheld.busy, ?_, hheld.hostBody_eq hcfg, hleft⟩
    · rw [exec_frameB x y opcode (hbody.trans (ok_maxBody hok hlenW)), profileBFrame_own hown, ht]
    · rw [hheld.hostHdr_eq, hheader, unpackHeader, Config.fieldLen, hown]
      rfl
  · rcases hi with ⟨x, y, z, body, rfl⟩ | ⟨x, y, z, body, rfl, hlen⟩
    · exact arriveFrame_answers (profileAFrame s.cfg x y z body) hok hr hinv
    · rw [exec_frameB x y z hlen]
      exact arriveFrame_answers _ hok hr hinv
  · exact ⟨arriveFrame_master (profileAFrame s.cfg x y z body) hr hd,
      (exec_frameB x y z hlen).trans (arriveFrame_master _ hr hd)⟩

/-! One byte that arrives. -/

/-- Every row that brings the byte `b` is its arrival (R101, R103). -/
theorem exec_byteRow {s : State} {b : Byte} {i : Instr}
    (hi : i = .byteData b ∨ i = .byteOther b ∨ (i = .byteStart ∧ b = s.cfg.startDelim) ∨
      (i = .byteEnd ∧ b = s.cfg.endDelim) ∨ (i = .opcodeInfo ∧ b = 0x01)) : exec i s = arriveByte b s := by
  rcases hi with rfl | rfl | ⟨rfl, rfl⟩ | ⟨rfl, rfl⟩ | ⟨rfl, rfl⟩ <;> rfl

theorem arriveByte_of_ok {s t : State} {b : Byte} (hr : s.cfg.role = .endpoint) (h : poll (arrive [b] s) = .ok t) :
    arriveByte b s = .next t := by
  rw [arriveByte, hr]
  simp only [h, finish]

/-- A receiver that reads no byte answers Ignored, without looking at the line (R174). -/
theorem poll_of_deaf {s : State} (h : pollsLine s.rx.epState = false) :
    poll s = .ok (setResult (.event .ignored) s) := by
  rw [poll, h, if_neg Bool.false_ne_true]
  rfl

/-- Settles O59: the byte waits alone on the line, and the endpoint's one poll reads it or is deaf. -/
theorem arrivingBytesPolled : Obligations.ArrivingBytesPolled := by
  intro s b i hi hd hl hw
  have harrive := arrive_on_empty [b] hd hw
  rw [exec_byteRow hi]
  refine ⟨fun hr hok hinv hp => ?_, fun hr hp => ?_, fun hr => ?_⟩
  · obtain ⟨e, r, hbyte, -⟩ := receiveByte_ok b hok hinv
    have hpoll := poll_waiting (s := { s with line := { s.line with waiting := [b] } }) hd hp rfl hl hbyte
    have hempty : { s.line with waiting := [] } = s.line := by rw [← hw]
    refine ⟨e, r, hbyte, arriveByte_of_ok hr ?_⟩
    rw [harrive, hpoll, hempty]
  · exact arriveByte_of_ok hr (by rw [harrive]; exact poll_of_deaf hp)
  · rw [arriveByte, hr, harrive]
    rfl

end Sys2Proof.Machine
end

