-- ==== Sys2Proof/Proofs/Listen.lean ====
section
/-!
SUPPORT. EP.LISTEN as polls one after another, up to a final event or its deadline (spec/42_receiver.md R175), and on a
silent line (log 2).
-/

namespace Sys2Proof.Machine

/-- A look that changes nothing where no byte waits: the environment has none left. -/
theorem looks_nil_of_look_eq {s : State} (h : look s = s) (ha : lineAvail s = false) : s.line.looks = [] := by
  rcases hl : s.line.looks with - | ⟨l, rest⟩
  · rfl
  · have htake : look s = takeLook l rest s := by
      simp only [look, hl, ha, Bool.and_false, Bool.false_eq_true, if_false]
    have hrest : rest = l :: rest := by
      calc rest = (takeLook l rest s).line.looks := rfl
        _ = s.line.looks := by rw [← htake, h]
        _ = l :: rest := hl
    exact absurd (congrArg List.length hrest) (by simp)

/-- A poll that neither ends the listening nor leaves the line quiet has taken from the environment's supply. -/
theorem poll_supply_of_goesOn {s t : State} (h : poll s = .ok t) (he : endsListen (lastEvent t) = false)
    (hq : lineQuiet t = false) : supply t < supply s := by
  have hp : pollsLine s.rx.epState = true := by
    by_contra hdeaf
    rw [poll_of_deaf (Bool.not_eq_true _ ▸ hdeaf)] at h
    cases h
    cases he
  rcases poll_supply h hp with hlt | ⟨hlook, havail, rfl⟩
  · exact hlt
  · have hquiet : lineQuiet (setResult (.event .noByte) s) = true := by
      have ha : lineAvail (setResult (.event .noByte) s) = false := havail
      rw [lineQuiet, setResult_looks, looks_nil_of_look_eq hlook havail, ha]
      rfl
    rw [hquiet] at hq
    cases hq

/-- How a listening that began in a state of clock `start` may stop in `t` after its last poll left `u` (R175). -/
def ListenStops (timeout : Time) (u t : State) : Prop :=
  (endsListen (lastEvent u) = true ∧ t.result = u.result) ∨
  (endsListen (lastEvent u) = false ∧ t.result = .listenTimeout ∧ expired timeout t = true)

/-- `n` polls from `s` lead to `u`, none before the last final or past the deadline, and the listening stops in `t`. -/
structure ListenPolls (s : State) (n : Nat) (u t : State) : Prop where
  pos : 1 ≤ n
  polls : pollTimes n s = .ok u
  rx : t.rx = u.rx
  waiting : t.line.waiting = u.line.waiting
  before : ∀ m v, 1 ≤ m → m < n → pollTimes m s = .ok v →
    endsListen (lastEvent v) = false ∧ expired s.cfg.rxTimeout v = false
  stops : ListenStops s.cfg.rxTimeout u t

theorem pollTimes_one {s u : State} (h : poll s = .ok u) : pollTimes 1 s = .ok u := by rw [pollTimes_succ h, pollTimes]

/-- A listening that stops after its first poll. -/
theorem ListenPolls.one {s u t : State} (h : poll s = .ok u) (hrx : t.rx = u.rx)
    (hw : t.line.waiting = u.line.waiting) (hs : ListenStops s.cfg.rxTimeout u t) : ListenPolls s 1 u t where
  pos := le_refl 1
  polls := pollTimes_one h
  rx := hrx
  waiting := hw
  before _ _ h1 hm := absurd hm h1.not_gt
  stops := hs

/-- One more poll in front, after which the listening goes on. -/
theorem ListenPolls.cons {s s1 u t : State} {n : Nat} (h : ListenPolls s1 n u t) (hp : poll s = .ok s1)
    (he : endsListen (lastEvent s1) = false) (hx : expired s.cfg.rxTimeout s1 = false) :
    ListenPolls s (n + 1) u t := by
  have hcfg : s1.cfg = s.cfg := (poll_onlyPoll hp).fields.1
  refine ⟨Nat.le_add_left 1 n, (pollTimes_succ hp).trans h.polls, h.rx, h.waiting, fun m v h1 hm hv => ?_, hcfg ▸ h.stops⟩
  obtain ⟨k, rfl⟩ := Nat.exists_eq_add_of_le' h1
  rw [pollTimes_succ hp] at hv
  rcases k with - | k
  · cases hv
    exact ⟨he, hx⟩
  · exact hcfg ▸ h.before (k + 1) v (Nat.le_add_left 1 k) (by omega) hv

/-- EP.LISTEN's loop with fuel for all the environment has left: polls up to a final event or the deadline (R175). -/
theorem listenLoop_polls {n : Nat} {s t : State} (hn : supply s < n) (h : listenLoop n s = .ok t) :
    ∃ k u, ListenPolls s k u t := by
  induction n generalizing s with
  | zero => exact absurd hn (Nat.not_lt_zero _)
  | succ n ih =>
    rw [listenLoop] at h
    split at h
    · cases h
    · rename_i s1 hp
      have hcfg : s1.cfg = s.cfg := (poll_onlyPoll hp).fields.1
      rw [hcfg] at h
      split at h
      · rename_i he
        cases h
        exact ⟨1, _, .one hp rfl rfl (Or.inl ⟨he, rfl⟩)⟩
      · rename_i he
        rw [Bool.not_eq_true] at he
        split at h
        · rename_i hx
          cases h
          exact ⟨1, s1, .one hp rfl rfl (Or.inr ⟨he, rfl, hx⟩)⟩
        · rename_i hx
          split at h
          · cases h
            obtain ⟨-, -, -, -, hrx, -⟩ := (expire_onlyLine s1.cfg.rxTimeout s1).fields
            refine ⟨1, s1, .one hp hrx ?_ (Or.inr ⟨he, rfl, hcfg ▸ expire_expired _ s1⟩)⟩
            rw [listenTimesOut, setResult_waiting, expire]
            split <;> rfl
          · rename_i hq
            obtain ⟨k, u, hk⟩ := ih (by have := poll_supply_of_goesOn hp he (by simpa using hq); omega) h
            exact ⟨k + 1, u, hk.cons hp he (by simpa using hx)⟩

/-- EP.LISTEN from a state that meets the receiver's invariant: it answers, between the start and the end of its wait. -/
theorem listen_polls {s : State} (hok : s.cfg.ok = true) (hi : ReceiverInv s.cfg s.rx) :
    ∃ v n u, listen s = .ok (endWait v) ∧ OnlyPoll (startWait s) v ∧ ListenPolls (startWait s) n u v := by
  obtain ⟨v, hv, -, honly⟩ := listenLoop_answers (s := startWait s) (supply s + 1) hok hi
  obtain ⟨n, u, hu⟩ := listenLoop_polls (Nat.lt_succ_self _) hv
  exact ⟨v, n, u, by rw [listen, hv], honly, hu⟩

/-- A state reached by polls since the wait began has its deadline unchanged (R42, R262). -/
theorem expired_since_start {s v : State} (h : OnlyPoll (startWait s) v) (timeout : Time) :
    expired timeout v = decide (timeout.toNat ≤ (v.line.now - s.line.now).toNat) := by
  obtain ⟨-, -, -, ht0, -⟩ := h.fields
  rw [expired, ht0]
  rfl

theorem pollTimes_onlyPoll {n : Nat} {s t : State} (h : pollTimes n s = .ok t) : OnlyPoll s t := by
  induction n generalizing s with
  | zero => cases h; exact .refl _
  | succ n ih =>
    rw [pollTimes] at h
    split at h
    · rename_i u hu
      exact (poll_onlyPoll hu).trans (ih h)
    · cases h

/-- EP.LISTEN in a state that reads no byte answers Ignored at once (R174, R175). -/
theorem listen_of_deaf {s : State} (h : pollsLine s.rx.epState = false) :
    listen s = .ok (endWait (setResult (.event .ignored) (startWait s))) := by
  have hpoll : poll (startWait s) = .ok (setResult (.event .ignored) (startWait s)) := poll_of_deaf h
  rw [listen, listenLoop, hpoll]
  rfl

/-- Settles O29: the loop's polls, its deadline as time since the start, and the state that reads no byte. -/
theorem listenRepeatsPolls : Obligations.ListenRepeatsPolls := by
  refine ⟨rfl, fun s hok hr hi => ?_, fun s hr hp => ⟨_, exec_epListen_of_ok hr (listen_of_deaf hp), rfl, rfl, rfl⟩⟩
  obtain ⟨v, n, u, hlisten, honly, hpolls⟩ := listen_polls hok hi
  refine ⟨endWait v, exec_epListen_of_ok hr hlisten, ?_, n, u, hpolls.pos, hpolls.polls, hpolls.rx, hpolls.waiting,
    fun m w h1 hm hw => ?_, ?_⟩
  · have heq : v = { startWait s with
        rx := v.rx, result := v.result
        line := { s.line with waiting := v.line.waiting, now := v.line.now, looks := v.line.looks } } := honly
    rw [heq]
    rfl
  · obtain ⟨he, hx⟩ := hpolls.before m w h1 hm hw
    rw [expired_since_start (pollTimes_onlyPoll hw), decide_eq_false_iff_not, Nat.not_le] at hx
    exact ⟨he, hx⟩
  · rcases hpolls.stops with hfinal | ⟨he, hres, hx⟩
    · exact Or.inl hfinal
    · rw [expired_since_start honly, decide_eq_true_iff] at hx
      exact Or.inr ⟨he, hres, hx⟩

/-- On a silent line EP.LISTEN polls once and lets the clock run out (R175, log 2). -/
theorem listen_of_silent {s : State} (hok : s.cfg.ok = true) (hp : pollsLine s.rx.epState = true) (h : SilentLine s) :
    listen s = .ok (endWait (listenTimesOut (setResult (.event .noByte) (startWait s)))) := by
  obtain ⟨hw, hl⟩ := h
  have hlook : look (startWait s) = startWait s := look_of_no_looks hl
  have hread : lineRead (look (startWait s)) = none := by
    rw [hlook]
    exact lineRead_of_empty hw
  have hpoll : poll (startWait s) = .ok (setResult (.event .noByte) (startWait s)) := by
    rw [poll, startWait_rx, hp, if_pos rfl, pollWith, hread, hlook]
    rfl
  have hx : expired s.cfg.rxTimeout (setResult (.event .noByte) (startWait s)) = false :=
    expired_startWait (ok_timeouts_nodup hok).1
  have hq : lineQuiet (setResult (.event .noByte) (startWait s)) = true := by
    simp [lineQuiet, lineAvail, hw, hl]
  rw [listen, listenLoop, hpoll]
  simp only [lastEvent_event, endsListen, setResult_cfg, startWait_cfg, hx, hq, if_true, Bool.false_eq_true, if_false]

end Sys2Proof.Machine
end

