-- ==== Sys2Proof/Proofs/Commands.lean ====
section
/-!
SUPPORT. What the single commands answer: refusals (spec/30_encoding.md R105, log 10), CK.EMIT and CK.CHECK (R130, R131),
EP.DONE, EP.FAULT, EP.RESET and EP.REPLY (spec/42_receiver.md R176 to R179), the direction commands and SEND
(spec/43_direction.md R200 to R202), M.BEGIN, M.RAWSEND and a query that is not sent (spec/44_master_query.md R220, R221,
R232).
-/

namespace Sys2Proof.Machine

/-! Refusals. -/

theorem forRole_of_role {r : Role} {s : State} (h : s.cfg.role = r) (x : Out) : forRole r s x = x := if_pos h

theorem forRole_of_ne {r : Role} {s : State} (h : s.cfg.role ≠ r) (x : Out) : forRole r s x = refuseCommand s := if_neg h

/-- A command that its own meaning refuses is refused on either role. -/
theorem forRole_refuse (r : Role) (s : State) : forRole r s (refuseCommand s) = refuseCommand s := ite_self _

/-- The reserved codes are refused (R105). -/
theorem exec_reserved (s : State) {i : Instr} (hlo : 0x17 ≤ (opcodeByte i).toNat) (hhi : (opcodeByte i).toNat ≤ 0x1F) :
    exec i s = refuseCommand s := by
  cases i with
  | reserved17 | reserved18 | reserved19 | reserved1A | reserved1B | reserved1C | reserved1D | reserved1E | reserved1F =>
    rfl
  | _ => simp [opcodeByte] at hlo hhi

/-- A command of one role is that role's meaning or `Refused` (R105). -/
theorem exec_commandRole {s : State} {i : Instr} {r : Role} (hi : commandRole i = some r)
    (hw : WellFormed s.cfg i = true) : ∃ x, exec i s = forRole r s x := by
  cases i with
  | epReply fields body pause => cases hi; exact ⟨_, withOperands_of_fits hw _ _⟩
  | mQuery ready fields body pause => cases hi; exact ⟨_, withOperands_of_fits hw _ _⟩
  | _ => cases hi <;> exact ⟨_, rfl⟩

theorem exec_epDone_of_not_busy {s : State} (h : s.rx.epState ≠ .busy) : exec .epDone s = refuseCommand s := by
  rw [exec, execEpDone, if_neg h, forRole_refuse]

theorem exec_epReply_of_not_busy {s : State} {fields : List Byte} (body : List Byte) (pause : Bool)
    (hf : s.cfg.fieldsFit fields = true) (h : s.rx.epState ≠ .busy) :
    exec (.epReply fields body pause) s = refuseCommand s := by
  rw [exec, execEpReply, withOperands_of_fits hf, if_neg h, forRole_refuse]

theorem exec_mBegin_of_not_resting {s : State} (rate : BitVec 32) (hsetup : s.mq.mState ≠ .setup)
    (hidle : s.mq.mState ≠ .idle) : exec (.mBegin rate) s = refuseCommand s := by
  rw [exec, execMBegin, if_neg (not_or_intro hsetup hidle), forRole_refuse]

theorem exec_mRawSend_of_not_idle {s : State} (bytes : List Byte) (pause : Bool) (h : s.mq.mState ≠ .idle) :
    exec (.mRawSend bytes pause) s = refuseCommand s := by
  rw [exec, execMRawSend, if_neg h, forRole_refuse]

theorem exec_mRawQuery_of_not_idle {s : State} (bytes : List Byte) (pause : Bool) (h : s.mq.mState ≠ .idle) :
    exec (.mRawQuery bytes pause) s = refuseCommand s := by
  rw [exec, execMRawQuery, if_neg h, forRole_refuse]

theorem exec_mQuery_of_not_idle {s : State} (ready : Bool) {fields : List Byte} (body : List Byte) (pause : Bool)
    (hf : s.cfg.fieldsFit fields = true) (h : s.mq.mState ≠ .idle) :
    exec (.mQuery ready fields body pause) s = refuseCommand s := by
  rw [exec, execMQuery, withOperands_of_fits hf, if_neg h, forRole_refuse]

/-- Settles O5: reserved codes, the other role, and the failed preconditions one by one. -/
theorem refusedCommands : Obligations.RefusedCommands := by
  refine ⟨fun s i hlo hhi => exec_reserved s hlo hhi, fun s i r hi hr hw => ?_, fun s h => exec_epDone_of_not_busy h,
    fun s fields body pause hf h => exec_epReply_of_not_busy body pause hf h,
    fun s rate h1 h2 => exec_mBegin_of_not_resting rate h1 h2,
    fun s bytes pause h => ⟨exec_mRawSend_of_not_idle bytes pause h, exec_mRawQuery_of_not_idle bytes pause h⟩,
    fun s ready fields body pause hf h => exec_mQuery_of_not_idle ready body pause hf h⟩
  obtain ⟨x, hx⟩ := exec_commandRole hi hw
  exact hx.trans (forRole_of_ne hr x)

/-! The checksum commands that only answer. -/

theorem exec_ckEmit (s : State) : exec .ckEmit s = .next (setResult (.bytes (s.cfg.emit s.ck)) s) := by
  rw [exec, execCkEmit]

theorem exec_ckCheck (s : State) : exec .ckCheck s = .next (setResult (.verdict (decide (s.ck = 0))) s) := by
  rw [exec, execCkCheck]

/-- Settles O9: both commands are one write of the result register; the examples are computed. -/
theorem ckEmitAndCheck : Obligations.CkEmitAndCheck := by
  refine ⟨rfl, rfl, exec_ckEmit, by decide +kernel, exec_ckCheck, fun s t hseed h => ?_, by decide +kernel⟩
  rw [exec_ckInit, Host.Outcome.next.injEq] at h
  have hck : t.ck = 0 := by rw [← h, setResult_ck, hseed]
  rw [exec_ckCheck, decide_eq_true hck, setResult]

/-- A flag raised in a clear status (R250). -/
theorem raiseFlag_zero (f : Byte) : raiseFlag 0x00 f = f := BitVec.zero_or

/-! SEND's sequence, without and with the guard. -/

theorem sendBytes_plain (bytes : List Byte) (s : State) :
    sendBytes bytes false s =
      (acceptedCount s.line.accepts bytes.length,
        if acceptedCount s.line.accepts bytes.length < bytes.length then 0x11 else 0x00,
        { s with
          dir := .rx
          line := { s.line with
            accepts := s.line.accepts.tail
            trace := s.line.trace ++ [.direction .tx, .wrote (bytes.take (acceptedCount s.line.accepts bytes.length)),
              .flushed, .direction .rx] } }) := by
  simp [sendBytes, guardWrite, shortWriteFlag, flagTxError, lineWrite_snd, turnAround, lineFlush, setDir, record]

theorem sendBytes_guarded (bytes : List Byte) (s : State) :
    let guard := List.replicate s.cfg.guardLen s.cfg.guardByte
    let g := acceptedCount s.line.accepts guard.length
    let n := acceptedCount s.line.accepts.tail bytes.length
    sendBytes bytes true s =
      (n, if g < s.cfg.guardLen ∨ n < bytes.length then 0x11 else 0x00,
        { s with
          dir := .rx
          line := { s.line with
            accepts := s.line.accepts.tail.tail
            trace := s.line.trace ++ [.direction .tx, .wrote (guard.take g), .wrote (bytes.take n), .flushed,
              .direction .rx] } }) := by
  simp only [sendBytes, guardWrite, if_true, shortWriteFlag_or, lineWrite_snd, lineWrite_count, turnAround, lineFlush,
    setDir, record, flagTxError, List.append_assoc]
  rfl

/-- Settles O36: SEND answers its sequence; what is accepted is at most what is offered. -/
theorem sendSequence : Obligations.SendSequence := by
  refine ⟨fun _ _ => rfl, fun s bytes => ?_, fun s bytes => ?_, fun accepts k => ⟨?_, rfl⟩⟩
  · simp only [exec, execSend, sendBytes_plain, setResult]
  · simp only [exec, execSend, sendBytes_guarded, setResult]
  · cases accepts with
    | nil => exact le_refl k
    | cons n accepts => exact min_le_right n k

/-- Settles O35: each direction command is one recorded write of `dir`. -/
theorem dirCommands : Obligations.DirCommands := ⟨rfl, rfl, fun _ => rfl, fun _ => rfl, rfl, rfl⟩

/-! The endpoint's commands. -/

theorem exec_epDone_of_busy {s : State} (hr : s.cfg.role = .endpoint) (h : s.rx.epState = .busy) :
    exec .epDone s = .next (setResult .nothing { s with rx := { s.rx with epState := .idle } }) := by
  rw [exec, execEpDone, forRole_of_role hr, if_pos h]

theorem exec_epFault {s : State} (hr : s.cfg.role = .endpoint) :
    exec .epFault s = .next (setResult .nothing { s with rx := { s.rx with epState := .error } }) := by
  rw [exec, execEpFault, forRole_of_role hr]

theorem exec_epReset {s : State} (hr : s.cfg.role = .endpoint) :
    exec .epReset s = .next (setResult .nothing (setDir .rx
      { s with
        rx := { Receiver.reset s.cfg with hdr := freeHeader s }
        freeCount := s.freeCount + s.cfg.hdrLen })) := by
  rw [exec, execEpReset, forRole_of_role hr]

/-- Settles O31, from the four meanings. -/
theorem doneFaultReset : Obligations.DoneFaultReset :=
  ⟨rfl, rfl, rfl, fun _ h => exec_epDone_of_not_busy h, fun _ hr h => exec_epDone_of_busy hr h,
    fun _ hr => exec_epFault hr, fun _ hr => ⟨_, _, exec_epReset hr⟩⟩

theorem exec_epReply_of_busy {s : State} {fields body : List Byte} (pause : Bool) (hr : s.cfg.role = .endpoint)
    (hb : s.rx.epState = .busy) (hf : s.cfg.fieldsFit fields = true) (hlen : body.length ≤ s.cfg.maxBody) :
    exec (.epReply fields body pause) s = .next (replyFrame fields body pause s) := by
  rw [exec, execEpReply, withOperands_of_fits hf, forRole_of_role hr, if_pos hb, bodyFits, if_pos (decide_eq_true hlen)]

theorem exec_epReply_of_long {s : State} {fields body : List Byte} (pause : Bool) (hr : s.cfg.role = .endpoint)
    (hb : s.rx.epState = .busy) (hf : s.cfg.fieldsFit fields = true) (hlen : s.cfg.maxBody < body.length) :
    exec (.epReply fields body pause) s = .next (setResult (.refusedFor flagBufferExhausted) s) := by
  rw [exec, execEpReply, withOperands_of_fits hf, forRole_of_role hr, if_pos hb, bodyFits, decide_eq_false hlen.not_ge,
    if_neg Bool.false_ne_true]

/-- Settles O32: EP.REPLY in Busy is SEND's sequence between its two writes of `ep_state`. -/
theorem replySendsFrame : Obligations.ReplySendsFrame := by
  refine ⟨fun _ _ _ => rfl, fun s fields body pause hb hf => exec_epReply_of_not_busy body pause hf hb,
    fun s fields body hr hb hf hlen => ?_, fun s fields body hr hb hf hlen => ?_,
    fun s fields body pause hr hb hf hlen => exec_epReply_of_long pause hr hb hf hlen⟩
  · rw [exec_epReply_of_busy false hr hb hf hlen, replyFrame, sendBytes_plain]
    simp only [setResult, setEpState, raiseEp, raiseFlag, record, List.append_assoc, ← hb]
    rfl
  · rw [exec_epReply_of_busy true hr hb hf hlen, replyFrame, sendBytes_guarded]
    simp only [setResult, setEpState, raiseEp, raiseFlag, record, List.append_assoc, ← hb]
    rfl

/-! The master's commands. -/

theorem exec_mBegin {s : State} (rate : BitVec 32) (hr : s.cfg.role = .master)
    (hm : s.mq.mState = .setup ∨ s.mq.mState = .idle) :
    exec (.mBegin rate) s = .next (setResult .nothing (setMState .idle (clearQ (setDir .rx (lineBegin rate s))))) := by
  rw [exec, execMBegin, forRole_of_role hr, if_pos hm]

theorem exec_mRawSend {s : State} (bytes : List Byte) (pause : Bool) (hr : s.cfg.role = .master)
    (hm : s.mq.mState = .idle) :
    exec (.mRawSend bytes pause) s =
      .next (setResult (.count (rawSend bytes pause s).1) (setMState .idle (rawSend bytes pause s).2)) := by
  rw [exec, execMRawSend, forRole_of_role hr, if_pos hm]

theorem exec_mQuery {s : State} (ready : Bool) {fields : List Byte} (body : List Byte) (pause : Bool)
    (hr : s.cfg.role = .master) (hm : s.mq.mState = .idle) (hf : s.cfg.fieldsFit fields = true) :
    exec (.mQuery ready fields body pause) s = finish (queryRound ready fields body pause s) := by
  rw [exec, execMQuery, withOperands_of_fits hf, forRole_of_role hr, if_pos hm]

/-- Settles O39: M.BEGIN's four writes, one after another. -/
theorem beginOpensLine : Obligations.BeginOpensLine := by
  refine ⟨fun _ => rfl, fun s rate hr hm => ?_⟩
  rw [exec_mBegin rate hr hm]
  simp [setResult, setMState, clearQ, setDir, lineBegin, record]

/-- Settles O40: M.RAWSEND is SEND's sequence between its two writes of `m_state`. -/
theorem rawSendSequence : Obligations.RawSendSequence := by
  refine ⟨fun _ _ => rfl, fun s bytes pause h => exec_mRawSend_of_not_idle bytes pause h, fun s bytes hr hm => ?_,
    fun s bytes hr hm => ?_⟩
  · rw [exec_mRawSend bytes false hr hm, rawSend, sendBytes_plain]
    simp only [setResult, setMState, clearQ, raiseQ, raiseFlag_zero, record, List.append_assoc, hm]
    rfl
  · rw [exec_mRawSend bytes true hr hm, rawSend, sendBytes_guarded]
    simp only [setResult, setMState, clearQ, raiseQ, raiseFlag_zero, record, List.append_assoc, hm]
    rfl

/-- A query that is not sent only clears and flags its result registers and sets `dir` to RX (R232, log 31). -/
theorem turnedAway_eq (flag : Byte) (s : State) :
    turnedAway flag s = .ok { s with
      dir := .rx
      mq := { s.mq with qStatus := flag, qValid := false, qCnt := 0 }
      result := .query flag none
      line := { s.line with trace := s.line.trace ++ [.direction .rx] } } := by
  simp [turnedAway, returnQuery, raiseQ, raiseFlag, clearQ, setDir, record, setResult]

/-- Settles O43: R232's first two tests turn the query away. -/
theorem queryNotSent : Obligations.QueryNotSent := by
  refine ⟨fun s fields body pause hr hm hf => ?_, fun s fields body pause hr hm hf hlen => ?_⟩
  · rw [exec_mQuery false body pause hr hm hf, queryRound, Bool.not_false, if_pos rfl, turnedAway_eq]
    rfl
  · rw [exec_mQuery true body pause hr hm hf, queryRound, Bool.not_true, if_neg Bool.false_ne_true, bodyFits,
      decide_eq_false hlen.not_ge, Bool.not_false, if_pos rfl, turnedAway_eq]
    rfl

end Sys2Proof.Machine
end

