-- ==== Sys2Proof/Proofs/Writers.lean ====
section
/-!
SUPPORT. Who writes what (spec/10_state.md R20): each instruction's effect sorted by the registers it reaches, and from
this the transitions of `ep_state`, the latched Error, the discipline of `dir` and the frame of both buffers.
-/

namespace Sys2Proof.Machine

/-! Configuration, port, `ck`, `dir` and `t0`. -/

/-- The commands that write `ck` (R20, R27). -/
def WritesCk (i : Instr) : Prop :=
  i = .ckInit ∨ (∃ b, i = .ckUpdate b) ∨ (∃ x y z, i = .ckBlock x y z) ∨ (∃ x y, i = .encode x y) ∨
  (∃ x y z, i = .epReply x y z) ∨ (∃ w x y z, i = .mQuery w x y z)

/-- The commands that leave `dir` = RX (R20, R206). -/
def EndsInRx (i : Instr) : Prop :=
  i = .dirRx ∨ i = .epReset ∨ (∃ x y, i = .send x y) ∨ (∃ x y z, i = .epReply x y z) ∨ commandRole i = some .master

/-- The commands that wait (R20, R42). -/
def WritesT0 (i : Instr) : Prop := i = .epListen ∨ (∃ x y, i = .mRawQuery x y) ∨ (∃ w x y z, i = .mQuery w x y z)

/-- The registers outside receiver and master are written by their own commands only; what is written to `ck` has the
algorithm's width where the seed has it. -/
structure WritesOwn (s : State) (i : Instr) (t : State) : Prop where
  cfg : t.cfg = s.cfg
  port : t.port = s.port
  ck : t.ck = s.ck ∨ (WritesCk i ∧ (s.cfg.ckFits s.cfg.ckSeed = true → s.cfg.ckFits t.ck = true))
  dir : t.dir = s.dir ∨ i = .dirTx ∨ (t.dir = .rx ∧ EndsInRx i)
  t0 : t.t0 = s.t0 ∨ WritesT0 i

/-- A frame's checksum has the algorithm's width (R28, R133). -/
theorem encodeCk_fits {cfg : Config} (fields body : List Byte) (h : cfg.ckFits cfg.ckSeed = true) :
    cfg.ckFits (encodeCk cfg fields body) = true := cfg.fold_fits _ h

theorem OnlyPoll.writesOwn {s t : State} (h : OnlyPoll s t) (i : Instr) : WritesOwn s i t := by
  obtain ⟨hcfg, hdir, hck, ht0, -, hport, -⟩ := h.fields
  exact ⟨hcfg, hport, .inl hck, .inl hdir, .inl ht0⟩

/-- What a query's wait keeps (R223). -/
theorem Waited.fields {s t : State} (h : Waited s t) :
    t.cfg = s.cfg ∧ t.dir = s.dir ∧ t.ck = s.ck ∧ t.rx = s.rx ∧ t.port = s.port ∧ t.line.accepts = s.line.accepts := by
  obtain ⟨_, -, h⟩ := h.frame
  rw [h]
  exact ⟨rfl, rfl, rfl, rfl, rfl, rfl⟩

theorem afterSend_waited {c : Ck} {writes : List (List Byte)} {s t : State}
    (h : awaitAndReturn (afterSend c writes s) = .ok t) : Waited (afterSend c writes s) t :=
  awaitAndReturn_waited h rfl

theorem Effect.writesOwn {i : Instr} {s t : State} (h : Effect s i t) : WritesOwn s i t := by
  cases h with
  | answered i r => exact ⟨rfl, rfl, .inl rfl, .inl rfl, .inl rfl⟩
  | checksum i c r hi hf =>
    refine ⟨rfl, rfl, .inr ⟨?_, hf⟩, .inl rfl, .inl rfl⟩
    exact hi.imp_right (·.imp_right (·.imp_right Or.inl))
  | polled i t hi hr h => exact (poll_onlyPoll h).writesOwn i
  | listened t hr h =>
    have hl := listen_only h
    exact ⟨by rw [hl], by rw [hl], .inl (by rw [hl]), .inl (by rw [hl]), .inr (.inl rfl)⟩
  | arrived i bytes n t hi hr h =>
    exact ((arrive_onlyLine bytes s).onlyPoll.trans (arrived_run h).onlyPoll).writesOwn i
  | queued i bytes hi hr => exact ((arrive_onlyLine bytes s).onlyPoll.trans (onlyPoll_setResult _ _)).writesOwn i
  | done hr hb => exact ⟨rfl, rfl, .inl rfl, .inl rfl, .inl rfl⟩
  | faulted hr => exact ⟨rfl, rfl, .inl rfl, .inl rfl, .inl rfl⟩
  | wasReset hr => exact ⟨rfl, rfl, .inl rfl, .inr (.inr ⟨rfl, .inr (.inl rfl)⟩), .inl rfl⟩
  | replied fields body pause hr hb =>
    obtain ⟨f, -, hf⟩ := replyFrame_fields fields body pause s
    exact ⟨by rw [hf], by rw [hf],
      .inr ⟨.inr (.inr (.inr (.inr (.inl ⟨_, _, _, rfl⟩)))), fun hs => by rw [hf]; exact encodeCk_fits fields body hs⟩,
      .inr (.inr ⟨by rw [hf], .inr (.inr (.inr (.inl ⟨_, _, _, rfl⟩)))⟩), .inl (by rw [hf])⟩
  | directedTx => exact ⟨rfl, rfl, .inl rfl, .inr (.inl rfl), .inl rfl⟩
  | directedRx => exact ⟨rfl, rfl, .inl rfl, .inr (.inr ⟨rfl, .inl rfl⟩), .inl rfl⟩
  | sent bytes pause =>
    obtain ⟨hcfg, hck, ht0, -, -, -, hport, -⟩ := (sendBytes_onlySend bytes pause s).fields
    exact ⟨hcfg, hport, .inl hck, .inr (.inr ⟨rfl, .inr (.inr (.inl ⟨_, _, rfl⟩))⟩), .inl ht0⟩
  | begun rate hr => exact ⟨rfl, rfl, .inl rfl, .inr (.inr ⟨rfl, .inr (.inr (.inr (.inr rfl)))⟩), .inl rfl⟩
  | rawSent bytes pause hr hm =>
    rw [rawSend_afterSend]
    exact ⟨rfl, rfl, .inl rfl, .inr (.inr ⟨rfl, .inr (.inr (.inr (.inr rfl)))⟩), .inl rfl⟩
  | rawQueried bytes pause t hr hm h =>
    rw [rawSend_afterSend] at h
    obtain ⟨hcfg, hdir, hck, -, hport, -⟩ := (afterSend_waited h).fields
    exact ⟨hcfg, hport, .inl hck, .inr (.inr ⟨hdir, .inr (.inr (.inr (.inr rfl)))⟩), .inr (.inr (.inl ⟨_, _, rfl⟩))⟩
  | notSent ready fields body pause f hr hm hf =>
    exact ⟨rfl, rfl, .inl rfl, .inr (.inr ⟨rfl, .inr (.inr (.inr (.inr rfl)))⟩), .inl rfl⟩
  | queried fields body pause t hr hm h =>
    rw [querySend_afterSend] at h
    obtain ⟨hcfg, hdir, hck, -, hport, -⟩ := (afterSend_waited h).fields
    exact ⟨hcfg, hport,
      .inr ⟨.inr (.inr (.inr (.inr (.inr ⟨_, _, _, _, rfl⟩)))), fun hs => by rw [hck]; exact encodeCk_fits fields body hs⟩,
      .inr (.inr ⟨hdir, .inr (.inr (.inr (.inr rfl)))⟩), .inr (.inr (.inr ⟨_, _, _, _, rfl⟩))⟩

/-! The receiver's registers. -/

/-- Everything an instruction can do to the receiver's registers (R20, R160 to R179). -/
inductive RxEffect (s t : State) : Instr → Prop where
  /-- Nothing. -/
  | kept (i : Instr) (h : t.rx = s.rx) : RxEffect s t i
  /-- EP.POLL. -/
  | polled (i : Instr) (hi : opcodeByte i = 0x0A) (hr : s.cfg.role = .endpoint) (h : poll s = .ok t) : RxEffect s t i
  /-- EP.LISTEN and arrivals: a run of polls that begins with the same receiver. -/
  | ran (i : Instr) (hi : i = .epListen ∨ isArrival i = true) (hr : s.cfg.role = .endpoint) (u v : State)
      (hcfg : u.cfg = s.cfg) (hrx : u.rx = s.rx) (hrun : Run u v) (ht : t.rx = v.rx) : RxEffect s t i
  /-- EP.DONE. -/
  | done (hr : s.cfg.role = .endpoint) (hb : s.rx.epState = .busy) (ht : t.rx = { s.rx with epState := .idle }) :
      RxEffect s t .epDone
  /-- EP.FAULT. -/
  | faulted (hr : s.cfg.role = .endpoint) (ht : t.rx = { s.rx with epState := .error }) : RxEffect s t .epFault
  /-- EP.RESET. -/
  | wasReset (hr : s.cfg.role = .endpoint) (ht : t.rx = { Receiver.reset s.cfg with hdr := freeHeader s }) :
      RxEffect s t .epReset
  /-- EP.REPLY: only a flag. -/
  | replied (fields body : List Byte) (pause : Bool) (f : Byte) (hr : s.cfg.role = .endpoint)
      (hb : s.rx.epState = .busy) (hf : sendFlag f)
      (ht : t.rx = { s.rx with epState := .busy, epStatus := raiseFlag s.rx.epStatus f }) :
      RxEffect s t (.epReply fields body pause)

theorem Effect.rxEffect {i : Instr} {s t : State} (h : Effect s i t) : RxEffect s t i := by
  cases h with
  | polled i t hi hr h => exact .polled i hi hr h
  | listened t hr h =>
    obtain ⟨u, hrun, ht⟩ := listen_rx h
    exact .ran _ (.inl rfl) hr (startWait s) u rfl rfl hrun ht
  | arrived i bytes n t hi hr h =>
    obtain ⟨hcfg, -, -, -, hrx, -⟩ := arrive_fields bytes s
    exact .ran i (.inr hi) hr _ t hcfg hrx (arrived_run h) rfl
  | queued i bytes hi hr => exact .kept i (arrive_fields bytes s).2.2.2.2.1
  | done hr hb => exact .done hr hb rfl
  | faulted hr => exact .faulted hr rfl
  | wasReset hr => exact .wasReset hr rfl
  | replied fields body pause hr hb =>
    obtain ⟨f, hf, h⟩ := replyFrame_fields fields body pause s
    exact .replied fields body pause f hr hb hf (by rw [h])
  | sent bytes pause =>
    obtain ⟨-, -, -, hrx, -⟩ := (sendBytes_onlySend bytes pause s).fields
    exact .kept _ hrx
  | rawSent bytes pause hr hm =>
    rw [rawSend_afterSend]
    exact .kept _ rfl
  | rawQueried bytes pause t hr hm h =>
    rw [rawSend_afterSend] at h
    exact .kept _ (afterSend_waited h).rx_eq
  | queried fields body pause t hr hm h =>
    rw [querySend_afterSend] at h
    exact .kept _ (afterSend_waited h).rx_eq
  | _ => exact .kept _ rfl

/-- The pairs of `ep_state` a poll can go between (R161 to R172, the spec's transition table). -/
def pollTransitions : List (EpState × EpState) :=
  [(.idle, .receivingHeader), (.receivingHeader, .receivingBody), (.receivingHeader, .idle), (.receivingBody, .idle),
    (.receivingBody, .busy)]

theorem EventTransition.mem_pollTransitions {r r' : Receiver} {e : Event} (h : EventTransition r r' e)
    (hne : r'.epState ≠ r.epState) : (r.epState, r'.epState) ∈ pollTransitions := by
  cases e with
  | noByte => exact absurd (congrArg Receiver.epState h) hne
  | notDetected => exact absurd (congrArg Receiver.epState h.1) hne
  | frameStart => rw [h.1, h.2]; decide
  | stored => exact absurd h.1 hne
  | headerDone => rw [h.1, h.2]; decide
  | msgReady => rw [h.1, h.2]; decide
  | corrupted => rw [h.1, h.2]; decide
  | overflow => rcases h.1 with hin | hin <;> rw [hin, h.2] <;> decide
  | ignored => exact absurd (congrArg Receiver.epState h.1) hne

/-- Settles O28: a poll's transition is its event's; the other writers of the receiver name theirs. -/
theorem epStateTransitions : Obligations.EpStateTransitions := by
  intro s t i h hne
  cases (exec_effect h).rxEffect with
  | kept i hrx => exact absurd (congrArg Receiver.epState hrx) hne
  | polled i hi hr hp =>
    obtain ⟨e, -, he⟩ := poll_transition hp
    exact .inl ⟨hi, he.mem_pollTransitions hne⟩
  | ran i hi hr u v hcfg hrx hrun ht => exact .inr (hi.imp_right Or.inl)
  | done hr hb ht => exact .inr (.inr (.inr (.inl ⟨rfl, hb, congrArg Receiver.epState ht⟩)))
  | faulted hr ht => exact .inr (.inr (.inr (.inr (.inl ⟨rfl, congrArg Receiver.epState ht⟩))))
  | wasReset hr ht => exact .inr (.inr (.inr (.inr (.inr ⟨rfl, congrArg Receiver.epState ht⟩))))
  | replied fields body pause f hr hb hf ht => exact absurd ((congrArg Receiver.epState ht).trans hb.symm) hne

/-! The master's registers. -/

/-- The two queries. -/
def IsQuery (i : Instr) : Prop :=
  (∃ bytes pause, i = .mRawQuery bytes pause) ∨ (∃ ready fields body pause, i = .mQuery ready fields body pause)

/-- Everything an instruction can do to the master's registers (R20, R220 to R235). -/
inductive MqEffect (s t : State) (i : Instr) : Prop where
  /-- Nothing. -/
  | kept (h : t.mq = s.mq) : MqEffect s t i
  /-- The result registers are cleared, and flagged where a send was short or no query was sent. -/
  | cleared (hi : commandRole i = some .master) (hr : s.cfg.role = .master) (f : Byte)
      (hf : sendFlag f ∨ f = flagBufferExhausted)
      (ht : t.mq = { s.mq with mState := .idle, qStatus := f, qValid := false, qCnt := 0 }) : MqEffect s t i
  /-- A query that was sent. -/
  | queried (hi : IsQuery i) (hr : s.cfg.role = .master) (hm : s.mq.mState = .idle) (c : Ck)
      (writes : List (List Byte)) (h : awaitAndReturn (afterSend c writes s) = .ok t) : MqEffect s t i

theorem IsQuery.commandRole_eq {i : Instr} (h : IsQuery i) : commandRole i = some .master := by
  rcases h with ⟨_, _, rfl⟩ | ⟨_, _, _, _, rfl⟩ <;> rfl

theorem Effect.mqEffect {i : Instr} {s t : State} (h : Effect s i t) : MqEffect s t i := by
  cases h with
  | polled i t hi hr h => exact .kept (poll_onlyPoll h).fields.2.2.2.2.1
  | listened t hr h => exact .kept (by rw [listen_only h])
  | arrived i bytes n t hi hr h =>
    exact .kept ((arrive_onlyLine bytes s).onlyPoll.trans (arrived_run h).onlyPoll).fields.2.2.2.2.1
  | queued i bytes hi hr => exact .kept (arrive_fields bytes s).2.2.2.2.2.1
  | replied fields body pause hr hb =>
    obtain ⟨f, -, h⟩ := replyFrame_fields fields body pause s
    exact .kept (by rw [h])
  | sent bytes pause =>
    obtain ⟨-, -, -, -, hmq, -⟩ := (sendBytes_onlySend bytes pause s).fields
    exact .kept hmq
  | begun rate hr => exact .cleared rfl hr 0x00 (.inl (.inl rfl)) rfl
  | rawSent bytes pause hr hm =>
    rw [rawSend_afterSend]
    exact .cleared rfl hr _ (.inl (sendStatus_sendFlag _ _)) rfl
  | rawQueried bytes pause t hr hm h =>
    rw [rawSend_afterSend] at h
    exact .queried (.inl ⟨_, _, rfl⟩) hr hm _ _ h
  | notSent ready fields body pause f hr hm hf =>
    refine .cleared rfl hr f (hf.imp_left Or.inr) ?_
    rw [← hm]
    simp only [setResult, raiseQ, clearQ, setDir, record, raiseFlag_zero]
  | queried fields body pause t hr hm h =>
    rw [querySend_afterSend] at h
    exact .queried (.inr ⟨_, _, _, _, rfl⟩) hr hm _ _ h
  | _ => exact .kept rfl

/-- The rows of EP.POLL are the endpoint's (R100). -/
theorem commandRole_of_poll {i : Instr} (hi : opcodeByte i = 0x0A) : commandRole i = some .endpoint := by
  cases i with
  | epPollIdleOther | epPollIdleStart | epPollHeaderNotLast | epPollHeaderLastOk | epPollHeaderLastOversize
  | epPollReceivingNone | epPollBodyFull | epPollBodyRoom | epPollBodyEndValid | epPollBodyEndInvalid | epPollIgnored => rfl
  | _ => exact absurd hi (by simp [opcodeByte])

/-- Settles O55, from the three sorted effects. -/
theorem registerWriters : Obligations.RegisterWriters := by
  intro s t i h
  have heff := exec_effect h
  obtain ⟨hcfg, hport, hck, hdir, ht0⟩ := heff.writesOwn
  refine ⟨hcfg, hport, hck.imp_right (·.1), ?_, ?_, hdir.imp_right (·.imp_right (·.2)), ht0⟩
  · cases heff.rxEffect with
    | kept i hrx => exact .inl hrx
    | polled i hi hr hp => exact .inr ⟨hr, .inl (commandRole_of_poll hi)⟩
    | ran i hi hr u v hcfg hrx hrun ht => exact .inr ⟨hr, hi.imp_left fun hl => by rw [hl]; rfl⟩
    | done hr hb ht => exact .inr ⟨hr, .inl rfl⟩
    | faulted hr ht => exact .inr ⟨hr, .inl rfl⟩
    | wasReset hr ht => exact .inr ⟨hr, .inl rfl⟩
    | replied fields body pause f hr hb hf ht => exact .inr ⟨hr, .inl rfl⟩
  · cases heff.mqEffect with
    | kept hmq => exact .inl hmq
    | cleared hi hr f hf ht => exact .inr ⟨hr, hi⟩
    | queried hi hr hm c writes hq => exact .inr ⟨hr, hi.commandRole_eq⟩

/-- Settles O56: RXBUF through a run of polls, QBUF through a query's wait. -/
theorem bufferBytesFramed : Obligations.BufferBytesFramed := by
  refine ⟨fun s t i h hne => ⟨fun a ha => ?_, fun a ha => ?_⟩, fun s t i h hi a ha => ?_,
    fun s t i h hpoll hlisten harrive hreset => ?_, fun s t i h hraw hquery => ?_⟩
  · cases (exec_effect h).rxEffect with
    | kept i hrx => rw [hrx]
    | polled i hi hr hp => exact (Run.last hp).above ha
    | ran i hi hr u v hcfg hrx hrun ht =>
      rw [ht] at ha ⊢
      rw [hrun.above ha, hrx]
    | done hr hb ht => rw [ht]
    | faulted hr ht => rw [ht]
    | wasReset hr ht => exact absurd rfl hne
    | replied fields body pause f hr hb hf ht => rw [ht]
  · cases (exec_effect h).mqEffect with
    | kept hmq => rw [hmq]
    | cleared hi hr f hf ht => rw [ht]
    | queried hi hr hm c writes hq => exact (afterSend_waited hq).above a ha
  · rw [exec_poll s hi] at h
    rcases forRole_next h with ⟨-, hp⟩ | rfl
    · exact poll_memGet_other (finish_next hp) ha.ne
    · rfl
  · cases (exec_effect h).rxEffect with
    | kept i hrx => rw [hrx]
    | polled i hi hr hp => exact absurd hi hpoll
    | ran i hi hr u v hcfg hrx hrun ht => exact absurd (hi.resolve_left hlisten) (by simp [harrive])
    | done hr hb ht => rw [ht]
    | faulted hr ht => rw [ht]
    | wasReset hr ht => exact absurd rfl hreset
    | replied fields body pause f hr hb hf ht => rw [ht]
  · cases (exec_effect h).mqEffect with
    | kept hmq => rw [hmq]
    | cleared hi hr f hf ht => rw [ht]
    | queried hi hr hm c writes hq =>
      rcases hi with ⟨_, _, rfl⟩ | ⟨_, _, _, _, rfl⟩
      · exact absurd rfl (hraw _ _)
      · exact absurd rfl (hquery _ _ _ _)

end Sys2Proof.Machine
end

