-- ==== Sys2Proof/Proofs/Direction.lean ====
section
/-!
SUPPORT. The discipline of `dir` (spec/43_direction.md R204, R206, spec/42_receiver.md section 3 (2),
spec/44_master_query.md section 3 (1)) and the latched Error (spec/60_exceptions.md R257).
-/

namespace Sys2Proof.Machine

theorem OnlyPoll.directed {s t : State} (h : OnlyPoll s t) : Directed s t := by
  obtain ⟨-, hdir, -, -, -, -, -, htrace, -⟩ := h.fields
  exact .same htrace hdir

/-- Every instruction writes with `dir` = TX and leaves the `dir` its trace ends in (R204). -/
theorem Effect.directed {i : Instr} {s t : State} (h : Effect s i t) : Directed s t := by
  cases h with
  | answered i r => exact .same rfl rfl
  | checksum i c r hi hf hr => exact .same rfl rfl
  | polled i t hi hr h => exact (poll_onlyPoll h).directed
  | listened t hr h =>
    have hl := listen_only h
    exact .same (by rw [hl]) (by rw [hl])
  | arrived i bytes n t hi hr h => exact ((arrive_onlyLine bytes s).onlyPoll.trans (arrived_run h).onlyPoll).directed
  | queued i bytes hi hr => exact ((arrive_onlyLine bytes s).onlyPoll.trans (onlyPoll_setResult _ _)).directed
  | done hr hb => exact .same rfl rfl
  | faulted hr => exact .same rfl rfl
  | wasReset hr => exact ⟨[.direction .rx], rfl, rfl⟩
  | replied fields body pause hr hb => exact replyFrame_directed fields body pause s
  | directedTx => exact .setDir .tx s
  | directedRx => exact .setDir .rx s
  | sent bytes pause => exact sendBytes_directed bytes pause s
  | begun rate hr =>
    have hopened : Directed s (lineBegin rate s) := .record s rfl
    exact (hopened.trans (.setDir .rx _)).trans ⟨[.masterState .idle], rfl, rfl⟩
  | rawSent bytes pause hr hm => exact (rawSend_directed bytes pause s).trans ⟨[.masterState .idle], rfl, rfl⟩
  | rawQueried bytes pause t hr hm h =>
    refine (rawSend_directed bytes pause s).trans (waited_directed (awaitAndReturn_waited h ?_))
    rw [rawSend_afterSend]
    rfl
  | notSent ready fields body pause f hr hm hf => exact ⟨[.direction .rx], rfl, rfl⟩
  | queried fields body pause t hr hm h =>
    have hcleared : Directed s (clearQ s) := .same rfl rfl
    refine (hcleared.trans (querySend_directed fields body pause _)).trans (waited_directed (awaitAndReturn_waited h ?_))
    rw [querySend_afterSend]
    rfl

/-- Settles O37: every effect is directed. -/
theorem writesAreDirected : Obligations.WritesAreDirected := fun _ _ _ h => (exec_effect h).directed

/-- What a query on an idle master does: it is turned away, or it is sent and waits (R222, R232). -/
theorem exec_query_next {i : Instr} {s t : State} (hi : IsQuery i) (hr : s.cfg.role = .master)
    (hm : s.mq.mState = .idle) (h : exec i s = .next t) :
    (∃ f, (f = flagTxError ∨ f = flagBufferExhausted) ∧ turnedAway f s = .ok t) ∨
    ∃ c writes, QuerySends s.cfg i writes ∧ awaitAndReturn (afterSend c writes s) = .ok t := by
  have hsent : ∀ {writes}, QuerySends s.cfg i writes →
      ∃ c writes, QuerySends s.cfg i writes ∧ awaitAndReturn (afterSend c writes s) = .ok t := by
    intro writes hw
    obtain ⟨c, hc, -⟩ := exec_querySends hr hm hw
    exact ⟨c, writes, hw, finish_next (hc.symm.trans h)⟩
  rcases hi with ⟨bytes, pause, rfl⟩ | ⟨ready, fields, body, pause, rfl⟩
  · exact .inr (hsent (.inl ⟨bytes, pause, rfl, rfl⟩))
  · obtain ⟨hf, -⟩ := withOperands_next h
    cases ready with
    | false =>
      rw [exec_mQuery false body pause hr hm hf] at h
      exact .inl ⟨_, .inl rfl, finish_next h⟩
    | true =>
      by_cases hlen : body.length ≤ s.cfg.maxBody
      · exact .inr (hsent (.inr ⟨fields, body, pause, rfl, hf, hlen, rfl⟩))
      · rw [exec_mQuery true body pause hr hm hf, queryRound, bodyFits, decide_eq_false hlen] at h
        exact .inl ⟨_, .inr rfl, finish_next h⟩

theorem turnedAway_dir {f : Byte} {s t : State} (h : turnedAway f s = .ok t) : t.dir = .rx := by
  rw [turnedAway_eq] at h
  cases h
  rfl

/-- Every M command of an idle master ends in RX (R206, R236(1), log 31). -/
theorem master_dir {i : Instr} {s t : State} (hi : commandRole i = some .master) (hr : s.cfg.role = .master)
    (hm : s.mq.mState = .idle) (h : exec i s = .next t) : t.dir = .rx := by
  have hquery : IsQuery i → t.dir = .rx := fun hq => by
    rcases exec_query_next hq hr hm h with ⟨f, -, haway⟩ | ⟨c, writes, -, hsent⟩
    · exact turnedAway_dir haway
    · obtain ⟨-, hdir, -⟩ := (afterSend_waited hsent).fields
      exact hdir
  cases i with
  | mBegin rate =>
    rw [exec_mBegin rate hr (.inr hm), Host.Outcome.next.injEq] at h
    rw [← h]
    rfl
  | mRawSend bytes pause =>
    rw [exec_mRawSend bytes pause hr hm, rawSend_afterSend, Host.Outcome.next.injEq] at h
    rw [← h]
    rfl
  | mRawQuery bytes pause => exact hquery (.inl ⟨_, _, rfl⟩)
  | mQuery ready fields body pause => exact hquery (.inr ⟨_, _, _, _, rfl⟩)
  | _ => cases hi

/-- Settles O38: who writes `dir` leaves it at RX, DIR.TX apart; the commands that send always write it. -/
theorem receiveModeRestored : Obligations.ReceiveModeRestored := by
  refine ⟨fun s t i h hd hne => ?_, fun s t bytes pause h => ?_, fun s t fields body pause h hr hb hlen => ?_,
    fun s t i h hr hm hi => master_dir hi hr hm h⟩
  · rcases (exec_effect h).writesOwn.dir with hsame | htx | ⟨hrx, -⟩
    · exact hsame.trans hd
    · exact absurd htx hne
    · exact hrx
  · rw [exec, execSend, Host.Outcome.next.injEq] at h
    rw [← h]
    rfl
  · obtain ⟨hf, -⟩ := withOperands_next h
    rw [exec_epReply_of_busy pause hr hb hf hlen, Host.Outcome.next.injEq] at h
    obtain ⟨f, -, hreply⟩ := replyFrame_fields fields body pause s
    rw [← h, hreply]

/-! Error. -/

/-- In Error only EP.RESET changes `ep_state` (R257). -/
theorem Effect.stays_error {i : Instr} {s t : State} (h : Effect s i t) (hst : s.rx.epState = .error)
    (hne : i ≠ .epReset) : t.rx.epState = .error := by
  have hdeaf : pollsLine s.rx.epState = false := congrArg pollsLine hst
  cases h.rxEffect with
  | kept i hrx => rw [hrx, hst]
  | polled i hi hr hp =>
    rw [poll_of_deaf hdeaf] at hp
    cases hp
    exact hst
  | ran i hi hr u v hcfg hrx hrun ht =>
    rw [ht, hrun.deaf (by rw [hrx]; exact hdeaf)]
    exact (congrArg Receiver.epState hrx).trans hst
  | done hr hb ht => cases hst.symm.trans hb
  | faulted hr ht => rw [ht]
  | wasReset hr ht => exact absurd rfl hne
  | replied fields body pause f hr hb hf ht => cases hst.symm.trans hb

/-- In a state that reads no byte EP.POLL and EP.LISTEN answer `Ignored` and leave the receiver (R174, R175). -/
theorem deaf_ignores {i : Instr} {s t : State} (hdeaf : pollsLine s.rx.epState = false) (hr : s.cfg.role = .endpoint)
    (hi : opcodeByte i = 0x0A ∨ i = .epListen) (h : exec i s = .next t) :
    t.result = .event .ignored ∧ t.rx = s.rx := by
  rcases hi with hi | rfl
  · rw [exec_poll_ignored hi hr hdeaf] at h
    cases h
    exact ⟨rfl, rfl⟩
  · rw [exec_epListen_of_ok hr (listen_of_deaf hdeaf)] at h
    cases h
    exact ⟨rfl, rfl⟩

/-- Commands that do not look at the receiver do in Error what they do in any of its states (R257): the checksum commands,
ENCODE, SEND and the direction commands. -/
theorem exec_in_error {i : Instr} {s t : State} (h : exec i s = .next t)
    (hi : i = .ckInit ∨ i = .ckEmit ∨ i = .ckCheck ∨ i = .dirTx ∨ i = .dirRx ∨ (∃ b, i = .ckUpdate b) ∨
      (∃ x y z, i = .ckBlock x y z) ∨ (∃ x y, i = .encode x y) ∨ (∃ x y, i = .send x y)) :
    t.result ≠ .refused ∧
    exec i { s with rx := { s.rx with epState := .error } } = .next { t with rx := { t.rx with epState := .error } } := by
  rcases hi with rfl | rfl | rfl | rfl | rfl | ⟨b, rfl⟩ | ⟨x, y, z, rfl⟩ | ⟨x, y, rfl⟩ | ⟨x, y, rfl⟩
  case inl | inr.inl | inr.inr.inl | inr.inr.inr.inl | inr.inr.inr.inr.inl | inr.inr.inr.inr.inr.inl =>
    cases h
    exact ⟨nofun, rfl⟩
  · obtain ⟨hfits, h⟩ := withOperands_next h
    cases h
    exact ⟨nofun, withOperands_of_fits hfits _ _⟩
  · obtain ⟨hfits, h⟩ := withOperands_next h
    by_cases hb : bodyFits s.cfg y = true
    · rw [if_pos hb] at h
      cases h
      exact ⟨nofun, (withOperands_of_fits hfits _ _).trans (if_pos hb)⟩
    · rw [if_neg hb] at h
      cases h
      exact ⟨nofun, (withOperands_of_fits hfits _ _).trans (if_neg hb)⟩
  · cases h
    cases y <;> exact ⟨nofun, rfl⟩

/-- Settles O34: every effect but a reset stays in Error; the commands it names, one by one. -/
theorem errorIsLatched : Obligations.ErrorIsLatched := by
  refine ⟨fun s t i hst hne h => (exec_effect h).stays_error hst hne,
    fun s t i hst hr hi h => deaf_ignores (congrArg pollsLine hst) hr hi h, fun s fields body pause hst hf => ?_,
    fun s t i h hi => exec_in_error h hi, fun s hr => ⟨_, exec_epReset hr, rfl⟩, fun cfg s => rfl⟩
  have hbusy : s.rx.epState ≠ .busy := by rw [hst]; decide
  exact ⟨exec_epDone_of_not_busy hbusy, exec_epReply_of_not_busy body pause hf hbusy⟩

end Sys2Proof.Machine
end

