-- ==== Sys2Proof/Proofs/Invariant.lean ====
section
/-!
SUPPORT. The invariant of the whole machine: it holds at reset (spec/70_reset_and_hazards.md R280 to R282), every
instruction keeps it and answers under it (spec/42_receiver.md section 3, spec/44_master_query.md section 3), and it gives
the host's reads their values (spec/10_state.md R38).
-/

namespace Sys2Proof.Machine

/-! Reset. -/

/-- A receiver after EP.RESET meets the invariant, whatever its unspecified header (R179, R191). -/
theorem receiverReset_withHdr_inv {cfg : Config} (hok : cfg.ok = true) (hd : Header) :
    ReceiverInv cfg { Receiver.reset cfg with hdr := hd } :=
  let hi := receiverReset_inv hok
  { notTransmitting := hi.notTransmitting, cntLe := hi.cntLe, inHeader := hi.inHeader, inBody := hi.inBody
    checksum := hi.checksum, busyChecksum := hi.busyChecksum, busyStatus := hi.busyStatus, busyCount := hi.busyCount
    frameStatus := hi.frameStatus, status := hi.status, bufferWf := hi.bufferWf, written := hi.written
    header := fun h => h.elim nofun nofun, headerSet := hi.headerSet, fits := hi.fits }

/-- Result registers that were cleared meet the invariant, with no flag or one (R33). -/
theorem cleared_inv {cfg : Config} {q : Master} (hw : Memory.wf cfg.bufCap q.qbuf = true) {f : Byte}
    (hf : sendFlag f ∨ f = flagBufferExhausted) (m : MState) :
    ResultInv cfg { q with mState := m, qStatus := f, qValid := false, qCnt := 0 } where
  cntLe := Nat.zero_le _
  status := show statusLegal f = true by rcases hf with (rfl | rfl) | rfl <;> decide
  bufferWf := hw
  written := written_zero _
  validCount := nofun
  header := nofun

/-- The invariant sees of the state only its configuration, `ck`, the receiver and the master. -/
theorem inv_of_reset_registers {cfg : Config} {s : State} (hok : cfg.ok = true) (hcfg : s.cfg = cfg)
    (hck : s.ck = cfg.ckSeed) (hrx : s.rx = Receiver.reset cfg) (hmq : s.mq = Master.reset cfg) : Inv s where
  cfgOk := by rw [hcfg, hok]
  rx := by rw [hcfg, hrx]; exact receiverReset_inv hok
  mq := by rw [hcfg, hmq]; exact cleared_inv (q := Master.reset cfg) rfl (.inl (.inl rfl)) .setup
  rests := by rw [hmq]; exact .inl rfl
  ckFits := by rw [hcfg, hck]; exact ok_seed hok
  hdrFits := by rw [hcfg, hrx]; exact resetHeader_fits cfg
  qHdrFits := by rw [hcfg, hmq]; exact resetHeader_fits cfg

/-- Settles O52: a reset, at any time, gives every register its reset value. -/
theorem resetMeetsInvariant : Obligations.ResetMeetsInvariant :=
  ⟨fun _ hok => inv_of_reset_registers hok rfl rfl rfl rfl, inv_of_reset_registers (by decide) rfl rfl rfl rfl,
    fun _ _ hok => inv_of_reset_registers hok rfl rfl rfl rfl, fun _ _ => rfl, rfl⟩

/-- A host read at or above the fill count has no value (R38). -/
theorem hostRxByte_above {s : State} {i : Nat} (h : s.rx.rxCnt ≤ i) : hostRxByte s i = .error (.noValue i) :=
  if_neg h.not_gt

theorem hostQByte_above {s : State} {i : Nat} (h : s.mq.qCnt ≤ i) : hostQByte s i = .error (.noValue i) :=
  if_neg h.not_gt

/-- After reset a master refuses every M command but M.BEGIN (R220 to R222, R232, R280). -/
theorem exec_master_after_reset {cfg : Config} {i : Instr} (hw : WellFormed cfg i = true)
    (hi : commandRole i = some .master) (hne : ∀ r, i ≠ .mBegin r) :
    exec i (State.resetWith cfg) = refuseCommand (State.resetWith cfg) := by
  have hm : (State.resetWith cfg).mq.mState ≠ .idle := nofun
  cases i with
  | mBegin rate => exact absurd rfl (hne rate)
  | mRawSend bytes pause => exact exec_mRawSend_of_not_idle bytes pause hm
  | mRawQuery bytes pause => exact exec_mRawQuery_of_not_idle bytes pause hm
  | mQuery ready fields body pause => exact exec_mQuery_of_not_idle ready body pause hw hm
  | _ => cases hi

/-- Settles O51: the reset values, an empty port, a master in Setup, and that no effect writes the configuration. -/
theorem resetLeaves : Obligations.ResetLeaves :=
  ⟨fun _ => ⟨rfl, rfl, rfl, rfl, rfl, rfl, rfl, rfl, rfl, rfl, rfl,
      fun i => ⟨hostRxByte_above (Nat.zero_le i), hostQByte_above (Nat.zero_le i)⟩, rfl, rfl, rfl, step_of_empty rfl⟩,
    fun _ _ _ hw hi hne => exec_master_after_reset hw hi hne, fun _ _ _ h => (exec_effect h).writesOwn.cfg⟩

/-! Every instruction keeps the invariant. -/

/-- Leaving a frame or Busy for Idle or Error keeps what the invariant says (R176, R178). -/
theorem ReceiverInv.leave {cfg : Config} {r : Receiver} (hi : ReceiverInv cfg r) {st : EpState}
    (hst : st = .idle ∨ st = .error) : ReceiverInv cfg { r with epState := st } where
  notTransmitting := by rcases hst with rfl | rfl <;> nofun
  cntLe := hi.cntLe
  inHeader := by rcases hst with rfl | rfl <;> nofun
  inBody := by rcases hst with rfl | rfl <;> nofun
  checksum := by rcases hst with rfl | rfl <;> exact fun h => h.elim nofun nofun
  busyChecksum := by rcases hst with rfl | rfl <;> nofun
  busyStatus := by rcases hst with rfl | rfl <;> nofun
  busyCount := by rcases hst with rfl | rfl <;> nofun
  frameStatus := by rcases hst with rfl | rfl <;> exact fun h => h.elim nofun nofun
  status := hi.status
  bufferWf := hi.bufferWf
  written := hi.written
  header := by rcases hst with rfl | rfl <;> exact fun h => h.elim nofun nofun
  headerSet := by rcases hst with rfl | rfl <;> exact fun h => h.elim nofun nofun
  fits := hi.fits

/-- EP.REPLY's flag touches none of the flags Busy excludes (R177, R191(6)). -/
theorem ReceiverInv.reply {cfg : Config} {r : Receiver} (hi : ReceiverInv cfg r) (hb : r.epState = .busy) {f : Byte}
    (hf : sendFlag f) : ReceiverInv cfg { r with epState := .busy, epStatus := raiseFlag r.epStatus f } where
  notTransmitting := nofun
  cntLe := hi.cntLe
  inHeader := nofun
  inBody := nofun
  checksum := fun h => h.elim nofun nofun
  busyChecksum _ := hi.busyChecksum hb
  busyStatus _ := by
    have hmask : f &&& 0x0E = 0 := by rcases hf with rfl | rfl <;> decide
    rw [raiseFlag, BitVec.and_comm, BitVec.and_or_distrib_left, BitVec.and_comm, hi.busyStatus hb, BitVec.and_comm, hmask]
    rfl
  busyCount _ := hi.busyCount hb
  frameStatus := fun h => h.elim nofun nofun
  status := raise_legal hi.status (by rcases hf with rfl | rfl <;> simp)
  bufferWf := hi.bufferWf
  written := hi.written
  header _ := hi.header (.inr hb)
  headerSet _ := hi.headerSet (.inr hb)
  fits := hi.fits

theorem RxEffect.inv {i : Instr} {s t : State} (h : RxEffect s t i) (hok : s.cfg.ok = true) (hc : t.cfg = s.cfg)
    (hi : ReceiverInv s.cfg s.rx) : ReceiverInv t.cfg t.rx := by
  cases h with
  | kept i hrx => rw [hc, hrx]; exact hi
  | polled i hop hr hp => exact (Run.last hp).inv hok hi
  | ran i hop hr u v hcfg hrx hrun ht =>
    have hv : v.cfg = s.cfg := hrun.onlyPoll.fields.1.trans hcfg
    rw [hc, ht, ← hv]
    exact hrun.inv (by rw [hcfg]; exact hok) (by rw [hcfg, hrx]; exact hi)
  | done hr hb ht => rw [hc, ht]; exact hi.leave (.inl rfl)
  | faulted hr ht => rw [hc, ht]; exact hi.leave (.inr rfl)
  | wasReset hr ht => rw [hc, ht]; exact receiverReset_withHdr_inv hok _
  | replied fields body pause f hr hb hf ht => rw [hc, ht]; exact hi.reply hb hf

/-- A query that is sent answers, whatever the environment does (R236). -/
theorem afterSend_answers {s : State} (c : Ck) (writes : List (List Byte)) (hok : s.cfg.ok = true)
    (hw : Memory.wf s.cfg.bufCap s.mq.qbuf = true) :
    ∃ t, Awaited (afterSend c writes s) t ∧ awaitAndReturn (afterSend c writes s) = .ok (setResult
      (.query t.mq.qStatus (if t.mq.qValid then some (t.mq.qHdr, memBytes t.mq.qbuf 0 t.mq.qCnt) else none)) t) :=
  awaitAndReturn_answers hok (cleared_filling hw (sendStatus_sendFlag _ _) .transmitting) rfl rfl

theorem MqEffect.inv {i : Instr} {s t : State} (h : MqEffect s t i) (hok : s.cfg.ok = true) (hc : t.cfg = s.cfg)
    (hi : ResultInv s.cfg s.mq) (hm : MasterRests s.mq) : ResultInv t.cfg t.mq ∧ MasterRests t.mq := by
  cases h with
  | kept hmq => rw [hc, hmq]; exact ⟨hi, hm⟩
  | cleared hop hr f hf ht => rw [hc, ht]; exact ⟨cleared_inv hi.bufferWf hf .idle, .inr rfl⟩
  | queried hop hr hidle c writes hq =>
    obtain ⟨u, hu, hans⟩ := afterSend_answers c writes hok hi.bufferWf
    obtain rfl := Except.ok.inj (hans.symm.trans hq)
    exact ⟨hu.inv, .inr hu.idle⟩

theorem Effect.inv {i : Instr} {s t : State} (h : Effect s i t) (hi : Inv s) : Inv t := by
  have hown := h.writesOwn
  obtain ⟨hmq, hrests⟩ := h.mqEffect.inv hi.cfgOk hown.cfg hi.mq hi.rests
  refine ⟨by rw [hown.cfg]; exact hi.cfgOk, h.rxEffect.inv hi.cfgOk hown.cfg hi.rx, hmq, hrests, ?_,
    by rw [hown.cfg]; exact h.hdrFits hi.hdrFits, by rw [hown.cfg]; exact h.qHdrFits hi.qHdrFits⟩
  rw [hown.cfg]
  rcases hown.ck with hck | ⟨-, hck⟩
  · rw [hck]; exact hi.ckFits
  · exact hck (ok_seed hi.cfgOk)

/-- The invariant does not speak of the port. -/
theorem Inv.withPort {s : State} (h : Inv s) (bs : List Byte) : Inv { s with port := bs } :=
  ⟨h.cfgOk, h.rx, h.mq, h.rests, h.ckFits, h.hdrFits, h.qHdrFits⟩

/-- Everything a step can do: wait, run an instruction, or stop at what is no command (R12, R280, log 20). -/
theorem step_cases (s : State) :
    step s = .next s ∨
    (∃ i rest, WellFormed s.cfg i = true ∧ step s = exec (refineInstr s i) { s with port := rest }) ∨
    ∃ e, step s = .refused (.undecodable e) := by
  by_cases hp : s.port = []
  · exact .inl (step_of_empty hp)
  · rcases hd : decode s.cfg s.port with e | ⟨i, rest⟩
    · exact .inr (.inr ⟨e, step_of_error hp hd⟩)
    · exact .inr (.inl ⟨i, rest, (decode_ok hd).1, step_of_decode hd⟩)

/-- Settles O53: a step is an instruction's effect, from a state that meets the invariant too. -/
theorem stepKeepsInvariant : Obligations.StepKeepsInvariant := by
  intro s t hi h
  rcases step_cases s with hwait | ⟨i, rest, -, hrun⟩ | ⟨e, hstop⟩
  · cases hwait.symm.trans h
    exact hi
  · exact (exec_effect (hrun.symm.trans h)).inv (hi.withPort rest)
  · cases hstop.symm.trans h

/-! Every instruction answers under the invariant. -/

theorem forRole_answers {r : Role} {s : State} {x : Out} (h : s.cfg.role = r → ∃ t, x = .next t) :
    ∃ t, forRole r s x = .next t := by
  by_cases hr : s.cfg.role = r
  · rw [forRole_of_role hr]; exact h hr
  · exact ⟨_, forRole_of_ne hr x⟩

theorem poll_exec_answers {s : State} {i : Instr} (hi : Inv s) (hop : opcodeByte i = 0x0A) : ∃ t, exec i s = .next t := by
  rw [exec_poll s hop]
  refine forRole_answers fun _ => ?_
  obtain ⟨t, ht, -⟩ := poll_answers hi.cfgOk hi.rx
  exact ⟨t, by rw [ht, finish]⟩

theorem arriveByte_answers {s : State} (hi : Inv s) (b : Byte) : ∃ t, arriveByte b s = .next t := by
  obtain ⟨hcfg, -, -, -, hrx, -⟩ := arrive_fields [b] s
  cases hr : s.cfg.role with
  | endpoint =>
    obtain ⟨t, ht, -⟩ := poll_answers (s := arrive [b] s) (by rw [hcfg]; exact hi.cfgOk) (by rw [hcfg, hrx]; exact hi.rx)
    exact ⟨t, arriveByte_of_ok hr ht⟩
  | master => exact ⟨_, by rw [arriveByte, hr]⟩

theorem arriveFrame_next {s : State} (hi : Inv s) (bytes : List Byte) : ∃ t, arriveFrame bytes s = .next t := by
  cases hr : s.cfg.role with
  | endpoint =>
    obtain ⟨t, ht, -⟩ := arriveFrame_answers bytes hi.cfgOk hr hi.rx
    exact ⟨t, ht⟩
  | master => exact ⟨_, by rw [arriveFrame, hr]⟩

theorem listen_exec_answers {s : State} (hi : Inv s) : ∃ t, exec .epListen s = .next t := by
  refine forRole_answers fun _ => ?_
  obtain ⟨v, -, -, hv, -⟩ := listen_polls hi.cfgOk hi.rx
  exact ⟨_, by rw [hv, finish]⟩

theorem rawQuery_answers {s : State} (hi : Inv s) (bytes : List Byte) (pause : Bool) :
    ∃ t, exec (.mRawQuery bytes pause) s = .next t := by
  refine forRole_answers fun _ => ?_
  split
  · obtain ⟨t, -, ht⟩ := afterSend_answers s.ck (guardWrites s.cfg pause ++ [bytes]) hi.cfgOk hi.mq.bufferWf
    exact ⟨_, by rw [rawSend_afterSend, ht, finish]⟩
  · exact ⟨_, rfl⟩

theorem query_answers {s : State} (hi : Inv s) (ready : Bool) {fields : List Byte} (body : List Byte) (pause : Bool)
    (hf : s.cfg.fieldsFit fields = true) : ∃ t, exec (.mQuery ready fields body pause) s = .next t := by
  rw [exec, execMQuery, withOperands_of_fits hf]
  refine forRole_answers fun _ => ?_
  split
  · unfold queryRound
    split
    · exact ⟨_, by rw [turnedAway_eq, finish]⟩
    · split
      · exact ⟨_, by rw [turnedAway_eq, finish]⟩
      · obtain ⟨t, -, ht⟩ := afterSend_answers (encodeCk s.cfg fields body)
          (guardWrites s.cfg pause ++ frameWrites s.cfg fields body) hi.cfgOk hi.mq.bufferWf
        exact ⟨_, by rw [querySend_afterSend, ht, finish]⟩
  · exact ⟨_, rfl⟩

theorem validate_answers {s : State} (hi : Inv s) (bytes : List Byte) : ∃ t, exec (.validate bytes) s = .next t := by
  obtain ⟨n, u, res, hres, -⟩ := validateBytes_polled
    (s := { State.resetWith s.cfg with line := { Line.reset s.cfg with waiting := bytes } })
    hi.cfgOk (receiverReset_inv hi.cfgOk) rfl rfl rfl rfl rfl
  exact ⟨_, exec_validate hres⟩

/-- A well-formed instruction answers a next state (log 10). -/
theorem exec_answers {s : State} {i : Instr} (hi : Inv s) (hw : WellFormed s.cfg i = true) : ∃ t, exec i s = .next t := by
  cases i with
  | ckBlock bytes length seed => exact ⟨_, withOperands_of_fits hw _ _⟩
  | hdrPack fields n => exact ⟨_, withOperands_of_fits hw _ _⟩
  | hdrUnpack h => exact ⟨_, withOperands_of_fits hw _ _⟩
  | encode fields body =>
    rw [exec, execEncode, withOperands_of_fits (show s.cfg.fieldsFit fields = true from hw)]
    split <;> exact ⟨_, rfl⟩
  | validate bytes => exact validate_answers hi bytes
  | epListen => exact listen_exec_answers hi
  | epDone =>
    refine forRole_answers fun _ => ?_
    split <;> exact ⟨_, rfl⟩
  | epReply fields body pause =>
    rw [exec, execEpReply, withOperands_of_fits (show s.cfg.fieldsFit fields = true from hw)]
    refine forRole_answers fun _ => ?_
    split
    · split <;> exact ⟨_, rfl⟩
    · exact ⟨_, rfl⟩
  | epFault => exact forRole_answers fun _ => ⟨_, rfl⟩
  | epReset => exact forRole_answers fun _ => ⟨_, rfl⟩
  | mBegin rate =>
    refine forRole_answers fun _ => ?_
    split <;> exact ⟨_, rfl⟩
  | mRawSend bytes pause =>
    refine forRole_answers fun _ => ?_
    split <;> exact ⟨_, rfl⟩
  | mRawQuery bytes pause => exact rawQuery_answers hi bytes pause
  | mQuery ready fields body pause => exact query_answers hi ready body pause hw
  | epPollIdleOther | epPollIdleStart | epPollHeaderNotLast | epPollHeaderLastOk | epPollHeaderLastOversize
  | epPollReceivingNone | epPollBodyFull | epPollBodyRoom | epPollBodyEndValid | epPollBodyEndInvalid | epPollIgnored =>
    exact poll_exec_answers hi rfl
  | byteStart => exact arriveByte_answers hi _
  | byteEnd => exact arriveByte_answers hi _
  | byteData d => exact arriveByte_answers hi d
  | byteOther d => exact arriveByte_answers hi d
  | opcodeInfo => exact arriveByte_answers hi _
  | frameA code fromAddr toAddr body => exact arriveFrame_next hi _
  | frameB addr0 addr1 opcode body =>
    rw [exec_frameB addr0 addr1 opcode (of_decide_eq_true hw)]
    exact arriveFrame_next hi _
  | _ => exact ⟨_, rfl⟩

/-- The row R160 selects has no operands to be ill-formed (log 13). -/
theorem wellFormed_refineInstr {s : State} {i : Instr} (h : WellFormed s.cfg i = true) :
    WellFormed s.cfg (refineInstr s i) = true := by
  rw [refineInstr]
  split
  · cases pollCase s <;> rfl
  · exact h

/-- Settles O54: a step waits, stops at what is no command, or runs a well-formed instruction. -/
theorem stepNeverFaults : Obligations.StepNeverFaults := by
  intro s hi
  rcases step_cases s with hwait | ⟨i, rest, hw, hrun⟩ | hstop
  · exact .inl ⟨s, hwait⟩
  · obtain ⟨t, ht⟩ := exec_answers (hi.withPort rest) (wellFormed_refineInstr (s := s) hw)
    exact .inl ⟨t, hrun.trans ht⟩
  · exact .inr hstop

/-! What the host reads. -/

theorem memReadByte_of_written {cap : Nat} {m : Mem} {n i : Nat} (hw : Written m n) (hi : i < n) (hn : n ≤ cap) :
    ∃ b, memReadByte cap m i = .ok b := by
  obtain ⟨b, hb⟩ := Option.isSome_iff_exists.mp (hw i hi)
  exact ⟨b, by rw [memReadByte, if_pos (hi.trans_le hn), hb]⟩

/-- Settles O57: above the fill counts nothing has a value, below them everything is written. -/
theorem onlyReceivedBytesRead : Obligations.OnlyReceivedBytesRead := by
  refine ⟨fun s i h => hostRxByte_above h, fun s i h => hostQByte_above h, fun s i hi h => ?_, fun s i hi h => ?_,
    fun s hi hb => ⟨if_pos (hi.rx.headerSet (.inr hb)), _, heldBody_of_written hi.rx.written hi.rx.cntLe, ?_⟩⟩
  · rw [hostRxByte, if_pos h]
    exact memReadByte_of_written hi.rx.written h hi.rx.cntLe
  · rw [hostQByte, if_pos h]
    exact memReadByte_of_written hi.mq.written h hi.mq.cntLe
  · rw [memBytes_length, Nat.sub_right_comm]

end Sys2Proof.Machine
end

