-- ==== Sys2Proof/Proofs/QueryOutcome.lean ====
section
/-!
SUPPORT. How a query ends, whatever the environment does (spec/44_master_query.md section 3, spec/60_exceptions.md
section 3): its end state, what its flags exclude and explain, the silent line (R223, conflict C6) and what it has written
to the line (R222, R232, R235).
-/

namespace Sys2Proof.Machine

/-- A query that is sent, on an idle master: it answers from what its wait leaves. -/
theorem querySends_answers {s : State} {i : Instr} {writes : List (List Byte)} (hok : s.cfg.ok = true)
    (hr : s.cfg.role = .master) (hm : s.mq.mState = .idle) (hw : Memory.wf s.cfg.bufCap s.mq.qbuf = true)
    (h : QuerySends s.cfg i writes) :
    ∃ c t, ((∃ bytes pause, i = .mRawQuery bytes pause) → c = s.ck) ∧ Awaited (afterSend c writes s) t ∧
      exec i s = .next (setResult (.query t.mq.qStatus
        (if t.mq.qValid then some (t.mq.qHdr, memBytes t.mq.qbuf 0 t.mq.qCnt) else none)) t) := by
  obtain ⟨c, hexec, hc⟩ := exec_querySends hr hm h
  obtain ⟨t, ht, hans⟩ := afterSend_answers c writes hok hw
  refine ⟨c, t, fun hraw => ?_, ht, by rw [hexec, hans, finish]⟩
  rcases hc with ⟨-, hc⟩ | ⟨_, _, _, rfl, -⟩
  · exact hc
  · obtain ⟨_, _, hraw⟩ := hraw
    cases hraw

/-- The end of every query: `m_state` Idle, `dir` RX, consistent result registers, the returned status in `q_status`, and
configuration, receiver and port as they were (R236). -/
structure QueryDone (s t : State) : Prop where
  idle : t.mq.mState = .idle
  dir : t.dir = .rx
  inv : ResultInv t.cfg t.mq
  cfg : t.cfg = s.cfg
  rx : t.rx = s.rx
  port : t.port = s.port
  result : ∃ c, t.result = .query t.mq.qStatus c

theorem Awaited.queryDone {c : Ck} {writes : List (List Byte)} {s t : State} (h : Awaited (afterSend c writes s) t)
    (content : Option (Header × List Byte)) : QueryDone s (setResult (.query t.mq.qStatus content) t) := by
  obtain ⟨hcfg, hdir, -, hrx, -, hport, -⟩ := h.fields
  exact ⟨h.idle, hdir, h.inv, hcfg, hrx, hport, _, rfl⟩

theorem turnedAway_queryDone {s : State} {f : Byte} (hf : f = flagTxError ∨ f = flagBufferExhausted)
    (hm : s.mq.mState = .idle) (hw : Memory.wf s.cfg.bufCap s.mq.qbuf = true) :
    ∃ t, turnedAway f s = .ok t ∧ QueryDone s t :=
  ⟨_, turnedAway_eq f s, hm, rfl, cleared_inv hw (hf.imp_left Or.inr) s.mq.mState, rfl, rfl, rfl, _, rfl⟩

/-- Settles O41: a query is turned away or waits, and both end alike. -/
theorem queriesReturnIdle : Obligations.QueriesReturnIdle := by
  refine ⟨fun s bytes pause hok hr hm hw => ?_, fun s ready fields body pause hok hr hm hf hw => ?_⟩
  · obtain ⟨c, t, hc, ht, hexec⟩ := querySends_answers hok hr hm hw (.inl ⟨bytes, pause, rfl, rfl⟩)
    have hd := ht.queryDone (if t.mq.qValid then some (t.mq.qHdr, memBytes t.mq.qbuf 0 t.mq.qCnt) else none)
    obtain ⟨-, -, hck, -⟩ := ht.fields
    exact ⟨_, hexec, hd.idle, hd.dir, hd.inv, hd.cfg, hd.rx, hd.port, hck.trans (hc ⟨_, _, rfl⟩), hd.result⟩
  · have haway : ∀ {f}, f = flagTxError ∨ f = flagBufferExhausted → queryRound ready fields body pause s = turnedAway f s →
        ∃ t, exec (.mQuery ready fields body pause) s = .next t ∧ QueryDone s t := fun hflag hround => by
      obtain ⟨t, ht, hd⟩ := turnedAway_queryDone hflag hm hw
      exact ⟨t, by rw [exec_mQuery ready body pause hr hm hf, hround, ht, finish], hd⟩
    have hdone : ∃ t, exec (.mQuery ready fields body pause) s = .next t ∧ QueryDone s t := by
      cases ready with
      | false => exact haway (.inl rfl) rfl
      | true =>
        by_cases hlen : body.length ≤ s.cfg.maxBody
        · obtain ⟨c, t, -, ht, hexec⟩ :=
            querySends_answers hok hr hm hw (.inr ⟨fields, body, pause, rfl, hf, hlen, rfl⟩)
          exact ⟨_, hexec, ht.queryDone _⟩
        · exact haway (.inr rfl) (by rw [queryRound, bodyFits, decide_eq_false hlen]; rfl)
    obtain ⟨t, hexec, hd⟩ := hdone
    exact ⟨t, hexec, hd.idle, hd.dir, hd.inv, hd.cfg, hd.rx, hd.port, hd.result⟩

/-! Flags. -/

/-- A flag's bit stays up under what is raised with it. -/
theorem raiseFlag_and_ne_zero (a : Byte) {f mask : Byte} {i : Nat} (hf : f.getLsbD i = true) (hm : mask.getLsbD i = true) :
    raiseFlag a f &&& mask ≠ 0x00 := by
  intro h
  have hbit : (raiseFlag a f &&& mask).getLsbD i = true := by
    rw [raiseFlag, BitVec.getLsbD_and, BitVec.getLsbD_or, hf, hm, Bool.or_true, Bool.and_true]
  rw [h] at hbit
  exact absurd hbit (by rw [BitVec.ofNat_eq_ofNat, BitVec.getLsbD_zero]; exact Bool.false_ne_true)

/-- The two flags of a query that is not sent: neither TIMEOUT, and each explains missing content (R232, R233). -/
theorem turnAwayFlag_bits {f : Byte} (hf : f = flagTxError ∨ f = flagBufferExhausted) :
    f.getLsbD 1 = false ∧ f &&& 0x3A ≠ 0x00 ∧ f ≠ 0x00 := by rcases hf with rfl | rfl <;> decide

theorem turnedAway_fields {f : Byte} {s t : State} (h : turnedAway f s = .ok t) :
    t.result = .query f none ∧ t.mq = { s.mq with qStatus := f, qValid := false, qCnt := 0 } := by
  rw [turnedAway_eq] at h
  cases h
  exact ⟨rfl, rfl⟩

/-- Settles O48: only the deadline of the wait raises TIMEOUT, and then nothing has been received. -/
theorem timeoutExcludesReceiveFlags : Obligations.TimeoutExcludesReceiveFlags := by
  intro s t i hi hr hm h hbit
  rcases exec_query_next hi hr hm h with ⟨f, hf, haway⟩ | ⟨c, writes, -, hsent⟩
  · obtain ⟨-, hmq⟩ := turnedAway_fields haway
    rw [hmq, (turnAwayFlag_bits hf).1] at hbit
    cases hbit
  · have hflag : sendFlag (afterSend c writes s).mq.qStatus := sendStatus_sendFlag _ _
    rcases (afterSend_waited hsent).flags with ⟨hstatus, hvalid, hcnt⟩ | hraised
    · refine ⟨?_, hvalid, hcnt⟩
      rw [hstatus]
      rcases hflag with hf | hf <;> rw [hf]
      · exact .inl (by decide)
      · exact .inr (by decide)
    · rw [hraised.timeout] at hbit
      rcases hflag with hf | hf <;> rw [hf] at hbit <;> exact absurd hbit (by decide)

/-- What a status says of the content, in a state a query has left (R233, R236(3)). -/
structure StatusExplains (cfg : Config) (t : State) : Prop where
  noContent : t.mq.qValid = false → t.result = .query t.mq.qStatus none ∧ t.mq.qStatus &&& 0x3A ≠ 0x00
  content : t.mq.qValid = true → t.result = .query t.mq.qStatus (some (t.mq.qHdr, memBytes t.mq.qbuf 0 t.mq.qCnt))
  success : t.mq.qStatus = 0x00 → t.mq.qValid = true ∧ cfg.hdrLen + cfg.ckW ≤ t.mq.qCnt ∧
    ∃ h body k, memBytes t.mq.qbuf 0 t.mq.qCnt = h ++ body ++ k ∧ h.length = cfg.hdrLen ∧ k.length = cfg.ckW ∧
      hostQueryContent t = .ok (unpackHeader cfg h, body) ∧
      (if cfg.profile.lenW then k = cfg.emit (cfg.frameCk h body) else cfg.fold (cfg.frameCk h body) k = 0)

/-- A query turned away has no content and says why. -/
theorem turnedAway_explains {s t : State} {f : Byte} (cfg : Config) (hf : f = flagTxError ∨ f = flagBufferExhausted)
    (h : turnedAway f s = .ok t) : StatusExplains cfg t := by
  obtain ⟨hres, hmq⟩ := turnedAway_fields h
  obtain ⟨-, hmask, hne⟩ := turnAwayFlag_bits hf
  refine ⟨fun _ => ?_, fun hv => ?_, fun hzero => ?_⟩
  · rw [hmq]
    exact ⟨hres, hmask⟩
  · rw [hmq] at hv
    cases hv
  · rw [hmq] at hzero
    exact absurd hzero hne

/-- The header of verified contents is the decoded one (R29, R34). -/
theorem Verified.hostQueryContent_eq {t : State} {h body k : List Byte} (hi : ResultInv t.cfg t.mq)
    (hv : t.mq.qValid = true) (hbytes : memBytes t.mq.qbuf 0 t.mq.qCnt = h ++ body ++ k) (hh : h.length = t.cfg.hdrLen)
    (hbody : body = memBytes t.mq.qbuf t.cfg.hdrLen (t.mq.qCnt - t.cfg.ckW - t.cfg.hdrLen)) :
    hostQueryContent t = .ok (unpackHeader t.cfg h, body) := by
  have hheader : memBytes t.mq.qbuf 0 t.cfg.hdrLen = h := by
    obtain ⟨n, hn⟩ := Nat.exists_eq_add_of_le (hi.validCount hv)
    rw [hn, memBytes_append, List.append_assoc] at hbytes
    exact (List.append_inj hbytes (by rw [memBytes_length, hh])).1
  rw [hostQueryContent, if_pos hv, heldBody_of_written hi.written hi.cntLe, ← hbody, hi.header hv, hheader]

theorem Awaited.explains {c : Ck} {writes : List (List Byte)} {s t : State} (h : Awaited (afterSend c writes s) t) :
    StatusExplains s.cfg (setResult (.query t.mq.qStatus
      (if t.mq.qValid then some (t.mq.qHdr, memBytes t.mq.qbuf 0 t.mq.qCnt) else none)) t) := by
  have hcfg : t.cfg = s.cfg := h.fields.1
  refine ⟨fun hv => ⟨?_, ?_⟩, fun hv => ?_, fun hzero => ?_⟩
  · rw [setResult_mq] at hv ⊢
    rw [setResult_result, hv, if_neg Bool.false_ne_true]
  · rcases h.outcome with ⟨hstatus, -⟩ | ⟨-, hno, -⟩
    · rw [setResult_mq, hstatus]
      exact raiseFlag_and_ne_zero (i := 1) _ (by decide) (by decide)
    · obtain ⟨f, hf⟩ := hno hv
      rw [setResult_mq, hf]
      exact raiseFlag_and_ne_zero (i := 5) _ (by decide) (by decide)
  · rw [setResult_mq] at hv ⊢
    rw [setResult_result, hv, if_pos rfl]
  · rw [setResult_mq] at hzero
    rcases h.outcome with ⟨hstatus, -⟩ | ⟨-, -, hok⟩
    · have hne := raiseFlag_and_ne_zero (i := 1) (afterSend c writes s).mq.qStatus (f := flagTimeout) (mask := 0x3A)
        (by decide) (by decide)
      rw [← hstatus, hzero] at hne
      exact absurd rfl hne
    · obtain ⟨hv, hlen, hd, body, k, hbytes, hhd, hbody, hk, hverify⟩ := hok hzero
      rw [← hcfg]
      exact ⟨hv, hlen, hd, body, k, hbytes, hhd, hk,
        Verified.hostQueryContent_eq (t := setResult _ t) h.inv hv hbytes hhd hbody, hverify⟩

/-- Settles O49: a query is turned away or waits, and both explain their content. -/
theorem queryStatusExplainsContent : Obligations.QueryStatusExplainsContent := by
  intro s t i hi hok hr hm hw h
  have hexp : StatusExplains s.cfg t := by
    rcases exec_query_next hi hr hm h with ⟨f, hf, haway⟩ | ⟨c, writes, -, hsent⟩
    · exact turnedAway_explains s.cfg hf haway
    · obtain ⟨u, hu, hans⟩ := afterSend_answers c writes hok hw
      obtain rfl := Except.ok.inj (hans.symm.trans hsent)
      exact hu.explains
  exact ⟨hexp.noContent, hexp.content, hexp.success⟩

/-! The silent line. -/

/-- On a silent line a wait that has just begun lets the clock run out (R223, log 2). -/
theorem awaitLoop_silent {s : State} {timeout : Time} (hpos : 0 < timeout.toNat) (hw : s.line.waiting = [])
    (hl : s.line.looks = []) :
    awaitLoop timeout (startWait s).line.looks.length (startWait s) =
      (false, { startWait s with line := { s.line with now := s.line.now + timeout } }) := by
  have hlook : look (startWait s) = startWait s := look_of_no_looks hl
  have havail : lineAvail (startWait s) = false := by simp [lineAvail, hw]
  rw [startWait_looks, hl, List.length_nil, awaitLoop, hlook, havail, if_neg Bool.false_ne_true, expire,
    expired_startWait hpos, if_neg Bool.false_ne_true]
  rfl

/-- A sent query on a silent line: TIMEOUT beside the flags of its sending half, and no content (R223, conflict C6). -/
theorem awaitAndReturn_silent {s : State} (c : Ck) (writes : List (List Byte)) (hok : s.cfg.ok = true)
    (h : SilentLine s) :
    ∃ t, awaitAndReturn (afterSend c writes s) = .ok t ∧
      t.result = .query (sendStatus s.line.accepts writes ||| 0x03) none ∧
      t.mq = { s.mq with
        mState := .idle, qStatus := sendStatus s.line.accepts writes ||| 0x03, qValid := false, qCnt := 0 } ∧
      t.dir = .rx ∧ t.line.now = s.line.now + s.cfg.queryTimeout := by
  obtain ⟨hw, hl⟩ := h
  have hloop := awaitLoop_silent (s := setMState .awaitingResponse (afterSend c writes s)) (ok_timeouts_nodup hok).2.1 hw hl
  have hrun : awaitAndReturn (afterSend c writes s) = .ok (setResult
      (.query (sendStatus s.line.accepts writes ||| 0x03) none) (endWait (setMState .idle (raiseQ flagTimeout
        { startWait (setMState .awaitingResponse (afterSend c writes s)) with
          line := { (setMState .awaitingResponse (afterSend c writes s)).line with
            now := s.line.now + s.cfg.queryTimeout } })))) := by
    rw [awaitAndReturn, awaitResponse]
    simp only [startWait_cfg, setMState_cfg, show (afterSend c writes s).cfg = s.cfg from rfl, hloop]
    rfl
  exact ⟨_, hrun, rfl, rfl, rfl, rfl⟩

/-- Settles O42: the two waits on a silent line. -/
theorem silentWaitsTimeOut : Obligations.SilentWaitsTimeOut := by
  refine ⟨fun s hok hr hp hs => ?_, fun s i writes hok hr hm hsends hs => ?_⟩
  · have hlate : listenTimesOut (setResult (.event .noByte) (startWait s)) =
        { startWait s with result := .listenTimeout, line := { s.line with now := s.line.now + s.cfg.rxTimeout } } := by
      rw [listenTimesOut, expire, if_neg]
      · rfl
      · rw [Bool.not_eq_true]
        exact expired_startWait (s := s) (ok_timeouts_nodup hok).1
    refine ⟨_, exec_epListen_of_ok hr (listen_of_silent hok hp hs), ?_⟩
    rw [hlate]
    exact ⟨rfl, rfl, hs.1, rfl⟩
  · obtain ⟨c, hexec, -⟩ := exec_querySends hr hm hsends
    obtain ⟨t, ht, hres, hmq, hdir, hnow⟩ := awaitAndReturn_silent c writes hok hs
    refine ⟨t, by rw [hexec, ht, finish], hres, ?_⟩
    rw [hmq]
    exact ⟨rfl, rfl, rfl, rfl, hdir, rfl, hnow⟩

end Sys2Proof.Machine
end

