-- ==== Sys2Proof/Proofs/QueryWrites.lean ====
section
/-!
SUPPORT. What a query has put on the line (spec/44_master_query.md R222, R232, R235), and that no receive touches
TX_ERROR (log 19).
-/

namespace Sys2Proof.Machine

/-! TX_ERROR is bit 4 of `q_status` (R250); a receive never raises it. -/

/-- TX_ERROR is up in `t` exactly where it is in `s`. -/
def KeepsTx (s t : State) : Prop := t.mq.qStatus.getLsbD 4 = s.mq.qStatus.getLsbD 4

theorem KeepsTx.trans {s t u : State} (h1 : KeepsTx s t) (h2 : KeepsTx t u) : KeepsTx s u := Eq.trans h2 h1

theorem KeepsTx.refl (s : State) : KeepsTx s s := rfl

theorem OnlyLine.keepsTx {s t : State} (h : OnlyLine s t) : KeepsTx s t := by
  obtain ⟨-, -, -, -, -, hmq, -⟩ := h.fields
  rw [KeepsTx, hmq]

theorem receiveFlag_bit4 {f : Byte} (hf : receiveFlag f) : f.getLsbD 4 = false := by
  rcases hf with rfl | rfl | rfl <;> decide

theorem raiseFlag_bit4 (a : Byte) {f : Byte} (hf : f.getLsbD 4 = false) : (raiseFlag a f).getLsbD 4 = a.getLsbD 4 := by
  rw [raiseFlag, BitVec.getLsbD_or, hf, Bool.or_false]

theorem raiseQ_keepsTx {f : Byte} (hf : receiveFlag f) (s : State) : KeepsTx s (raiseQ f s) :=
  raiseFlag_bit4 _ (receiveFlag_bit4 hf)

theorem setMState_keepsTx (m : MState) (s : State) : KeepsTx s (setMState m s) := rfl

theorem storeQ_keepsTx {s t : State} {b : Byte} (h : storeQ b s = .ok t) : KeepsTx s t := by
  obtain ⟨-, rfl⟩ := storeQ_ok h
  rfl

theorem huntStart_keepsTx (n : Nat) (s : State) : KeepsTx s (huntStart n s).2 := by
  rcases huntStart_cases n s with ⟨-, h⟩ | ⟨-, u, hu, h⟩
  · exact h.keepsTx
  · rw [h]
    exact hu.keepsTx.trans (raiseQ_keepsTx receiveFlag_rx u)

theorem headerLoop_keepsTx {n : Nat} {s t : State} {b : Bool} (h : headerLoop n s = .ok (b, t)) : KeepsTx s t := by
  induction n generalizing s with
  | zero => cases h; exact .refl _
  | succ n ih =>
    have hg := (getByte_onlyLine s).keepsTx
    unfold headerLoop at h
    split at h
    · rename_i s1 hb
      rw [hb] at hg
      cases h
      exact hg.trans (raiseQ_keepsTx receiveFlag_rx _)
    · rename_i x s1 hb
      rw [hb] at hg
      split at h
      · rename_i s2 hs
        exact hg.trans ((storeQ_keepsTx hs).trans (ih h))
      · cases h

theorem storeOrDrop_keepsTx {s t : State} {b : Byte} (h : storeOrDrop b s = .ok t) : KeepsTx s t := by
  unfold storeOrDrop at h
  split at h
  · exact storeQ_keepsTx h
  · cases h
    exact .refl _

theorem bodyLoop_keepsTx {n : Nat} {s t : State} {b : Bool} (h : bodyLoop n s = .ok (b, t)) : KeepsTx s t := by
  induction n generalizing s with
  | zero => cases h; exact .refl _
  | succ n ih =>
    have hg := (getByte_onlyLine s).keepsTx
    unfold bodyLoop at h
    split at h
    · rename_i s1 hb
      rw [hb] at hg
      cases h
      exact hg.trans (raiseQ_keepsTx receiveFlag_rx _)
    · rename_i x s1 hb
      rw [hb] at hg
      split at h
      · rename_i s2 hs
        exact hg.trans ((storeOrDrop_keepsTx hs).trans (ih h))
      · cases h

theorem decodeQHdr_keepsTx {s t : State} (h : decodeQHdr s = .ok t) : KeepsTx s t := by
  unfold decodeQHdr at h
  split at h
  · cases h
    exact .refl _
  · cases h

theorem capacityTest_keepsTx (s : State) : KeepsTx s (capacityTest s) := by
  unfold capacityTest
  split
  · exact raiseQ_keepsTx receiveFlag_buf s
  · exact .refl s

theorem endDelimiter_keepsTx (s : State) : KeepsTx s (endDelimiter s) := by
  rcases (endDelimiter_receives s).2 with hmq | hmq
  · rw [KeepsTx, hmq]
  · rw [KeepsTx, hmq]
    exact raiseQ_keepsTx receiveFlag_rx s

theorem checkQ_keepsTx {s t : State} (h : checkQ s = .ok t) : KeepsTx s t := by
  have hfailed : KeepsTx s (raiseQ flagCrcFailed (setMState .processing s)) :=
    (setMState_keepsTx .processing s).trans (raiseQ_keepsTx receiveFlag_crc _)
  unfold checkQ at h
  simp only at h
  split at h
  · cases h
    exact hfailed
  · split at h
    · cases h
      split
      · exact setMState_keepsTx .processing s
      · exact hfailed
    · cases h
    · cases h
    · cases h

theorem countedBody_keepsTx {s t : State} (h : countedBody s = .ok t) : KeepsTx s t := by
  have hc := capacityTest_keepsTx s
  unfold countedBody at h
  simp only at h
  split at h
  · cases h
  · rename_i u hb
    exact hc.trans ((bodyLoop_keepsTx hb).trans ((endDelimiter_keepsTx u).trans (checkQ_keepsTx h)))
  · rename_i u hb
    exact hc.trans ((bodyLoop_keepsTx hb).trans (checkQ_keepsTx h))

theorem countedReceive_keepsTx {s t : State} (h : countedReceive s = .ok t) : KeepsTx s t := by
  have hh := huntStart_keepsTx (supply s) s
  unfold countedReceive at h
  split at h
  · rename_i s1 hb
    rw [hb] at hh
    cases h
    exact hh
  · rename_i s1 hb
    rw [hb] at hh
    split at h
    · cases h
    · rename_i s2 hl
      cases h
      exact hh.trans (headerLoop_keepsTx hl)
    · rename_i s2 hl
      split at h
      · cases h
      · rename_i s3 hd
        exact hh.trans ((headerLoop_keepsTx hl).trans ((decodeQHdr_keepsTx hd).trans (countedBody_keepsTx h)))

/-- No byte raises TX_ERROR in the local receiver's status (R162 to R172). -/
theorem ByteEffect.noTx {cfg : Config} {b : Byte} {r r' : Receiver} {e : Event} (h : ByteEffect cfg b r e r')
    (hs : r.epStatus.getLsbD 4 = false) : r'.epStatus.getLsbD 4 = false := by
  rcases h.status with ⟨-, hzero⟩ | ⟨f, hf, hraise⟩
  · rw [hzero]
    decide
  · have hbit : f.getLsbD 4 = false := by rcases hf with rfl | rfl | rfl <;> decide
    rw [hraise, raiseFlag_bit4 _ hbit, hs]

theorem putLocal_keepsTx {s u : State} {r : Receiver} (hu : OnlyLine s u) (hr : r.epStatus.getLsbD 4 = false) :
    KeepsTx s (putLocal r u) := hu.keepsTx.trans (raiseFlag_bit4 _ hr)

theorem afterEvent_keepsTx (e : Event) (s : State) : KeepsTx s (afterEvent e s) := by
  unfold afterEvent
  split <;> rfl

theorem delimitedLoop_keepsTx {n : Nat} {s t : State} {r : Receiver} (h : delimitedLoop n r s = .ok t)
    (hr : r.epStatus.getLsbD 4 = false) : KeepsTx s t := by
  induction n generalizing s r with
  | zero =>
    cases h
    exact (putLocal_keepsTx (getByte_onlyLine s) hr).trans (raiseQ_keepsTx receiveFlag_rx _)
  | succ n ih =>
    have hg := getByte_onlyLine s
    unfold delimitedLoop at h
    split at h
    · rename_i s1 hb
      rw [hb] at hg
      cases h
      exact (putLocal_keepsTx hg hr).trans (raiseQ_keepsTx receiveFlag_rx _)
    · rename_i b s1 hb
      rw [hb] at hg
      split at h
      · cases h
      · rename_i e r1 hbyte
        have hr1 := (receiveByte_effect hbyte).noTx hr
        split at h
        · cases h
          exact (putLocal_keepsTx hg hr1).trans (afterEvent_keepsTx e _)
        · exact hg.keepsTx.trans (ih h hr1)

theorem receiveResponse_keepsTx {s t : State} (h : receiveResponse s = .ok t) : KeepsTx s t := by
  unfold receiveResponse at h
  split at h
  · exact countedReceive_keepsTx h
  · exact delimitedLoop_keepsTx h (show (0x00 : Byte).getLsbD 4 = false by decide)

theorem awaitResponse_keepsTx {s t : State} (h : awaitResponse s = .ok t) : KeepsTx s t := by
  unfold awaitResponse at h
  simp only at h
  have hl := (awaitLoop_onlyLine (startWait (setMState .awaitingResponse s)).cfg.queryTimeout
    (startWait (setMState .awaitingResponse s)).line.looks.length (startWait (setMState .awaitingResponse s))).keepsTx
  split at h
  · rename_i s2 hb
    rw [hb] at hl
    cases h
    exact hl.trans (raiseFlag_bit4 s2.mq.qStatus (f := flagTimeout) (by decide))
  · rename_i s2 hb
    rw [hb] at hl
    split at h
    · rename_i s3 hr
      cases h
      have hwaited : KeepsTx s s2 := hl
      exact hwaited.trans ((setMState_keepsTx .receiving s2).trans
        ((receiveResponse_keepsTx hr).trans (setMState_keepsTx .idle s3)))
    · cases h

theorem returnQuery_keepsTx {s t : State} (h : returnQuery s = .ok t) : KeepsTx s t := by
  unfold returnQuery at h
  split at h
  · split at h
    · cases h
      exact .refl _
    · cases h
  · cases h
    exact .refl _

theorem awaitAndReturn_keepsTx {s t : State} (h : awaitAndReturn s = .ok t) : KeepsTx s t := by
  unfold awaitAndReturn at h
  split at h
  · rename_i u hu
    exact (awaitResponse_keepsTx hu).trans (returnQuery_keepsTx h)
  · cases h

/-! The trace of a query. -/

/-- The sending half raises TX_ERROR exactly when a write was short (R71, R222, R232). -/
theorem sendStatus_bit4 (accepts : List Nat) (writes : List (List Byte)) :
    (sendStatus accepts writes).getLsbD 4 = true ↔ acceptedPrefixes accepts writes ≠ writes := by
  unfold sendStatus
  split
  · next h => exact ⟨fun hbit => absurd hbit (by decide), fun hne => absurd h hne⟩
  · next h => exact ⟨fun _ => h, fun _ => by decide⟩

/-- The states that follow a query's sending half in its trace (R235). -/
def waitStates : List (List MState) := [[.idle], [.receiving, .idle], [.receiving, .processing, .idle]]

theorem Awaited.trace {s t : State} (h : Awaited s t) :
    ∃ ms ∈ waitStates, t.line.trace = s.line.trace ++ (.masterState .awaitingResponse :: ms.map LineOp.masterState) := by
  obtain ⟨ms, hms, ht⟩ := h.frame
  have htrace : t.line.trace = s.line.trace ++ ms.map LineOp.masterState := by rw [ht]
  simp only [List.mem_cons, List.not_mem_nil, or_false] at hms
  rcases hms with rfl | rfl | rfl
  · exact ⟨[.idle], by decide, htrace⟩
  · exact ⟨[.receiving, .idle], by decide, htrace⟩
  · exact ⟨[.receiving, .processing, .idle], by decide, htrace⟩

/-- The three writes of M.QUERY joined are ENCODE's frame (R143, R232). -/
theorem frameWrites_flatten (cfg : Config) (fields body : List Byte) :
    (frameWrites cfg fields body).flatten = encodeFrame cfg fields body := by
  simp only [frameWrites, List.flatten_cons, List.flatten_nil, List.append_nil, encodeFrame, frameBytes, encodeCk,
    List.append_assoc]

/-- Settles O44: the sending half's writes, the wait's states, and TX_ERROR kept through every receive. -/
theorem queryWritesFrame : Obligations.QueryWritesFrame := by
  refine ⟨fun s i writes hok hr hm hw hsends => ?_, fun s t fields body pause hr hm hlen h => ?_,
    fun cfg fields body => ⟨rfl, frameWrites_flatten cfg fields body⟩, acceptedPrefixes_all⟩
  · obtain ⟨c, hexec, -⟩ := exec_querySends hr hm hsends
    obtain ⟨t, ht, hans⟩ := afterSend_answers c writes hok hw
    obtain ⟨-, -, -, -, -, -, haccepts⟩ := ht.fields
    obtain ⟨ms, hms, htrace⟩ := ht.trace
    have hkeep := awaitAndReturn_keepsTx hans
    rw [KeepsTx, setResult_mq] at hkeep
    refine ⟨_, ms, hexec.trans (congrArg finish hans), haccepts, ?_, hms, ?_⟩
    · rw [setResult_trace, htrace]
      simp only [afterSend, List.append_assoc]
      rfl
    · rw [setResult_mq, hkeep]
      exact sendStatus_bit4 _ _
  · obtain ⟨hf, -⟩ := withOperands_next h
    obtain ⟨c, hexec, hc⟩ := exec_querySends hr hm (.inr ⟨fields, body, pause, rfl, hf, hlen, rfl⟩)
    obtain ⟨-, -, hck, -⟩ := (afterSend_waited (finish_next (hexec.symm.trans h))).fields
    rcases hc with ⟨⟨_, _, hraw⟩, -⟩ | ⟨fields', body', pause', heq, rfl⟩
    · cases hraw
    · cases heq
      exact hck

end Sys2Proof.Machine
end

