-- ==== Sys2Proof/Proofs/Burst.lean ====
section
/-!
SUPPORT. A query whose response arrives in one burst at its wait's first test (spec/44_master_query.md R223, R224, log 1,
2, 34): the state the receive procedure starts from, what the result registers hold while bytes are taken, and what the
query then returns.
-/

namespace Sys2Proof.Machine

/-- What a state of a receive holds: `x` in QBUF, `left` on the line with no look to come, the status, and the header if
one was decoded. -/
structure Holds (cfg : Config) (x left : List Byte) (status : Byte) (hd : Option Header) (t : State) : Prop where
  cfg : t.cfg = cfg
  dir : t.dir = .rx
  looks : t.line.looks = []
  waiting : t.line.waiting = left
  status : t.mq.qStatus = status
  count : t.mq.qCnt = x.length
  bytes : memBytes t.mq.qbuf 0 x.length = x
  written : Written t.mq.qbuf x.length
  valid : t.mq.qValid = hd.isSome
  header : ∀ h, hd = some h → t.mq.qHdr = h

section
variable {cfg : Config} {x left : List Byte} {status : Byte} {hd : Option Header} {t : State}

theorem Holds.withMState (h : Holds cfg x left status hd t) (m : MState) : Holds cfg x left status hd (setMState m t) :=
  ⟨h.cfg, h.dir, h.looks, h.waiting, h.status, h.count, h.bytes, h.written, h.valid, h.header⟩

theorem Holds.raise (h : Holds cfg x left status hd t) (f : Byte) :
    Holds cfg x left (status ||| f) hd (raiseQ f t) :=
  ⟨h.cfg, h.dir, h.looks, h.waiting, congrArg (· ||| f) h.status, h.count, h.bytes, h.written, h.valid, h.header⟩

theorem Holds.afterWait (h : Holds cfg x left status hd t) : Holds cfg x left status hd (endWait t) :=
  ⟨h.cfg, h.dir, h.looks, h.waiting, h.status, h.count, h.bytes, h.written, h.valid, h.header⟩

/-- A byte that waits is taken (R224). -/
theorem Holds.read {b : Byte} (h : Holds cfg x (b :: left) status hd t) :
    ∃ u, getByte t = (some b, u) ∧ Holds cfg x left status hd u ∧ u.mq = t.mq :=
  ⟨_, getByte_waiting h.dir h.waiting h.looks,
    ⟨h.cfg, h.dir, h.looks, rfl, h.status, h.count, h.bytes, h.written, h.valid, h.header⟩, rfl⟩

/-- With nothing left the deadline passes (R224, log 2). -/
theorem Holds.silent (h : Holds cfg x [] status hd t) : ∃ u, getByte t = (none, u) ∧ Holds cfg x [] status hd u := by
  refine ⟨_, getByte_silent h.waiting h.looks, ?_⟩
  unfold expire
  split
  · exact h
  · exact ⟨h.cfg, h.dir, h.looks, h.waiting, h.status, h.count, h.bytes, h.written, h.valid, h.header⟩

/-- A byte is stored behind what is held (R226, R229). -/
theorem Holds.store (h : Holds cfg x left status hd t) (b : Byte) (hlt : x.length < cfg.bufCap) :
    ∃ u, storeQ b t = .ok u ∧ Holds cfg (x ++ [b]) left status hd u := by
  have hbytes := memBytes_memSet_next t.mq.qbuf 0 x.length b
  rw [Nat.zero_add, h.bytes] at hbytes
  refine ⟨_, storeQ_of_lt b (by rw [h.count, h.cfg]; exact hlt),
    ⟨h.cfg, h.dir, h.looks, h.waiting, h.status, ?_, ?_, ?_, h.valid, h.header⟩⟩
  · rw [List.length_append, ← h.count]
    rfl
  · rw [List.length_append, h.count]
    exact hbytes
  · rw [List.length_append, h.count]
    exact h.written.memSet b

/-- The host's read of the content's body (R62, R233). -/
theorem Holds.hostQueryContent_eq {h body k : List Byte} {hdr : Header}
    (hh : Holds cfg (h ++ body ++ k) left status (some hdr) t) (hlen : h.length = cfg.hdrLen) (hk : k.length = cfg.ckW)
    (hcap : (h ++ body ++ k).length ≤ cfg.bufCap) : hostQueryContent t = .ok (hdr, body) := by
  have hcount : (h ++ body ++ k).length = h.length + body.length + k.length := by
    rw [List.length_append, List.length_append]
  have hbytes := hh.bytes
  have hwritten := hh.written
  rw [hcount] at hcap hbytes hwritten
  have hbody := heldBody_of_bytes hlen hk hcap hbytes hwritten
  have hvalid : t.mq.qValid = true := hh.valid
  rw [hostQueryContent, if_pos hvalid, hh.cfg, hh.count, hcount, hbody, hh.header hdr rfl]

end

/-- What a query has returned: the status, and with a header the contents behind it (R233). -/
structure Reports (cfg : Config) (x left : List Byte) (status : Byte) (hd : Option Header) (t : State) : Prop where
  holds : Holds cfg x left status hd t
  idle : t.mq.mState = .idle
  result : t.result = .query status (hd.map fun h => (h, x))

/-- Returning what is held (R233). -/
theorem returnQuery_reports {cfg : Config} {x left : List Byte} {status : Byte} {hd : Option Header} {t : State}
    (h : Holds cfg x left status hd t) (hm : t.mq.mState = .idle) (hcap : x.length ≤ cfg.bufCap) :
    ∃ u, returnQuery t = .ok u ∧ Reports cfg x left status hd u := by
  have hkeep : ∀ r, Holds cfg x left status hd (setResult r t) := fun r =>
    ⟨h.cfg, h.dir, h.looks, h.waiting, h.status, h.count, h.bytes, h.written, h.valid, h.header⟩
  cases hd with
  | none =>
    refine ⟨setResult (.query t.mq.qStatus none) t, by rw [returnQuery, h.valid]; rfl, hkeep _, hm, ?_⟩
    rw [setResult_result, h.status]
    rfl
  | some hdr =>
    have hread : memRead t.cfg.bufCap t.mq.qbuf 0 t.mq.qCnt = .ok x := by
      rw [h.cfg, h.count, memRead_written h.written (Nat.zero_add _).le ((Nat.zero_add _).le.trans hcap), h.bytes]
    refine ⟨setResult (.query t.mq.qStatus (some (t.mq.qHdr, x))) t, by rw [returnQuery, h.valid]; simp [hread],
      hkeep _, hm, ?_⟩
    rw [setResult_result, h.status, h.header hdr rfl]
    rfl

/-- A wait that a response ends goes through the receive procedure (R223, R235). -/
theorem awaitResponse_of_response {s w u t : State} (hw : startWait (setMState .awaitingResponse s) = w)
    (hloop : awaitLoop w.cfg.queryTimeout w.line.looks.length w = (true, u))
    (hrecv : receiveResponse (setMState .receiving u) = .ok t) :
    awaitResponse s = .ok (endWait (setMState .idle t)) := by
  subst hw
  simp only [awaitResponse, hloop, hrecv]

/-- The state a receive procedure starts from when `arrived` came in one look of `dt` milliseconds (R223). -/
def receivingState (c : Ck) (writes : List (List Byte)) (arrived : List Byte) (dt : Time) (s : State) : State :=
  let u := startWait (setMState .awaitingResponse (afterSend c writes s))
  setMState .receiving { u with line := { u.line with waiting := arrived, looks := [], now := u.line.now + dt } }

theorem receivingState_holds (c : Ck) (writes : List (List Byte)) (arrived : List Byte) (dt : Time) (s : State) :
    Holds s.cfg [] arrived (sendStatus s.line.accepts writes) none (receivingState c writes arrived dt s) :=
  ⟨rfl, rfl, rfl, rfl, rfl, rfl, rfl, written_zero _, rfl, nofun⟩

/-- The hypotheses on a query and the one burst that answers it. -/
structure Burst (s : State) (i : Instr) (writes : List (List Byte)) (arrived : List Byte) (dt : Time) : Prop where
  ok : s.cfg.ok = true
  role : s.cfg.role = .master
  idle : s.mq.mState = .idle
  sends : QuerySends s.cfg i writes
  waiting : s.line.waiting = []
  looks : ∃ patient, s.line.looks = [⟨patient, dt, 0, arrived⟩]
  nonempty : arrived ≠ []

/-- The query reports what its receive procedure holds (R223, R233). -/
theorem Burst.reports {s : State} {i : Instr} {writes : List (List Byte)} {arrived x left : List Byte} {dt : Time}
    {status : Byte} {hd : Option Header} (h : Burst s i writes arrived dt)
    (hrecv : ∀ c, ∃ t, receiveResponse (receivingState c writes arrived dt s) = .ok t ∧
      Holds s.cfg x left status hd t) (hcap : x.length ≤ s.cfg.bufCap) :
    ∃ t, exec i s = .next t ∧ Reports s.cfg x left status hd t := by
  obtain ⟨c, hexec, -⟩ := exec_querySends h.role h.idle h.sends
  obtain ⟨t, ht, hholds⟩ := hrecv c
  obtain ⟨patient, hlooks⟩ := h.looks
  obtain ⟨u, hu, hreports⟩ := returnQuery_reports (hholds.withMState .idle).afterWait rfl hcap
  have hloop := awaitLoop_one (s := startWait (setMState .awaitingResponse (afterSend c writes s)))
    (timeout := s.cfg.queryTimeout) rfl h.waiting hlooks h.nonempty
  refine ⟨u, ?_, hreports⟩
  have hawait := awaitResponse_of_response (s := afterSend c writes s) rfl hloop ht
  rw [hexec, awaitAndReturn, hawait]
  simp only [hu, finish]

end Sys2Proof.Machine
end

