-- ==== Sys2Proof/Proofs/Counted.lean ====
section
/-!
SUPPORT. CountedReceive of whatever bytes wait (spec/44_master_query.md R225 to R231): each of its steps takes a state that
holds some bytes to one that holds the next (`Holds`), whether the bytes run out or not. O46 composes the steps, and O45 is
the whole reply among what O46's burst can be.
-/

namespace Sys2Proof.Machine

section
variable {cfg : Config} {x left : List Byte} {status : Byte} {hd : Option Header} {t : State}

/-- Step 1 with a start delimiter among the bytes (R225). -/
theorem Holds.huntStart_found {junk ys : List Byte} (hj : cfg.startDelim ∉ junk)
    (h : Holds cfg x (junk ++ [cfg.startDelim] ++ ys) status hd t) :
    ∃ u, huntStart (supply t) t = (true, u) ∧ Holds cfg x ys status hd u := by
  have hsupply : supply t = junk.length + 1 + ys.length := by
    simp [supply, h.waiting, h.looks]
    omega
  rw [hsupply]
  exact ⟨_, huntStart_waiting (ys := ys) ys.length (h.cfg ▸ hj) h.dir (h.cfg ▸ h.waiting) h.looks,
    ⟨h.cfg, h.dir, h.looks, rfl, h.status, h.count, h.bytes, h.written, h.valid, h.header⟩⟩

/-- Step 1 without one: the bytes are gone and RX_ERROR is up (R225). -/
theorem Holds.huntStart_missed {junk : List Byte} (hj : cfg.startDelim ∉ junk) (h : Holds cfg x junk status hd t) :
    ∃ u, huntStart junk.length t = (false, u) ∧ Holds cfg x [] (status ||| flagRxError) hd u := by
  induction junk generalizing t with
  | nil =>
    obtain ⟨u, hu, hsilent⟩ := h.silent
    exact ⟨_, by rw [List.length_nil, huntStart, hu], hsilent.raise _⟩
  | cons b bs ih =>
    obtain ⟨hb, hbs⟩ := not_or.mp (List.mem_cons.not.mp hj)
    obtain ⟨u, hu, hread, -⟩ := h.read
    obtain ⟨v, hv, hmissed⟩ := ih hbs hread
    refine ⟨v, ?_, hmissed⟩
    rw [List.length_cons, huntStart, hu]
    simp only [hread.cfg, if_neg (Ne.symm hb), hv]

/-- Step 2's loop: the bytes that came are stored, and RX_ERROR is up if they were too few (R226). -/
theorem Holds.headerLoop_holds {ys : List Byte} (n : Nat) (hc : x.length + n ≤ cfg.bufCap) (h : Holds cfg x ys status hd t) :
    ∃ u, headerLoop n t = .ok (decide (n ≤ ys.length), u) ∧
      Holds cfg (x ++ ys.take n) (ys.drop n) (status ||| if n ≤ ys.length then 0x00 else flagRxError) hd u := by
  induction n generalizing x ys t with
  | zero => exact ⟨t, by simp [headerLoop], by simpa using h⟩
  | succ n ih =>
    cases ys with
    | nil =>
      obtain ⟨u, hu, hsilent⟩ := h.silent
      exact ⟨raiseQ flagRxError u, by simp [headerLoop, hu], by simpa using hsilent.raise _⟩
    | cons b bs =>
      obtain ⟨u, hu, hread, -⟩ := h.read
      obtain ⟨v, hv, hstored⟩ := hread.store b (by omega)
      obtain ⟨w, hw, hloop⟩ := ih (by rw [List.length_append, List.length_singleton]; omega) hstored
      exact ⟨w, by simp [headerLoop, hu, hv, hw], by simpa using hloop⟩

/-- Step 2's end: the header is decoded (R226). -/
theorem Holds.decodeQHdr_holds (hx : x.length = cfg.hdrLen) (h : Holds cfg x left status hd t) :
    ∃ u, decodeQHdr t = .ok u ∧ Holds cfg x left status (some (unpackHeader cfg x)) u := by
  have hwritten : Written t.mq.qbuf t.cfg.hdrLen := by
    rw [h.cfg, ← hx]
    exact h.written
  refine ⟨_, decodeQHdr_of_written hwritten,
    ⟨h.cfg, h.dir, h.looks, h.waiting, h.status, h.count, h.bytes, h.written, rfl, ?_⟩⟩
  intro hdr heq
  rw [h.cfg, ← hx, h.bytes]
  exact Option.some.inj heq

/-- Step 3 (R228). -/
theorem Holds.capacityTest_holds {hdr : Header} (h : Holds cfg x left status (some hdr) t) :
    Holds cfg x left (status ||| if cfg.maxBody < hdr.bodyLen.toNat then flagBufferExhausted else 0x00) (some hdr)
      (capacityTest t) := by
  rw [capacityTest, h.cfg, h.header hdr rfl]
  split
  · exact h.raise _
  · simpa using h

/-- Step 4's loop: what fits is stored, the rest is dropped, and RX_ERROR is up if the bytes were too few (R229). -/
theorem Holds.bodyLoop_holds {ys : List Byte} (n : Nat) (hx : x.length ≤ cfg.bufCap) (h : Holds cfg x ys status hd t) :
    ∃ u, bodyLoop n t = .ok (decide (n ≤ ys.length), u) ∧
      Holds cfg ((x ++ ys.take n).take cfg.bufCap) (ys.drop n)
        (status ||| if n ≤ ys.length then 0x00 else flagRxError) hd u := by
  induction n generalizing x ys t with
  | zero => exact ⟨t, by simp [bodyLoop], by simpa [List.take_of_length_le hx] using h⟩
  | succ n ih =>
    cases ys with
    | nil =>
      obtain ⟨u, hu, hsilent⟩ := h.silent
      exact ⟨raiseQ flagRxError u, by simp [bodyLoop, hu],
        by simpa [List.take_of_length_le hx] using hsilent.raise _⟩
    | cons b bs =>
      obtain ⟨u, hu, hread, -⟩ := h.read
      have hcount : u.mq.qCnt < u.cfg.bufCap ↔ x.length < cfg.bufCap := by rw [hread.count, hread.cfg]
      by_cases hroom : x.length < cfg.bufCap
      · obtain ⟨v, hv, hstored⟩ := hread.store b hroom
        obtain ⟨w, hw, hloop⟩ := ih (by rw [List.length_append, List.length_singleton]; exact hroom) hstored
        exact ⟨w, by simp [bodyLoop, storeOrDrop, hcount, hroom, hu, hv, hw], by simpa using hloop⟩
      · obtain ⟨w, hw, hloop⟩ := ih hx hread
        have hfull : cfg.bufCap ≤ x.length := not_lt.mp hroom
        refine ⟨w, by simp [bodyLoop, storeOrDrop, hcount, hroom, hu, hw], ?_⟩
        rw [List.take_append_of_le_length hfull] at hloop ⊢
        simpa using hloop

/-- Step 5 (R230). -/
theorem Holds.endDelimiter_holds (h : Holds cfg x left status hd t) :
    Holds cfg x (left.drop 1) (status ||| if left.head? = some cfg.endDelim then 0x00 else flagRxError) hd
      (endDelimiter t) := by
  rw [endDelimiter, h.cfg]
  cases left with
  | nil =>
    obtain ⟨u, hu, hsilent⟩ := h.silent
    simpa [hu] using hsilent.raise _
  | cons b bs =>
    obtain ⟨u, hu, hread, -⟩ := h.read
    by_cases hb : b = cfg.endDelim
    · simpa [hu, hb] using hread
    · simpa [hu, hb] using hread.raise _

/-- Step 6's verdict over what is held behind the header (R231). -/
def verdict (cfg : Config) (h kept : List Byte) : Byte :=
  if cfg.ckW ≤ kept.length ∧ kept.drop (kept.length - cfg.ckW) =
    cfg.emit (cfg.frameCk h (kept.take (kept.length - cfg.ckW))) then 0x00 else flagCrcFailed

/-- Step 6 (R231). -/
theorem Holds.checkQ_holds {h kept : List Byte} (hh : h.length = cfg.hdrLen) (hcap : (h ++ kept).length ≤ cfg.bufCap)
    (ht : Holds cfg (h ++ kept) left status hd t) :
    ∃ u, checkQ t = .ok u ∧ Holds cfg (h ++ kept) left (status ||| verdict cfg h kept) hd u := by
  have hlen : (h ++ kept).length = cfg.hdrLen + kept.length := by rw [List.length_append, hh]
  have hcount := ht.count
  have hkeep := ht.withMState .processing
  refine ⟨_, checkQ_of_written (by rw [hcount, ht.cfg]; exact hcap) (by rw [hcount]; exact ht.written), ?_⟩
  rw [hcount, hlen, ht.cfg]
  by_cases hshort : kept.length < cfg.ckW
  · have hverdict : verdict cfg h kept = flagCrcFailed := if_neg fun hc => absurd hc.1 (by omega)
    rw [if_pos (by omega), hverdict]
    exact hkeep.raise _
  · have hsplit := memBytes_split (m := t.mq.qbuf) (n := cfg.hdrLen + kept.length) (h := cfg.hdrLen) (k := cfg.ckW)
      (by omega)
    rw [← hlen, ht.bytes, hlen, ← List.take_append_drop (kept.length - cfg.ckW) kept, ← List.append_assoc,
      List.take_append_drop] at hsplit
    obtain ⟨hfront, hback⟩ := List.append_inj hsplit (by simp; omega)
    obtain ⟨hhead, hbody⟩ := List.append_inj hfront (by simp [hh])
    rw [if_neg (by omega), ← hhead, ← hbody, ← hback]
    by_cases hk : cfg.emit (cfg.frameCk h (kept.take (kept.length - cfg.ckW))) = kept.drop (kept.length - cfg.ckW)
    · rw [if_pos hk, verdict, if_pos ⟨not_lt.mp hshort, hk.symm⟩]
      simpa using hkeep
    · rw [if_neg hk, verdict, if_neg fun hc => hk hc.2.symm]
      exact hkeep.raise _

/-- Steps 3 to 6 behind a whole header (R228 to R231). -/
theorem Holds.countedBody_holds {h d : List Byte} {hdr : Header} (hh : h.length = cfg.hdrLen)
    (ht : Holds cfg h d status (some hdr) t) :
    let n := hdr.bodyLen.toNat + cfg.ckW
    let kept := (d.take n).take (cfg.maxBody + cfg.ckW)
    ∃ u, countedBody t = .ok u ∧ Holds cfg (h ++ kept) (d.drop (n + 1))
      (status ||| (if cfg.maxBody < hdr.bodyLen.toNat then flagBufferExhausted else 0x00) |||
        (if d[n]? = some cfg.endDelim then 0x00 else flagRxError) ||| verdict cfg h kept) (some hdr) u := by
  intro n kept
  have hcap : cfg.bufCap = h.length + (cfg.maxBody + cfg.ckW) := by
    rw [hh, Config.bufCap]
    omega
  have hkept : (h ++ d.take n).take cfg.bufCap = h ++ kept := by rw [hcap, List.take_length_add_append]
  have hfits : (h ++ kept).length ≤ cfg.bufCap := hkept ▸ List.length_take_le _ _
  have htest := ht.capacityTest_holds
  obtain ⟨u, hu, hloop⟩ := htest.bodyLoop_holds n (by omega)
  rw [hkept] at hloop
  have hn : (capacityTest t).mq.qHdr.bodyLen.toNat + (capacityTest t).cfg.ckW = n := by
    rw [htest.header hdr rfl, htest.cfg]
  by_cases hall : n ≤ d.length
  · have hdelim := hloop.endDelimiter_holds
    rw [List.drop_drop, List.head?_drop, if_pos hall] at hdelim
    obtain ⟨v, hv, hcheck⟩ := hdelim.checkQ_holds hh hfits
    refine ⟨v, by simp only [countedBody, hn, hu, hall, decide_true, hv], by simpa using hcheck⟩
  · have hnone : d[n]? ≠ some cfg.endDelim := by
      rw [List.getElem?_eq_none (by omega)]
      exact nofun
    obtain ⟨v, hv, hcheck⟩ := hloop.checkQ_holds hh hfits
    refine ⟨v, by simp only [countedBody, hn, hu, hall, decide_false, hv], ?_⟩
    rw [if_neg hall, List.drop_of_length_le (by omega)] at hcheck
    rw [if_neg hnone, List.drop_of_length_le (by omega)]
    exact hcheck

theorem Holds.receiveResponse_eq (hl : cfg.profile.lenW = true) (h : Holds cfg x left status hd t) :
    receiveResponse t = countedReceive t := by
  rw [receiveResponse, h.cfg, if_pos hl]

/-- CountedReceive when no start delimiter came (R225). -/
theorem Holds.countedReceive_noStart {junk : List Byte} (hj : cfg.startDelim ∉ junk) (h : Holds cfg [] junk status hd t) :
    ∃ u, countedReceive t = .ok u ∧ Holds cfg [] [] (status ||| flagRxError) hd u := by
  have hsupply : supply t = junk.length := by simp [supply, h.waiting, h.looks]
  obtain ⟨u, hu, hmissed⟩ := h.huntStart_missed hj
  exact ⟨u, by simp only [countedReceive, hsupply, hu], hmissed⟩

/-- CountedReceive of a header cut short (R226). -/
theorem Holds.countedReceive_shortHeader {junk h : List Byte} (hj : cfg.startDelim ∉ junk) (hh : h.length < cfg.hdrLen)
    (ht : Holds cfg [] (junk ++ [cfg.startDelim] ++ h) status hd t) :
    ∃ u, countedReceive t = .ok u ∧ Holds cfg h [] (status ||| flagRxError) hd u := by
  obtain ⟨u, hu, hfound⟩ := ht.huntStart_found hj
  obtain ⟨v, hv, hloop⟩ := hfound.headerLoop_holds cfg.hdrLen (by simpa using hdrLen_le_bufCap cfg)
  rw [if_neg (by omega), List.nil_append, List.take_of_length_le (by omega), List.drop_of_length_le (by omega)] at hloop
  exact ⟨v, by simp [countedReceive, hu, hfound.cfg, hv, not_le.mpr hh], hloop⟩

/-- CountedReceive behind a whole header (R225 to R231). -/
theorem Holds.countedReceive_wholeHeader {junk h d : List Byte} (hj : cfg.startDelim ∉ junk) (hh : h.length = cfg.hdrLen)
    (ht : Holds cfg [] (junk ++ [cfg.startDelim] ++ h ++ d) status hd t) :
    let n := (unpackHeader cfg h).bodyLen.toNat + cfg.ckW
    let kept := (d.take n).take (cfg.maxBody + cfg.ckW)
    ∃ u, countedReceive t = .ok u ∧ Holds cfg (h ++ kept) (d.drop (n + 1))
      (status ||| (if cfg.maxBody < (unpackHeader cfg h).bodyLen.toNat then flagBufferExhausted else 0x00) |||
        (if d[n]? = some cfg.endDelim then 0x00 else flagRxError) ||| verdict cfg h kept)
      (some (unpackHeader cfg h)) u := by
  intro n kept
  rw [List.append_assoc] at ht
  obtain ⟨u, hu, hfound⟩ := ht.huntStart_found hj
  obtain ⟨v, hv, hloop⟩ := hfound.headerLoop_holds cfg.hdrLen (by simpa using hdrLen_le_bufCap cfg)
  rw [List.nil_append, ← hh, List.take_left, List.drop_left, if_pos (by simp), show status ||| 0x00 = status from BitVec.or_zero] at hloop
  obtain ⟨w, hw, hdecoded⟩ := hloop.decodeQHdr_holds hh
  obtain ⟨y, hy, hbody⟩ := hdecoded.countedBody_holds hh
  refine ⟨y, ?_, hbody⟩
  simp [countedReceive, hu, hfound.cfg, hv, hh, hw, hy]

end

/-- The verdict over contents that end in `k` (R231). -/
theorem verdict_append {cfg : Config} {h body k : List Byte} (hk : k.length = cfg.ckW) :
    verdict cfg h (body ++ k) = if k = cfg.emit (cfg.frameCk h body) then 0x00 else flagCrcFailed := by
  have hbody : (body ++ k).length - cfg.ckW = body.length := by
    rw [List.length_append, hk, Nat.add_sub_cancel]
  rw [verdict, hbody, List.drop_left, List.take_left]
  simp [hk]

/-- Settles O46: the steps' lemmas composed for each of the three kinds of burst. -/
theorem countedReceiveReports : Obligations.CountedReceiveReports := by
  unfold Obligations.CountedReceiveReports
  intro s i writes junk h d patient dt hok hrole hidle hlen hsends hj hwait sent
  have hburst : ∀ arrived, arrived ≠ [] → s.line.looks = [⟨patient, dt, 0, arrived⟩] → Burst s i writes arrived dt :=
    fun arrived hne hlooks => ⟨hok, hrole, hidle, hsends, hwait, ⟨patient, hlooks⟩, hne⟩
  refine ⟨fun hne hlooks => ?_, fun hh hlooks => ?_, fun hh hlooks => ?_⟩
  · obtain ⟨t, ht, hr⟩ := (hburst _ hne hlooks).reports (fun c => by
      have hstart := receivingState_holds c writes junk dt s
      rw [hstart.receiveResponse_eq hlen]
      exact hstart.countedReceive_noStart hj) (by simp)
    exact ⟨t, ht, hr.result, hr.holds.count, hr.idle, hr.holds.waiting⟩
  · obtain ⟨t, ht, hr⟩ := (hburst _ (by simp) hlooks).reports (fun c => by
      have hstart := receivingState_holds c writes (junk ++ [s.cfg.startDelim] ++ h) dt s
      rw [hstart.receiveResponse_eq hlen]
      exact hstart.countedReceive_shortHeader hj hh) (hh.le.trans (hdrLen_le_bufCap s.cfg))
    exact ⟨t, ht, hr.result, hr.holds.count, hr.idle, hr.holds.waiting⟩
  · intro declared kept status
    have hkept : (h ++ kept).length ≤ s.cfg.bufCap := by
      rw [List.length_append, hh, Config.bufCap]
      have : kept.length ≤ s.cfg.maxBody + s.cfg.ckW := List.length_take_le _ _
      omega
    obtain ⟨t, ht, hr⟩ := (hburst _ (by simp) hlooks).reports (fun c => by
      have hstart := receivingState_holds c writes (junk ++ [s.cfg.startDelim] ++ h ++ d) dt s
      rw [hstart.receiveResponse_eq hlen]
      exact hstart.countedReceive_wholeHeader hj hh) hkept
    exact ⟨t, ht, hr.result, by rw [hr.holds.count, List.length_append, hh], hr.idle, hr.holds.waiting⟩

/-- A whole reply gives its header, its contents and their verdict (R225 to R231). -/
theorem Holds.countedReceive_reply {cfg : Config} {junk fields body k rest : List Byte} {status : Byte} {t : State}
    (hok : cfg.ok = true) (hl : cfg.profile.lenW = true) (hj : cfg.startDelim ∉ junk) (hf : cfg.fieldsFit fields = true)
    (hb : body.length ≤ cfg.maxBody) (hk : k.length = cfg.ckW)
    (ht : Holds cfg []
      (junk ++ [cfg.startDelim] ++ headerFor cfg fields body ++ body ++ k ++ [cfg.endDelim] ++ rest) status none t) :
    ∃ u, countedReceive t = .ok u ∧ Holds cfg (headerFor cfg fields body ++ body ++ k) rest
      (status ||| if k = cfg.emit (cfg.frameCk (headerFor cfg fields body) body) then 0x00 else flagCrcFailed)
      (some (unpackHeader cfg (headerFor cfg fields body))) u := by
  have hdeclared : (unpackHeader cfg (headerFor cfg fields body)).bodyLen.toNat = body.length := by
    have := ok_maxBody hok hl
    rw [headerFor, bodyLen_packHeader _ hl hf, BitVec.toNat_ofNat, Nat.mod_eq_of_lt (by omega)]
  have hh : (headerFor cfg fields body).length = cfg.hdrLen := packHeader_length cfg fields _ hf
  have hn : body.length + cfg.ckW = (body ++ k).length := by rw [List.length_append, hk]
  obtain ⟨u, hu, hholds⟩ := Holds.countedReceive_wholeHeader (d := body ++ k ++ [cfg.endDelim] ++ rest) hj hh
    (by simpa using ht)
  have hkept : (body ++ k).length ≤ cfg.maxBody + cfg.ckW := by omega
  refine ⟨u, hu, ?_⟩
  rw [hdeclared, if_neg (by omega), hn, List.append_assoc (body ++ k), List.take_left,
    List.take_of_length_le hkept, verdict_append hk, ← List.drop_drop, List.drop_left] at hholds
  simpa using hholds

/-- Settles O45: the whole reply is one burst, and the host reads what is then held. -/
theorem countedReplyReceived : Obligations.CountedReplyReceived := by
  unfold Obligations.CountedReplyReceived
  intro s i writes junk fields body k rest patient dt hok hrole hidle hl hsends hf hb hk hj hwait h hlooks status
  have hh : h.length = s.cfg.hdrLen := packHeader_length s.cfg fields _ hf
  have hlen : (h ++ body ++ k).length = s.cfg.hdrLen + body.length + s.cfg.ckW := by
    rw [List.length_append, List.length_append, hh, hk]
  have hcap : (h ++ body ++ k).length ≤ s.cfg.bufCap := by
    rw [hlen, Config.bufCap]
    omega
  have hburst : Burst s i writes _ dt := ⟨hok, hrole, hidle, hsends, hwait, ⟨patient, hlooks⟩, by simp⟩
  obtain ⟨t, ht, hr⟩ := hburst.reports (fun c => by
    have hstart := receivingState_holds c writes
      (junk ++ [s.cfg.startDelim] ++ h ++ body ++ k ++ [s.cfg.endDelim] ++ rest) dt s
    rw [hstart.receiveResponse_eq hl]
    exact hstart.countedReceive_reply hok hl hj hf hb hk) hcap
  exact ⟨t, ht, hr.result, hr.holds.status, hr.holds.valid, hr.holds.count.trans hlen,
    hr.holds.hostQueryContent_eq hh hk hcap, hr.idle, hr.holds.waiting⟩

end Sys2Proof.Machine
end

