-- ==== Sys2Proof/Proofs/Delimited.lean ====
section
/-!
SUPPORT. DelimitedReceive of whatever bytes wait (spec/44_master_query.md R234): the local receiver is fed what comes before
the byte, or the deadline, that ends the loop, and its registers are then the query's (`LocalHolds`, `Holds`). O47 names the
stretch that is fed in each of its clauses.
-/

namespace Sys2Proof.Machine

/-- What the local receiver's registers give the query when they are put back (R234). -/
structure LocalHolds (x : List Byte) (f : Byte) (hd : Option Header) (r : Receiver) : Prop where
  count : r.rxCnt = x.length
  bytes : memBytes r.rxbuf 0 x.length = x
  written : Written r.rxbuf x.length
  status : r.epStatus = f
  hdrSet : r.hdrSet = hd.isSome
  header : ∀ h, hd = some h → r.hdr = h

section
variable {cfg : Config} {x h d : List Byte} {r r1 : Receiver}

theorem InHeader.localHolds (hi : InHeader cfg h r) (hset : r.hdrSet = false) : LocalHolds h 0x00 none r :=
  ⟨hi.count, hi.bytes, hi.written, hi.status, hset, nofun⟩

theorem InBody.localHolds (hi : InBody cfg h d r) : LocalHolds (h ++ d) 0x00 (some (unpackHeader cfg h)) r := by
  refine ⟨?_, ?_, ?_, hi.status, hi.headerSet, fun _ heq => hi.header.trans (Option.some.inj heq)⟩ <;>
    rw [List.length_append]
  · exact hi.count
  · exact hi.bytes
  · exact hi.written

/-- A header cut short (R164). -/
theorem feed_header_part (hi : InHeader cfg x r) (hx : x.length + h.length < cfg.hdrLen) :
    ∃ r1, Feed cfg h r r1 ∧ InHeader cfg (x ++ h) r1 := by
  induction h generalizing x r with
  | nil => exact ⟨r, .nil r, by simpa using hi⟩
  | cons b bs ih =>
    rw [List.length_cons] at hx
    obtain ⟨r1, f1, i1⟩ := feed_header_byte b hi (by omega)
    obtain ⟨r2, f2, i2⟩ := ih i1 (by rw [List.length_append, List.length_singleton]; omega)
    exact ⟨r2, f1.append f2, by simpa using i2⟩

/-- A start delimiter says nothing of the header (R163). -/
theorem Feed.hdrSet_start (hf : Feed cfg [cfg.startDelim] r r1) (hst : r.epState = .idle) : r1.hdrSet = r.hdrSet := by
  obtain _ | ⟨hb, -, ⟨⟩⟩ := hf
  rw [receiveByte_idle _ hst, if_pos rfl] at hb
  cases hb
  rfl

/-- No header is decoded before its last byte (R164). -/
theorem Feed.hdrSet_header (hf : Feed cfg h r r1) (hst : r.epState = .receivingHeader)
    (hlen : r.rxCnt + h.length < cfg.hdrLen) : r1.hdrSet = r.hdrSet := by
  induction hf with
  | nil => rfl
  | cons hb _ _ ih =>
    rw [List.length_cons] at hlen
    rw [receiveByte_headerNotLast _ hst (by omega)] at hb
    cases hb
    exact ih hst (by simp only; omega)

/-- Behind a whole header: the receiver is fed all bytes up to the one that ends the loop (R162 to R170). -/
theorem feed_behind_header {junk : List Byte} (hok : cfg.ok = true) (hl : cfg.profile.lenW = false)
    (hst : r.epState = .idle) (hj : cfg.startDelim ∉ junk) (hh : h.length = cfg.hdrLen) (hd : cfg.endDelim ∉ d)
    (hc : d.length ≤ cfg.maxBody + cfg.ckW) :
    ∃ r1, Feed cfg (junk ++ [cfg.startDelim] ++ h ++ d) r r1 ∧ InBody cfg h d r1 := by
  obtain ⟨r1, hf, hi⟩ := feed_frame hok hst hh (fun b _ => by simp [bodyLenOk, hl]) hd hc
  exact ⟨r1, by simpa using (feed_idle hst hj).append hf, hi⟩

/-- The verdict's checksum taken over header and contents (R126, R171). -/
theorem fold_frameCk (cfg : Config) (h d : List Byte) :
    cfg.fold (cfg.frameCk h []) d = cfg.fold cfg.ckSeed (cfg.coverOf h d) := by
  rw [Config.frameCk, ← Config.fold_append]
  unfold Config.coverOf
  split <;> simp

theorem InBody.valid_iff (hi : InBody cfg h d r) (hh : h.length = cfg.hdrLen) :
    frameValid cfg r = true ↔ cfg.ckW ≤ d.length ∧ cfg.fold (cfg.frameCk h []) d = 0 := by
  rw [frameValid_iff, hi.count, hi.checksum, fold_frameCk, hh, Nat.add_le_add_iff_left]

/-- END_DELIM behind a whole header (R171, R172). -/
theorem InBody.endDelim (hi : InBody cfg h d r) (hh : h.length = cfg.hdrLen) :
    ∃ e r1, receiveByte cfg cfg.endDelim r = .ok (e, r1) ∧ endsValidate e = true ∧
      LocalHolds (h ++ d) (if cfg.ckW ≤ d.length ∧ cfg.fold (cfg.frameCk h []) d = 0 then 0x00 else flagCrcFailed)
        (some (unpackHeader cfg h)) r1 := by
  have hl := hi.localHolds
  by_cases hv : frameValid cfg r = true
  · rw [if_pos ((hi.valid_iff hh).mp hv)]
    exact ⟨_, _, receiveByte_endValid hi.state hv, rfl, ⟨hl.count, hl.bytes, hl.written, hl.status, hl.hdrSet, hl.header⟩⟩
  · rw [if_neg (mt (hi.valid_iff hh).mpr hv)]
    exact ⟨_, _, receiveByte_endInvalid hi.state hv, rfl,
      ⟨hl.count, hl.bytes, hl.written, by rw [hl.status]; rfl, hl.hdrSet, hl.header⟩⟩

/-- A byte that finds the buffer full (R169). -/
theorem InBody.full {b : Byte} (hi : InBody cfg h d r) (hb : b ≠ cfg.endDelim)
    (hc : cfg.bufCap ≤ h.length + d.length) :
    ∃ e r1, receiveByte cfg b r = .ok (e, r1) ∧ endsValidate e = true ∧
      LocalHolds (h ++ d) flagBufferExhausted (some (unpackHeader cfg h)) r1 := by
  have hl := hi.localHolds
  exact ⟨_, _, receiveByte_bodyFull hi.state hb (hi.count ▸ hc), rfl,
    ⟨hl.count, hl.bytes, hl.written, by rw [hl.status]; rfl, hl.hdrSet, hl.header⟩⟩

end

section
variable {cfg : Config} {x left : List Byte} {status f : Byte} {hd : Option Header} {r : Receiver} {t : State}

/-- The local receiver of a receive that begins (R234). -/
theorem Holds.localReceiver_holds (h : Holds cfg [] left status none t) : LocalHolds [] 0x00 none (localReceiver t) :=
  ⟨h.count, rfl, written_zero _, rfl, rfl, nofun⟩

/-- Its registers put back (R234). -/
theorem Holds.putLocal_holds (h : Holds cfg [] left status none t) (hr : LocalHolds x f hd r) :
    Holds cfg x left (status ||| f) hd (putLocal r t) :=
  ⟨h.cfg, h.dir, h.looks, h.waiting, by rw [← h.status, ← hr.status]; rfl, hr.count, hr.bytes, hr.written, hr.hdrSet,
    hr.header⟩

theorem Holds.afterEvent_holds (h : Holds cfg x left status hd t) (e : Event) : Holds cfg x left status hd (afterEvent e t) := by
  cases e with
  | msgReady => exact h.withMState _
  | corrupted => exact h.withMState _
  | overflow => exact h
  | ignored => exact h
  | noByte => exact h
  | notDetected => exact h
  | frameStart => exact h
  | stored => exact h
  | headerDone => exact h

/-- The loop runs through what is fed. -/
theorem Holds.delimitedReceive_feed {xs ys : List Byte} (h : Holds cfg [] (xs ++ ys) status none t)
    (hf : Feed cfg xs (localReceiver t) r) :
    ∃ u, delimitedReceive t = delimitedLoop ys.length r u ∧ Holds cfg [] ys status none u := by
  have hsupply : supply t = xs.length + ys.length := by simp [supply, h.waiting, h.looks]
  have hloop := delimitedLoop_feed ys.length hf h.cfg h.dir h.waiting h.looks
  rw [← hsupply] at hloop
  exact ⟨_, hloop,
    ⟨h.cfg, h.dir, h.looks, rfl, h.status, h.count, h.bytes, h.written, h.valid, h.header⟩⟩

/-- The deadline ends the loop: RX_ERROR (R234, log 33). -/
theorem Holds.delimitedReceive_deadline {xs : List Byte} (h : Holds cfg [] xs status none t)
    (hf : Feed cfg xs (localReceiver t) r) (hr : LocalHolds x 0x00 hd r) :
    ∃ u, delimitedReceive t = .ok u ∧ Holds cfg x [] (status ||| flagRxError) hd u := by
  obtain ⟨u, hu, hfed⟩ := Holds.delimitedReceive_feed (ys := []) (by simpa using h) hf
  obtain ⟨v, hv, hsilent⟩ := hfed.silent
  refine ⟨_, by rw [hu, List.length_nil, delimitedLoop, hv], ?_⟩
  simpa using (hsilent.putLocal_holds hr).raise flagRxError

/-- A byte that ends the frame ends the loop (R234). -/
theorem Holds.delimitedReceive_ended {xs : List Byte} {b : Byte} (h : Holds cfg [] (xs ++ b :: left) status none t)
    (hf : Feed cfg xs (localReceiver t) r)
    (hb : ∃ e r1, receiveByte cfg b r = .ok (e, r1) ∧ endsValidate e = true ∧ LocalHolds x f hd r1) :
    ∃ u, delimitedReceive t = .ok u ∧ Holds cfg x left (status ||| f) hd u := by
  obtain ⟨e, r1, hrecv, he, hr⟩ := hb
  obtain ⟨u, hu, hfed⟩ := h.delimitedReceive_feed hf
  obtain ⟨v, hv, hread, -⟩ := hfed.read
  refine ⟨_, ?_, (hread.putLocal_holds hr).afterEvent_holds e⟩
  rw [hu, List.length_cons, delimitedLoop, hv]
  simp only [hread.cfg, hrecv, he, if_true]

theorem Holds.receiveResponse_eq_delimited (hl : cfg.profile.lenW = false) (h : Holds cfg x left status hd t) :
    receiveResponse t = delimitedReceive t := by
  rw [receiveResponse, h.cfg, hl]
  rfl

end

section
variable {cfg : Config} {junk h d rest : List Byte} {status : Byte} {t : State}

/-- No start delimiter came (R162, R234). -/
theorem Holds.delimited_noStart (hj : cfg.startDelim ∉ junk) (ht : Holds cfg [] junk status none t) :
    ∃ u, delimitedReceive t = .ok u ∧ Holds cfg [] [] (status ||| flagRxError) none u :=
  ht.delimitedReceive_deadline (feed_idle rfl hj) ht.localReceiver_holds

/-- A header cut short (R164, R234). -/
theorem Holds.delimited_shortHeader (hj : cfg.startDelim ∉ junk) (hh : h.length < cfg.hdrLen)
    (ht : Holds cfg [] (junk ++ [cfg.startDelim] ++ h) status none t) :
    ∃ u, delimitedReceive t = .ok u ∧ Holds cfg h [] (status ||| flagRxError) none u := by
  obtain ⟨r1, f1, i1⟩ := feed_start (cfg := cfg) (r := localReceiver t) rfl
  obtain ⟨r2, f2, i2⟩ := feed_header_part i1 (by simpa using hh)
  have hset : r2.hdrSet = false := by
    rw [f2.hdrSet_header i1.state (by simpa [i1.count] using hh), f1.hdrSet_start rfl]
    rfl
  exact ht.delimitedReceive_deadline (((feed_idle rfl hj).append f1).append f2) (i2.localHolds hset)

/-- END_DELIM behind a whole header (R171, R172, R234). -/
theorem Holds.delimited_endDelim (hok : cfg.ok = true) (hl : cfg.profile.lenW = false) (hj : cfg.startDelim ∉ junk)
    (hh : h.length = cfg.hdrLen) (hd : cfg.endDelim ∉ d) (hc : d.length ≤ cfg.maxBody + cfg.ckW)
    (ht : Holds cfg [] (junk ++ [cfg.startDelim] ++ h ++ d ++ [cfg.endDelim] ++ rest) status none t) :
    ∃ u, delimitedReceive t = .ok u ∧ Holds cfg (h ++ d) rest
      (status ||| if cfg.ckW ≤ d.length ∧ cfg.fold (cfg.frameCk h []) d = 0 then 0x00 else flagCrcFailed)
      (some (unpackHeader cfg h)) u := by
  obtain ⟨r1, hf, hi⟩ := feed_behind_header (r := localReceiver t) hok hl rfl hj hh hd hc
  exact Holds.delimitedReceive_ended (by simpa using ht) hf (hi.endDelim hh)

/-- A byte that finds the buffer full (R169, R234). -/
theorem Holds.delimited_full {b : Byte} (hok : cfg.ok = true) (hl : cfg.profile.lenW = false)
    (hj : cfg.startDelim ∉ junk) (hh : h.length = cfg.hdrLen) (hd : cfg.endDelim ∉ d)
    (hc : d.length = cfg.maxBody + cfg.ckW) (hb : b ≠ cfg.endDelim)
    (ht : Holds cfg [] (junk ++ [cfg.startDelim] ++ h ++ d ++ [b] ++ rest) status none t) :
    ∃ u, delimitedReceive t = .ok u ∧ Holds cfg (h ++ d) rest (status ||| flagBufferExhausted)
      (some (unpackHeader cfg h)) u := by
  obtain ⟨r1, hf, hi⟩ := feed_behind_header (r := localReceiver t) hok hl rfl hj hh hd hc.le
  have hfull : cfg.bufCap ≤ h.length + d.length := by
    rw [hh, hc, Config.bufCap]
    omega
  exact Holds.delimitedReceive_ended (by simpa using ht) hf (hi.full hb hfull)

/-- The deadline inside the contents (R234, log 33). -/
theorem Holds.delimited_cutShort (hok : cfg.ok = true) (hl : cfg.profile.lenW = false) (hj : cfg.startDelim ∉ junk)
    (hh : h.length = cfg.hdrLen) (hd : cfg.endDelim ∉ d) (hc : d.length ≤ cfg.maxBody + cfg.ckW)
    (ht : Holds cfg [] (junk ++ [cfg.startDelim] ++ h ++ d) status none t) :
    ∃ u, delimitedReceive t = .ok u ∧ Holds cfg (h ++ d) [] (status ||| flagRxError)
      (some (unpackHeader cfg h)) u := by
  obtain ⟨r1, hf, hi⟩ := feed_behind_header (r := localReceiver t) hok hl rfl hj hh hd hc
  exact ht.delimitedReceive_deadline hf hi.localHolds

end

/-- A frame of the encoder is a header, contents without END_DELIM that fold to zero under a neutral algorithm, and the end
delimiter (R120, R143, R146). -/
theorem frame_contents {cfg : Config} {fields body : List Byte} (hok : cfg.ok = true)
    (hneutral : cfg.profile.algo.Neutral) (hsafe : frameSafe cfg (headerFor cfg fields body) body = true) :
    cfg.endDelim ∉ body ++ cfg.emit (encodeCk cfg fields body) ∧
    cfg.fold (cfg.frameCk (headerFor cfg fields body) []) (body ++ cfg.emit (encodeCk cfg fields body)) = 0 := by
  refine ⟨?_, ?_⟩
  · simpa [frameSafe, encodeCk] using hsafe
  · rw [fold_frameCk]
    exact fold_frame hok hneutral _ _

/-- Settles O47: in each clause the receive's lemma, reported by the query. -/
theorem delimitedReplyReceived : Obligations.DelimitedReplyReceived := by
  unfold Obligations.DelimitedReplyReceived
  intro s i writes junk h d rest patient dt hok hrole hidle hl hsends hj hwait sent opened gives
  have hreports : ∀ {arrived x left : List Byte} {f : Byte} {hd : Option Header}, arrived ≠ [] →
      s.line.looks = [⟨patient, dt, 0, arrived⟩] → x.length ≤ s.cfg.bufCap →
      (∀ t, Holds s.cfg [] arrived sent none t → ∃ u, delimitedReceive t = .ok u ∧ Holds s.cfg x left (sent ||| f) hd u) →
      ∃ t, exec i s = .next t ∧ Reports s.cfg x left (sent ||| f) hd t := by
    intro arrived x left f hd hne hlooks hcap hrecv
    have hburst : Burst s i writes arrived dt := ⟨hok, hrole, hidle, hsends, hwait, ⟨patient, hlooks⟩, hne⟩
    refine hburst.reports (fun c => ?_) hcap
    have hstart := receivingState_holds c writes arrived dt s
    rw [hstart.receiveResponse_eq_delimited hl]
    exact hrecv _ hstart
  have hgives : ∀ {x left : List Byte} {f : Byte} {hd : Option Header},
      (∃ t, exec i s = .next t ∧ Reports s.cfg x left (sent ||| f) hd t) → gives f (hd.map fun h => (h, x)) left := by
    rintro x left f hd ⟨t, ht, hr⟩
    exact ⟨t, ht, hr.result, hr.holds.status, by rw [Option.isSome_map]; exact hr.holds.valid, hr.idle, hr.holds.waiting⟩
  have hcap : ∀ {e : List Byte}, h.length = s.cfg.hdrLen → e.length ≤ s.cfg.maxBody + s.cfg.ckW →
      (h ++ e).length ≤ s.cfg.bufCap := by
    intro e hh he
    rw [List.length_append, hh, Config.bufCap]
    omega
  refine ⟨fun fields body hneutral hf hb hheader hsafe hlooks => ?_, fun hne hlooks => ?_, fun hh hlooks => ?_,
    fun hh hd hc hlooks => ?_, fun b hh hd hc hb hlooks => ?_, fun hh hd hc hlooks => ?_⟩
  · have hh : h.length = s.cfg.hdrLen := by
      rw [hheader]
      exact packHeader_length s.cfg fields _ hf
    have hk : (s.cfg.emit (encodeCk s.cfg fields body)).length = s.cfg.ckW := s.cfg.emit_length _
    have hc : (body ++ s.cfg.emit (encodeCk s.cfg fields body)).length ≤ s.cfg.maxBody + s.cfg.ckW := by
      rw [List.length_append, hk]
      omega
    obtain ⟨hend, hzero⟩ := frame_contents hok hneutral (hheader ▸ hsafe)
    rw [encodeFrame_eq, ← hheader] at hlooks
    rw [← hheader] at hzero
    obtain ⟨t, ht, hr⟩ := hreports (by simp) hlooks (hcap hh hc) fun t ht =>
      Holds.delimited_endDelim hok hl hj hh hend hc (by simpa using ht)
    rw [if_pos ⟨by rw [List.length_append, hk]; omega, hzero⟩, ← List.append_assoc] at hr
    exact ⟨hgives ⟨t, ht, hr⟩, t, ht,
      hr.holds.hostQueryContent_eq hh hk (by rw [List.append_assoc]; exact hcap hh hc)⟩
  · exact hgives (hreports hne hlooks (Nat.zero_le _) fun _ ht => ht.delimited_noStart hj)
  · exact hgives (hreports (by simp [opened]) hlooks (hh.le.trans (hdrLen_le_bufCap s.cfg)) fun _ ht =>
      ht.delimited_shortHeader hj hh)
  · exact hgives (hreports (by simp) hlooks (hcap hh hc) fun _ ht => ht.delimited_endDelim hok hl hj hh hd hc)
  · exact hgives (hreports (by simp) hlooks (hcap hh hc.le) fun _ ht => ht.delimited_full hok hl hj hh hd hc hb)
  · exact hgives (hreports (by simp [opened]) hlooks (hcap hh hc) fun _ ht =>
      ht.delimited_cutShort hok hl hj hh hd hc)

end Sys2Proof.Machine
end

