-- ==== Sys2Proof/Proofs/Idempotent.lean ====
section
/-!
SUPPORT. Two receives against the same answers of line and timer (spec/44_master_query.md R236(5)): the states may differ in
everything a receive does not read (`Alike`), among it the buffer at and above the fill count and a header that was not
decoded, and every step of both receive procedures keeps it so. O50 is the whole query's case.
-/

namespace Sys2Proof.Machine

/-- Both answer and the answers are related, or both fail alike. -/
def Agree {α : Type} (R : α → α → Prop) (x y : Except Fault α) : Prop :=
  (∃ a b, x = .ok a ∧ y = .ok b ∧ R a b) ∨ ∃ f, x = .error f ∧ y = .error f

theorem Agree.ok {α : Type} {R : α → α → Prop} {a b : α} (h : R a b) : Agree R (.ok a) (.ok b) :=
  .inl ⟨a, b, rfl, rfl, h⟩

theorem Agree.error {α : Type} {R : α → α → Prop} (f : Fault) : Agree R (.error f) (.error f) := .inr ⟨f, rfl, rfl⟩

theorem Agree.of_ok {α : Type} {R : α → α → Prop} {x y : Except Fault α} {a b : α} (h : Agree R x y) (hx : x = .ok a)
    (hy : y = .ok b) : R a b := by
  rcases h with ⟨_, _, rfl, rfl, hR⟩ | ⟨_, rfl, -⟩
  · cases hx
    cases hy
    exact hR
  · cases hx

/-! The two states. -/

/-- The state `s`, with those registers of `u` that neither the line nor the timer reads in a receive. -/
def graft (u s : State) : State :=
  { u with
    cfg := s.cfg, dir := s.dir, t0 := s.t0
    line := { u.line with waiting := s.line.waiting, now := s.line.now, looks := s.line.looks } }

/-- The result registers agree in what a host can read of them (R34, R38). -/
structure QAlike (q p : Master) : Prop where
  status : q.qStatus = p.qStatus
  valid : q.qValid = p.qValid
  count : q.qCnt = p.qCnt
  bytes : ∀ i < q.qCnt, memGet q.qbuf i = memGet p.qbuf i
  header : q.qValid = true → q.qHdr = p.qHdr

/-- The two states of a receive. -/
structure Alike (s u : State) : Prop where
  line : graft u s = u
  q : QAlike s.mq u.mq

/-- Two answers with a state each. -/
def PairAlike {α : Type} (x y : α × State) : Prop := x.1 = y.1 ∧ Alike x.2 y.2

section
variable {s u : State}

theorem Alike.cfg (h : Alike s u) : u.cfg = s.cfg := (congrArg State.cfg h.line).symm

theorem Alike.supply (h : Alike s u) : supply u = supply s := (congrArg Machine.supply h.line).symm

/-- What only writes registers of the master keeps the line's part. -/
theorem Alike.withMq (h : Alike s u) {q p : Master} (hq : QAlike q p) :
    Alike { s with mq := q } { u with mq := p } :=
  ⟨congrArg (fun v : State => { v with mq := p }) h.line, hq⟩

theorem Alike.raise (h : Alike s u) (f : Byte) : Alike (raiseQ f s) (raiseQ f u) :=
  h.withMq ⟨congrArg (raiseFlag · f) h.q.status, h.q.valid, h.q.count, h.q.bytes, h.q.header⟩

theorem Alike.withMState (h : Alike s u) (m : MState) : Alike (setMState m s) (setMState m u) :=
  ⟨congrArg (setMState m) h.line, ⟨h.q.status, h.q.valid, h.q.count, h.q.bytes, h.q.header⟩⟩

/-- Both buffers read the same below the fill count (R38). -/
theorem Alike.memRead (h : Alike s u) (cap : Nat) {a n : Nat} (hn : a + n ≤ s.mq.qCnt) :
    memRead cap u.mq.qbuf a n = memRead cap s.mq.qbuf a n :=
  memRead_congr fun i hi => (h.q.bytes (a + i) (by omega)).symm

end

/-! The line and the timer. -/

section
variable (u s : State) (timeout : Time)

theorem lineAvail_graft : lineAvail (graft u s) = lineAvail s := rfl

theorem expired_graft : expired timeout (graft u s) = expired timeout s := rfl

theorem look_graft : look (graft u s) = graft u (look s) := by
  unfold look
  rw [show (graft u s).line.looks = s.line.looks from rfl, lineAvail_graft]
  split
  · rfl
  · split <;> rfl

theorem lineRead_graft : lineRead (graft u s) = (lineRead s).map fun x => (x.1, graft u x.2) := by
  unfold lineRead
  rw [show (graft u s).dir = s.dir from rfl, show (graft u s).line.waiting = s.line.waiting from rfl]
  split
  · split <;> rfl
  · rfl

theorem expire_graft : expire timeout (graft u s) = graft u (expire timeout s) := by
  unfold expire
  rw [expired_graft]
  split <;> rfl

theorem getByteLoop_graft (n : Nat) :
    getByteLoop timeout n (graft u s) = ((getByteLoop timeout n s).1, graft u (getByteLoop timeout n s).2) := by
  induction n generalizing s with
  | zero =>
    rw [getByteLoop, getByteLoop, look_graft, lineRead_graft]
    cases lineRead (look s) with
    | none => simp only [Option.map_none, expire_graft]
    | some x => rfl
  | succ n ih =>
    rw [getByteLoop, getByteLoop, look_graft, lineRead_graft]
    cases lineRead (look s) with
    | none =>
      simp only [Option.map_none, expired_graft, ih]
      cases expired timeout (look s) <;> rfl
    | some x => rfl

theorem awaitLoop_graft (n : Nat) :
    awaitLoop timeout n (graft u s) = ((awaitLoop timeout n s).1, graft u (awaitLoop timeout n s).2) := by
  induction n generalizing s with
  | zero =>
    rw [awaitLoop, awaitLoop, look_graft, lineAvail_graft, expire_graft]
    split <;> rfl
  | succ n ih =>
    rw [awaitLoop, awaitLoop, look_graft, lineAvail_graft, expired_graft, ih]
    cases lineAvail (look s)
    · cases expired timeout (look s) <;> rfl
    · rfl

end

section
variable {s u : State}

/-- What runs on the line alone answers alike (R223, R224). -/
theorem Alike.onLine {α : Type} {f : State → α × State} (h : Alike s u) (hf : ∀ s, f (graft u s) = ((f s).1, graft u (f s).2))
    (hs : OnlyLine s (f s).2) : PairAlike (f s) (f u) := by
  obtain ⟨-, -, -, -, -, hmq, -⟩ := hs.fields
  have hu := hf s
  rw [h.line] at hu
  rw [hu]
  exact ⟨rfl, rfl, by rw [hmq]; exact h.q⟩

theorem Alike.getByte (h : Alike s u) : PairAlike (getByte s) (getByte u) :=
  h.onLine (fun s => getByteLoop_graft u s s.cfg.queryTimeout s.line.looks.length) (getByte_onlyLine s)

theorem Alike.awaitLoop (h : Alike s u) (timeout : Time) (n : Nat) :
    PairAlike (awaitLoop timeout n s) (awaitLoop timeout n u) :=
  h.onLine (fun s => awaitLoop_graft u s timeout n) (awaitLoop_onlyLine timeout n s)

/-- Two answers taken apart. -/
theorem PairAlike.split {α : Type} {x y : α × State} (h : PairAlike x y) :
    ∃ a s u, x = (a, s) ∧ y = (a, u) ∧ Alike s u :=
  ⟨x.1, x.2, y.2, rfl, by rw [h.1], h.2⟩

end

/-! CountedReceive. -/

section
variable {s u : State}

/-- The fill count of the buffer that both states store into (R226, R229). -/
theorem storeQ_agree (h : Alike s u) (b : Byte) :
    Agree (fun v w => Alike v w ∧ v.mq.qCnt = s.mq.qCnt + 1) (storeQ b s) (storeQ b u) := by
  have hwrite : memWrite u.cfg.bufCap u.mq.qbuf u.mq.qCnt b = if s.mq.qCnt < s.cfg.bufCap then
      .ok (memSet u.mq.qbuf u.mq.qCnt b) else .error (.noSuchIndex s.mq.qCnt) := by
    rw [memWrite, h.cfg, h.q.count]
  rw [storeQ, storeQ, hwrite, memWrite]
  by_cases hlt : s.mq.qCnt < s.cfg.bufCap
  · rw [if_pos hlt, if_pos hlt]
    refine .ok ⟨h.withMq ⟨h.q.status, h.q.valid, congrArg (· + 1) h.q.count, fun i hi => ?_, h.q.header⟩, rfl⟩
    simp only at hi ⊢
    rw [memGet_memSet, memGet_memSet, ← h.q.count]
    split
    · rfl
    · exact h.q.bytes i (by omega)
  · rw [if_neg hlt, if_neg hlt]
    exact .error _

theorem storeOrDrop_agree (h : Alike s u) (b : Byte) : Agree Alike (storeOrDrop b s) (storeOrDrop b u) := by
  rw [storeOrDrop, storeOrDrop, h.cfg, ← h.q.count]
  split
  · rcases storeQ_agree h b with ⟨v, w, hv, hw, hvw, -⟩ | ⟨f, hv, hw⟩ <;> rw [hv, hw]
    · exact .ok hvw
    · exact .error f
  · exact .ok h

theorem huntStart_alike (n : Nat) (h : Alike s u) : PairAlike (huntStart n s) (huntStart n u) := by
  induction n generalizing s u with
  | zero => exact ⟨rfl, h.getByte.2.raise _⟩
  | succ n ih =>
    obtain ⟨x, v, w, hv, hw, hvw⟩ := h.getByte.split
    rw [huntStart, huntStart, hv, hw]
    cases x with
    | none => exact ⟨rfl, hvw.raise _⟩
    | some b =>
      simp only [hvw.cfg]
      split
      · exact ⟨rfl, hvw⟩
      · exact ih hvw

/-- With the header complete the fill count is HDR_LEN behind the start (R226). -/
theorem headerLoop_agree (n : Nat) (h : Alike s u) :
    Agree (fun x y => PairAlike x y ∧ (x.1 = true → x.2.mq.qCnt = s.mq.qCnt + n)) (headerLoop n s) (headerLoop n u) := by
  induction n generalizing s u with
  | zero => exact .ok ⟨⟨rfl, h⟩, fun _ => rfl⟩
  | succ n ih =>
    obtain ⟨x, v, w, hv, hw, hvw⟩ := h.getByte.split
    rw [headerLoop, headerLoop, hv, hw]
    cases x with
    | none => exact .ok ⟨⟨rfl, hvw.raise _⟩, nofun⟩
    | some b =>
      have hcnt : v.mq.qCnt = s.mq.qCnt := by
        obtain ⟨-, -, -, -, -, hmq, -⟩ := (getByte_onlyLine s).fields
        rw [hv] at hmq
        rw [← hmq]
      rcases storeQ_agree hvw b with ⟨y, z, hy, hz, hyz, hstored⟩ | ⟨f, hy, hz⟩ <;> simp only [hy, hz]
      · have hloop := ih hyz
        rwa [hstored, hcnt, Nat.add_assoc, Nat.add_comm 1 n] at hloop
      · exact .error f

theorem decodeQHdr_agree (h : Alike s u) (hn : s.cfg.hdrLen ≤ s.mq.qCnt) :
    Agree (fun v w => Alike v w ∧ v.mq.qValid = true) (decodeQHdr s) (decodeQHdr u) := by
  have hread : memRead u.cfg.bufCap u.mq.qbuf 0 u.cfg.hdrLen = memRead s.cfg.bufCap s.mq.qbuf 0 s.cfg.hdrLen := by
    rw [h.cfg, h.memRead _ (by omega)]
  rw [decodeQHdr, decodeQHdr, hread]
  cases memRead s.cfg.bufCap s.mq.qbuf 0 s.cfg.hdrLen with
  | ok bs => exact .ok ⟨h.withMq ⟨h.q.status, rfl, h.q.count, h.q.bytes, fun _ => by rw [h.cfg]⟩, rfl⟩
  | error f => exact .error f

theorem capacityTest_alike (h : Alike s u) (hv : s.mq.qValid = true) : Alike (capacityTest s) (capacityTest u) := by
  rw [capacityTest, capacityTest, h.cfg, ← h.q.header hv]
  split
  · exact h.raise _
  · exact h

theorem bodyLoop_agree (n : Nat) (h : Alike s u) : Agree PairAlike (bodyLoop n s) (bodyLoop n u) := by
  induction n generalizing s u with
  | zero => exact .ok ⟨rfl, h⟩
  | succ n ih =>
    obtain ⟨x, v, w, hv, hw, hvw⟩ := h.getByte.split
    rw [bodyLoop, bodyLoop, hv, hw]
    cases x with
    | none => exact .ok ⟨rfl, hvw.raise _⟩
    | some b =>
      rcases storeOrDrop_agree hvw b with ⟨y, z, hy, hz, hyz⟩ | ⟨f, hy, hz⟩ <;> simp only [hy, hz]
      · exact ih hyz
      · exact .error f

theorem endDelimiter_alike (h : Alike s u) : Alike (endDelimiter s) (endDelimiter u) := by
  obtain ⟨x, v, w, hv, hw, hvw⟩ := h.getByte.split
  rw [endDelimiter, endDelimiter, hv, hw, h.cfg]
  simp only
  split
  · exact hvw
  · exact hvw.raise _

/-- The checksum test reads only below the fill count (R231). -/
theorem checkQ_agree (h : Alike s u) : Agree Alike (checkQ s) (checkQ u) := by
  have hm := h.withMState .processing
  rw [checkQ, checkQ, h.cfg, ← h.q.count]
  split
  · exact .ok (hm.raise _)
  · rename_i hlen
    rw [heldBody, heldBody, h.memRead _ (by omega), h.memRead _ (by omega), h.memRead _ (by omega)]
    split
    · split
      · exact .ok hm
      · exact .ok (hm.raise _)
    all_goals exact .error _

theorem countedBody_agree (h : Alike s u) (hv : s.mq.qValid = true) : Agree Alike (countedBody s) (countedBody u) := by
  have htest := capacityTest_alike h hv
  have hvalid : (capacityTest s).mq.qValid = true := by
    rw [capacityTest]
    split <;> exact hv
  rw [countedBody, countedBody, htest.cfg, ← htest.q.header hvalid]
  rcases bodyLoop_agree _ htest with ⟨y, z, hy, hz, hyz⟩ | ⟨f, hy, hz⟩ <;> rw [hy, hz]
  · obtain ⟨b, v, w, rfl, rfl, hvw⟩ := hyz.split
    cases b with
    | true => exact checkQ_agree (endDelimiter_alike hvw)
    | false => exact checkQ_agree hvw
  · exact .error f

theorem countedReceive_agree (h : Alike s u) : Agree Alike (countedReceive s) (countedReceive u) := by
  rw [countedReceive, countedReceive, h.supply]
  obtain ⟨b, v, w, hv, hw, hvw⟩ := (huntStart_alike (supply s) h).split
  rw [hv, hw]
  cases b with
  | false => exact .ok hvw
  | true =>
    simp only [hvw.cfg]
    rcases headerLoop_agree v.cfg.hdrLen hvw with ⟨y, z, hy, hz, hyz, hcnt⟩ | ⟨f, hy, hz⟩ <;> rw [hy, hz]
    · obtain ⟨b, a, c, rfl, rfl, hac⟩ := hyz.split
      cases b with
      | false => exact .ok hac
      | true =>
        obtain ⟨hcfg, -⟩ := (headerLoop_fills hy).frame.fields
        have hheader : a.cfg.hdrLen ≤ a.mq.qCnt := by
          rw [hcfg]
          exact (Nat.le_add_left _ _).trans (hcnt rfl).ge
        rcases decodeQHdr_agree hac hheader with ⟨y, z, hy, hz, hyz, hvalid⟩ | ⟨f, hy, hz⟩ <;> simp only [hy, hz]
        · exact countedBody_agree hyz hvalid
        · exact .error f
    · exact .error f

end

/-! DelimitedReceive. -/

/-- The two local receivers agree in what they read and what they put back (R234). -/
structure RxAlike (r p : Receiver) : Prop where
  state : r.epState = p.epState
  checksum : r.rxCk = p.rxCk
  count : r.rxCnt = p.rxCnt
  status : r.epStatus = p.epStatus
  hdrSet : r.hdrSet = p.hdrSet
  bytes : ∀ i < r.rxCnt, memGet r.rxbuf i = memGet p.rxbuf i
  header : r.hdrSet = true → r.hdr = p.hdr

section
variable {cfg : Config} {r p : Receiver}

theorem storeByte_agree (h : RxAlike r p) (b : Byte) :
    Agree (fun v w => RxAlike v w ∧ v.rxCnt = r.rxCnt + 1) (storeByte cfg b r) (storeByte cfg b p) := by
  rw [storeByte, storeByte, memWrite, memWrite, ← h.count]
  by_cases hlt : r.rxCnt < cfg.bufCap
  · rw [if_pos hlt, if_pos hlt]
    refine .ok ⟨⟨h.state, h.checksum, rfl, h.status, h.hdrSet, fun i hi => ?_, h.header⟩, rfl⟩
    simp only at hi ⊢
    rw [memGet_memSet, memGet_memSet]
    split
    · rfl
    · exact h.bytes i (by omega)
  · rw [if_neg hlt, if_neg hlt]
    exact .error _

theorem decodeHdr_agree (h : RxAlike r p) (hn : cfg.hdrLen ≤ r.rxCnt) :
    Agree RxAlike (decodeHdr cfg r) (decodeHdr cfg p) := by
  have hread : memRead cfg.bufCap p.rxbuf 0 cfg.hdrLen = memRead cfg.bufCap r.rxbuf 0 cfg.hdrLen :=
    memRead_congr fun i hi => (h.bytes (0 + i) (by omega)).symm
  rw [decodeHdr, decodeHdr, hread]
  cases memRead cfg.bufCap r.rxbuf 0 cfg.hdrLen with
  | ok bs => exact .ok ⟨h.state, h.checksum, h.count, h.status, rfl, h.bytes, fun _ => rfl⟩
  | error f => exact .error f

/-- Two answers of the receiver's rule. -/
def RxPair (x y : Event × Receiver) : Prop := x.1 = y.1 ∧ RxAlike x.2 y.2

theorem RxAlike.withCk (h : RxAlike r p) (f : Ck → Ck) :
    RxAlike { r with rxCk := f r.rxCk } { p with rxCk := f p.rxCk } :=
  ⟨h.state, congrArg f h.checksum, h.count, h.status, h.hdrSet, h.bytes, h.header⟩

theorem RxAlike.withState (h : RxAlike r p) (st : EpState) : RxAlike { r with epState := st } { p with epState := st } :=
  ⟨rfl, h.checksum, h.count, h.status, h.hdrSet, h.bytes, h.header⟩

theorem RxAlike.discard (h : RxAlike r p) (f : Byte) :
    RxAlike { r with epStatus := raiseFlag r.epStatus f, epState := .idle }
      { p with epStatus := raiseFlag p.epStatus f, epState := .idle } :=
  ⟨rfl, h.checksum, h.count, congrArg (raiseFlag · f) h.status, h.hdrSet, h.bytes, h.header⟩

theorem receiveByte_header_agree (h : RxAlike r p) (b : Byte) (hst : r.epState = .receivingHeader) :
    Agree RxPair (receiveByte cfg b r) (receiveByte cfg b p) := by
  rw [receiveByte_header b hst, receiveByte_header b (h.state ▸ hst), ← h.count]
  split
  · rw [ruleHeaderNotLast, ruleHeaderNotLast]
    rcases storeByte_agree (cfg := cfg) h b with ⟨v, w, hv, hw, hvw, -⟩ | ⟨f, hv, hw⟩ <;> rw [hv, hw]
    · exact .ok ⟨rfl, hvw.withCk (cfg.headerUpd · b)⟩
    · exact .error f
  · rename_i hlast
    split
    · rw [ruleHeaderLastOk, ruleHeaderLastOk]
      rcases storeByte_agree (cfg := cfg) h b with ⟨v, w, hv, hw, hvw, hcnt⟩ | ⟨f, hv, hw⟩ <;> simp only [hv, hw]
      · have hdec := decodeHdr_agree (cfg := cfg) (hvw.withCk (cfg.headerUpd · b)) (by simp only; omega)
        rcases hdec with ⟨y, z, hy, hz, hyz⟩ | ⟨f, hy, hz⟩ <;> simp only [hy, hz]
        · exact .ok ⟨rfl, hyz.withState _⟩
        · exact .error f
      · exact .error f
    · rw [ruleHeaderLastOversize, ruleHeaderLastOversize]
      rcases storeByte_agree (cfg := cfg) h b with ⟨v, w, hv, hw, hvw, hcnt⟩ | ⟨f, hv, hw⟩ <;> simp only [hv, hw]
      · rcases decodeHdr_agree (cfg := cfg) hvw (by omega) with ⟨y, z, hy, hz, hyz⟩ | ⟨f, hy, hz⟩ <;> simp only [hy, hz]
        · exact .ok ⟨rfl, hyz.discard _⟩
        · exact .error f
      · exact .error f

theorem receiveByte_body_agree (h : RxAlike r p) (b : Byte) (hst : r.epState = .receivingBody) :
    Agree RxPair (receiveByte cfg b r) (receiveByte cfg b p) := by
  have hvalid : frameValid cfg p = frameValid cfg r := by rw [frameValid, frameValid, h.count, h.checksum]
  rw [receiveByte_body b hst, receiveByte_body b (h.state ▸ hst), hvalid, ← h.count]
  split
  · split
    · exact .ok ⟨rfl, h.withState _⟩
    · exact .ok ⟨rfl, h.discard _⟩
  · split
    · rw [ruleBodyRoom, ruleBodyRoom]
      rcases storeByte_agree (cfg := cfg) h b with ⟨v, w, hv, hw, hvw, -⟩ | ⟨f, hv, hw⟩ <;> rw [hv, hw]
      · exact .ok ⟨rfl, hvw.withCk (cfg.upd · b)⟩
      · exact .error f
    · exact .ok ⟨rfl, h.discard _⟩

/-- The receiver's rule on a byte (R160 to R174). -/
theorem receiveByte_agree (h : RxAlike r p) (b : Byte) : Agree RxPair (receiveByte cfg b r) (receiveByte cfg b p) := by
  have hdeaf : pollsLine r.epState = false → Agree RxPair (receiveByte cfg b r) (receiveByte cfg b p) := fun hp => by
    rw [receiveByte_deaf b hp, receiveByte_deaf b (h.state ▸ hp)]
    exact .ok ⟨rfl, h⟩
  cases hst : r.epState with
  | idle =>
    rw [receiveByte_idle b hst, receiveByte_idle b (h.state ▸ hst)]
    split
    · exact .ok ⟨rfl, rfl, rfl, rfl, rfl, h.hdrSet, nofun, h.header⟩
    · exact .ok ⟨rfl, h⟩
  | receivingHeader => exact receiveByte_header_agree h b hst
  | receivingBody => exact receiveByte_body_agree h b hst
  | busy => exact hdeaf (by rw [hst]; rfl)
  | transmitting => exact hdeaf (by rw [hst]; rfl)
  | error => exact hdeaf (by rw [hst]; rfl)

end

section
variable {s u : State} {r p : Receiver}

theorem Alike.putLocal (h : Alike s u) (hr : RxAlike r p) : Alike (putLocal r s) (putLocal p u) :=
  h.withMq ⟨by simp only [h.q.status, hr.status], hr.hdrSet, hr.count, hr.bytes, hr.header⟩

theorem Alike.afterEvent (h : Alike s u) (e : Event) : Alike (afterEvent e s) (afterEvent e u) := by
  unfold Machine.afterEvent
  split
  · exact h.withMState _
  · exact h.withMState _
  · exact h

theorem delimitedLoop_agree (n : Nat) (h : Alike s u) (hr : RxAlike r p) :
    Agree Alike (delimitedLoop n r s) (delimitedLoop n p u) := by
  induction n generalizing s u r p with
  | zero => exact .ok ((h.getByte.2.putLocal hr).raise _)
  | succ n ih =>
    obtain ⟨x, v, w, hv, hw, hvw⟩ := h.getByte.split
    rw [delimitedLoop, delimitedLoop, hv, hw]
    cases x with
    | none => exact .ok ((hvw.putLocal hr).raise _)
    | some b =>
      simp only [hvw.cfg]
      rcases receiveByte_agree (cfg := v.cfg) hr b with ⟨⟨e, y⟩, ⟨_, z⟩, hy, hz, rfl, hyz⟩ | ⟨f, hy, hz⟩ <;>
        simp only [hy, hz]
      · split
        · exact .ok ((hvw.putLocal hyz).afterEvent e)
        · exact ih hvw hyz
      · exact .error f

theorem localReceiver_alike (h : Alike s u) : RxAlike (localReceiver s) (localReceiver u) :=
  ⟨rfl, by rw [localReceiver, localReceiver, h.cfg], h.q.count, rfl, rfl, h.q.bytes, nofun⟩

theorem delimitedReceive_agree (h : Alike s u) : Agree Alike (delimitedReceive s) (delimitedReceive u) := by
  rw [delimitedReceive, delimitedReceive, h.supply]
  exact delimitedLoop_agree _ h (localReceiver_alike h)

/-! The query. -/

theorem receiveResponse_agree (h : Alike s u) : Agree Alike (receiveResponse s) (receiveResponse u) := by
  rw [receiveResponse, receiveResponse, h.cfg]
  split
  · exact countedReceive_agree h
  · exact delimitedReceive_agree h

/-- What the query's return reads (R233): the wait's end gives `t0` a free value, which it does not (log 17). -/
def ReturnsAlike (s u : State) : Prop := u.cfg = s.cfg ∧ QAlike s.mq u.mq

theorem Alike.ended (h : Alike s u) : ReturnsAlike (endWait (setMState .idle s)) (endWait (setMState .idle u)) :=
  ⟨h.cfg, (h.withMState .idle).q⟩

theorem awaitResponse_agree
    (h : Alike (startWait (setMState .awaitingResponse s)) (startWait (setMState .awaitingResponse u))) :
    Agree ReturnsAlike (awaitResponse s) (awaitResponse u) := by
  have hlooks := congrArg (fun v : State => v.line.looks.length) h.line
  simp only [graft] at hlooks
  rw [awaitResponse, awaitResponse]
  simp only [h.cfg, ← hlooks]
  obtain ⟨b, v, w, hv, hw, hvw⟩ := (h.awaitLoop (startWait (setMState .awaitingResponse s)).cfg.queryTimeout
    (startWait (setMState .awaitingResponse s)).line.looks.length).split
  rw [hv, hw]
  cases b with
  | false => exact .ok (hvw.raise _).ended
  | true =>
    rcases receiveResponse_agree (hvw.withMState .receiving) with ⟨y, z, hy, hz, hyz⟩ | ⟨f, hy, hz⟩ <;>
      simp only [hy, hz]
    · exact .ok hyz.ended
    · exact .error f

theorem returnQuery_agree (h : ReturnsAlike s u) :
    Agree (fun v w => v.result = w.result) (returnQuery s) (returnQuery u) := by
  obtain ⟨hcfg, hq⟩ := h
  have hread : memRead u.cfg.bufCap u.mq.qbuf 0 u.mq.qCnt = memRead s.cfg.bufCap s.mq.qbuf 0 s.mq.qCnt := by
    rw [hcfg, ← hq.count]
    exact memRead_congr fun i hi => (hq.bytes (0 + i) (by omega)).symm
  rw [returnQuery, returnQuery, hread, ← hq.valid, ← hq.status]
  split
  · rename_i hv
    rw [← hq.header hv]
    cases memRead s.cfg.bufCap s.mq.qbuf 0 s.mq.qCnt with
    | ok bs => exact .ok rfl
    | error f => exact .error f
  · exact .ok rfl

theorem awaitAndReturn_agree
    (h : Alike (startWait (setMState .awaitingResponse s)) (startWait (setMState .awaitingResponse u))) :
    Agree (fun v w => v.result = w.result) (awaitAndReturn s) (awaitAndReturn u) := by
  rw [awaitAndReturn, awaitAndReturn]
  rcases awaitResponse_agree h with ⟨y, z, hy, hz, hyz⟩ | ⟨f, hy, hz⟩ <;> simp only [hy, hz]
  · exact returnQuery_agree hyz
  · exact .error f

/-- Sending clears what an earlier exchange left and turns the line around, so the waits begin alike (R222, R232, log 34). -/
theorem afterSend_alike (c d : Ck) (writes : List (List Byte)) (hcfg : s.cfg = u.cfg) (hs : SameAnswers s u) :
    Alike (startWait (setMState .awaitingResponse (afterSend c writes s)))
      (startWait (setMState .awaitingResponse (afterSend d writes u))) := by
  obtain ⟨hwaiting, hlooks, haccepts, hnow⟩ := hs
  refine ⟨?_, congrArg (sendStatus · writes) haccepts, rfl, rfl, nofun, nofun⟩
  simp [graft, startWait, setMState, record, afterSend, hcfg, hwaiting, hlooks, hnow]

end

/-- An M.QUERY of the other role or of a master that is not idle is refused (R105, R232). -/
theorem mQuery_refused {s t : State} {ready pause : Bool} {fields body : List Byte}
    (hno : ¬ (s.cfg.role = .master ∧ s.mq.mState = .idle)) (h : exec (.mQuery ready fields body pause) s = .next t) :
    t.result = .refused := by
  obtain ⟨-, hrole⟩ := withOperands_next h
  rcases forRole_next hrole with ⟨hrole, hidle⟩ | rfl
  · rw [if_neg fun hm => hno ⟨hrole, hm⟩] at hidle
    rw [refuse_next hidle]
    rfl
  · rfl

/-- Settles O50: a query is refused, turned away, or sent, as operands, configuration and `m_state` say; and once sent, both
receives go alike. -/
theorem queryIsIdempotent : Obligations.QueryIsIdempotent := by
  unfold Obligations.QueryIsIdempotent
  intro s t u v ready fields body pause hcfg hm hs ht hv
  by_cases hmaster : s.cfg.role = .master ∧ s.mq.mState = .idle
  · obtain ⟨hrole, hidle⟩ := hmaster
    have hrole' : u.cfg.role = .master := hcfg ▸ hrole
    have hidle' : u.mq.mState = .idle := hm ▸ hidle
    obtain ⟨hf, -⟩ := withOperands_next ht
    have haway : ∀ {f : Byte}, turnedAway f s = .ok t → turnedAway f u = .ok v → t.result = v.result :=
      fun h1 h2 => (turnedAway_fields h1).1.trans (turnedAway_fields h2).1.symm
    cases ready with
    | false =>
      rw [exec_mQuery false body pause hrole hidle hf] at ht
      rw [exec_mQuery false body pause hrole' hidle' (hcfg ▸ hf)] at hv
      exact haway (finish_next ht) (finish_next hv)
    | true =>
      by_cases hlen : body.length ≤ s.cfg.maxBody
      · have hsends : QuerySends s.cfg (.mQuery true fields body pause)
            (guardWrites s.cfg pause ++ frameWrites s.cfg fields body) := .inr ⟨fields, body, pause, rfl, hf, hlen, rfl⟩
        have hsends' : QuerySends u.cfg (.mQuery true fields body pause)
            (guardWrites s.cfg pause ++ frameWrites s.cfg fields body) := by
          rw [← hcfg]
          exact hsends
        obtain ⟨c, hc, -⟩ := exec_querySends hrole hidle hsends
        obtain ⟨d, hd, -⟩ := exec_querySends hrole' hidle' hsends'
        rw [hc] at ht
        rw [hd] at hv
        exact (awaitAndReturn_agree (afterSend_alike c d _ hcfg hs)).of_ok (finish_next ht) (finish_next hv)
      · rw [exec_mQuery true body pause hrole hidle hf, queryRound, bodyFits, decide_eq_false hlen] at ht
        rw [exec_mQuery true body pause hrole' hidle' (hcfg ▸ hf), queryRound, bodyFits,
          decide_eq_false (hcfg ▸ hlen)] at hv
        exact haway (finish_next ht) (finish_next hv)
  · rw [mQuery_refused hmaster ht, mQuery_refused (hcfg ▸ hm ▸ hmaster) hv]

end Sys2Proof.Machine
end
